-- ==== Sys2Proof/Word.lean ====
section
/-!
DEFINITION. The machine's word types (spec/00_scope.md R3, R5).

Everything else about bits (fields, bytes of a word, sign extension) is in Machine/Bits.lean.
-/

namespace Sys2Proof

/-- A byte: every register but the program counter, and every memory cell (R3). -/
abbrev Byte := BitVec 8

/-- A 16-bit quantity: the program counter and CPU addresses (R3, R50). -/
abbrev Word := BitVec 16

end Sys2Proof
end

