-- ==== Sys2Proof/Machine/Bits.lean ====
section
/-!
DEFINITION. Bit fields, byte order, sign extension and bit reversal (spec/00_scope.md R5).
-/

namespace Sys2Proof

/-- `hi:lo`: the 16-bit value `hi*256 + lo` (R5). -/
def mkWord (hi lo : Byte) : Word := hi ++ lo

/-- Bits 15..8 of a word. -/
def hiByte (w : Word) : Byte := w.extractLsb' 8 8

/-- Bits 7..0 of a word. -/
def loByte (w : Word) : Byte := w.extractLsb' 0 8

/-- `zext_16(b)` (R5). -/
def zext16 (b : Byte) : Word := b.setWidth 16

/-- `sext_16(b)` (R5). -/
def sext16 (b : Byte) : Word := b.signExtend 16

/-- Bit i of a bit vector, as a truth value (R5: `v[i]`). -/
def bitAt {n : Nat} (v : BitVec n) (i : Nat) : Bool := v.getLsbD i

/-- A truth value as a bit. -/
def ofBit (b : Bool) (n : Nat) : BitVec n := if b then 1 else 0

/-- Replaces the field of `len` bits that begins at bit `lo` (R5: `v[lo+len-1:lo] <- x`). -/
def setField {n : Nat} (v : BitVec n) (lo len : Nat) (x : BitVec len) : BitVec n :=
  (v &&& ~~~((BitVec.allOnes len).setWidth n <<< lo)) ||| (x.setWidth n <<< lo)

/-- Writes bit i. -/
def setBitTo {n : Nat} (v : BitVec n) (i : Nat) (b : Bool) : BitVec n :=
  setField v i 1 (ofBit b 1)

/-- `reverse_bits_8` (spec/48_ppu_rendering.md R313): bit i of the result is bit 7 − i. -/
def reverseBits8 (b : Byte) : Byte := b.reverse

end Sys2Proof
end

