-- ==== Sys2Proof/Word/Modes.lean ====
section
/-!
DEFINITION. Addressing modes, operand forms and instruction categories
(spec/30_encoding.md R101, R102; spec/41_cpu_stepper.md R143).
-/

namespace Sys2Proof

/-- The 13 addressing-mode tags (R101), held by the CPU's `mode` field (R16). -/
inductive Mode where
  | imp | acc | imm | zp | zpx | zpy | abs | abx | aby | ind | izx | izy | rel
deriving DecidableEq, Repr

/-- The six categories that select a cycle table (R143), and the table's `halt` of an illegal byte. -/
inductive Category where
  | read | write | rmw | branch | internal | special | halt
deriving DecidableEq, Repr

/-- The forms that name a byte of memory (R102), with their operand bytes. -/
inductive MemOperand where
  /-- Zero page: the address in page 0. -/
  | zp (b : Byte)
  /-- Zero page indexed by X. -/
  | zpx (b : Byte)
  /-- Zero page indexed by Y. -/
  | zpy (b : Byte)
  /-- Absolute. -/
  | abs (w : Word)
  /-- Absolute indexed by X. -/
  | abx (w : Word)
  /-- Absolute indexed by Y. -/
  | aby (w : Word)
  /-- Indexed indirect: X is added to the zero-page base before the pointer is read. -/
  | izx (b : Byte)
  /-- Indirect indexed: Y is added to the pointer read from page 0. -/
  | izy (b : Byte)
deriving DecidableEq, Repr

/-- The operand of an instruction of the read category: an immediate byte or a byte of memory. -/
inductive ReadOperand where
  | imm (v : Byte)
  | mem (m : MemOperand)
deriving DecidableEq, Repr

/-- The operand of a shift or rotate: the accumulator or a byte of memory. -/
inductive ShiftOperand where
  | acc
  | mem (m : MemOperand)
deriving DecidableEq, Repr

/-- The operand of JMP: the target, or the address of a pointer to it. -/
inductive JumpOperand where
  | abs (w : Word)
  | ind (w : Word)
deriving DecidableEq, Repr

end Sys2Proof
end

