-- ==== Sys2Proof/WellFormed.lean ====
section
/-!
DEFINITION. Which operand forms an instruction has (spec/30_encoding.md R105) and which bytes are
illegal opcodes (R104). Everything else about an instruction holds by its type.
-/

namespace Sys2Proof

/-- The modes of R105's rows for each mnemonic. -/
def Instr.modes : Instr → List Mode
  | .lda _ | .adc _ | .sbc _ | .and _ | .ora _ | .eor _ | .cmp _ => [.imm, .zp, .zpx, .abs, .abx, .aby, .izx, .izy]
  | .ldx _ => [.imm, .zp, .zpy, .abs, .aby]
  | .ldy _ => [.imm, .zp, .zpx, .abs, .abx]
  | .cpx _ | .cpy _ => [.imm, .zp, .abs]
  | .bit _ => [.zp, .abs]
  | .sta _ => [.zp, .zpx, .abs, .abx, .aby, .izx, .izy]
  | .stx _ => [.zp, .zpy, .abs]
  | .sty _ => [.zp, .zpx, .abs]
  | .asl _ | .lsr _ | .rol _ | .ror _ => [.acc, .zp, .zpx, .abs, .abx]
  | .inc _ | .dec _ => [.zp, .zpx, .abs, .abx]
  | .jmp _ => [.abs, .ind]
  | .jsr _ => [.abs]
  | .bcc _ | .bcs _ | .beq _ | .bne _ | .bmi _ | .bpl _ | .bvc _ | .bvs _ => [.rel]
  | .tax | .tay | .txa | .tya | .tsx | .txs | .inx | .iny | .dex | .dey | .rts | .rti | .brk
  | .pha | .php | .pla | .plp | .clc | .sec | .cli | .sei | .clv | .cld | .sed | .nop
  | .illegal _ => [.imp]

/-- The 105 illegal opcode bytes, as R104 lists them. -/
def illegalOpcodes : List Byte :=
  [0x02, 0x03, 0x04, 0x07, 0x0B, 0x0C, 0x0F] ++
  [0x12, 0x13, 0x14, 0x17, 0x1A, 0x1B, 0x1C, 0x1F] ++
  [0x22, 0x23, 0x27, 0x2B, 0x2F] ++
  [0x32, 0x33, 0x34, 0x37, 0x3A, 0x3B, 0x3C, 0x3F] ++
  [0x42, 0x43, 0x44, 0x47, 0x4B, 0x4F] ++
  [0x52, 0x53, 0x54, 0x57, 0x5A, 0x5B, 0x5C, 0x5F] ++
  [0x62, 0x63, 0x64, 0x67, 0x6B, 0x6F] ++
  [0x72, 0x73, 0x74, 0x77, 0x7A, 0x7B, 0x7C, 0x7F] ++
  [0x80, 0x82, 0x83, 0x87, 0x89, 0x8B, 0x8F] ++
  [0x92, 0x93, 0x97, 0x9B, 0x9C, 0x9E, 0x9F] ++
  [0xA3, 0xA7, 0xAB, 0xAF] ++
  [0xB2, 0xB3, 0xB7, 0xBB, 0xBF] ++
  [0xC2, 0xC3, 0xC7, 0xCB, 0xCF] ++
  [0xD2, 0xD3, 0xD4, 0xD7, 0xDA, 0xDB, 0xDC, 0xDF] ++
  [0xE2, 0xE3, 0xE7, 0xEB, 0xEF] ++
  [0xF2, 0xF3, 0xF4, 0xF7, 0xFA, 0xFB, 0xFC, 0xFF]

/-- The byte of an `illegal` is one of R104's; every other instruction passes. -/
def Instr.illegalByteOk : Instr → Bool
  | .illegal op => illegalOpcodes.contains op
  | _ => true

/-- An instruction the encoding has: its mode is one of its mnemonic's rows (R105), and an `illegal`
carries an illegal byte (R104). Operand bytes are never illegal (R106). -/
def WellFormed (i : Instr) : Bool :=
  i.modes.contains i.mode && i.illegalByteOk

end Sys2Proof
end

