-- ==== Sys2Proof/Decode.lean ====
section
/-!
DEFINITION. Decoding and encoding (spec/30_encoding.md R100 to R108).

The decoder reads R103's opcode map, one list per high nibble; the encoder reads R105's table by
mnemonic. The two transcriptions are independent, and the round trip is stated in Obligations.lean.
-/

namespace Sys2Proof

/-- What an opcode byte makes of the two bytes after it. -/
abbrev Form := Byte → Byte → Instr

/-- No operand byte. -/
def Form.none (i : Instr) : Form := fun _ _ => i

/-- Immediate: byte 1 is the value (R101). -/
def Form.imm (f : ReadOperand → Instr) : Form := fun b1 _ => f (.imm b1)

/-- The accumulator form of a shift. -/
def Form.acc (f : ShiftOperand → Instr) : Form := fun _ _ => f .acc

/-- Relative: byte 1 is the signed displacement (R101). -/
def Form.rel (f : Byte → Instr) : Form := fun b1 _ => f b1

/-- A 16-bit operand, low byte first (R100). -/
def Form.word (f : Word → Instr) : Form := fun b1 b2 => f (mkWord b2 b1)

/-- The memory form of a mode, from the operand bytes, low byte first (R101). A mode that names no
byte of memory does not occur in the map. -/
def Form.operand : Mode → Byte → Byte → MemOperand
  | .zpx, b1, _ => .zpx b1
  | .zpy, b1, _ => .zpy b1
  | .abs, b1, b2 => .abs (mkWord b2 b1)
  | .abx, b1, b2 => .abx (mkWord b2 b1)
  | .aby, b1, b2 => .aby (mkWord b2 b1)
  | .izx, b1, _ => .izx b1
  | .izy, b1, _ => .izy b1
  | _, b1, _ => .zp b1

/-- A memory form of an instruction that takes a `ReadOperand`. -/
def Form.read (m : Mode) (f : ReadOperand → Instr) : Form := fun b1 b2 => f (.mem (Form.operand m b1 b2))

/-- A memory form of an instruction that takes a `MemOperand`. -/
def Form.mem (m : Mode) (f : MemOperand → Instr) : Form := fun b1 b2 => f (Form.operand m b1 b2)

/-- A memory form of a shift. -/
def Form.shift (m : Mode) (f : ShiftOperand → Instr) : Form := fun b1 b2 => f (.mem (Form.operand m b1 b2))

section
open Mode

/-- R103, row 0x: the legal cells. -/
def opcodeRow0 : List (Byte × Form) :=
  [(0x00, Form.none .brk), (0x01, Form.read izx .ora), (0x05, Form.read zp .ora), (0x06, Form.shift zp .asl),
   (0x08, Form.none .php), (0x09, Form.imm .ora), (0x0A, Form.acc .asl), (0x0D, Form.read abs .ora),
   (0x0E, Form.shift abs .asl)]

/-- R103, row 1x: the legal cells. -/
def opcodeRow1 : List (Byte × Form) :=
  [(0x10, Form.rel .bpl), (0x11, Form.read izy .ora), (0x15, Form.read zpx .ora), (0x16, Form.shift zpx .asl),
   (0x18, Form.none .clc), (0x19, Form.read aby .ora), (0x1D, Form.read abx .ora), (0x1E, Form.shift abx .asl)]

/-- R103, row 2x: the legal cells. -/
def opcodeRow2 : List (Byte × Form) :=
  [(0x20, Form.word .jsr), (0x21, Form.read izx .and), (0x24, Form.mem zp .bit), (0x25, Form.read zp .and),
   (0x26, Form.shift zp .rol), (0x28, Form.none .plp), (0x29, Form.imm .and), (0x2A, Form.acc .rol),
   (0x2C, Form.mem abs .bit), (0x2D, Form.read abs .and), (0x2E, Form.shift abs .rol)]

/-- R103, row 3x: the legal cells. -/
def opcodeRow3 : List (Byte × Form) :=
  [(0x30, Form.rel .bmi), (0x31, Form.read izy .and), (0x35, Form.read zpx .and), (0x36, Form.shift zpx .rol),
   (0x38, Form.none .sec), (0x39, Form.read aby .and), (0x3D, Form.read abx .and), (0x3E, Form.shift abx .rol)]

/-- R103, row 4x: the legal cells. -/
def opcodeRow4 : List (Byte × Form) :=
  [(0x40, Form.none .rti), (0x41, Form.read izx .eor), (0x45, Form.read zp .eor), (0x46, Form.shift zp .lsr),
   (0x48, Form.none .pha), (0x49, Form.imm .eor), (0x4A, Form.acc .lsr),
   (0x4C, Form.word fun w => .jmp (.abs w)), (0x4D, Form.read abs .eor), (0x4E, Form.shift abs .lsr)]

/-- R103, row 5x: the legal cells. -/
def opcodeRow5 : List (Byte × Form) :=
  [(0x50, Form.rel .bvc), (0x51, Form.read izy .eor), (0x55, Form.read zpx .eor), (0x56, Form.shift zpx .lsr),
   (0x58, Form.none .cli), (0x59, Form.read aby .eor), (0x5D, Form.read abx .eor), (0x5E, Form.shift abx .lsr)]

/-- R103, row 6x: the legal cells. -/
def opcodeRow6 : List (Byte × Form) :=
  [(0x60, Form.none .rts), (0x61, Form.read izx .adc), (0x65, Form.read zp .adc), (0x66, Form.shift zp .ror),
   (0x68, Form.none .pla), (0x69, Form.imm .adc), (0x6A, Form.acc .ror),
   (0x6C, Form.word fun w => .jmp (.ind w)), (0x6D, Form.read abs .adc), (0x6E, Form.shift abs .ror)]

/-- R103, row 7x: the legal cells. -/
def opcodeRow7 : List (Byte × Form) :=
  [(0x70, Form.rel .bvs), (0x71, Form.read izy .adc), (0x75, Form.read zpx .adc), (0x76, Form.shift zpx .ror),
   (0x78, Form.none .sei), (0x79, Form.read aby .adc), (0x7D, Form.read abx .adc), (0x7E, Form.shift abx .ror)]

/-- R103, row 8x: the legal cells. -/
def opcodeRow8 : List (Byte × Form) :=
  [(0x81, Form.mem izx .sta), (0x84, Form.mem zp .sty), (0x85, Form.mem zp .sta), (0x86, Form.mem zp .stx),
   (0x88, Form.none .dey), (0x8A, Form.none .txa), (0x8C, Form.mem abs .sty), (0x8D, Form.mem abs .sta),
   (0x8E, Form.mem abs .stx)]

/-- R103, row 9x: the legal cells. -/
def opcodeRow9 : List (Byte × Form) :=
  [(0x90, Form.rel .bcc), (0x91, Form.mem izy .sta), (0x94, Form.mem zpx .sty), (0x95, Form.mem zpx .sta),
   (0x96, Form.mem zpy .stx), (0x98, Form.none .tya), (0x99, Form.mem aby .sta), (0x9A, Form.none .txs),
   (0x9D, Form.mem abx .sta)]

/-- R103, row Ax: the legal cells. -/
def opcodeRowA : List (Byte × Form) :=
  [(0xA0, Form.imm .ldy), (0xA1, Form.read izx .lda), (0xA2, Form.imm .ldx), (0xA4, Form.read zp .ldy),
   (0xA5, Form.read zp .lda), (0xA6, Form.read zp .ldx), (0xA8, Form.none .tay), (0xA9, Form.imm .lda),
   (0xAA, Form.none .tax), (0xAC, Form.read abs .ldy), (0xAD, Form.read abs .lda), (0xAE, Form.read abs .ldx)]

/-- R103, row Bx: the legal cells. -/
def opcodeRowB : List (Byte × Form) :=
  [(0xB0, Form.rel .bcs), (0xB1, Form.read izy .lda), (0xB4, Form.read zpx .ldy), (0xB5, Form.read zpx .lda),
   (0xB6, Form.read zpy .ldx), (0xB8, Form.none .clv), (0xB9, Form.read aby .lda), (0xBA, Form.none .tsx),
   (0xBC, Form.read abx .ldy), (0xBD, Form.read abx .lda), (0xBE, Form.read aby .ldx)]

/-- R103, row Cx: the legal cells. -/
def opcodeRowC : List (Byte × Form) :=
  [(0xC0, Form.imm .cpy), (0xC1, Form.read izx .cmp), (0xC4, Form.read zp .cpy), (0xC5, Form.read zp .cmp),
   (0xC6, Form.mem zp .dec), (0xC8, Form.none .iny), (0xC9, Form.imm .cmp), (0xCA, Form.none .dex),
   (0xCC, Form.read abs .cpy), (0xCD, Form.read abs .cmp), (0xCE, Form.mem abs .dec)]

/-- R103, row Dx: the legal cells. -/
def opcodeRowD : List (Byte × Form) :=
  [(0xD0, Form.rel .bne), (0xD1, Form.read izy .cmp), (0xD5, Form.read zpx .cmp), (0xD6, Form.mem zpx .dec),
   (0xD8, Form.none .cld), (0xD9, Form.read aby .cmp), (0xDD, Form.read abx .cmp), (0xDE, Form.mem abx .dec)]

/-- R103, row Ex: the legal cells. -/
def opcodeRowE : List (Byte × Form) :=
  [(0xE0, Form.imm .cpx), (0xE1, Form.read izx .sbc), (0xE4, Form.read zp .cpx), (0xE5, Form.read zp .sbc),
   (0xE6, Form.mem zp .inc), (0xE8, Form.none .inx), (0xE9, Form.imm .sbc), (0xEA, Form.none .nop),
   (0xEC, Form.read abs .cpx), (0xED, Form.read abs .sbc), (0xEE, Form.mem abs .inc)]

/-- R103, row Fx: the legal cells. -/
def opcodeRowF : List (Byte × Form) :=
  [(0xF0, Form.rel .beq), (0xF1, Form.read izy .sbc), (0xF5, Form.read zpx .sbc), (0xF6, Form.mem zpx .inc),
   (0xF8, Form.none .sed), (0xF9, Form.read aby .sbc), (0xFD, Form.read abx .sbc), (0xFE, Form.mem abx .inc)]

end

/-- R103: the 151 legal cells of the opcode map. -/
def opcodeMap : List (Byte × Form) :=
  opcodeRow0 ++ opcodeRow1 ++ opcodeRow2 ++ opcodeRow3 ++ opcodeRow4 ++ opcodeRow5 ++ opcodeRow6 ++ opcodeRow7 ++
  opcodeRow8 ++ opcodeRow9 ++ opcodeRowA ++ opcodeRowB ++ opcodeRowC ++ opcodeRowD ++ opcodeRowE ++ opcodeRowF

/-- The cell of an opcode byte, if it is a legal one. -/
def lookupOpcode (op : Byte) : List (Byte × Form) → Option Form
  | [] => Option.none
  | (k, f) :: rest => if k = op then some f else lookupOpcode op rest

/-- The instruction that the bytes `b0 b1 b2` begin with; the operand bytes an instruction does not
have are not looked at. A byte with no legal cell is illegal (R104). -/
def instrOf (b0 b1 b2 : Byte) : Instr :=
  match lookupOpcode b0 opcodeMap with
  | some f => f b1 b2
  | Option.none => .illegal b0

/-- The addressing mode of an opcode byte (R108). -/
def opcodeMode (b0 : Byte) : Mode := (instrOf b0 0 0).mode

/-- Whether the byte is one of the 105 illegal opcodes (R104). -/
def isIllegal (b0 : Byte) : Bool := (lookupOpcode b0 opcodeMap).isNone

/-- The number of operand bytes of a mode (R101). -/
def Mode.operandBytes : Mode → Nat
  | .imp | .acc => 0
  | .imm | .zp | .zpx | .zpy | .izx | .izy | .rel => 1
  | .abs | .abx | .aby | .ind => 2

/-- The length of an instruction in bytes (R100, R101). -/
def Instr.length (i : Instr) : Nat := 1 + i.mode.operandBytes

/-- Why a list of bytes holds no instruction. -/
inductive DecodeError where
  /-- The list ends before the instruction does. -/
  | truncated
deriving DecidableEq, Repr

/-- Decodes the instruction a list of bytes begins with, and answers the rest of the list. Total: every
opcode byte has a meaning (R104 gives the illegal ones theirs), so only a list that is too short is
rejected. -/
def decode (bs : List Byte) : Except DecodeError (Instr × List Byte) :=
  match bs with
  | [] => .error .truncated
  | b0 :: rest =>
    match (opcodeMode b0).operandBytes, rest with
    | 0, _ => .ok (instrOf b0 0 0, rest)
    | 1, b1 :: rest => .ok (instrOf b0 b1 0, rest)
    | 2, b1 :: b2 :: rest => .ok (instrOf b0 b1 b2, rest)
    | _, _ => .error .truncated

/-- The host's reading of a table word: bit 0 is the least significant bit of the first byte, and the
bits above the row's own are the operand bytes (R100: byte 0 is the opcode, operand low byte first). -/
def decodeTableWord (_nbits w : Nat) : Option Instr :=
  match decode [BitVec.ofNat 8 w, BitVec.ofNat 8 (w / 256), BitVec.ofNat 8 (w / 65536)] with
  | .ok (i, _) => some i
  | .error _ => Option.none


section
open Mode

/-- R105: the opcode byte of each mode an instruction has. -/
def Instr.opcodes : Instr → List (Mode × Byte)
  | .lda _ => [(imm, 0xA9), (zp, 0xA5), (zpx, 0xB5), (abs, 0xAD), (abx, 0xBD), (aby, 0xB9), (izx, 0xA1), (izy, 0xB1)]
  | .ldx _ => [(imm, 0xA2), (zp, 0xA6), (zpy, 0xB6), (abs, 0xAE), (aby, 0xBE)]
  | .ldy _ => [(imm, 0xA0), (zp, 0xA4), (zpx, 0xB4), (abs, 0xAC), (abx, 0xBC)]
  | .sta _ => [(zp, 0x85), (zpx, 0x95), (abs, 0x8D), (abx, 0x9D), (aby, 0x99), (izx, 0x81), (izy, 0x91)]
  | .stx _ => [(zp, 0x86), (zpy, 0x96), (abs, 0x8E)]
  | .sty _ => [(zp, 0x84), (zpx, 0x94), (abs, 0x8C)]
  | .adc _ => [(imm, 0x69), (zp, 0x65), (zpx, 0x75), (abs, 0x6D), (abx, 0x7D), (aby, 0x79), (izx, 0x61), (izy, 0x71)]
  | .sbc _ => [(imm, 0xE9), (zp, 0xE5), (zpx, 0xF5), (abs, 0xED), (abx, 0xFD), (aby, 0xF9), (izx, 0xE1), (izy, 0xF1)]
  | .and _ => [(imm, 0x29), (zp, 0x25), (zpx, 0x35), (abs, 0x2D), (abx, 0x3D), (aby, 0x39), (izx, 0x21), (izy, 0x31)]
  | .ora _ => [(imm, 0x09), (zp, 0x05), (zpx, 0x15), (abs, 0x0D), (abx, 0x1D), (aby, 0x19), (izx, 0x01), (izy, 0x11)]
  | .eor _ => [(imm, 0x49), (zp, 0x45), (zpx, 0x55), (abs, 0x4D), (abx, 0x5D), (aby, 0x59), (izx, 0x41), (izy, 0x51)]
  | .cmp _ => [(imm, 0xC9), (zp, 0xC5), (zpx, 0xD5), (abs, 0xCD), (abx, 0xDD), (aby, 0xD9), (izx, 0xC1), (izy, 0xD1)]
  | .cpx _ => [(imm, 0xE0), (zp, 0xE4), (abs, 0xEC)]
  | .cpy _ => [(imm, 0xC0), (zp, 0xC4), (abs, 0xCC)]
  | .bit _ => [(zp, 0x24), (abs, 0x2C)]
  | .asl _ => [(acc, 0x0A), (zp, 0x06), (zpx, 0x16), (abs, 0x0E), (abx, 0x1E)]
  | .lsr _ => [(acc, 0x4A), (zp, 0x46), (zpx, 0x56), (abs, 0x4E), (abx, 0x5E)]
  | .rol _ => [(acc, 0x2A), (zp, 0x26), (zpx, 0x36), (abs, 0x2E), (abx, 0x3E)]
  | .ror _ => [(acc, 0x6A), (zp, 0x66), (zpx, 0x76), (abs, 0x6E), (abx, 0x7E)]
  | .inc _ => [(zp, 0xE6), (zpx, 0xF6), (abs, 0xEE), (abx, 0xFE)]
  | .dec _ => [(zp, 0xC6), (zpx, 0xD6), (abs, 0xCE), (abx, 0xDE)]
  | .jmp _ => [(abs, 0x4C), (ind, 0x6C)]
  | .jsr _ => [(abs, 0x20)]
  | .rts => [(imp, 0x60)]
  | .rti => [(imp, 0x40)]
  | .brk => [(imp, 0x00)]
  | .bcc _ => [(rel, 0x90)]
  | .bcs _ => [(rel, 0xB0)]
  | .beq _ => [(rel, 0xF0)]
  | .bne _ => [(rel, 0xD0)]
  | .bmi _ => [(rel, 0x30)]
  | .bpl _ => [(rel, 0x10)]
  | .bvc _ => [(rel, 0x50)]
  | .bvs _ => [(rel, 0x70)]
  | .tax => [(imp, 0xAA)]
  | .tay => [(imp, 0xA8)]
  | .txa => [(imp, 0x8A)]
  | .tya => [(imp, 0x98)]
  | .tsx => [(imp, 0xBA)]
  | .txs => [(imp, 0x9A)]
  | .inx => [(imp, 0xE8)]
  | .iny => [(imp, 0xC8)]
  | .dex => [(imp, 0xCA)]
  | .dey => [(imp, 0x88)]
  | .pha => [(imp, 0x48)]
  | .php => [(imp, 0x08)]
  | .pla => [(imp, 0x68)]
  | .plp => [(imp, 0x28)]
  | .clc => [(imp, 0x18)]
  | .sec => [(imp, 0x38)]
  | .cli => [(imp, 0x58)]
  | .sei => [(imp, 0x78)]
  | .clv => [(imp, 0xB8)]
  | .cld => [(imp, 0xD8)]
  | .sed => [(imp, 0xF8)]
  | .nop => [(imp, 0xEA)]
  | .illegal op => [(imp, op)]

end

/-- The operand bytes of a memory form, low byte first (R101). -/
def MemOperand.bytes : MemOperand → List Byte
  | .zp b | .zpx b | .zpy b | .izx b | .izy b => [b]
  | .abs w | .abx w | .aby w => [loByte w, hiByte w]

/-- The operand bytes of a read operand. -/
def ReadOperand.bytes : ReadOperand → List Byte
  | .imm v => [v]
  | .mem m => m.bytes

/-- The operand bytes of a shift operand. -/
def ShiftOperand.bytes : ShiftOperand → List Byte
  | .acc => []
  | .mem m => m.bytes

/-- The operand bytes of a jump operand, low byte first. -/
def JumpOperand.bytes : JumpOperand → List Byte
  | .abs w | .ind w => [loByte w, hiByte w]

/-- The operand bytes of an instruction (R100: low byte first). -/
def Instr.operandBytes : Instr → List Byte
  | .lda o | .ldx o | .ldy o | .adc o | .sbc o | .and o | .ora o | .eor o | .cmp o | .cpx o | .cpy o => o.bytes
  | .sta m | .stx m | .sty m | .bit m | .inc m | .dec m => m.bytes
  | .asl o | .lsr o | .rol o | .ror o => o.bytes
  | .jmp o => o.bytes
  | .jsr w => [loByte w, hiByte w]
  | .bcc b | .bcs b | .beq b | .bne b | .bmi b | .bpl b | .bvc b | .bvs b => [b]
  | .tax | .tay | .txa | .tya | .tsx | .txs | .inx | .iny | .dex | .dey | .rts | .rti | .brk
  | .pha | .php | .pla | .plp | .clc | .sec | .cli | .sei | .clv | .cld | .sed | .nop
  | .illegal _ => []

/-- The opcode byte a mode has in a list of R105's entries. -/
def lookupMode (m : Mode) : List (Mode × Byte) → Option Byte
  | [] => Option.none
  | (k, op) :: rest => if k = m then some op else lookupMode m rest

/-- The bytes of a well-formed instruction; an instruction the encoding does not have has none. -/
def encode (i : Instr) : List Byte :=
  match lookupMode i.mode i.opcodes with
  | some op => op :: i.operandBytes
  | Option.none => []

/-- The category of an instruction (R143), which selects its cycle table. -/
def Instr.category : Instr → Category
  | .lda _ | .ldx _ | .ldy _ | .adc _ | .sbc _ | .and _ | .ora _ | .eor _ | .cmp _ | .cpx _ | .cpy _ | .bit _ => .read
  | .sta _ | .stx _ | .sty _ => .write
  | .asl .acc | .lsr .acc | .rol .acc | .ror .acc => .internal
  | .asl (.mem _) | .lsr (.mem _) | .rol (.mem _) | .ror (.mem _) | .inc _ | .dec _ => .rmw
  | .bcc _ | .bcs _ | .beq _ | .bne _ | .bmi _ | .bpl _ | .bvc _ | .bvs _ => .branch
  | .tax | .tay | .txa | .tya | .tsx | .txs | .inx | .iny | .dex | .dey
  | .clc | .sec | .cli | .sei | .clv | .cld | .sed | .nop => .internal
  | .jmp _ | .jsr _ | .rts | .rti | .brk | .pha | .php | .pla | .plp => .special
  | .illegal _ => .halt

/-- Base cycles of the read category by mode (R103, R144 to R151). -/
def Mode.readCycles : Mode → Nat
  | .imm => 2 | .zp => 3 | .zpx | .zpy | .abs | .abx | .aby => 4 | .izx => 6 | .izy => 5 | _ => 2

/-- Cycles of the write category by mode (R146 to R151): the fix-up cycle is always run. -/
def Mode.writeCycles : Mode → Nat
  | .zp => 3 | .zpx | .zpy | .abs => 4 | .abx | .aby => 5 | .izx | .izy => 6 | _ => 2

/-- Cycles of the read-modify-write category by mode (R146 to R149). -/
def Mode.rmwCycles : Mode → Nat
  | .zp => 5 | .zpx | .abs => 6 | .abx => 7 | _ => 2

/-- R103: the base cycle count of an instruction (R108). An illegal fetch is one cycle. -/
def Instr.baseCycles (i : Instr) : Nat :=
  match i with
  | .jmp (.abs _) | .pha | .php => 3
  | .pla | .plp => 4
  | .jmp (.ind _) => 5
  | .jsr _ | .rts | .rti => 6
  | .brk => 7
  | .illegal _ => 1
  | i =>
    match i.category with
    | .read => i.mode.readCycles
    | .write => i.mode.writeCycles
    | .rmw => i.mode.rmwCycles
    | _ => 2

end Sys2Proof
end

