-- ==== Sys2Proof/Config.lean ====
section
/-!
DEFINITION. The named parameters of the model (spec/00_scope.md R4) and the free constants of what
the spec leaves open without a default (`FALLBACK_CART`, spec/92_eei_decisions.md D40).
-/

namespace Sys2Proof

/-- `DUMMY_ACCESSES` (R4, R156): whether an idle CPU cycle performs the NMOS 6502's dummy bus access. -/
inductive DummyAccesses where
  | none
  | nmos
deriving DecidableEq, Repr

/-- The parameters of R4 that are plain values. They stand in `State.cfg`, are changed by no step, and
are quantified over by every statement about every state (DESIGN CHOICE, safe: log 4). -/
structure Config where
  /-- `CPU_DIVIDER`: master cycles per CPU step, a positive integer. -/
  cpuDivider : Nat
  /-- `PPU_DIVIDER`: master cycles per PPU step, a positive integer. -/
  ppuDivider : Nat
  /-- `DUMMY_ACCESSES`. -/
  dummyAccesses : DummyAccesses
  /-- `BRK_PUSHES_B`: bit 4 of the status byte that BRK pushes. -/
  brkPushesB : Bool
  /-- `DMA_PARITY_AT_RESET`: the CPU cycle count's value after reset, 0 or 1. -/
  dmaParityAtReset : Nat
deriving DecidableEq, Repr

/-- The defaults of R4. -/
def Config.default : Config where
  cpuDivider := 3
  ppuDivider := 1
  dummyAccesses := .none
  brkPushesB := false
  dmaParityAtReset := 0

/-- The PRG bytes of `FALLBACK_CART`: OPEN in the spec (D40), so a free constant (DESIGN CHOICE, safe: log 11). -/
opaque Config.fallbackPrg : List Byte

/-- One less than the number of PRG chunks of `FALLBACK_CART`, which D40 requires to be at least 1 (log 11). -/
opaque Config.fallbackPrgExtra : Nat

/-- The CHR bytes of `FALLBACK_CART` (log 11). -/
opaque Config.fallbackChr : List Byte

/-- The number of CHR chunks of `FALLBACK_CART` (log 11). -/
opaque Config.fallbackChrChunks : Nat

/-- Whether `FALLBACK_CART` is wired for vertical mirroring (log 11). -/
opaque Config.fallbackVertical : Bool

/-- Whether `FALLBACK_CART` has PRG-RAM (log 11). -/
opaque Config.fallbackRam : Bool

end Sys2Proof
end

