-- ==== Sys2Proof/Machine/State.lean ====
section
/-!
DEFINITION. The machine's state as plain data (spec/10_state.md) and the state after reset (R39).

One record owned by the bus (R10): the CPU, the internal RAM, the PPU, the cartridge with its mapper,
the two controller ports and the bus counters; the parameters of R4 stand beside them in `cfg`.
-/

namespace Sys2Proof.Machine

/-- A memory of `w`-bit cells: (address, cell) pairs in one canonical form (`Store.wf`, in
Machine/Memory.lean). At width 8 this is a list of `Host.Cell`. -/
abbrev Store (w : Nat) := List (Nat × BitVec w)

/-- Why the machine stops with a fault. -/
inductive Fault where
  /-- Raised by `runCpu` (Machine/Cycles.lean) alone, if an instruction, a service sequence or a DMA transfer
  were still running after `runCpuBound` CPU cycles. The spec has no such case (R161, R165: at most 513
  cycles) and no fault that stops the machine (R370, R393); safe: the model stops where it knows nothing. -/
  | unfinished
deriving DecidableEq, Repr

/-- Why an instruction has no meaning. -/
inductive Refusal where
  /-- Raised by `exec`'s own arm for an instruction that has no meaning yet; safe. No arm raises it: every
  instruction of the table has its meaning. -/
  | notModelled (mnemonic : String)
deriving DecidableEq, Repr

/-- The CPU: registers (R11 to R14), cycle state (R16), latches (R17), DMA state (R18), cycle count (R19). -/
structure Cpu where
  /-- Accumulator (R11). -/
  a : Byte
  /-- Index register X (R11). -/
  x : Byte
  /-- Index register Y (R11). -/
  y : Byte
  /-- Stack pointer, an offset into page 1 (R12). -/
  sp : Byte
  /-- Program counter (R13). -/
  pc : Word
  /-- Status, bits 7..0 = N V U B D I Z C (R14). -/
  p : Byte
  /-- `IR`: the current opcode (R16). -/
  ir : Byte
  /-- The addressing mode of `ir` (R16). -/
  mode : Mode
  /-- The cycle about to run is c(`sub`+1) (R16). -/
  sub : Nat
  /-- The last instruction, service sequence or DMA has completed (R16). -/
  ready : Bool
  /-- IRQ request flag (R16). -/
  irqPending : Bool
  /-- NMI request flag, set by the bus (R16, R123). -/
  nmiPending : Bool
  /-- DMA request flag, set by a write to `$4014` (R16, R56). -/
  dmaRequest : Bool
  /-- An NMI service sequence is in progress (R16). -/
  nmiActive : Bool
  /-- An IRQ service sequence is in progress (R16). -/
  irqActive : Bool
  /-- Terminal halt (R16, R371). -/
  halted : Bool
  /-- The addresses of the last eight opcode fetches (R16, R142). -/
  history : Vector Word 8
  /-- The next slot of `history` (R16). -/
  histPos : Fin 8
  /-- First operand byte (R17). -/
  lo : Byte
  /-- Second operand byte (R17). -/
  hi : Byte
  /-- Zero-page pointer, indirect pointer or base address (R17; log 8). -/
  ptr : Word
  /-- Effective address (R17). -/
  ea : Word
  /-- Data-bus latch (R17). -/
  m : Byte
  /-- The indexed address crossed a page (R17, R157). -/
  cross : Bool
  /-- The branch condition held (R17). -/
  taken : Bool
  /-- A DMA transfer is in progress (R18). -/
  dmaActive : Bool
  /-- Low byte of the DMA source address, and the OAM index (R18). -/
  dmaAddr : Byte
  /-- High byte of the DMA source address (R18). -/
  dmaPage : Byte
  /-- DMA transfer buffer (R18). -/
  dmaData : Byte
  /-- The DMA alignment cycle has not been passed yet (R18). -/
  dmaWait : Bool
  /-- CPU steps executed since reset (R19). -/
  cyc : Nat
  /-- The diagnostic that R159 asks for: a cycle with no table entry was reached (log 9). -/
  diagnostic : Bool
deriving DecidableEq, Repr

/-- A sprite output unit (R26). -/
structure SpriteUnit where
  x : Byte
  attr : Byte
  lo : Byte
  hi : Byte
deriving DecidableEq, Repr

/-- The PPU (R23 to R33). -/
structure Ppu where
  /-- PPUCTRL (R23). -/
  ctrl : Byte
  /-- PPUMASK (R23). -/
  mask : Byte
  /-- PPUSTATUS: bits 7..5 only (R23). -/
  status : Byte
  /-- OAMADDR (R23). -/
  oamAddr : Byte
  /-- Current scroll address (R24). -/
  v : BitVec 15
  /-- Temporary scroll address (R24). -/
  t : BitVec 15
  /-- Fine X (R24). -/
  fineX : BitVec 3
  /-- Write toggle: true after a first write (R24, R288). -/
  w : Bool
  /-- PPUDATA read buffer (R24). -/
  readBuf : Byte
  /-- Background shifter, pattern plane 0 (R25). -/
  bgLo : BitVec 16
  /-- Background shifter, pattern plane 1 (R25). -/
  bgHi : BitVec 16
  /-- Attribute shifter, plane 0 (R25). -/
  atLo : BitVec 16
  /-- Attribute shifter, plane 1 (R25). -/
  atHi : BitVec 16
  /-- Next tile (R25). -/
  nxTile : Byte
  /-- Next palette number (R25). -/
  nxAttr : BitVec 2
  /-- Next pattern byte, plane 0 (R25). -/
  nxLo : Byte
  /-- Next pattern byte, plane 1 (R25). -/
  nxHi : Byte
  /-- Secondary OAM, 32 bytes; an unlisted byte is 0xFF, its cleared value (R26, R311). -/
  secOam : Store 8
  /-- Sprites found by the last evaluation, 0..8 (R26). -/
  secCount : Nat
  /-- Entry 0 of secondary OAM is primary sprite 0 (R26). -/
  secZero : Bool
  /-- The eight sprite output units (R26). -/
  spr : Vector SpriteUnit 8
  /-- Units loaded for the line being drawn, 0..8 (R26). -/
  sprCount : Nat
  /-- Unit 0 holds primary sprite 0 (R26). -/
  sprZero : Bool
  /-- Scanline the next step executes, −1..260 (R27). -/
  scanline : Int
  /-- Cycle the next step executes, 0..340 (R27). -/
  cycle : Nat
  /-- Frame counter (R27). -/
  frame : Nat
  /-- `ppu_ready`: written by no rule (R334). -/
  ready : Bool
  /-- `line_ready` (R27, R302). -/
  lineReady : Bool
  /-- `frame_ready` (R27, R302). -/
  frameReady : Bool
  /-- NMI-pending signal to the bus (R28). -/
  nmiSignal : Bool
  /-- One-shot VBlank suppression latch (R28). -/
  vblSuppress : Bool
  /-- Palette memory, 32 bytes (R29). -/
  pal : Store 8
  /-- Object attribute memory, 256 bytes (R30). -/
  oam : Store 8
  /-- Onboard nametable memory, 2 KB (R31). -/
  ciram : Store 8
  /-- Framebuffer, 256 × 240 colour indices at `y*256 + x` (R32). -/
  fb : Store 6
deriving DecidableEq, Repr

/-- The two mirroring modes of a cartridge header (R34). -/
inductive Mirroring where
  | horizontal
  | vertical
deriving DecidableEq, Repr

/-- The cartridge constants (R34): the loaded `CART`. They change only when the host loads a ROM. -/
structure Rom where
  /-- PRG bytes. -/
  prg : Store 8
  /-- CHR bytes. -/
  chr : Store 8
  /-- 16 KB PRG chunks. -/
  prgChunks : Nat
  /-- 8 KB CHR chunks; 0 means CHR-RAM. -/
  chrChunks : Nat
  /-- The header's mapper id. -/
  mapperId : Nat
  /-- The header's mirroring. -/
  mirroring : Mirroring
  /-- The header's battery-RAM bit. -/
  ramPresent : Bool
deriving DecidableEq, Repr

/-- Registers of the MMC1-style variant (R36, R348). -/
structure Mmc1 where
  shift : BitVec 5
  /-- Writes accumulated, 0..4. -/
  shiftPos : Nat
  control : BitVec 5
  chr0 : BitVec 5
  chr1 : BitVec 5
  prgBank : BitVec 5
deriving DecidableEq, Repr

/-- The live mapper variant and its registers (R36, R343). -/
inductive Mapper where
  | nrom
  | mmc1 (r : Mmc1)
  | unrom (bankLo : BitVec 4)
  | axrom (prg32 : BitVec 3) (ntPage : Bool)
deriving DecidableEq, Repr

/-- The cartridge: constants, mapper, and the memories it carries (R31, R34 to R36). -/
structure Cartridge where
  rom : Rom
  mapper : Mapper
  /-- `prg_ram`, 8 KB (R35). -/
  prgRam : Store 8
  /-- `chr_ram`, 8 KB (R35). -/
  chrRam : Store 8
  /-- `cartvram`, 2 KB (R31). -/
  vram : Store 8
deriving DecidableEq, Repr

/-- One controller port (R37); `buttons` is the environment's input (R4, R57). -/
structure Port where
  buttons : Byte
  latched : Byte
  /-- Reads since the last strobe, 0..8. -/
  reads : Nat
deriving DecidableEq, Repr

/-- The host's run modes (R38, R125). -/
inductive RunMode where
  | pause
  | running
  | advanceSingleCycle
  | advanceOneInstruction
  | advanceOneFrame
  | advanceOneScanline
deriving DecidableEq, Repr

/-- The bus counters and the run mode (R38). -/
structure Bus where
  cpuDivCnt : Nat
  ppuDivCnt : Nat
  runMode : RunMode
deriving DecidableEq, Repr

/-- The whole machine (R10). -/
structure State where
  /-- The parameters of R4; no step changes them. -/
  cfg : Config
  cpu : Cpu
  /-- Internal RAM, 2 KB (R22). -/
  ram : Store 8
  ppu : Ppu
  cart : Cartridge
  /-- Controller port 0 (`$4016`). -/
  port0 : Port
  /-- Controller port 1 (`$4017`). -/
  port1 : Port
  bus : Bus
deriving DecidableEq, Repr

/-- The CPU after reset (R39, R401), with the program counter the reset vector gives. A, X and Y have no
reset value in the spec (R11, D2): zero is the model's (DESIGN CHOICE, unsafe: log 1). -/
def Cpu.reset (cfg : Config) (pc : Word) : Cpu where
  a := 0
  x := 0
  y := 0
  sp := 0xFD
  pc := pc
  p := 0x20
  ir := 0
  mode := .imp
  sub := 0
  ready := true
  irqPending := false
  nmiPending := false
  dmaRequest := false
  nmiActive := false
  irqActive := false
  halted := false
  history := Vector.replicate 8 0
  histPos := 0
  lo := 0
  hi := 0
  ptr := 0
  ea := 0
  m := 0
  cross := false
  taken := false
  dmaActive := false
  dmaAddr := 0
  dmaPage := 0
  dmaData := 0
  dmaWait := true
  cyc := cfg.dmaParityAtReset
  diagnostic := false

/-- The PPU after reset (R39, R402), its memories empty: an unlisted byte reads as Machine/Memory.lean says
(DESIGN CHOICE, unsafe: log 2). -/
def Ppu.reset : Ppu where
  ctrl := 0
  mask := 0
  status := 0
  oamAddr := 0
  v := 0
  t := 0
  fineX := 0
  w := false
  readBuf := 0
  bgLo := 0
  bgHi := 0
  atLo := 0
  atHi := 0
  nxTile := 0
  nxAttr := 0
  nxLo := 0
  nxHi := 0
  secOam := []
  secCount := 0
  secZero := false
  spr := Vector.replicate 8 ⟨0, 0, 0, 0⟩
  sprCount := 0
  sprZero := false
  scanline := 0
  cycle := 0
  frame := 0
  ready := false
  lineReady := false
  frameReady := false
  nmiSignal := false
  vblSuppress := false
  pal := []
  oam := []
  ciram := []
  fb := []

/-- The cartridge that stands in the machine at `State.reset`: an NROM record with one PRG chunk, CHR-RAM
and nothing listed, so that every byte of it reads 0. The spec requires a cartridge and gives none
(R4, D40): this one holds no program (DESIGN CHOICE, unsafe: log 3). -/
def Cartridge.blank : Cartridge where
  rom := { prg := [], chr := [], prgChunks := 1, chrChunks := 0, mapperId := 0, mirroring := .horizontal, ramPresent := false }
  mapper := .nrom
  prgRam := []
  chrRam := []
  vram := []

/-- A controller port after reset (R39), with no button held (DESIGN CHOICE: log 15). -/
def Port.reset : Port where
  buttons := 0
  latched := 0
  reads := 0

/-- The machine right after power-on and reset (R39, R400 to R403): the reset vector, read from the blank
cartridge, is `$0000`. -/
def State.reset : State where
  cfg := Config.default
  cpu := Cpu.reset Config.default 0
  ram := []
  ppu := Ppu.reset
  cart := Cartridge.blank
  port0 := Port.reset
  port1 := Port.reset
  bus := { cpuDivCnt := 0, ppuDivCnt := 0, runMode := .pause }

/-- Applies a change to the CPU alone. -/
def State.onCpu (s : State) (f : Cpu → Cpu) : State := { s with cpu := f s.cpu }

/-- Applies a change to the PPU alone. -/
def State.onPpu (s : State) (f : Ppu → Ppu) : State := { s with ppu := f s.ppu }

/-- Applies a change to the cartridge alone. -/
def State.onCart (s : State) (f : Cartridge → Cartridge) : State := { s with cart := f s.cart }

/-- Applies a change to the bus counters alone. -/
def State.onBus (s : State) (f : Bus → Bus) : State := { s with bus := f s.bus }

end Sys2Proof.Machine
end

