-- ==== Sys2Proof/Machine/Memory.lean ====
section
/-!
DEFINITION. Memories: lists of (address, cell) pairs in one canonical form, with reads and writes that
hold for every list.
-/

namespace Sys2Proof.Machine

/-- What a byte that nothing has written reads as, in every memory whose power-on contents the spec leaves
open (D3): zero (DESIGN CHOICE, unsafe: log 2). -/
def unlisted : Byte := 0

/-- What a byte of secondary OAM that nothing has written reads as: its reset and cleared value (R39, R311). -/
def secUnlisted : Byte := 0xFF

/-- The cell at address `a`; `d` where none is listed. -/
def Store.read {w : Nat} (d : BitVec w) : Store w → Nat → BitVec w
  | [], _ => d
  | (k, v) :: rest, a => if k = a then v else Store.read d rest a

/-- The list without the cells at address `a`. -/
def Store.drop {w : Nat} (a : Nat) : Store w → Store w
  | [] => []
  | (k, v) :: rest => if k = a then Store.drop a rest else (k, v) :: Store.drop a rest

/-- Puts a cell in front, unless it holds what an unlisted address reads as. -/
def Store.cons {w : Nat} (d : BitVec w) (a : Nat) (v : BitVec w) (m : Store w) : Store w :=
  if v = d then m else (a, v) :: m

/-- Writes the cell at address `a`, keeping addresses rising; writing what an unlisted address reads as
removes the entry. -/
def Store.write {w : Nat} (d : BitVec w) : Store w → Nat → BitVec w → Store w
  | [], a, v => Store.cons d a v []
  | (k, u) :: rest, a, v =>
    if k < a then (k, u) :: Store.write d rest a v
    else if k = a then Store.cons d a v (Store.drop a rest)
    else Store.cons d a v ((k, u) :: Store.drop a rest)

/-- The canonical form: addresses strictly rising, and no entry equal to what an unlisted address reads as. -/
def Store.wf {w : Nat} (d : BitVec w) : Store w → Bool
  | [] => true
  | (k, v) :: rest => v != d && rest.all (fun e => decide (k < e.1)) && Store.wf d rest

/-- Every listed address lies below `n`. -/
def Store.within {w : Nat} (n : Nat) (m : Store w) : Bool := m.all fun e => decide (e.1 < n)

/-- The memory that holds a list of bytes from address `base` on. -/
def Store.ofBytes (d : Byte) : Nat → List Byte → Store 8
  | _, [] => []
  | base, b :: rest => Store.cons d base b (Store.ofBytes d (base + 1) rest)

/-- Fills secondary OAM with its cleared value (R311). -/
def Store.cleared : Store 8 := []

end Sys2Proof.Machine
end

