-- ==== Sys2Proof/Machine/Mapper.lean ====
section
/-!
DEFINITION. The cartridge and its four mapper variants (spec/49_mappers.md).
-/

namespace Sys2Proof.Machine

/-- Where a CPU access in `$4020–$FFFF` goes (R344). -/
inductive PrgTarget where
  | prg (off : Nat)
  | prgRam (off : Nat)
  | unmapped
deriving DecidableEq, Repr

/-- The nametable layouts that `NTMirror` knows (spec/20_memory.md R64). -/
inductive NtMode where
  | horizontal
  | vertical
  | single (page : Bool)
deriving DecidableEq, Repr

/-- Where a nametable access goes (R345). -/
inductive VramTarget where
  | onboard (mode : NtMode)
  | cart (off : Nat)
deriving DecidableEq, Repr

/-- A header's mirroring as a nametable layout. -/
def Mirroring.ntMode : Mirroring → NtMode
  | .horizontal => .horizontal
  | .vertical => .vertical

/-- `prg_ram` exists: the header's battery bit, and NROM or MMC1-style (R358). -/
def Cartridge.hasPrgRam (c : Cartridge) : Bool :=
  c.rom.ramPresent && match c.mapper with
    | .nrom => true
    | .mmc1 _ => true
    | .unrom _ => false
    | .axrom _ _ => false

/-- The MMC1-style 16 KB bank at a CPU address in `$8000–$FFFF`, before reduction modulo the bank count (R350). -/
def mmc1Bank (r : Mmc1) (chunks : Nat) (addr : Word) : Nat :=
  let b := (r.prgBank &&& 0x0F).toNat
  let low := decide (addr < 0xC000)
  match (r.control.extractLsb' 2 2).toNat with
  | 2 => if low then 0 else b
  | 3 => if low then b else chunks - 1
  | _ => (b &&& 0x0E) + (if bitAt addr 14 then 1 else 0)

/-- The PRG offset of a CPU address in `$8000–$FFFF`, by variant (R346, R350, R354, R356). -/
def Cartridge.prgOffset (c : Cartridge) (addr : Word) : Nat :=
  let n := c.rom.prgChunks
  match c.mapper with
  | .nrom => if n > 1 then (addr &&& 0x7FFF).toNat else (addr &&& 0x3FFF).toNat
  | .mmc1 r => mmc1Bank r n addr % n * 0x4000 + (addr &&& 0x3FFF).toNat
  | .unrom bankLo =>
    if addr < 0xC000 then bankLo.toNat % n * 0x4000 + (addr &&& 0x3FFF).toNat
    else (n - 1) * 0x4000 + (addr &&& 0x3FFF).toNat
  | .axrom prg32 _ => (prg32.toNat * 0x8000 + (addr &&& 0x7FFF).toNat) % (n * 0x4000)

/-- `MapCpuRead` (R344). -/
def Cartridge.mapCpuRead (c : Cartridge) (addr : Word) : PrgTarget :=
  if addr < 0x6000 then .unmapped
  else if addr < 0x8000 then
    if c.hasPrgRam then .prgRam (addr.toNat - 0x6000) else .unmapped
  else .prg (c.prgOffset addr)

/-- `CartCpuRead`: an unmapped address reads 0x00 (R344, D38). -/
def Cartridge.cpuRead (c : Cartridge) (addr : Word) : Byte :=
  match c.mapCpuRead addr with
  | .prg off => Store.read unlisted c.rom.prg off
  | .prgRam off => Store.read unlisted c.prgRam off
  | .unmapped => 0

/-- The MMC1-style serial port (R349). -/
def mmc1Write (r : Mmc1) (addr : Word) (v : Byte) : Mmc1 :=
  if bitAt v 7 then { r with shift := 0, shiftPos := 0, control := r.control ||| 0x0C }
  else
    let shift := r.shift ||| (ofBit (bitAt v 0) 5 <<< r.shiftPos)
    let pos := r.shiftPos + 1
    if pos = 5 then
      let r := { r with shift := 0, shiftPos := 0 }
      match (addr.extractLsb' 13 2).toNat with
      | 0 => { r with control := shift }
      | 1 => { r with chr0 := shift }
      | 2 => { r with chr1 := shift }
      | _ => { r with prgBank := shift }
    else { r with shift := shift, shiftPos := pos }

/-- What a CPU write at `addr ≥ $8000` does to the mapper's registers (R346, R349, R354, R356). -/
def Mapper.write (m : Mapper) (addr : Word) (v : Byte) : Mapper :=
  match m with
  | .nrom => .nrom
  | .mmc1 r => .mmc1 (mmc1Write r addr v)
  | .unrom _ => .unrom (v.extractLsb' 0 4)
  | .axrom _ _ => .axrom (v.extractLsb' 0 3) (bitAt v 4)

/-- `CartCpuWrite`: PRG-RAM takes the byte, `$8000–$FFFF` is the mapper's port, anything else is ignored
(R344). PRG ROM is never written. -/
def Cartridge.cpuWrite (c : Cartridge) (addr : Word) (v : Byte) : Cartridge :=
  if addr < 0x6000 then c
  else if addr < 0x8000 then
    if c.hasPrgRam then { c with prgRam := Store.write unlisted c.prgRam (addr.toNat - 0x6000) v } else c
  else { c with mapper := c.mapper.write addr v }

/-- `MapChr`: the CHR offset of a PPU address in `$0000–$1FFF`, before reduction (R347, R351, R355, R357). -/
def Cartridge.mapChr (c : Cartridge) (a : Nat) : Nat :=
  match c.mapper with
  | .mmc1 r =>
    if bitAt r.control 4 then
      if a < 0x1000 then r.chr0.toNat * 0x1000 + a else r.chr1.toNat * 0x1000 + a % 0x1000
    else (r.chr0 &&& 0x1E).toNat * 0x1000 + a
  | .nrom | .unrom _ | .axrom _ _ => a

/-- `CartPpuRead` (R345). -/
def Cartridge.chrRead (c : Cartridge) (a : Nat) : Byte :=
  if c.rom.chrChunks = 0 then Store.read unlisted c.chrRam (c.mapChr a % 8192)
  else Store.read unlisted c.rom.chr (c.mapChr a % (8192 * c.rom.chrChunks))

/-- `CartPpuWrite`: CHR ROM is not writable (R345). -/
def Cartridge.chrWrite (c : Cartridge) (a : Nat) (v : Byte) : Cartridge :=
  if c.rom.chrChunks = 0 then { c with chrRam := Store.write unlisted c.chrRam (c.mapChr a % 8192) v } else c

/-- `MapVram`: the nametable routing of offset `n` in 0..0xFFF (R347, R352, R355, R357). -/
def Cartridge.mapVram (c : Cartridge) (n : Nat) : VramTarget :=
  match c.mapper with
  | .nrom | .unrom _ => .onboard c.rom.mirroring.ntMode
  | .mmc1 r =>
    match (r.control.extractLsb' 0 2).toNat with
    | 0 => .cart (n % 0x400)
    | 1 => .cart (0x400 + n % 0x400)
    | 2 => .onboard .vertical
    | _ => .onboard .horizontal
  | .axrom _ ntPage => .cart ((if ntPage then 0x400 else 0) + n % 0x400)

/-- The reset value of MMC1-style `control` (R36): PRG mode 3 and the header's mirroring. -/
def mmc1ResetControl (m : Mirroring) : BitVec 5 :=
  0x0C ||| match m with
    | .vertical => 2
    | .horizontal => 3

/-- `MapperReset`: the live variant's registers at their reset values (R36, R360). -/
def Mapper.reset (m : Mapper) (mirroring : Mirroring) : Mapper :=
  match m with
  | .nrom => .nrom
  | .mmc1 _ => .mmc1 { shift := 0, shiftPos := 0, control := mmc1ResetControl mirroring, chr0 := 0, chr1 := 0, prgBank := 0 }
  | .unrom _ => .unrom 0
  | .axrom _ _ => .axrom 0 false

/-- The mapper selector (R343): the variant of a supported mapper id, at its reset values. -/
def Mapper.select (mapperId : Nat) (mirroring : Mirroring) : Option Mapper :=
  match mapperId with
  | 0 => some .nrom
  | 1 => some (Mapper.reset (.mmc1 ⟨0, 0, 0, 0, 0, 0⟩) mirroring)
  | 2 => some (.unrom 0)
  | 7 => some (.axrom 0 false)
  | _ => none

/-- The id of a variant (R343). -/
def Mapper.id : Mapper → Nat
  | .nrom => 0
  | .mmc1 _ => 1
  | .unrom _ => 2
  | .axrom _ _ => 7

/-- `MapperUpdate`: nothing, for all four variants (R359, D46). -/
def mapperUpdate (c : Cartridge) : Cartridge := c

end Sys2Proof.Machine
end

