-- ==== Sys2Proof/Machine/PpuBus.lean ====
section
/-!
DEFINITION. The PPU address space (spec/20_memory.md R61 to R65).
-/

namespace Sys2Proof.Machine

/-- `NTMirror(mode, n)` for `n` in 0..0xFFF (R64). -/
def ntMirror (mode : NtMode) (n : Nat) : Nat :=
  let table := n / 0x400 % 4
  let within := n % 0x400
  match mode with
  | .vertical => table % 2 * 0x400 + within
  | .horizontal => table / 2 * 0x400 + within
  | .single page => (if page then 0x400 else 0) + within

/-- `PalIndex(a)` (R65): the four sprite colour-0 slots are the background ones. -/
def palIndex (a : Nat) : Nat :=
  let i := a % 0x20
  if i = 0x10 ∨ i = 0x14 ∨ i = 0x18 ∨ i = 0x1C then i - 0x10 else i

/-- The 14-bit PPU address that is presented (R50, D47). -/
def ppuAddr (addr : Word) : Nat := (addr &&& 0x3FFF).toNat

/-- A nametable read at offset `n` in 0..0xFFF (R63). -/
def ntRead (c : Cartridge) (p : Ppu) (n : Nat) : Byte :=
  match c.mapVram n with
  | .onboard mode => Store.read unlisted p.ciram (ntMirror mode n)
  | .cart off => Store.read unlisted c.vram off

/-- `PPURead` (R61); no PPU-side read has a side effect, so this is also `PPUPeek` (R66). -/
def ppuRead (c : Cartridge) (p : Ppu) (addr : Word) : Byte :=
  let a := ppuAddr addr
  if a < 0x2000 then c.chrRead a
  else if a < 0x3F00 then ntRead c p (a % 0x1000)
  else Store.read unlisted p.pal (palIndex a)

/-- `PPUWrite` (R62): what it leaves of the cartridge (CHR-RAM, or nametable memory the mapper redirects to). -/
def ppuWriteCart (c : Cartridge) (addr : Word) (v : Byte) : Cartridge :=
  let a := ppuAddr addr
  if a < 0x2000 then c.chrWrite a v
  else if a < 0x3F00 then
    match c.mapVram (a % 0x1000) with
    | .onboard _ => c
    | .cart off => { c with vram := Store.write unlisted c.vram off v }
  else c

/-- `PPUWrite` (R62): what it leaves of the PPU (onboard nametable memory, or the palette; the whole byte
is stored). -/
def ppuWritePpu (c : Cartridge) (p : Ppu) (addr : Word) (v : Byte) : Ppu :=
  let a := ppuAddr addr
  if a < 0x2000 then p
  else if a < 0x3F00 then
    match c.mapVram (a % 0x1000) with
    | .onboard mode => { p with ciram := Store.write unlisted p.ciram (ntMirror mode (a % 0x1000)) v }
    | .cart _ => p
  else { p with pal := Store.write unlisted p.pal (palIndex a) v }

end Sys2Proof.Machine
end

