-- ==== Sys2Proof/Machine/PpuRegisters.lean ====
section
/-!
DEFINITION. The eight CPU-visible PPU registers (spec/47_ppu_registers.md).

A read is given in two parts: the byte it returns, which is also what a peek returns (R291), and what it
leaves of the PPU.
-/

namespace Sys2Proof.Machine

/-- The PPU address `v` presents (R290: `v & 0x3FFF`). -/
def Ppu.vAddr (p : Ppu) : Word := p.v.setWidth 16 &&& 0x3FFF

/-- The PPUDATA increment (R289). -/
def Ppu.advanceV (p : Ppu) : Ppu :=
  { p with v := p.v + if bitAt p.ctrl 2 then 32 else 1 }

/-- The byte a read of register `n` returns (R281 to R290). -/
def ppuRegValue (c : Cartridge) (p : Ppu) (n : Nat) : Byte :=
  match n with
  | 2 => (p.status &&& 0xE0) ||| (p.readBuf &&& 0x1F)
  | 4 => Store.read unlisted p.oam p.oamAddr.toNat
  | 7 => if p.vAddr < 0x3F00 then p.readBuf else ppuRead c p p.vAddr
  | _ => 0

/-- What a read of PPUSTATUS leaves (R283): VBlank and the toggle cleared, and the suppression latch armed
when the next step is the VBlank point. -/
def Ppu.afterStatusRead (p : Ppu) : Ppu :=
  { p with
    status := setBitTo p.status 7 false
    w := false
    vblSuppress := if p.scanline = 241 ∧ p.cycle = 1 then true else p.vblSuppress }

/-- What a read of register `n` leaves of the PPU. -/
def ppuRegAfterRead (c : Cartridge) (p : Ppu) (n : Nat) : Ppu :=
  match n with
  | 2 => p.afterStatusRead
  | 7 => { p with readBuf := ppuRead c p p.vAddr }.advanceV
  | _ => p

/-- PPUCTRL (R281). -/
def Ppu.writeCtrl (p : Ppu) (v : Byte) : Ppu :=
  { p with ctrl := v, t := setField p.t 10 2 (v.extractLsb' 0 2) }

/-- OAMDATA (R285). -/
def Ppu.writeOamData (p : Ppu) (v : Byte) : Ppu :=
  { p with oam := Store.write unlisted p.oam p.oamAddr.toNat v, oamAddr := p.oamAddr + 1 }

/-- PPUSCROLL (R286). -/
def Ppu.writeScroll (p : Ppu) (v : Byte) : Ppu :=
  if p.w then
    { p with t := setField (setField p.t 12 3 (v.extractLsb' 0 3)) 5 5 (v.extractLsb' 3 5), w := false }
  else
    { p with t := setField p.t 0 5 (v.extractLsb' 3 5), fineX := v.extractLsb' 0 3, w := true }

/-- PPUADDR (R287). -/
def Ppu.writeAddr (p : Ppu) (v : Byte) : Ppu :=
  if p.w then
    let t := setField p.t 0 8 v
    { p with t := t, v := t, w := false }
  else
    { p with t := setField (setField p.t 8 6 (v.extractLsb' 0 6)) 14 1 0, w := true }

/-- What a write to register `n` leaves of the PPU (R281 to R290); a write to PPUSTATUS is ignored. -/
def ppuRegWritePpu (c : Cartridge) (p : Ppu) (n : Nat) (v : Byte) : Ppu :=
  match n with
  | 0 => p.writeCtrl v
  | 1 => { p with mask := v }
  | 3 => { p with oamAddr := v }
  | 4 => p.writeOamData v
  | 5 => p.writeScroll v
  | 6 => p.writeAddr v
  | 7 => (ppuWritePpu c p p.vAddr v).advanceV
  | _ => p

/-- What a write to register `n` leaves of the cartridge: only PPUDATA reaches it (R290). -/
def ppuRegWriteCart (c : Cartridge) (p : Ppu) (n : Nat) (v : Byte) : Cartridge :=
  match n with
  | 7 => ppuWriteCart c p.vAddr v
  | _ => c

end Sys2Proof.Machine
end

