-- ==== Sys2Proof/Machine/Bus.lean ====
section
/-!
DEFINITION. The CPU address space (spec/20_memory.md R50 to R60, R66).

A read is given in two parts: `cpuPeek`, the byte it returns, which by R66 is what a peek returns, and
`readEffect`, the state it leaves. A write is `cpuWrite`.
-/

namespace Sys2Proof.Machine

/-- What a CPU address selects (R51, R52, R55 to R59). -/
inductive Region where
  /-- `$0000–$1FFF`: internal RAM at this offset, mirrored every 0x0800 (R53). -/
  | ram (off : Nat)
  /-- `$2000–$3FFF`: PPU register of this number, mirrored every 8 bytes (R54). -/
  | ppuReg (n : Nat)
  /-- `$4014`: the OAM DMA trigger (R56). -/
  | dma
  /-- `$4016`: the strobe on writes, controller port 0 on reads (R57, R58). -/
  | strobe
  /-- `$4017`: controller port 1 on reads; writes are ignored (R55, R58). -/
  | port1
  /-- The rest of `$4000–$401F`: reads 0, writes ignored (R55). -/
  | stub
  /-- `$4020–$FFFF`: the cartridge (R59). -/
  | cartridge
deriving DecidableEq, Repr

/-- The address decoder (R51). -/
def region (addr : Word) : Region :=
  if addr < 0x2000 then .ram (addr &&& 0x07FF).toNat
  else if addr < 0x4000 then .ppuReg (addr &&& 7).toNat
  else if addr < 0x4020 then
    if addr = 0x4014 then .dma
    else if addr = 0x4016 then .strobe
    else if addr = 0x4017 then .port1
    else .stub
  else .cartridge

/-- The byte a controller read returns (R58). -/
def Port.value (p : Port) : Byte := if p.reads < 8 then ofBit (bitAt p.latched 7) 8 else 1

/-- What a controller read leaves (R58). -/
def Port.afterRead (p : Port) : Port :=
  if p.reads < 8 then { p with latched := p.latched <<< 1, reads := p.reads + 1 } else p

/-- The strobe (R57): latches the buttons, whatever the value written. -/
def Port.strobe (p : Port) : Port := { p with latched := p.buttons, reads := 0 }

/-- The byte `CPURead(addr)` returns, and `CPUPeek(addr)` (R51, R66). -/
def cpuPeek (addr : Word) (s : State) : Byte :=
  match region addr with
  | .ram off => Store.read unlisted s.ram off
  | .ppuReg n => ppuRegValue s.cart s.ppu n
  | .dma => 0
  | .strobe => s.port0.value
  | .port1 => s.port1.value
  | .stub => 0
  | .cartridge => s.cart.cpuRead addr

/-- The state `CPURead(addr)` leaves (R70). -/
def readEffect (addr : Word) (s : State) : State :=
  match region addr with
  | .ppuReg n => { s with ppu := ppuRegAfterRead s.cart s.ppu n }
  | .strobe => { s with port0 := s.port0.afterRead }
  | .port1 => { s with port1 := s.port1.afterRead }
  | .ram _ | .dma | .stub | .cartridge => s

/-- `CPUWrite(addr, v)` (R52, R55 to R57, R59). -/
def cpuWrite (addr : Word) (v : Byte) (s : State) : State :=
  match region addr with
  | .ram off => { s with ram := Store.write unlisted s.ram off v }
  | .ppuReg n => { s with ppu := ppuRegWritePpu s.cart s.ppu n v, cart := ppuRegWriteCart s.cart s.ppu n v }
  | .dma => s.onCpu fun c => { c with dmaPage := v, dmaRequest := true }
  | .strobe => { s with port0 := s.port0.strobe, port1 := s.port1.strobe }
  | .port1 | .stub => s
  | .cartridge => { s with cart := s.cart.cpuWrite addr v }

end Sys2Proof.Machine
end

