-- ==== Sys2Proof/Machine/PpuStep.lean ====
section
/-!
DEFINITION. The PPU scanline and sprite rendering state machine (spec/48_ppu_rendering.md).
-/

namespace Sys2Proof.Machine

/-- `RenderingEnabled()` (R301). -/
def Ppu.renderingEnabled (p : Ppu) : Bool := bitAt p.mask 3 || bitAt p.mask 4

/-- `VBlankPoint()` (R304). -/
def Ppu.vblankPoint (p : Ppu) : Ppu :=
  if p.vblSuppress then { p with vblSuppress := false }
  else { p with status := setBitTo p.status 7 true, nmiSignal := bitAt p.ctrl 7 || p.nmiSignal, vblSuppress := false }

/-- Pre-render flag clear (R305). -/
def Ppu.clearFlags (p : Ppu) : Ppu := { p with status := setField p.status 5 3 0 }

/-- `BgShift()` (R306). -/
def Ppu.bgShift (p : Ppu) : Ppu :=
  { p with bgLo := p.bgLo <<< 1, bgHi := p.bgHi <<< 1, atLo := p.atLo <<< 1, atHi := p.atHi <<< 1 }

/-- `BgLoad()` (R306). -/
def Ppu.bgLoad (p : Ppu) : Ppu :=
  { p with
    bgLo := setField p.bgLo 0 8 p.nxLo
    bgHi := setField p.bgHi 0 8 p.nxHi
    atLo := setField p.atLo 0 8 (if bitAt p.nxAttr 0 then 0xFF else 0x00)
    atHi := setField p.atHi 0 8 (if bitAt p.nxAttr 1 then 0xFF else 0x00) }

/-- `IncX()` (R307). -/
def Ppu.incX (p : Ppu) : Ppu :=
  let coarse : BitVec 5 := p.v.extractLsb' 0 5
  if coarse = 31 then { p with v := setBitTo (setField p.v 0 5 0) 10 (!bitAt p.v 10) }
  else { p with v := setField p.v 0 5 (coarse + 1) }

/-- `IncY()` (R308). -/
def Ppu.incY (p : Ppu) : Ppu :=
  let fine : BitVec 3 := p.v.extractLsb' 12 3
  let coarse : BitVec 5 := p.v.extractLsb' 5 5
  if fine < 7 then { p with v := setField p.v 12 3 (fine + 1) }
  else
    let v := setField p.v 12 3 0
    if coarse = 29 then { p with v := setBitTo (setField v 5 5 0) 11 (!bitAt v 11) }
    else if coarse = 31 then { p with v := setField v 5 5 0 }
    else { p with v := setField v 5 5 (coarse + 1) }

/-- The nametable address of a fetch (R307). -/
def Ppu.tileAddr (p : Ppu) : Word := 0x2000 ||| (p.v.setWidth 16 &&& 0x0FFF)

/-- The attribute address of a fetch (R307). -/
def Ppu.attrAddr (p : Ppu) : Word :=
  let v := p.v.setWidth 16
  0x23C0 ||| (v &&& 0x0C00) ||| ((v >>> 4) &&& 0x38) ||| ((v >>> 2) &&& 0x07)

/-- The palette number of the tile's quadrant in an attribute byte (R307). -/
def Ppu.attrBits (p : Ppu) (b : Byte) : BitVec 2 :=
  let b := if bitAt p.v 6 then b >>> 4 else b
  let b := if bitAt p.v 1 then b >>> 2 else b
  b.extractLsb' 0 2

/-- The pattern address of plane 0 of the next tile's row (R307). -/
def Ppu.patternAddr (p : Ppu) : Word :=
  (ofBit (bitAt p.ctrl 4) 16 <<< 12) ||| (p.nxTile.setWidth 16 <<< 4) ||| (p.v.extractLsb' 12 3).setWidth 16

/-- `BgPhase(c)` (R307). The load of phase 0 is made at cycle 1 too, as R307's pseudocode and R314 say; D48's summary
limits it to `cycle > 1` (DEDUCED, unsafe: log 27). -/
def Ppu.bgPhase (p : Ppu) (k : Cartridge) (c : Nat) : Ppu :=
  match (c - 1) % 8 with
  | 0 =>
    let p := p.bgLoad
    { p with nxTile := ppuRead k p p.tileAddr }
  | 2 => { p with nxAttr := p.attrBits (ppuRead k p p.attrAddr) }
  | 4 => { p with nxLo := ppuRead k p p.patternAddr }
  | 6 => { p with nxHi := ppuRead k p (p.patternAddr ||| 8) }
  | 7 => p.incX
  | _ => p

/-- `CopyHorizontal()` (R309). -/
def Ppu.copyHorizontal (p : Ppu) : Ppu :=
  { p with v := setBitTo (setField p.v 0 5 (p.t.extractLsb' 0 5)) 10 (bitAt p.t 10) }

/-- `CopyVertical()` (R310). -/
def Ppu.copyVertical (p : Ppu) : Ppu :=
  { p with
    v := setField (setBitTo (setField p.v 12 3 (p.t.extractLsb' 12 3)) 11 (bitAt p.t 11)) 5 5 (p.t.extractLsb' 5 5) }

/-- `SpriteClear()` (R311). -/
def Ppu.spriteClear (p : Ppu) : Ppu :=
  { p with secOam := Store.cleared, secCount := 0, secZero := false }

/-- The sprite height (R312). -/
def Ppu.spriteHeight (p : Ppu) : Int := if bitAt p.ctrl 5 then 16 else 8

/-- OAM byte `i` of sprite `n`. -/
def Ppu.oamByte (p : Ppu) (n i : Nat) : Byte := Store.read unlisted p.oam (4 * n + i)

/-- Secondary OAM byte `i` of entry `k`. -/
def Ppu.secByte (p : Ppu) (k i : Nat) : Byte := Store.read secUnlisted p.secOam (4 * k + i)

/-- Copies sprite `n` to the next free entry of secondary OAM (R312). -/
def Ppu.copySprite (p : Ppu) (n : Nat) : Ppu :=
  let put := fun (m : Store 8) (i : Nat) => Store.write secUnlisted m (4 * p.secCount + i) (p.oamByte n i)
  { p with
    secOam := put (put (put (put p.secOam 0) 1) 2) 3
    secZero := if n = 0 then true else p.secZero
    secCount := p.secCount + 1 }

/-- One sprite of `SpriteEvaluate(s)` (R312). -/
def Ppu.evaluateSprite (s : Int) (p : Ppu) (n : Nat) : Ppu :=
  let d := s - ((p.oamByte n 0).toNat : Int)
  if 0 ≤ d ∧ d < p.spriteHeight then
    if p.secCount < 8 then p.copySprite n else { p with status := setBitTo p.status 5 true }
  else p

/-- `SpriteEvaluate(s)` (R312): all 64 sprites in order. -/
def Ppu.spriteEvaluate (p : Ppu) (s : Int) : Ppu :=
  (List.range 64).foldl (Ppu.evaluateSprite s) p

/-- The pattern row of an entry on scanline `s`, flipped if the attribute says so (R313). -/
def Ppu.spriteRow (p : Ppu) (s : Int) (k : Nat) : Int :=
  let row := s - ((p.secByte k 0).toNat : Int)
  if bitAt (p.secByte k 2) 7 then p.spriteHeight - 1 - row else row

/-- The pattern address of an entry (R313). A row outside 0..h−1, which only a change of the sprite height or
of the rendering enables between dots 64 and 321 can produce, goes through the same formula in 16-bit two's
complement (DEDUCED, unsafe: log 10). -/
def Ppu.spriteAddr (p : Ppu) (s : Int) (k : Nat) : Word :=
  let row := p.spriteRow s k
  let tile := p.secByte k 1
  let bits := BitVec.ofInt 16 row
  if bitAt p.ctrl 5 then
    let half : Word := if row ≥ 8 then 1 else 0
    (ofBit (bitAt tile 0) 16 <<< 12) ||| (((tile &&& 0xFE).setWidth 16 + half) <<< 4) ||| (bits &&& 7)
  else (ofBit (bitAt p.ctrl 3) 16 <<< 12) ||| (tile.setWidth 16 <<< 4) ||| bits

/-- The unit that an entry loads (R313). -/
def Ppu.fetchUnit (p : Ppu) (c : Cartridge) (s : Int) (k : Nat) : SpriteUnit :=
  let addr := p.spriteAddr s k
  let attr := p.secByte k 2
  let lo := ppuRead c p addr
  let hi := ppuRead c p (addr + 8)
  { x := p.secByte k 3
    attr := attr
    lo := if bitAt attr 6 then reverseBits8 lo else lo
    hi := if bitAt attr 6 then reverseBits8 hi else hi }

/-- Loads the units of the entries `0 .. n−1`; a unit past the last one does not exist. -/
def Ppu.loadUnits (p : Ppu) (c : Cartridge) (s : Int) (n : Nat) : Vector SpriteUnit 8 :=
  Vector.ofFn fun k : Fin 8 => if k.val < n then p.fetchUnit c s k.val else p.spr[k]

/-- `SpriteFetch(s)` (R313). -/
def Ppu.spriteFetch (p : Ppu) (c : Cartridge) (s : Int) : Ppu :=
  { p with spr := p.loadUnits c s p.secCount, sprCount := p.secCount, sprZero := p.secZero }

/-- A background pixel: two bits of pattern and a palette number (R321). -/
structure Pixel where
  px : BitVec 2
  pal : Nat
deriving DecidableEq, Repr

/-- The transparent pixel. -/
def Pixel.clear : Pixel := ⟨0, 0⟩

/-- Two bits as a field, high bit first (R321: `hi[b] : lo[b]`). -/
def twoBits (hi lo : Bool) : BitVec 2 := ofBit hi 1 ++ ofBit lo 1

/-- The background pixel at column `x` (R321). -/
def Ppu.bgPixel (p : Ppu) (x : Nat) : Pixel :=
  if bitAt p.mask 3 && (bitAt p.mask 1 || decide (8 ≤ x)) then
    let b := 15 - p.fineX.toNat
    ⟨twoBits (bitAt p.bgHi b) (bitAt p.bgLo b), (twoBits (bitAt p.atHi b) (bitAt p.atLo b)).toNat⟩
  else Pixel.clear

/-- A sprite pixel: pattern, palette, in front of the background, from sprite zero (R322). -/
structure SpritePixel where
  px : BitVec 2
  pal : Nat
  front : Bool
  isZero : Bool
deriving DecidableEq, Repr

/-- The transparent sprite pixel (R322). -/
def SpritePixel.clear : SpritePixel := ⟨0, 0, false, false⟩

/-- The pattern bits of a unit at column `x`: 0 where the unit does not cover it (R322). -/
def SpriteUnit.bits (u : SpriteUnit) (x : Nat) : BitVec 2 :=
  if u.x.toNat ≤ x ∧ x - u.x.toNat ≤ 7 then
    let b := 7 - (x - u.x.toNat)
    twoBits (bitAt u.hi b) (bitAt u.lo b)
  else 0

/-- The first unit, from number `k` on, whose pixel at column `x` is not transparent (R322). -/
def firstSprite (zero : Bool) (x : Nat) : Nat → List SpriteUnit → SpritePixel
  | _, [] => SpritePixel.clear
  | k, u :: rest =>
    if u.bits x = 0 then firstSprite zero x (k + 1) rest
    else ⟨u.bits x, 4 + (u.attr &&& 3).toNat, !bitAt u.attr 5, decide (k = 0) && zero⟩

/-- The sprite pixel at column `x` (R322). -/
def Ppu.spritePixel (p : Ppu) (x : Nat) : SpritePixel :=
  if bitAt p.mask 4 && (bitAt p.mask 2 || decide (8 ≤ x)) then
    firstSprite p.sprZero x 0 (p.spr.toList.take p.sprCount)
  else SpritePixel.clear

/-- Priority (R323): the pixel that shows. -/
def compose (bg : Pixel) (sp : SpritePixel) : Pixel :=
  if bg.px = 0 ∧ sp.px = 0 then Pixel.clear
  else if bg.px = 0 then ⟨sp.px, sp.pal⟩
  else if sp.px = 0 then bg
  else if sp.front then ⟨sp.px, sp.pal⟩
  else bg

/-- The sprite-zero hit (R323). -/
def Ppu.zeroHit (p : Ppu) (bg : Pixel) (sp : SpritePixel) (x : Nat) : Bool :=
  bg.px ≠ 0 && sp.px ≠ 0 && sp.isZero && bitAt p.mask 3 && bitAt p.mask 4 && decide (x ≠ 255)

/-- The palette address of a pixel (R324). -/
def Pixel.colourAddr (px : Pixel) : Word :=
  if px.px = 0 then 0x3F00 else 0x3F00 + BitVec.ofNat 16 (px.pal * 4 + px.px.toNat)

/-- The colour index of a pixel (R324). -/
def Ppu.colour (p : Ppu) (c : Cartridge) (px : Pixel) : BitVec 6 :=
  let col : BitVec 6 := (ppuRead c p px.colourAddr).extractLsb' 0 6
  if bitAt p.mask 0 then col &&& 0x30 else col

/-- What an unlisted framebuffer entry reads as (log 2). -/
def fbUnlisted : BitVec 6 := 0

/-- `PixelOutput(s, x)` (R320 to R324). -/
def Ppu.pixelOutput (p : Ppu) (c : Cartridge) (s : Int) (x : Nat) : Ppu :=
  let bg := p.bgPixel x
  let sp := p.spritePixel x
  { p with
    status := if p.zeroHit bg sp x then setBitTo p.status 6 true else p.status
    fb := Store.write fbUnlisted p.fb (s.toNat * 256 + x) (p.colour c (compose bg sp)) }

/-- Applies a change when a condition holds. -/
def Ppu.whenever (p : Ppu) (b : Bool) (f : Ppu → Ppu) : Ppu := if b then f p else p

/-- Step 6 of `PpuStep`, at scanline `s` and cycle `c` (R300). -/
def Ppu.render (p : Ppu) (k : Cartridge) (s : Int) (c : Nat) : Ppu :=
  p
  |>.whenever (decide ((1 ≤ c ∧ c ≤ 256) ∨ (321 ≤ c ∧ c ≤ 336))) (fun p => p.bgShift.bgPhase k c)
  |>.whenever (decide (c = 256)) Ppu.incY
  |>.whenever (decide (c = 257)) (fun p => p.copyHorizontal.bgLoad)
  |>.whenever (decide (s = -1 ∧ 280 ≤ c ∧ c ≤ 304)) Ppu.copyVertical
  |>.whenever (decide (0 ≤ s ∧ 1 ≤ c ∧ c ≤ 256)) (fun p => p.pixelOutput k s (c - 1))
  |>.whenever (decide (c = 64)) Ppu.spriteClear
  |>.whenever (decide (c = 256)) (fun p => p.spriteEvaluate s)
  |>.whenever (decide (c = 321)) (fun p => p.spriteFetch k s)

/-- `EndOfCycle()` (R330), at scanline `s` and cycle `c`. -/
def Ppu.endOfCycle (p : Ppu) (s : Int) (c : Nat) : Ppu :=
  if c + 1 > 340 then
    if s + 1 > 260 then
      { p with cycle := 0, scanline := -1, lineReady := true, frame := p.frame + 1, frameReady := true }
    else { p with cycle := 0, scanline := s + 1, lineReady := true }
  else { p with cycle := c + 1 }

/-- Step 2 of `PpuStep`: the odd-frame skip (R303). -/
def Ppu.oddFrameSkip (p : Ppu) : Ppu :=
  if p.scanline = 0 ∧ p.cycle = 0 ∧ p.renderingEnabled = true ∧ p.frame % 2 = 1 then { p with cycle := 1 } else p

/-- `PpuStep()` (R300): one dot. `RenderingEnabled` is evaluated once. -/
def Ppu.step (p : Ppu) (k : Cartridge) : Ppu :=
  let rendering := p.renderingEnabled
  let p := { p with lineReady := false, frameReady := false }.oddFrameSkip
  let s := p.scanline
  let c := p.cycle
  p
  |>.whenever (decide (s = -1 ∧ c = 1)) Ppu.clearFlags
  |>.whenever (decide (s = 241 ∧ c = 1)) Ppu.vblankPoint
  |>.whenever (rendering && decide (-1 ≤ s ∧ s ≤ 239)) (fun p => p.render k s c)
  |>.endOfCycle s c

end Sys2Proof.Machine
end

