-- ==== Sys2Proof/Machine/Clock.lean ====
section
/-!
DEFINITION. The master cycle around the CPU step (spec/40_bus_master_cycle.md R120 to R124): what one
master cycle does once the CPU's part of it is over, and the master cycles on which the CPU does not step.
-/

namespace Sys2Proof.Machine

/-- Step 2 of `MasterCycle`: the PPU, if its divider says so (R120, R121). -/
def ppuTick (s : State) : State :=
  if s.bus.ppuDivCnt = 0 then
    { s with ppu := s.ppu.step s.cart, bus := { s.bus with ppuDivCnt := s.cfg.ppuDivider - 1 } }
  else { s with bus := { s.bus with ppuDivCnt := s.bus.ppuDivCnt - 1 } }

/-- Step 3: `MapperUpdate()` (R120, R359). -/
def mapperTick (s : State) : State := { s with cart := mapperUpdate s.cart }

/-- Step 4: the NMI signal moves from the PPU to the CPU (R123). -/
def routeNmi (s : State) : State :=
  if s.ppu.nmiSignal then
    { s with cpu := { s.cpu with nmiPending := true }, ppu := { s.ppu with nmiSignal := false } }
  else s

/-- Step 5: a halted CPU forces the run mode to Pause (R124). -/
def observeHalt (s : State) : State :=
  if s.cpu.halted then { s with bus := { s.bus with runMode := .pause } } else s

/-- Steps 2 to 5 of `MasterCycle` (R120). -/
def afterCpu (s : State) : State := observeHalt (routeNmi (mapperTick (ppuTick s)))

/-- A master cycle on which the CPU does not step (R120: `cpu_div_cnt ≠ 0`). -/
def idleCycle (s : State) : State :=
  afterCpu { s with bus := { s.bus with cpuDivCnt := s.bus.cpuDivCnt - 1 } }

/-- `n` master cycles on which the CPU does not step. -/
def idleCycles : Nat → State → State
  | 0, s => s
  | n + 1, s => idleCycles n (idleCycle s)

/-- Runs the master cycles that are left before the CPU steps again (R121). -/
def waitCpu (s : State) : State := idleCycles s.bus.cpuDivCnt s

/-- The end of a master cycle on which the CPU stepped: the CPU step is counted (R140), its divider
reloaded, and the rest of the master cycle runs (R120). -/
def finishCycle (s : State) : State :=
  afterCpu { s with
    cpu := { s.cpu with cyc := s.cpu.cyc + 1 }
    bus := { s.bus with cpuDivCnt := s.cfg.cpuDivider - 1 } }

/-- From the end of one CPU cycle's work to the start of the next CPU cycle. -/
def elapse (s : State) : State := waitCpu (finishCycle s)

/-- Ends a cycle that is not its sequence's last: `sub` is incremented (R144's header), and time passes up
to the next CPU cycle. -/
def advance (s : State) : State := elapse (s.onCpu fun c => { c with sub := c.sub + 1 })

end Sys2Proof.Machine
end

