-- ==== Sys2Proof/Machine/Flags.lean ====
section
/-!
DEFINITION. The status register's bits and every flag computation (spec/10_state.md R14, R15; files 42 to 46).
-/

namespace Sys2Proof.Machine

/-- Bit numbers of `P` (R14). -/
def flagC : Nat := 0

/-- Zero. -/
def flagZ : Nat := 1

/-- Interrupt disable. -/
def flagI : Nat := 2

/-- Decimal. -/
def flagD : Nat := 3

/-- Break: 0 in the live register (D15). -/
def flagB : Nat := 4

/-- Unused: 1 in the live register (D15). -/
def flagU : Nat := 5

/-- Overflow. -/
def flagV : Nat := 6

/-- Negative. -/
def flagN : Nat := 7

/-- Reads a flag. -/
def flag (p : Byte) (i : Nat) : Bool := bitAt p i

/-- Writes a flag and leaves the other seven. -/
def setFlag (p : Byte) (i : Nat) (b : Bool) : Byte := setBitTo p i b

/-- `setNZ(v)` (R6). -/
def setNZ (p v : Byte) : Byte := setFlag (setFlag p flagZ (v == 0)) flagN (bitAt v 7)

/-- The nine-bit sum of ADC (R200). -/
def adcSum (p a m : Byte) : BitVec 9 := a.setWidth 9 + m.setWidth 9 + ofBit (flag p flagC) 9

/-- The result of ADC (R200); P.D is not read (D1). -/
def adcResult (p a m : Byte) : Byte := (adcSum p a m).setWidth 8

/-- The flags of ADC (R200). -/
def adcFlags (p a m : Byte) : Byte :=
  let r := adcResult p a m
  let p' := setFlag p flagC (bitAt (adcSum p a m) 8)
  let p' := setFlag p' flagV (bitAt ((a ^^^ r) &&& (m ^^^ r)) 7)
  setNZ p' r

/-- The result of SBC: ADC of the one's complement (R201). -/
def sbcResult (p a m : Byte) : Byte := adcResult p a (m ^^^ 0xFF)

/-- The flags of SBC (R201). -/
def sbcFlags (p a m : Byte) : Byte := adcFlags p a (m ^^^ 0xFF)

/-- The flags of a compare of register `r` with `m` (R205 to R207): no carry in, V untouched. -/
def compareFlags (p r m : Byte) : Byte :=
  let p' := setFlag p flagC (decide (m ≤ r))
  let p' := setFlag p' flagZ (r == m)
  setFlag p' flagN (bitAt (r - m) 7)

/-- The flags of BIT (R208): N and V come from the memory byte. -/
def bitFlags (p a m : Byte) : Byte :=
  let p' := setFlag p flagZ (a &&& m == 0)
  let p' := setFlag p' flagN (bitAt m 7)
  setFlag p' flagV (bitAt m 6)

/-- N, Z and C of a shift that gives `r` and shifts out `c` (R220 to R223). -/
def shiftFlags (p r : Byte) (c : Bool) : Byte := setNZ (setFlag p flagC c) r

/-- ASL's result (R220). -/
def aslResult (v : Byte) : Byte := v <<< 1

/-- LSR's result (R221). -/
def lsrResult (v : Byte) : Byte := v >>> 1

/-- ROL's result (R222). -/
def rolResult (p v : Byte) : Byte := (v <<< 1) ||| ofBit (flag p flagC) 8

/-- ROR's result (R223). -/
def rorResult (p v : Byte) : Byte := (v >>> 1) ||| (ofBit (flag p flagC) 8 <<< 7)

/-- The live status that PLP and RTI make of a pulled byte (R243, R263): B forced to 0, U to 1. -/
def pulledStatus (b : Byte) : Byte := (b &&& 0xCF) ||| 0x20

/-- The status byte that interrupt service and BRK push (R244, R377), with the given B bit. -/
def pushedStatus (p : Byte) (b : Bool) : Byte := (p &&& 0xCF) ||| 0x20 ||| (if b then 0x10 else 0)

/-- The status byte that PHP pushes (R261). -/
def phpStatus (p : Byte) : Byte := p ||| 0x30

end Sys2Proof.Machine
end

