-- ==== Sys2Proof/Machine/Ops.lean ====
section
/-!
DEFINITION. The operations every instruction is made of: cycles and how a list of them runs
(spec/41_cpu_stepper.md R140, R158, R159), idle accesses (R156), the stack (spec/00_scope.md R6), taking
an interrupt (spec/60_exceptions.md R377, spec/45_cpu_control_flow.md R244) and returning from one (R243).
-/

namespace Sys2Proof.Machine

/-- What a CPU cycle of a sequence leaves: the sequence goes on, or this was its last cycle. -/
inductive Progress where
  | more (s : State)
  | done (s : State)
deriving DecidableEq, Repr

/-- The work of one CPU cycle, without the time that passes around it. -/
abbrev Cycle := State → Progress

/-- Marks the sequence complete (R158). -/
def retire (s : State) : State := s.onCpu fun c => { c with ready := true }

/-- A cycle with no table entry (R159): no bus access, no register change, `ready`, and a diagnostic. -/
def sequencingAssertion (s : State) : State := s.onCpu fun c => { c with ready := true, diagnostic := true }

/-- Runs a sequence from the cycle the state stands in, time passing between its cycles, up to the work of
its last cycle (whose own time `finishCycle` lets pass). -/
def runCycles : List Cycle → State → State
  | [], s => sequencingAssertion s
  | c :: cs, s =>
    match c s with
    | .done t => retire t
    | .more t => runCycles cs (advance t)

/-- Runs the cycles of a sequence's beginning, and stands at the start of the cycle after them. -/
def leadCycles : List Cycle → State → State
  | [], s => s
  | c :: cs, s =>
    match c s with
    | .done t => t
    | .more t => leadCycles cs (advance t)

/-- The cycle of number `k` of a sequence, run alone (R140 `InstrCycle`, R377 `ServiceCycle`): `sub` moves on
unless it was the last one (41_cpu_stepper.md, section 2); a service sequence's last row moves it on itself
(`endService`). -/
def oneCycle (cs : List Cycle) (k : Nat) (s : State) : State :=
  match cs[k]? with
  | some c =>
    match c s with
    | .done t => retire t
    | .more t => t.onCpu fun c => { c with sub := c.sub + 1 }
  | none => sequencingAssertion s

/-- An idle cycle's read (R156): performed only when `DUMMY_ACCESSES = nmos`, its byte discarded. -/
def idleRead (addr : Word) (s : State) : State :=
  match s.cfg.dummyAccesses with
  | .none => s
  | .nmos => readEffect addr s

/-- An idle cycle's write (R156): the rmw write-back of the unmodified byte. -/
def idleWrite (addr : Word) (v : Byte) (s : State) : State :=
  match s.cfg.dummyAccesses with
  | .none => s
  | .nmos => cpuWrite addr v s

/-- A cycle that makes no access and does nothing. -/
def hold : Cycle := fun s => .more s

/-- An idle cycle that would read at `PC`. -/
def idleAtPc : Cycle := fun s => .more (idleRead s.cpu.pc s)

/-- The stack address of a stack pointer: page 1 (R12). -/
def stackAddr (sp : Byte) : Word := 0x0100 ||| zext16 sp

/-- An idle cycle that would read the stack. -/
def idleAtStack : Cycle := fun s => .more (idleRead (stackAddr s.cpu.sp) s)

/-- `push(v)` (R6). -/
def push (v : Byte) (s : State) : State :=
  (cpuWrite (stackAddr s.cpu.sp) v s).onCpu fun c => { c with sp := c.sp - 1 }

/-- The address `pull()` reads (R6). -/
def pullAddr (s : State) : Word := stackAddr (s.cpu.sp + 1)

/-- The byte `pull()` returns (R6). -/
def pullValue (s : State) : Byte := cpuPeek (pullAddr s) s

/-- The state `pull()` leaves (R6). -/
def afterPull (s : State) : State :=
  (readEffect (pullAddr s) s).onCpu fun c => { c with sp := c.sp + 1 }

/-- Writes the low byte of `PC`. -/
def setPcLow (b : Byte) (c : Cpu) : Cpu := { c with pc := mkWord (hiByte c.pc) b }

/-- Writes the high byte of `PC`. -/
def setPcHigh (b : Byte) (c : Cpu) : Cpu := { c with pc := mkWord b (loByte c.pc) }

/-- `PC <- PC + 1` (R13). -/
def incPc (c : Cpu) : Cpu := { c with pc := c.pc + 1 }

/-- The interrupt vectors (R380). -/
def nmiVector : Word := 0xFFFA

/-- The reset vector's low byte (R60). -/
def resetVector : Word := 0xFFFC

/-- The vector shared by IRQ and BRK (R380). -/
def irqVector : Word := 0xFFFE

/-- The vector of the service sequence in progress (R377). -/
def serviceVector (s : State) : Word := if s.cpu.nmiActive then nmiVector else irqVector

/-- TAKING AN INTERRUPT: the five cycles shared by NMI, IRQ and BRK (R244 c3 to c7, R377 c3 to c7): PC high
byte, PC low byte and the status byte are pushed, I is set, and PC is read from the vector. `b` is the pushed
B bit; `close` is what the last cycle does besides. -/
def entryCycles (b : State → Bool) (vector : State → Word) (close : Cpu → Cpu) : List Cycle :=
  [ fun s => .more (push (hiByte s.cpu.pc) s),
    fun s => .more (push (loByte s.cpu.pc) s),
    fun s => .more ((push (pushedStatus s.cpu.p (b s)) s).onCpu fun c => { c with p := setFlag c.p flagI true }),
    fun s => .more ((readEffect (vector s) s).onCpu (setPcLow (cpuPeek (vector s) s))),
    fun s => .done ((readEffect (vector s + 1) s).onCpu fun c => close (setPcHigh (cpuPeek (vector s + 1) s) c)) ]

/-- The end of a service sequence (R377 c7). `ServiceCycle` increments `sub` after every row of its table, so after the
last one too. -/
def endService (c : Cpu) : Cpu := { c with nmiActive := false, irqActive := false, sub := c.sub + 1 }

/-- The NMI and IRQ service sequence (R377). -/
def serviceCycles : List Cycle :=
  idleAtPc :: idleAtPc :: entryCycles (fun _ => false) serviceVector endService

/-- BRK's c2 (R244): the padding byte is skipped. -/
def brkSkip : Cycle := fun s => .more ((idleRead s.cpu.pc s).onCpu incPc)

/-- BRK's sequence from c2 on (R244): the padding byte is skipped, then the shared entry. -/
def brkCycles : List Cycle :=
  brkSkip :: entryCycles (fun s => s.cfg.brkPushesB) (fun _ => irqVector) id

/-- RETURNING FROM AN INTERRUPT: RTI's sequence from c2 on (R243). -/
def rtiCycles : List Cycle :=
  [ idleAtPc,
    idleAtStack,
    fun s => .more ((afterPull s).onCpu fun c => { c with p := pulledStatus (pullValue s) }),
    fun s => .more ((afterPull s).onCpu (setPcLow (pullValue s))),
    fun s => .done ((afterPull s).onCpu (setPcHigh (pullValue s))) ]

/-- A two-cycle internal instruction at c2 (R144). -/
def internalCycles (op : Cpu → Cpu) : List Cycle :=
  [fun s => .done ((idleRead s.cpu.pc s).onCpu op)]

end Sys2Proof.Machine
end

