-- ==== Sys2Proof/Machine/Operands.lean ====
section
/-!
DEFINITION. Every operand form: its effective address (spec/30_encoding.md R102) and its cycles by category
(spec/41_cpu_stepper.md R145 to R152).

The first cycle of each list is the one in which the last operand byte was fetched (c2, or c3 for a 16-bit
operand); the operand itself is the instruction's. The address cycles leave the effective address in the
latch `ea`; the access cycles come after them.
-/

namespace Sys2Proof.Machine

/-- Which index a form uses: X or Y (R101). -/
inductive Index where
  | x
  | y
deriving DecidableEq, Repr

/-- The index register. -/
def Index.get (i : Index) (c : Cpu) : Byte :=
  match i with
  | .x => c.x
  | .y => c.y

/-- Whether an indexed address crosses a page (R157). -/
def crosses (base : Word) (index : Byte) : Bool := hiByte (base + zext16 index) != hiByte base

/-- A zero-page address indexed inside page 0 (R68 b). -/
def zpIndexed (b index : Byte) : Word := zext16 (b + index)

/-- The address of a 16-bit pointer's second byte in page 0 (R68 a). -/
def zpNext (b : Byte) : Word := zext16 (b + 1)

/-- The address of JMP's second pointer byte: the same page (R68 c, R240). -/
def samePageNext (ptr : Word) : Word := mkWord (hiByte ptr) (loByte ptr + 1)

/-- The 16-bit pointer at a page-0 address (R102 izx, izy). -/
def zpPointer (b : Byte) (s : State) : Word := mkWord (cpuPeek (zpNext b) s) (cpuPeek (zext16 b) s)

/-- The effective address of a form in a state (R102). -/
def effAddr (m : MemOperand) (s : State) : Word :=
  match m with
  | .zp b => zext16 b
  | .zpx b => zpIndexed b s.cpu.x
  | .zpy b => zpIndexed b s.cpu.y
  | .abs w => w
  | .abx w => w + zext16 s.cpu.x
  | .aby w => w + zext16 s.cpu.y
  | .izx b => zpPointer (b + s.cpu.x) s
  | .izy b => zpPointer b s + zext16 s.cpu.y

/-- Whether a form's address crosses a page in a state (R102, R157). -/
def pageCross (m : MemOperand) (s : State) : Bool :=
  match m with
  | .abx w => crosses w s.cpu.x
  | .aby w => crosses w s.cpu.y
  | .izy b => crosses (zpPointer b s) s.cpu.y
  | .zp _ | .zpx _ | .zpy _ | .abs _ | .izx _ => false

/-- The forms with a fix-up cycle (R149, R151). -/
def hasFixUp (m : MemOperand) : Bool :=
  match m with
  | .abx _ | .aby _ | .izy _ => true
  | .zp _ | .zpx _ | .zpy _ | .abs _ | .izx _ => false

/-- Latches an effective address. -/
def setEa (w : Word) : Cycle := fun s => .more (s.onCpu fun c => { c with ea := w })

/-- Latches a base and the address it gives with an index (R149, R151). -/
def indexBase (base : Word) (i : Index) (c : Cpu) : Cpu :=
  { c with ptr := base, ea := base + zext16 (i.get c), cross := crosses base (i.get c) }

/-- The idle c3 of a zero-page indexed form (R147). -/
def zpIndexCycle (b : Byte) (i : Index) : Cycle := fun s =>
  .more ((idleRead (zext16 b) s).onCpu fun c => { c with ea := zpIndexed b (i.get c) })

/-- The idle c3 of an indexed indirect form (R150). -/
def izxPointerCycle (b : Byte) : Cycle := fun s =>
  .more ((idleRead (zext16 b) s).onCpu fun c => { c with ptr := zext16 (b + c.x) })

/-- c4 of an indexed indirect form (R150). -/
def izxLowCycle : Cycle := fun s =>
  .more ((readEffect s.cpu.ptr s).onCpu fun c => { c with ea := mkWord (hiByte c.ea) (cpuPeek s.cpu.ptr s) })

/-- c5 of an indexed indirect form (R150). -/
def izxHighCycle : Cycle := fun s =>
  let a := zpNext (loByte s.cpu.ptr)
  .more ((readEffect a s).onCpu fun c => { c with ea := mkWord (cpuPeek a s) (loByte c.ea) })

/-- c3 of an indirect indexed form (R151). -/
def izyLowCycle (b : Byte) : Cycle := fun s =>
  .more ((readEffect (zext16 b) s).onCpu fun c => { c with ptr := mkWord (hiByte c.ptr) (cpuPeek (zext16 b) s) })

/-- c4 of an indirect indexed form (R151). -/
def izyHighCycle (b : Byte) : Cycle := fun s =>
  .more ((readEffect (zpNext b) s).onCpu fun c => indexBase (mkWord (cpuPeek (zpNext b) s) (loByte c.ptr)) .y c)

/-- The cycles that form the effective address (R146 to R151), the fix-up cycle apart. -/
def addressCycles (m : MemOperand) : List Cycle :=
  match m with
  | .zp b => [setEa (zext16 b)]
  | .zpx b => [hold, zpIndexCycle b .x]
  | .zpy b => [hold, zpIndexCycle b .y]
  | .abs w => [setEa w]
  | .abx w => [fun s => .more (s.onCpu (indexBase w .x))]
  | .aby w => [fun s => .more (s.onCpu (indexBase w .y))]
  | .izx b => [hold, izxPointerCycle b, izxLowCycle, izxHighCycle]
  | .izy b => [hold, izyLowCycle b, izyHighCycle b]

/-- The address before its high byte is fixed (R149, R151: `raw`). -/
def rawAddr (c : Cpu) : Word := mkWord (hiByte c.ptr) (loByte c.ea)

/-- The fix-up cycle (R149, R151). -/
def fixUpCycle : Cycle := fun s => .more (idleRead (rawAddr s.cpu) s)

/-- The last cycle of a read: `M <- MemRead(ea,1)`; op(M). -/
def readLast (op : Byte → Cpu → Cpu) : Cycle := fun s =>
  let v := cpuPeek s.cpu.ea s
  .done ((readEffect s.cpu.ea s).onCpu fun c => op v { c with m := v })

/-- The fix-up cycle of a read, skipped when no page was crossed (R149, R151). -/
def fixUpOrRead (op : Byte → Cpu → Cpu) : Cycle := fun s =>
  if s.cpu.cross then fixUpCycle s else readLast op s

/-- The cycles of the read category (R145 to R151); `op` is the instruction's operation on the byte read. -/
def readCycles (op : Byte → Cpu → Cpu) (o : ReadOperand) : List Cycle :=
  match o with
  | .imm v => [fun s => .done (s.onCpu fun c => op v { c with m := v })]
  | .mem m => addressCycles m ++ (if hasFixUp m then [fixUpOrRead op, readLast op] else [readLast op])

/-- The last cycle of a store: its one bus write (R155). -/
def writeLast (val : Cpu → Byte) : Cycle := fun s =>
  let v := val s.cpu
  .done (cpuWrite s.cpu.ea v (s.onCpu fun c => { c with m := v }))

/-- The cycles of the write category (R146 to R151): the fix-up cycle is always run. -/
def writeCycles (val : Cpu → Byte) (m : MemOperand) : List Cycle :=
  addressCycles m ++ (if hasFixUp m then [fixUpCycle, writeLast val] else [writeLast val])

/-- The read of a read-modify-write. -/
def rmwRead : Cycle := fun s =>
  .more ((readEffect s.cpu.ea s).onCpu fun c => { c with m := cpuPeek s.cpu.ea s })

/-- The internal cycle of a read-modify-write (R156: the write-back of the unmodified byte). -/
def rmwHold : Cycle := fun s => .more (idleWrite s.cpu.ea s.cpu.m s)

/-- The last cycle of a read-modify-write: `r <- f(M)`; `MemWrite(ea,1,r)`; flags. `f` gives the result and
the new status from the status and the byte. -/
def rmwLast (f : Byte → Byte → Byte × Byte) : Cycle := fun s =>
  let r := f s.cpu.p s.cpu.m
  .done ((cpuWrite s.cpu.ea r.1 s).onCpu fun c => { c with p := r.2 })

/-- The cycles of the read-modify-write category (R146 to R149): the fix-up cycle is always run. -/
def rmwCycles (f : Byte → Byte → Byte × Byte) (m : MemOperand) : List Cycle :=
  addressCycles m ++ ((if hasFixUp m then [fixUpCycle] else []) ++ [rmwRead, rmwHold, rmwLast f])

/-- A shift or rotate: on A in c2 (R144), or on memory. -/
def shiftCycles (f : Byte → Byte → Byte × Byte) (o : ShiftOperand) : List Cycle :=
  match o with
  | .acc => internalCycles fun c => { c with a := (f c.p c.a).1, p := (f c.p c.a).2 }
  | .mem m => rmwCycles f m

/-- The target of a branch whose next instruction is at `pc` (R245). -/
def branchTarget (pc : Word) (off : Byte) : Word := pc + sext16 off

/-- c2 of a branch (R152, R245): the condition is evaluated, and a branch not taken is done. -/
def branchDecide (cond : Byte → Bool) (off : Byte) : Cycle := fun s =>
  let target := branchTarget s.cpu.pc off
  if cond s.cpu.p then
    .more (s.onCpu fun c => { c with taken := true, ea := target, cross := hiByte target != hiByte c.pc })
  else .done (s.onCpu fun c => { c with taken := false })

/-- c3 of a taken branch. -/
def branchTake : Cycle := fun s =>
  let s := idleRead s.cpu.pc s
  if s.cpu.cross then .more s else .done (s.onCpu fun c => { c with pc := c.ea })

/-- c4 of a taken branch that crosses a page. -/
def branchFix : Cycle := fun s =>
  .done ((idleRead (mkWord (hiByte s.cpu.pc) (loByte s.cpu.ea)) s).onCpu fun c => { c with pc := c.ea })

/-- The cycles of a branch (R152, R245). -/
def branchCycles (cond : Byte → Bool) (off : Byte) : List Cycle :=
  [branchDecide cond off, branchTake, branchFix]

end Sys2Proof.Machine
end

