-- ==== Sys2Proof/Machine/Alu.lean ====
section
/-!
DEFINITION. Arithmetic, logic, compare and bit test (spec/43_cpu_alu_compare.md).
-/

namespace Sys2Proof.Machine

/-- ADC's operation on the byte read (R200). -/
def opAdc (v : Byte) (c : Cpu) : Cpu := { c with a := adcResult c.p c.a v, p := adcFlags c.p c.a v }

/-- SBC's operation on the byte read (R201). -/
def opSbc (v : Byte) (c : Cpu) : Cpu := { c with a := sbcResult c.p c.a v, p := sbcFlags c.p c.a v }

/-- AND's operation on the byte read (R202). -/
def opAnd (v : Byte) (c : Cpu) : Cpu := { c with a := c.a &&& v, p := setNZ c.p (c.a &&& v) }

/-- ORA's operation on the byte read (R203). -/
def opOra (v : Byte) (c : Cpu) : Cpu := { c with a := c.a ||| v, p := setNZ c.p (c.a ||| v) }

/-- EOR's operation on the byte read (R204). -/
def opEor (v : Byte) (c : Cpu) : Cpu := { c with a := c.a ^^^ v, p := setNZ c.p (c.a ^^^ v) }

/-- CMP's operation on the byte read (R205). -/
def opCmp (v : Byte) (c : Cpu) : Cpu := { c with p := compareFlags c.p c.a v }

/-- CPX's operation on the byte read (R206). -/
def opCpx (v : Byte) (c : Cpu) : Cpu := { c with p := compareFlags c.p c.x v }

/-- CPY's operation on the byte read (R207). -/
def opCpy (v : Byte) (c : Cpu) : Cpu := { c with p := compareFlags c.p c.y v }

/-- BIT's operation on the byte read (R208). -/
def opBit (v : Byte) (c : Cpu) : Cpu := { c with p := bitFlags c.p c.a v }

/-- ADC (R200): its cycles. -/
def cyclesAdc (o : ReadOperand) : List Cycle := readCycles opAdc o

/-- ADC: add memory and carry (R200). -/
def execAdc (o : ReadOperand) (s : State) : Host.Outcome State Fault Refusal := .next (runCycles (cyclesAdc o) s)

/-- SBC (R201): its cycles. -/
def cyclesSbc (o : ReadOperand) : List Cycle := readCycles opSbc o

/-- SBC: subtract memory and borrow (R201). -/
def execSbc (o : ReadOperand) (s : State) : Host.Outcome State Fault Refusal := .next (runCycles (cyclesSbc o) s)

/-- AND (R202): its cycles. -/
def cyclesAnd (o : ReadOperand) : List Cycle := readCycles opAnd o

/-- AND: logical and (R202). -/
def execAnd (o : ReadOperand) (s : State) : Host.Outcome State Fault Refusal := .next (runCycles (cyclesAnd o) s)

/-- ORA (R203): its cycles. -/
def cyclesOra (o : ReadOperand) : List Cycle := readCycles opOra o

/-- ORA: logical or (R203). -/
def execOra (o : ReadOperand) (s : State) : Host.Outcome State Fault Refusal := .next (runCycles (cyclesOra o) s)

/-- EOR (R204): its cycles. -/
def cyclesEor (o : ReadOperand) : List Cycle := readCycles opEor o

/-- EOR: exclusive or (R204). -/
def execEor (o : ReadOperand) (s : State) : Host.Outcome State Fault Refusal := .next (runCycles (cyclesEor o) s)

/-- CMP (R205): its cycles. -/
def cyclesCmp (o : ReadOperand) : List Cycle := readCycles opCmp o

/-- CMP: compare the accumulator (R205). -/
def execCmp (o : ReadOperand) (s : State) : Host.Outcome State Fault Refusal := .next (runCycles (cyclesCmp o) s)

/-- CPX (R206): its cycles. -/
def cyclesCpx (o : ReadOperand) : List Cycle := readCycles opCpx o

/-- CPX: compare X (R206). -/
def execCpx (o : ReadOperand) (s : State) : Host.Outcome State Fault Refusal := .next (runCycles (cyclesCpx o) s)

/-- CPY (R207): its cycles. -/
def cyclesCpy (o : ReadOperand) : List Cycle := readCycles opCpy o

/-- CPY: compare Y (R207). -/
def execCpy (o : ReadOperand) (s : State) : Host.Outcome State Fault Refusal := .next (runCycles (cyclesCpy o) s)

/-- BIT (R208): its cycles. -/
def cyclesBit (o : MemOperand) : List Cycle := readCycles opBit (.mem o)

/-- BIT: test bits of memory against the accumulator (R208). -/
def execBit (o : MemOperand) (s : State) : Host.Outcome State Fault Refusal := .next (runCycles (cyclesBit o) s)

end Sys2Proof.Machine
end

