-- ==== Sys2Proof/Machine/Control.lean ====
section
/-!
DEFINITION. Jumps, subroutine call and return, software interrupt, branches (spec/45_cpu_control_flow.md).
-/

namespace Sys2Proof.Machine

/-- JMP's cycles from c3 on (R240). The indirect form reads the pointer's bytes on c4 and c5, the second one
from the same page as the first. -/
def cyclesJmp (o : JumpOperand) : List Cycle :=
  match o with
  | .abs w => [fun s => .done (s.onCpu fun c => { c with pc := w })]
  | .ind w =>
    [ fun s => .more (s.onCpu fun c => { c with ptr := w }),
      fun s => .more ((readEffect s.cpu.ptr s).onCpu fun c => { c with ea := zext16 (cpuPeek s.cpu.ptr s) }),
      fun s =>
        let a := samePageNext s.cpu.ptr
        .done ((readEffect a s).onCpu fun c => { c with pc := mkWord (cpuPeek a s) (loByte c.ea) }) ]

/-- JMP: jump (R240). -/
def execJmp (o : JumpOperand) (s : State) : Host.Outcome State Fault Refusal := .next (runCycles (cyclesJmp o) s)

/-- JSR's cycles c2 to c5 (R241): the return address, that of the JSR's last byte, is pushed high byte first. -/
def jsrLead : List Cycle :=
  [ hold,
    idleAtStack,
    fun s => .more (push (hiByte s.cpu.pc) s),
    fun s => .more (push (loByte s.cpu.pc) s) ]

/-- JSR's c6 (R241): the third byte is read, after the pushes, and the jump made. `target` holds that byte:
whoever decodes the instruction looks it up where c6 reads it (log 6). -/
def jsrLast (target : Word) : Cycle := fun s =>
  .done ((readEffect s.cpu.pc s).onCpu fun c => { c with hi := hiByte target, pc := target })

/-- JSR's cycles from c2 on (R241). -/
def cyclesJsr (target : Word) : List Cycle := jsrLead ++ [jsrLast target]

/-- JSR: jump to subroutine (R241). -/
def execJsr (target : Word) (s : State) : Host.Outcome State Fault Refusal := .next (runCycles (cyclesJsr target) s)

/-- RTS's cycles from c2 on (R242). -/
def cyclesRts : List Cycle :=
  [ idleAtPc,
    idleAtStack,
    fun s => .more ((afterPull s).onCpu (setPcLow (pullValue s))),
    fun s => .more ((afterPull s).onCpu (setPcHigh (pullValue s))),
    fun s => .done ((idleRead s.cpu.pc s).onCpu incPc) ]

/-- RTS: return from subroutine (R242). -/
def execRts (s : State) : Host.Outcome State Fault Refusal := .next (runCycles cyclesRts s)

/-- RTI (R243): its cycles. -/
def cyclesRti : List Cycle := rtiCycles

/-- RTI: return from interrupt (R243). -/
def execRti (s : State) : Host.Outcome State Fault Refusal := .next (runCycles (cyclesRti) s)

/-- BRK (R244): its cycles. -/
def cyclesBrk : List Cycle := brkCycles

/-- BRK: software interrupt (R244). -/
def execBrk (s : State) : Host.Outcome State Fault Refusal := .next (runCycles (cyclesBrk) s)

/-- BCC's condition (R246): C = 0. -/
def condBcc (p : Byte) : Bool := !flag p flagC

/-- BCC (R246): its cycles. -/
def cyclesBcc (o : Byte) : List Cycle := branchCycles condBcc o

/-- BCC: branch when C = 0 (R246). -/
def execBcc (o : Byte) (s : State) : Host.Outcome State Fault Refusal := .next (runCycles (cyclesBcc o) s)

/-- BCS's condition (R247): C = 1. -/
def condBcs (p : Byte) : Bool := flag p flagC

/-- BCS (R247): its cycles. -/
def cyclesBcs (o : Byte) : List Cycle := branchCycles condBcs o

/-- BCS: branch when C = 1 (R247). -/
def execBcs (o : Byte) (s : State) : Host.Outcome State Fault Refusal := .next (runCycles (cyclesBcs o) s)

/-- BEQ's condition (R248): Z = 1. -/
def condBeq (p : Byte) : Bool := flag p flagZ

/-- BEQ (R248): its cycles. -/
def cyclesBeq (o : Byte) : List Cycle := branchCycles condBeq o

/-- BEQ: branch when Z = 1 (R248). -/
def execBeq (o : Byte) (s : State) : Host.Outcome State Fault Refusal := .next (runCycles (cyclesBeq o) s)

/-- BNE's condition (R249): Z = 0. -/
def condBne (p : Byte) : Bool := !flag p flagZ

/-- BNE (R249): its cycles. -/
def cyclesBne (o : Byte) : List Cycle := branchCycles condBne o

/-- BNE: branch when Z = 0 (R249). -/
def execBne (o : Byte) (s : State) : Host.Outcome State Fault Refusal := .next (runCycles (cyclesBne o) s)

/-- BMI's condition (R250): N = 1. -/
def condBmi (p : Byte) : Bool := flag p flagN

/-- BMI (R250): its cycles. -/
def cyclesBmi (o : Byte) : List Cycle := branchCycles condBmi o

/-- BMI: branch when N = 1 (R250). -/
def execBmi (o : Byte) (s : State) : Host.Outcome State Fault Refusal := .next (runCycles (cyclesBmi o) s)

/-- BPL's condition (R251): N = 0. -/
def condBpl (p : Byte) : Bool := !flag p flagN

/-- BPL (R251): its cycles. -/
def cyclesBpl (o : Byte) : List Cycle := branchCycles condBpl o

/-- BPL: branch when N = 0 (R251). -/
def execBpl (o : Byte) (s : State) : Host.Outcome State Fault Refusal := .next (runCycles (cyclesBpl o) s)

/-- BVC's condition (R252): V = 0. -/
def condBvc (p : Byte) : Bool := !flag p flagV

/-- BVC (R252): its cycles. -/
def cyclesBvc (o : Byte) : List Cycle := branchCycles condBvc o

/-- BVC: branch when V = 0 (R252). -/
def execBvc (o : Byte) (s : State) : Host.Outcome State Fault Refusal := .next (runCycles (cyclesBvc o) s)

/-- BVS's condition (R253): V = 1. -/
def condBvs (p : Byte) : Bool := flag p flagV

/-- BVS (R253): its cycles. -/
def cyclesBvs (o : Byte) : List Cycle := branchCycles condBvs o

/-- BVS: branch when V = 1 (R253). -/
def execBvs (o : Byte) (s : State) : Host.Outcome State Fault Refusal := .next (runCycles (cyclesBvs o) s)

end Sys2Proof.Machine
end

