-- ==== Sys2Proof/Machine/Halt.lean ====
section
/-!
DEFINITION. The halt on an illegal opcode (spec/30_encoding.md R104, spec/60_exceptions.md R371).
-/

namespace Sys2Proof.Machine

/-- The halt routine, in the fetch cycle of an illegal opcode byte (R141, R371): `halted`, and nothing else;
`ready` keeps the value true. -/
def haltCycle : Cycle := fun s => .done (s.onCpu fun c => { c with halted := true })

/-- ILLEGAL (R371): its cycles. -/
def cyclesIllegal (_op : Byte) : List Cycle := [haltCycle]

/-- ILLEGAL: an illegal opcode halts the CPU (R371). -/
def execIllegal (o : Byte) (s : State) : Host.Outcome State Fault Refusal := .next (runCycles (cyclesIllegal o) s)

end Sys2Proof.Machine
end

