-- ==== Sys2Proof/Machine/LoadStore.lean ====
section
/-!
DEFINITION. Loads, stores and register transfers (spec/42_cpu_load_store_transfer.md).
-/

namespace Sys2Proof.Machine

/-- `A <- v ; setNZ(A)`. -/
def loadA (v : Byte) (c : Cpu) : Cpu := { c with a := v, p := setNZ c.p v }

/-- `X <- v ; setNZ(X)`. -/
def loadX (v : Byte) (c : Cpu) : Cpu := { c with x := v, p := setNZ c.p v }

/-- `Y <- v ; setNZ(Y)`. -/
def loadY (v : Byte) (c : Cpu) : Cpu := { c with y := v, p := setNZ c.p v }

/-- LDA (R180): its cycles. -/
def cyclesLda (o : ReadOperand) : List Cycle := readCycles loadA o

/-- LDA: load the accumulator (R180). -/
def execLda (o : ReadOperand) (s : State) : Host.Outcome State Fault Refusal := .next (runCycles (cyclesLda o) s)

/-- LDX (R181): its cycles. -/
def cyclesLdx (o : ReadOperand) : List Cycle := readCycles loadX o

/-- LDX: load X (R181). -/
def execLdx (o : ReadOperand) (s : State) : Host.Outcome State Fault Refusal := .next (runCycles (cyclesLdx o) s)

/-- LDY (R182): its cycles. -/
def cyclesLdy (o : ReadOperand) : List Cycle := readCycles loadY o

/-- LDY: load Y (R182). -/
def execLdy (o : ReadOperand) (s : State) : Host.Outcome State Fault Refusal := .next (runCycles (cyclesLdy o) s)

/-- STA (R183): its cycles. -/
def cyclesSta (o : MemOperand) : List Cycle := writeCycles (fun c => c.a) o

/-- STA: store the accumulator (R183). -/
def execSta (o : MemOperand) (s : State) : Host.Outcome State Fault Refusal := .next (runCycles (cyclesSta o) s)

/-- STX (R184): its cycles. -/
def cyclesStx (o : MemOperand) : List Cycle := writeCycles (fun c => c.x) o

/-- STX: store X (R184). -/
def execStx (o : MemOperand) (s : State) : Host.Outcome State Fault Refusal := .next (runCycles (cyclesStx o) s)

/-- STY (R185): its cycles. -/
def cyclesSty (o : MemOperand) : List Cycle := writeCycles (fun c => c.y) o

/-- STY: store Y (R185). -/
def execSty (o : MemOperand) (s : State) : Host.Outcome State Fault Refusal := .next (runCycles (cyclesSty o) s)

/-- TAX (R186): its cycles. -/
def cyclesTax : List Cycle := internalCycles fun c => loadX c.a c

/-- TAX: A to X (R186). -/
def execTax (s : State) : Host.Outcome State Fault Refusal := .next (runCycles (cyclesTax) s)

/-- TAY (R187): its cycles. -/
def cyclesTay : List Cycle := internalCycles fun c => loadY c.a c

/-- TAY: A to Y (R187). -/
def execTay (s : State) : Host.Outcome State Fault Refusal := .next (runCycles (cyclesTay) s)

/-- TXA (R188): its cycles. -/
def cyclesTxa : List Cycle := internalCycles fun c => loadA c.x c

/-- TXA: X to A (R188). -/
def execTxa (s : State) : Host.Outcome State Fault Refusal := .next (runCycles (cyclesTxa) s)

/-- TYA (R189): its cycles. -/
def cyclesTya : List Cycle := internalCycles fun c => loadA c.y c

/-- TYA: Y to A (R189). -/
def execTya (s : State) : Host.Outcome State Fault Refusal := .next (runCycles (cyclesTya) s)

/-- TSX (R190): its cycles. -/
def cyclesTsx : List Cycle := internalCycles fun c => loadX c.sp c

/-- TSX: SP to X (R190). -/
def execTsx (s : State) : Host.Outcome State Fault Refusal := .next (runCycles (cyclesTsx) s)

/-- TXS (R191): its cycles. -/
def cyclesTxs : List Cycle := internalCycles fun c => { c with sp := c.x }

/-- TXS: X to SP, no flag changed (R191). -/
def execTxs (s : State) : Host.Outcome State Fault Refusal := .next (runCycles (cyclesTxs) s)

end Sys2Proof.Machine
end

