-- ==== Sys2Proof/Machine/Rmw.lean ====
section
/-!
DEFINITION. Shifts, rotates, increments and decrements (spec/44_cpu_rmw.md).
-/

namespace Sys2Proof.Machine

/-- ASL's result and status (R220). -/
def fAsl (p v : Byte) : Byte × Byte := (aslResult v, shiftFlags p (aslResult v) (bitAt v 7))

/-- LSR's result and status (R221). -/
def fLsr (p v : Byte) : Byte × Byte := (lsrResult v, shiftFlags p (lsrResult v) (bitAt v 0))

/-- ROL's result and status (R222). -/
def fRol (p v : Byte) : Byte × Byte := (rolResult p v, shiftFlags p (rolResult p v) (bitAt v 7))

/-- ROR's result and status (R223). -/
def fRor (p v : Byte) : Byte × Byte := (rorResult p v, shiftFlags p (rorResult p v) (bitAt v 0))

/-- INC's result and status (R224). -/
def fInc (p v : Byte) : Byte × Byte := (v + 1, setNZ p (v + 1))

/-- DEC's result and status (R225). -/
def fDec (p v : Byte) : Byte × Byte := (v - 1, setNZ p (v - 1))

/-- ASL (R220): its cycles. -/
def cyclesAsl (o : ShiftOperand) : List Cycle := shiftCycles fAsl o

/-- ASL: arithmetic shift left (R220). -/
def execAsl (o : ShiftOperand) (s : State) : Host.Outcome State Fault Refusal := .next (runCycles (cyclesAsl o) s)

/-- LSR (R221): its cycles. -/
def cyclesLsr (o : ShiftOperand) : List Cycle := shiftCycles fLsr o

/-- LSR: logical shift right (R221). -/
def execLsr (o : ShiftOperand) (s : State) : Host.Outcome State Fault Refusal := .next (runCycles (cyclesLsr o) s)

/-- ROL (R222): its cycles. -/
def cyclesRol (o : ShiftOperand) : List Cycle := shiftCycles fRol o

/-- ROL: rotate left through carry (R222). -/
def execRol (o : ShiftOperand) (s : State) : Host.Outcome State Fault Refusal := .next (runCycles (cyclesRol o) s)

/-- ROR (R223): its cycles. -/
def cyclesRor (o : ShiftOperand) : List Cycle := shiftCycles fRor o

/-- ROR: rotate right through carry (R223). -/
def execRor (o : ShiftOperand) (s : State) : Host.Outcome State Fault Refusal := .next (runCycles (cyclesRor o) s)

/-- INC (R224): its cycles. -/
def cyclesInc (o : MemOperand) : List Cycle := rmwCycles fInc o

/-- INC: increment memory (R224). -/
def execInc (o : MemOperand) (s : State) : Host.Outcome State Fault Refusal := .next (runCycles (cyclesInc o) s)

/-- DEC (R225): its cycles. -/
def cyclesDec (o : MemOperand) : List Cycle := rmwCycles fDec o

/-- DEC: decrement memory (R225). -/
def execDec (o : MemOperand) (s : State) : Host.Outcome State Fault Refusal := .next (runCycles (cyclesDec o) s)

/-- INX (R226): its cycles. -/
def cyclesInx : List Cycle := internalCycles fun c => { c with x := c.x + 1, p := setNZ c.p (c.x + 1) }

/-- INX: increment X (R226). -/
def execInx (s : State) : Host.Outcome State Fault Refusal := .next (runCycles (cyclesInx) s)

/-- INY (R227): its cycles. -/
def cyclesIny : List Cycle := internalCycles fun c => { c with y := c.y + 1, p := setNZ c.p (c.y + 1) }

/-- INY: increment Y (R227). -/
def execIny (s : State) : Host.Outcome State Fault Refusal := .next (runCycles (cyclesIny) s)

/-- DEX (R228): its cycles. -/
def cyclesDex : List Cycle := internalCycles fun c => { c with x := c.x - 1, p := setNZ c.p (c.x - 1) }

/-- DEX: decrement X (R228). -/
def execDex (s : State) : Host.Outcome State Fault Refusal := .next (runCycles (cyclesDex) s)

/-- DEY (R229): its cycles. -/
def cyclesDey : List Cycle := internalCycles fun c => { c with y := c.y - 1, p := setNZ c.p (c.y - 1) }

/-- DEY: decrement Y (R229). -/
def execDey (s : State) : Host.Outcome State Fault Refusal := .next (runCycles (cyclesDey) s)

end Sys2Proof.Machine
end

