-- ==== Sys2Proof/Machine/Stack.lean ====
section
/-!
DEFINITION. Stack pushes and pulls, flag instructions, NOP (spec/46_cpu_stack_flags.md).
-/

namespace Sys2Proof.Machine

/-- PHA (R260): its cycles. -/
def cyclesPha : List Cycle := [idleAtPc, fun s => .done (push s.cpu.a s)]

/-- PHA: push the accumulator (R260). -/
def execPha (s : State) : Host.Outcome State Fault Refusal := .next (runCycles (cyclesPha) s)

/-- PHP (R261): its cycles. -/
def cyclesPhp : List Cycle := [idleAtPc, fun s => .done (push (phpStatus s.cpu.p) s)]

/-- PHP: push the status, bits 5 and 4 set (R261). -/
def execPhp (s : State) : Host.Outcome State Fault Refusal := .next (runCycles (cyclesPhp) s)

/-- PLA (R262): its cycles. -/
def cyclesPla : List Cycle :=
  [ idleAtPc,
    idleAtStack,
    fun s => .done ((afterPull s).onCpu fun c => { c with a := pullValue s, p := setNZ c.p (pullValue s) }) ]

/-- PLA: pull the accumulator (R262). -/
def execPla (s : State) : Host.Outcome State Fault Refusal := .next (runCycles (cyclesPla) s)

/-- PLP (R263): its cycles. -/
def cyclesPlp : List Cycle :=
  [ idleAtPc,
    idleAtStack,
    fun s => .done ((afterPull s).onCpu fun c => { c with p := pulledStatus (pullValue s) }) ]

/-- PLP: pull the status, B forced to 0 and U to 1 (R263). -/
def execPlp (s : State) : Host.Outcome State Fault Refusal := .next (runCycles (cyclesPlp) s)

/-- CLC (R264): its cycles. -/
def cyclesClc : List Cycle := internalCycles fun c => { c with p := setFlag c.p flagC false }

/-- CLC: clear C (R264). -/
def execClc (s : State) : Host.Outcome State Fault Refusal := .next (runCycles (cyclesClc) s)

/-- SEC (R265): its cycles. -/
def cyclesSec : List Cycle := internalCycles fun c => { c with p := setFlag c.p flagC true }

/-- SEC: set C (R265). -/
def execSec (s : State) : Host.Outcome State Fault Refusal := .next (runCycles (cyclesSec) s)

/-- CLI (R266): its cycles. -/
def cyclesCli : List Cycle := internalCycles fun c => { c with p := setFlag c.p flagI false }

/-- CLI: clear I (R266). -/
def execCli (s : State) : Host.Outcome State Fault Refusal := .next (runCycles (cyclesCli) s)

/-- SEI (R267): its cycles. -/
def cyclesSei : List Cycle := internalCycles fun c => { c with p := setFlag c.p flagI true }

/-- SEI: set I (R267). -/
def execSei (s : State) : Host.Outcome State Fault Refusal := .next (runCycles (cyclesSei) s)

/-- CLV (R268): its cycles. -/
def cyclesClv : List Cycle := internalCycles fun c => { c with p := setFlag c.p flagV false }

/-- CLV: clear V (R268). -/
def execClv (s : State) : Host.Outcome State Fault Refusal := .next (runCycles (cyclesClv) s)

/-- CLD (R269): its cycles. -/
def cyclesCld : List Cycle := internalCycles fun c => { c with p := setFlag c.p flagD false }

/-- CLD: clear D (R269). -/
def execCld (s : State) : Host.Outcome State Fault Refusal := .next (runCycles (cyclesCld) s)

/-- SED (R270): its cycles. -/
def cyclesSed : List Cycle := internalCycles fun c => { c with p := setFlag c.p flagD true }

/-- SED: set D (R270). -/
def execSed (s : State) : Host.Outcome State Fault Refusal := .next (runCycles (cyclesSed) s)

/-- NOP (R271): its cycles. -/
def cyclesNop : List Cycle := internalCycles id

/-- NOP: no operation (R271). -/
def execNop (s : State) : Host.Outcome State Fault Refusal := .next (runCycles (cyclesNop) s)

end Sys2Proof.Machine
end

