-- ==== Sys2Proof/Machine/Cycles.lean ====
section
/-!
DEFINITION. The CPU's step, one cycle (spec/41_cpu_stepper.md R140 to R142, R165), the master cycle
(spec/40_bus_master_cycle.md R120), and the CPU run to the end of what it is doing (R125, R158).
-/

namespace Sys2Proof.Machine

/-- The cycles of an instruction, from the cycle in which its last operand byte is fetched: the list each
meaning runs. -/
def cyclesOf (i : Instr) : List Cycle :=
  match i with
  | .lda o => cyclesLda o
  | .ldx o => cyclesLdx o
  | .ldy o => cyclesLdy o
  | .sta m => cyclesSta m
  | .stx m => cyclesStx m
  | .sty m => cyclesSty m
  | .tax => cyclesTax
  | .tay => cyclesTay
  | .txa => cyclesTxa
  | .tya => cyclesTya
  | .tsx => cyclesTsx
  | .txs => cyclesTxs
  | .adc o => cyclesAdc o
  | .sbc o => cyclesSbc o
  | .and o => cyclesAnd o
  | .ora o => cyclesOra o
  | .eor o => cyclesEor o
  | .cmp o => cyclesCmp o
  | .cpx o => cyclesCpx o
  | .cpy o => cyclesCpy o
  | .bit m => cyclesBit m
  | .asl o => cyclesAsl o
  | .lsr o => cyclesLsr o
  | .rol o => cyclesRol o
  | .ror o => cyclesRor o
  | .inc m => cyclesInc m
  | .dec m => cyclesDec m
  | .inx => cyclesInx
  | .iny => cyclesIny
  | .dex => cyclesDex
  | .dey => cyclesDey
  | .jmp o => cyclesJmp o
  | .jsr target => cyclesJsr target
  | .rts => cyclesRts
  | .rti => cyclesRti
  | .brk => cyclesBrk
  | .bcc off => cyclesBcc off
  | .bcs off => cyclesBcs off
  | .beq off => cyclesBeq off
  | .bne off => cyclesBne off
  | .bmi off => cyclesBmi off
  | .bpl off => cyclesBpl off
  | .bvc off => cyclesBvc off
  | .bvs off => cyclesBvs off
  | .pha => cyclesPha
  | .php => cyclesPhp
  | .pla => cyclesPla
  | .plp => cyclesPlp
  | .clc => cyclesClc
  | .sec => cyclesSec
  | .cli => cyclesCli
  | .sei => cyclesSei
  | .clv => cyclesClv
  | .cld => cyclesCld
  | .sed => cyclesSed
  | .nop => cyclesNop
  | .illegal op => cyclesIllegal op

/-- The start of `FetchCycle` (R141, R142): the address enters the history ring, the opcode is read, PC moves on. -/
def fetchOpcode (s : State) : State :=
  (readEffect s.cpu.pc s).onCpu fun c =>
    { c with
      history := c.history.set c.histPos.val s.cpu.pc c.histPos.isLt
      histPos := c.histPos + 1
      ir := cpuPeek s.cpu.pc s
      pc := s.cpu.pc + 1 }

/-- The end of `FetchCycle` for a legal opcode (R141): the instruction has begun, and c2 comes next. -/
def beginInstr (s : State) : State :=
  s.onCpu fun c => { c with mode := opcodeMode c.ir, ready := false, sub := 1 }

/-- `FetchCycle()` (R141). -/
def fetchCycle (s : State) : State :=
  let s := fetchOpcode s
  if isIllegal s.cpu.ir then s.onCpu fun c => { c with halted := true } else beginInstr s

/-- `lo <- MemRead(PC,1) ; PC <- PC+1`. -/
def fetchLow (s : State) : State :=
  (readEffect s.cpu.pc s).onCpu fun c => { c with lo := cpuPeek s.cpu.pc s, pc := c.pc + 1 }

/-- `hi <- MemRead(PC,1) ; PC <- PC+1`. -/
def fetchHigh (s : State) : State :=
  (readEffect s.cpu.pc s).onCpu fun c => { c with hi := cpuPeek s.cpu.pc s, pc := c.pc + 1 }

/-- The opcode byte of JSR (R241), the one instruction whose last byte is not fetched before its other cycles. -/
def jsrOpcode : Byte := 0x20

/-- How many operand bytes of an opcode are fetched in its first cycles, c2 and c3 (R144 to R152, R241). -/
def leadingBytes (op : Byte) : Nat :=
  if op = jsrOpcode then 1 else (opcodeMode op).operandBytes

/-- The value of `sub` in the cycle in which the last of those bytes is fetched: c2, or c3. -/
def entrySub (op : Byte) : Nat := if leadingBytes op = 2 then 2 else 1

/-- The instruction the CPU is in, from its opcode and operand latches. JSR's third byte, which c6 reads where
PC stands, is looked up there (R241; log 6). -/
def currentInstr (s : State) : Instr :=
  instrOf s.cpu.ir s.cpu.lo (if s.cpu.ir = jsrOpcode then cpuPeek s.cpu.pc s else s.cpu.hi)

/-- The operand byte that the cycle about to run fetches, if it fetches one (R145 to R152). -/
def fetchOperand (s : State) : State :=
  if s.cpu.sub = 1 ∧ 1 ≤ leadingBytes s.cpu.ir then fetchLow s
  else if s.cpu.sub = 2 ∧ leadingBytes s.cpu.ir = 2 then fetchHigh s
  else s

/-- `InstrCycle()` (R140): the cycle c(`sub`+1) of the current instruction. -/
def instrCycle (s : State) : State :=
  let t := fetchOperand s
  if t.cpu.sub < entrySub t.cpu.ir then t.onCpu fun c => { c with sub := c.sub + 1 }
  else oneCycle (cyclesOf (currentInstr t)) (t.cpu.sub - entrySub t.cpu.ir) t

/-- `ServiceCycle()` (R377). -/
def serviceCycle (s : State) : State := oneCycle serviceCycles s.cpu.sub s

/-- The alignment part of `DmaCycle` (R165): an even cycle ends the wait. -/
def dmaAlign (c : Cpu) : Cpu := { c with dmaWait := false }

/-- A DMA read (R165). -/
def dmaRead (s : State) : State :=
  let a := mkWord s.cpu.dmaPage s.cpu.dmaAddr
  (readEffect a s).onCpu fun c => { c with dmaData := cpuPeek a s }

/-- A DMA write (R165): `oam[dma_addr]`, whatever `oam_addr` holds; after index 255 the transfer ends. -/
def dmaWrite (s : State) : State :=
  let s' := s.onPpu fun p => { p with oam := Store.write unlisted p.oam s.cpu.dmaAddr.toNat s.cpu.dmaData }
  let next := s.cpu.dmaAddr + 1
  s'.onCpu fun c =>
    if next = 0 then { c with dmaAddr := next, dmaActive := false, dmaWait := true, ready := true }
    else { c with dmaAddr := next }

/-- `DmaCycle()` (R165): reads on even `cyc`, writes on odd; one idle cycle first if the transfer starts odd. -/
def dmaCycle (s : State) : State :=
  if s.cpu.dmaWait then
    if s.cpu.cyc % 2 = 1 then s else dmaRead (s.onCpu dmaAlign)
  else if s.cpu.cyc % 2 = 0 then dmaRead s
  else dmaWrite s

/-- The boundary's start of a DMA transfer (R140). -/
def startDma (s : State) : State :=
  s.onCpu fun c => { c with dmaRequest := false, dmaActive := true, dmaAddr := 0, dmaWait := true, ready := false }

/-- The boundary's start of an NMI service (R140, R378). -/
def startNmi (s : State) : State :=
  s.onCpu fun c => { c with nmiPending := false, nmiActive := true, ready := false, sub := 0 }

/-- The boundary's start of an IRQ service (R140, R379). -/
def startIrq (s : State) : State :=
  s.onCpu fun c => { c with irqPending := false, irqActive := true, ready := false, sub := 0 }

/-- An IRQ is pending and not masked (R376). -/
def irqAccepted (c : Cpu) : Bool := c.irqPending && !flag c.p flagI

/-- What the CPU does at an instruction boundary, in the order of R376. -/
inductive Choice where
  | dma
  | nmi
  | irq
  | fetch
deriving DecidableEq, Repr

/-- Sampling and priority at a boundary (R376). -/
def choose (c : Cpu) : Choice :=
  if c.dmaRequest then .dma
  else if c.nmiPending then .nmi
  else if irqAccepted c then .irq
  else .fetch

/-- The CPU step at an instruction boundary (R140). -/
def boundaryCycle (s : State) : State :=
  match choose s.cpu with
  | .dma => dmaCycle (startDma s)
  | .nmi => serviceCycle (startNmi s)
  | .irq => serviceCycle (startIrq s)
  | .fetch => fetchCycle s

/-- The work of `CpuStep()` (R140), its count of `cyc` apart. -/
def cpuWork (s : State) : State :=
  if s.cpu.dmaActive then dmaCycle s
  else if s.cpu.nmiActive || s.cpu.irqActive then serviceCycle s
  else if s.cpu.ready then boundaryCycle s
  else instrCycle s

/-- `MasterCycle()` (R120): the CPU step if it is due (a halted CPU's is a no-op, R140), then the PPU's, the
mapper's, NMI routing, and the halt observation. -/
def masterCycle (s : State) : State :=
  if s.bus.cpuDivCnt = 0 then
    if s.cpu.halted then afterCpu { s with bus := { s.bus with cpuDivCnt := s.cfg.cpuDivider - 1 } }
    else finishCycle (cpuWork s)
  else idleCycle s

/-- `n` master cycles. -/
def masterCycles : Nat → State → State
  | 0, s => s
  | n + 1, s => masterCycles n (masterCycle s)

/-- The most CPU cycles that one instruction, service sequence or DMA transfer can take (R161, R165: 7 or 513),
rounded up. -/
def runCpuBound : Nat := 520

/-- Runs CPU steps, from one that is due now, until one of them completes what the CPU is doing (R125, R158). -/
def runCpu : Nat → State → Host.Outcome State Fault Refusal
  | 0, _ => .fault .unfinished
  | n + 1, s =>
    let t := cpuWork s
    if t.cpu.ready then .next (finishCycle t) else runCpu n (elapse t)

end Sys2Proof.Machine
end

