-- ==== Sys2Proof/Machine/Fetch.lean ====
section
/-!
DEFINITION. Fetching an instruction at a boundary (spec/41_cpu_stepper.md R141, R144 to R152), and placing an
instruction's bytes where they are fetched.
-/

namespace Sys2Proof.Machine

/-- A decoded instruction, and the state that `exec` takes it up in. -/
structure Fetched where
  instr : Instr
  state : State
deriving DecidableEq, Repr

/-- The byte JSR's c6 will read (R241): looked up after c2 to c5, so that the pushes, and the time that passes,
are seen (log 6). -/
def jsrHigh (s : State) : Byte :=
  let t := leadCycles jsrLead s
  cpuPeek t.cpu.pc t

/-- Fetches c2's operand byte, and c3's for a 16-bit operand, time passing between; `s` stands at the start of
c2. An instruction with no operand byte fetches none. -/
def fetchOperands (s : State) : Fetched :=
  match leadingBytes s.cpu.ir with
  | 0 => ⟨instrOf s.cpu.ir 0 0, s⟩
  | 1 =>
    let t := fetchLow s
    ⟨instrOf t.cpu.ir t.cpu.lo (if t.cpu.ir = jsrOpcode then jsrHigh t else 0), t⟩
  | _ =>
    let t := fetchHigh (advance (fetchLow s))
    ⟨instrOf t.cpu.ir t.cpu.lo t.cpu.hi, t⟩

/-- Fetches the instruction at PC, from the boundary on (R141): an illegal byte is taken up in c1, any other
instruction in c2 or c3. -/
def fetchInstr (s : State) : Fetched :=
  let t := fetchOpcode s
  if isIllegal t.cpu.ir then ⟨.illegal t.cpu.ir, t⟩
  else fetchOperands (elapse (beginInstr t))

/-- Lets the time of an outcome's last CPU cycle pass. -/
def finishOutcome (o : Host.Outcome State Fault Refusal) : Host.Outcome State Fault Refusal :=
  match o with
  | .next t => .next (finishCycle t)
  | .fault r => .fault r
  | .refused r => .refused r

/-- Whether the CPU fetches an opcode when it steps next: it is at a boundary, and no request is taken. -/
def fetches (c : Cpu) : Bool :=
  !c.dmaActive && !c.nmiActive && !c.irqActive && c.ready && decide (choose c = .fetch)

/-- Fetches and runs the instruction at PC. -/
def runInstr (s : State) : Host.Outcome State Fault Refusal :=
  finishOutcome (exec (fetchInstr s).instr (fetchInstr s).state)

/-- Whether a byte can be placed at a CPU address so that a fetch there reads it: RAM, PRG-RAM or PRG ROM. -/
def placeable (addr : Word) (s : State) : Bool :=
  match region addr with
  | .ram _ => true
  | .cartridge => s.cart.mapCpuRead addr != .unmapped
  | .ppuReg _ | .dma | .strobe | .port1 | .stub => false

/-- Places a byte at a CPU address; into the ROM image where the address is ROM's. -/
def placeByte (addr : Word) (b : Byte) (s : State) : State :=
  match region addr with
  | .ram off => { s with ram := Store.write unlisted s.ram off b }
  | .cartridge =>
    match s.cart.mapCpuRead addr with
    | .prg off => s.onCart fun c => { c with rom := { c.rom with prg := Store.write unlisted c.rom.prg off b } }
    | .prgRam off => s.onCart fun c => { c with prgRam := Store.write unlisted c.prgRam off b }
    | .unmapped => s
  | .ppuReg _ | .dma | .strobe | .port1 | .stub => s

/-- Where instructions are placed when PC does not stand in memory. -/
def placeDefault : Word := 0x0200

/-- The CPU about to fetch: at a boundary, nothing requested, nothing in progress, not halted. -/
def readyToFetch (c : Cpu) : Cpu :=
  { c with
    ready := true
    halted := false
    dmaActive := false
    dmaRequest := false
    nmiActive := false
    nmiPending := false
    irqActive := false
    irqPending := false }

/-- The state in which the very next step fetches and runs the instruction with these three bytes (log 23): the
bytes are placed at PC, or at `placeDefault` with PC moved there if PC stands outside memory; the CPU is at a
boundary with nothing requested, and its step is due. -/
def placeInstr (b0 b1 b2 : Byte) (s : State) : State :=
  let pc := s.cpu.pc
  let pc := if placeable pc s && placeable (pc + 1) s && placeable (pc + 2) s then pc else placeDefault
  let s := placeByte pc b0 (placeByte (pc + 1) b1 (placeByte (pc + 2) b2 s))
  { s with cpu := { readyToFetch s.cpu with pc := pc }, bus := { s.bus with cpuDivCnt := 0 } }

end Sys2Proof.Machine
end

