-- ==== Sys2Proof/Machine/Step.lean ====
section
/-!
DEFINITION. The step, and the placing of an instruction for the very next step.
-/

namespace Sys2Proof.Machine

/-- One step of the machine: the master cycles from here to the end of the one in which the CPU completes its
next instruction, service sequence or DMA transfer (spec/40_bus_master_cycle.md R125, `AdvanceOneInstruction`;
log 5). On a halted machine, whose CPU completes nothing any more, it is one master cycle (R124, R372). -/
def step (s : State) : Host.Outcome State Fault Refusal :=
  if s.cpu.halted then .next (masterCycle s)
  else
    let t := waitCpu s
    if fetches t.cpu then runInstr t else runCpu runCpuBound t

/-- The state with an instruction, given as a table word, stored where the next step fetches it (log 23). -/
def State.withFetchWord (s : State) (_nbits w : Nat) : State :=
  placeInstr (BitVec.ofNat 8 w) (BitVec.ofNat 8 (w / 256)) (BitVec.ofNat 8 (w / 65536)) s

end Sys2Proof.Machine
end

