-- ==== Sys2Proof/Machine/Reset.lean ====
section
/-!
DEFINITION. Device reset (spec/70_reset_and_hazards.md R400 to R403).
-/

namespace Sys2Proof.Machine

/-- `MapperReset()` (R360): the variant's registers; the cartridge's memories are not touched. -/
def mapperReset (c : Cartridge) : Cartridge := { c with mapper := c.mapper.reset c.rom.mirroring }

/-- `PpuReset()` (R402): `oam`, `pal`, `ciram` and `fb` are not touched. -/
def ppuReset (p : Ppu) : Ppu := { Ppu.reset with oam := p.oam, pal := p.pal, ciram := p.ciram, fb := p.fb }

/-- A controller port's reset (R400): the buttons are the environment's. -/
def portReset (p : Port) : Port := { p with latched := 0, reads := 0 }

/-- The reset vector, low byte at `$FFFC` (R401). -/
def resetTarget (s : State) : Word := mkWord (cpuPeek (resetVector + 1) s) (cpuPeek resetVector s)

/-- `CpuReset()` (R401): A, X and Y are left as they were. The two vector reads are of cartridge space and
have no side effect. The diagnostic is cleared with the flags beside it (log 9). -/
def cpuReset (s : State) : State :=
  { s with cpu := { Cpu.reset s.cfg (resetTarget s) with a := s.cpu.a, x := s.cpu.x, y := s.cpu.y } }

/-- `Reset()` (R400): the mapper first, so that the vector is read through its reset mapping; the run mode
and every memory are left as they were. -/
def deviceReset (s : State) : State :=
  let s := { s with
    cart := mapperReset s.cart
    ppu := ppuReset s.ppu
    port0 := portReset s.port0
    port1 := portReset s.port1
    bus := { s.bus with cpuDivCnt := 0, ppuDivCnt := 0 } }
  cpuReset s

end Sys2Proof.Machine
end

