-- ==== Sys2Proof/Safety.lean ====
section
/-!
DEFINITION. What counts as a good state, and the terms in which statements say what an instruction leaves
unchanged: where operands are accessed, which addresses are memory, and the spec's flag arithmetic written with
masks.
-/

namespace Sys2Proof.Machine

/-! ## The invariant -/

/-- A byte memory of `n` cells in canonical form. -/
abbrev MemOk {w : Nat} (d : BitVec w) (n : Nat) (m : Store w) : Prop := Store.wf d m = true ∧ Store.within n m = true

/-- The memories that a CPU access or the PPU can write are in canonical form, within their sizes (R22, R26,
R29 to R32, R35). -/
abbrev MemoriesOk (s : State) : Prop :=
  MemOk unlisted 2048 s.ram ∧ MemOk unlisted 256 s.ppu.oam ∧ MemOk unlisted 32 s.ppu.pal ∧
  MemOk unlisted 2048 s.ppu.ciram ∧ MemOk secUnlisted 32 s.ppu.secOam ∧ MemOk fbUnlisted 61440 s.ppu.fb ∧
  MemOk unlisted 8192 s.cart.prgRam ∧ MemOk unlisted 8192 s.cart.chrRam ∧ MemOk unlisted 2048 s.cart.vram

/-- In the live status register B is 0 and U is 1 (R14). -/
abbrev StatusOk (p : Byte) : Prop := bitAt p flagB = false ∧ bitAt p flagU = true

/-- The PPU's counters are in their ranges (R26, R27), bits 4..0 of its status are not stored (R23), and
`ppu_ready` is false (R334). -/
abbrev PpuOk (p : Ppu) : Prop :=
  -1 ≤ p.scanline ∧ p.scanline ≤ 260 ∧ p.cycle ≤ 340 ∧ p.secCount ≤ 8 ∧ p.sprCount ≤ 8 ∧ p.status &&& 0x1F = 0 ∧
  p.ready = false

/-- A controller port's count of reads saturates at 8 (R37). -/
abbrev PortOk (p : Port) : Prop := p.reads ≤ 8

/-- The writes an MMC1-style port has accumulated are 0 to 4 (R348). -/
def Mapper.ok (m : Mapper) : Bool :=
  match m with
  | .mmc1 r => decide (r.shiftPos ≤ 4)
  | .nrom | .unrom _ | .axrom _ _ => true

/-- The live variant is the one the cartridge's mapper id selects (R343), with its registers in range. -/
abbrev CartOk (c : Cartridge) : Prop := c.mapper.id = c.rom.mapperId ∧ c.mapper.ok = true

/-- The dividers are positive (R4) and the down-counters below them (R38). -/
abbrev ClockOk (s : State) : Prop :=
  0 < s.cfg.cpuDivider ∧ 0 < s.cfg.ppuDivider ∧ s.bus.cpuDivCnt < s.cfg.cpuDivider ∧ s.bus.ppuDivCnt < s.cfg.ppuDivider

/-- The machine's invariant. -/
abbrev Inv (s : State) : Prop :=
  MemoriesOk s ∧ StatusOk s.cpu.p ∧ PpuOk s.ppu ∧ PortOk s.port0 ∧ PortOk s.port1 ∧ CartOk s.cart ∧ ClockOk s

/-- An instruction boundary with nothing in progress (R140, R158). -/
abbrev AtBoundary (c : Cpu) : Prop :=
  c.ready = true ∧ c.dmaActive = false ∧ c.nmiActive = false ∧ c.irqActive = false

/-- An instruction boundary at which the CPU fetches an opcode: no request is taken (R376). -/
abbrev WillFetch (c : Cpu) : Prop :=
  AtBoundary c ∧ c.halted = false ∧ c.dmaRequest = false ∧ c.nmiPending = false ∧
  (c.irqPending = false ∨ bitAt c.p flagI = true)

/-- A safe run has not reached an illegal opcode (R372: a halted CPU is a fault state) nor a cycle without a
table entry (R159: no proof may treat it as a completion). -/
abbrev Safe (s : State) : Prop := s.cpu.halted = false ∧ s.cpu.diagnostic = false

/-! ## Where an operand is accessed -/

/-- The state in which the access to a form's operand is made: after its address cycles and, where `fix` says
so, its fix-up cycle (R146 to R151). -/
def accessPoint (fix : Bool) (m : MemOperand) (s : State) : State :=
  let t := leadCycles (addressCycles m) s
  if fix then advance (idleRead (rawAddr t.cpu) t) else t

/-- Where the read category reads: the fix-up cycle is run only on a page cross. -/
def readPoint (m : MemOperand) (s : State) : State := accessPoint (hasFixUp m && pageCross m s) m s

/-- Where the write category writes and a read-modify-write reads: the fix-up cycle is always run. -/
def writePoint (m : MemOperand) (s : State) : State := accessPoint (hasFixUp m) m s

/-- The byte a read operand gives. -/
def operandByte (o : ReadOperand) (s : State) : Byte :=
  match o with
  | .imm v => v
  | .mem m => cpuPeek (effAddr m s) (readPoint m s)

/-- The state that the operand's access leaves, the instruction's own effect apart. -/
def operandState (o : ReadOperand) (s : State) : State :=
  match o with
  | .imm _ => s
  | .mem m => readEffect (effAddr m s) (readPoint m s)

/-- The byte a read-modify-write reads. -/
def rmwByte (m : MemOperand) (s : State) : Byte := cpuPeek (effAddr m s) (writePoint m s)

/-- Where a read-modify-write makes its last write: two cycles after its read, the second of them writing the
unmodified byte back when `DUMMY_ACCESSES = nmos`. -/
def rmwPoint (m : MemOperand) (s : State) : State :=
  let read := advance ((readEffect (effAddr m s) (writePoint m s)).onCpu fun c => { c with m := rmwByte m s })
  advance (idleWrite (effAddr m s) (rmwByte m s) read)

/-! ## What is unchanged -/

/-- The CPU addresses behind which there is memory or the cartridge: a read has no side effect, and returns what
was stored (R53, R59, R70). -/
def isMemory (a : Word) : Bool :=
  match region a with
  | .ram _ | .cartridge => true
  | .ppuReg _ | .dma | .strobe | .port1 | .stub => false

/-- Whether a write at `ea` can change what is read at `a`: the same byte of RAM (R53), the same cartridge
address, or any address of `$8000–$FFFF` when the write is to the mapper's port there (R344). -/
def touches (ea a : Word) : Bool :=
  match region ea, region a with
  | .ram i, .ram j => decide (i = j)
  | .cartridge, .cartridge => if ea < 0x8000 then decide (ea = a) else decide (0x8000 ≤ a)
  | _, _ => false

/-- The registers and memories of the PPU that only CPU accesses and DMA change: no PPU step writes them. -/
structure PpuRegs where
  ctrl : Byte
  mask : Byte
  oamAddr : Byte
  t : BitVec 15
  fineX : BitVec 3
  w : Bool
  readBuf : Byte
  pal : Store 8
  oam : Store 8
  ciram : Store 8
  ready : Bool
deriving DecidableEq, Repr

/-- Reads them off. -/
def Ppu.regs (p : Ppu) : PpuRegs :=
  { ctrl := p.ctrl, mask := p.mask, oamAddr := p.oamAddr, t := p.t, fineX := p.fineX, w := p.w, readBuf := p.readBuf,
    pal := p.pal, oam := p.oam, ciram := p.ciram, ready := p.ready }

/-- `c` with the cycle state of `w`: the fields that move with every cycle or that no rule reads across an
instruction boundary (R16, R17, R19), and the NMI request, which time can set (R123). -/
def Cpu.withCycleState (c w : Cpu) : Cpu :=
  { c with
    sub := w.sub, lo := w.lo, hi := w.hi, ptr := w.ptr, ea := w.ea, m := w.m, cross := w.cross, taken := w.taken,
    cyc := w.cyc, nmiPending := w.nmiPending }

/-- After an instruction the CPU is `c`, the cycle state apart; no NMI request is lost (R374). -/
def CpuIs (s t : State) (c : Cpu) : Prop :=
  t.cpu = ({ c with ready := true } : Cpu).withCycleState t.cpu ∧ (s.cpu.nmiPending = true → t.cpu.nmiPending = true)

/-- No byte of memory differs. -/
def SameMemory (s t : State) : Prop := ∀ a : Word, isMemory a = true → cpuPeek a t = cpuPeek a s

/-- No byte of memory differs but those a write at `ea` touches. -/
def SameMemoryBut (ea : Word) (s t : State) : Prop :=
  ∀ a : Word, isMemory a = true → touches ea a = false → cpuPeek a t = cpuPeek a s

/-- The parameters, the RAM and the cartridge are unchanged. -/
def SameStores (s t : State) : Prop := t.cfg = s.cfg ∧ t.ram = s.ram ∧ t.cart = s.cart

/-- No device register differs, and no memory of the PPU's that a PPU step does not write. -/
def SameDevices (s t : State) : Prop := t.ppu.regs = s.ppu.regs ∧ t.port0 = s.port0 ∧ t.port1 = s.port1

/-- The devices stand as in `r`. -/
def DevicesOf (r t : State) : Prop := t.ppu = r.ppu ∧ t.port0 = r.port0 ∧ t.port1 = r.port1 ∧ t.bus = r.bus

/-- Idle cycles that would read at the program counter have no effect: they are not made, or what they read is
memory (R156). -/
def QuietIdle (s : State) : Prop := s.cfg.dummyAccesses = .none ∨ isMemory s.cpu.pc = true

/-- What an instruction that stores nothing and reads operand `o` leaves beside the CPU. -/
def ReadsOnly (o : ReadOperand) (s t : State) : Prop :=
  SameMemory s t ∧ SameStores s t ∧ DevicesOf (operandState o s) t

/-- What a register-only instruction, with no bus access of its own, leaves beside the CPU: the very devices it
found, unless a dummy access at the program counter reads one. -/
def RegisterOnly (s t : State) : Prop :=
  SameMemory s t ∧ SameStores s t ∧ t.bus = s.bus ∧
  (QuietIdle s → t.ppu = s.ppu ∧ t.port0 = s.port0 ∧ t.port1 = s.port1)

/-- What an instruction with no bus access at all leaves beside the CPU: everything. -/
def NoAccess (s t : State) : Prop := SameMemory s t ∧ SameStores s t ∧ DevicesOf s t

/-- What an instruction leaves beside the CPU whose last act is to write `v` at `ea` in the state `w`: the byte is
stored, every device has seen that one write, and no other byte of memory differs. -/
def WritesAt (ea : Word) (v : Byte) (w s t : State) : Prop :=
  t.cfg = s.cfg ∧ SameMemoryBut ea s t ∧ (∀ off, region ea = .ram off → cpuPeek ea t = v) ∧
  t.ram = (cpuWrite ea v w).ram ∧ t.cart = (cpuWrite ea v w).cart ∧ DevicesOf (cpuWrite ea v w) t

/-- The address of the `k`-th byte pushed from `s` on (R6, R12). -/
def pushedAt (k : Nat) (s : State) : Word := stackAddr (s.cpu.sp - BitVec.ofNat 8 k)

/-- The `k`-th byte pulled from `s` on, `k` from 1 (R6, R12). -/
def pulledByte (k : Nat) (s : State) : Byte := cpuPeek (stackAddr (s.cpu.sp + BitVec.ofNat 8 k)) s

/-- No byte of memory differs but those of the `n` stack cells pushed to. -/
def SameMemoryButStack (n : Nat) (s t : State) : Prop :=
  ∀ a : Word, isMemory a = true → (∀ k, k < n → touches (pushedAt k s) a = false) → cpuPeek a t = cpuPeek a s

/-- What an instruction that pushes `n` bytes and makes no other access leaves beside the CPU and those bytes. -/
def PushesOnly (n : Nat) (s t : State) : Prop :=
  SameMemoryButStack n s t ∧ t.cfg = s.cfg ∧ t.cart = s.cart ∧ (QuietIdle s → SameDevices s t)

/-- What an instruction that only pulls leaves beside the CPU. -/
def PullsOnly (s t : State) : Prop :=
  SameMemory s t ∧ SameStores s t ∧ (QuietIdle s → SameDevices s t)

/-- What an instruction that only jumps, with no access but idle ones, leaves beside the CPU. -/
def JumpsOnly (s t : State) : Prop :=
  SameMemory s t ∧ SameStores s t ∧ (s.cfg.dummyAccesses = .none → SameDevices s t)

/-! ## Where JMP reads its pointer (R240) -/

/-- The state in which the pointer's first byte is read. -/
def pointerLowPoint (ptr : Word) (s : State) : State := advance (s.onCpu fun c => { c with ptr := ptr })

/-- The state in which its second byte is read. -/
def pointerHighPoint (ptr : Word) (s : State) : State :=
  let t := pointerLowPoint ptr s
  advance ((readEffect ptr t).onCpu fun c => { c with ea := zext16 (cpuPeek ptr t) })

/-- The target an indirect jump reads. -/
def pointerTarget (ptr : Word) (s : State) : Word :=
  mkWord (cpuPeek (samePageNext ptr) (pointerHighPoint ptr s)) (cpuPeek ptr (pointerLowPoint ptr s))

/-! ## Fetching and interrupts -/

/-- The 16-bit word at a vector (R380). -/
def vectorAt (vec : Word) (s : State) : Word := mkWord (cpuPeek (vec + 1) s) (cpuPeek vec s)

/-- How many of an instruction's bytes are fetched before `exec` takes it up: all but JSR's third (R241). -/
def fetchedBytes (i : Instr) : Nat :=
  match i with
  | .jsr _ => 2
  | .illegal _ => 1
  | i => i.length

/-- The CPU after the fetch cycle of the opcode `op` at `PC` (R141, R142). -/
def Cpu.fetched (c : Cpu) (op : Byte) : Cpu :=
  { c with
    history := c.history.set c.histPos.val c.pc c.histPos.isLt
    histPos := c.histPos + 1
    ir := op
    pc := c.pc + 1 }

/-- Whether a JSR's pushes leave its own third byte, at `a`, as it is (R241). -/
def pushesMiss (a : Word) (s : State) : Bool := !touches (pushedAt 0 s) a && !touches (pushedAt 1 s) a

/-- `t` is `s` after an interrupt's entry through the vector `vec`, with status byte `pb` and return address `ret`
pushed, in which the CPU's control state becomes that of `c` (R377, R244). -/
def Entered (vec : Word) (pb : Byte) (ret : Word) (c : Cpu) (s t : State) : Prop :=
  CpuIs s t { c with sp := s.cpu.sp - 3, pc := vectorAt vec s, p := s.cpu.p ||| 0x04 } ∧
  cpuPeek (pushedAt 0 s) t = hiByte ret ∧ cpuPeek (pushedAt 1 s) t = loByte ret ∧ cpuPeek (pushedAt 2 s) t = pb ∧
  PushesOnly 3 s t

/-! ## The spec's flag arithmetic, with masks (R6, R14) -/

/-- Bit Z for a result. -/
def zBit (v : Byte) : Byte := if v = 0 then 0x02 else 0

/-- Bit N for a result. -/
def nBit (v : Byte) : Byte := v &&& 0x80

/-- Bit C for a carry. -/
def cBit (c : Bool) : Byte := if c then 0x01 else 0

/-- Bit V for an overflow. -/
def vBit (v : Bool) : Byte := if v then 0x40 else 0

/-- The carry as a number. -/
def carryIn (p : Byte) : Nat := if p &&& 0x01 = 0 then 0 else 1

/-- `P` after `setNZ(v)` (R6): only N and Z differ. -/
def nzOf (p v : Byte) : Byte := (p &&& 0x7D) ||| nBit v ||| zBit v

/-- `P` after a result `v` with carry `c`: only N, Z and C differ. -/
def nzcOf (p v : Byte) (c : Bool) : Byte := (p &&& 0x7C) ||| nBit v ||| zBit v ||| cBit c

/-- ADC's exact sum (R200). -/
def exactSum (p a m : Byte) : Nat := a.toNat + m.toNat + carryIn p

/-- ADC's result (R200). -/
def sumByte (p a m : Byte) : Byte := BitVec.ofNat 8 (exactSum p a m)

/-- `P` after ADC (R200): N, V, Z and C differ. -/
def sumStatus (p a m : Byte) : Byte :=
  let r := sumByte p a m
  (p &&& 0x3C) ||| nBit r ||| zBit r ||| cBit (decide (256 ≤ exactSum p a m)) |||
    vBit ((a ^^^ r) &&& (m ^^^ r) &&& 0x80 != 0)

/-- `P` after a compare of `r` with `m` (R205). -/
def compareStatus (p r m : Byte) : Byte :=
  (p &&& 0x7C) ||| nBit (r - m) ||| zBit (r - m) ||| cBit (decide (m.toNat ≤ r.toNat))

/-- A byte shifted left by one, with a bit shifted in (R220, R222). -/
def shiftedLeft (v : Byte) (bit : Nat) : Byte := BitVec.ofNat 8 (2 * v.toNat + bit)

/-- A byte shifted right by one, with a bit shifted in (R221, R223). -/
def shiftedRight (v : Byte) (bit : Nat) : Byte := BitVec.ofNat 8 (v.toNat / 2 + 128 * bit)

/-- The bit that a left shift shifts out. -/
def topBit (v : Byte) : Bool := decide (128 ≤ v.toNat)

/-- The bit that a right shift shifts out. -/
def lowBit (v : Byte) : Bool := decide (v.toNat % 2 = 1)

/-- `P` after BIT (R208). -/
def bitStatus (p a m : Byte) : Byte := (p &&& 0x3D) ||| (m &&& 0xC0) ||| zBit (a &&& m)

/-! ## Cycle counts (R161) -/

/-- The cycles a branch takes beyond two: one if it is taken, one more if its target is on another page than the
next instruction (R152). -/
def branchCost (taken : Bool) (off : Byte) (s : State) : Nat :=
  if taken then (if hiByte (branchTarget s.cpu.pc off) = hiByte s.cpu.pc then 1 else 2) else 0

/-- One more cycle for a page cross. -/
def crossCost (o : ReadOperand) (s : State) : Nat :=
  match o with
  | .imm _ => 0
  | .mem m => if pageCross m s then 1 else 0

/-- The cycles of an instruction beyond R103's count, in the state `exec` takes it up in: one for a page cross of
the read category, one for a taken branch, one more if that crosses a page (R161). -/
def extraCycles (i : Instr) (s : State) : Nat :=
  match i with
  | .lda o | .ldx o | .ldy o | .adc o | .sbc o | .and o | .ora o | .eor o | .cmp o | .cpx o | .cpy o => crossCost o s
  | .bit m => crossCost (.mem m) s
  | .bcc off => branchCost (!bitAt s.cpu.p flagC) off s
  | .bcs off => branchCost (bitAt s.cpu.p flagC) off s
  | .bne off => branchCost (!bitAt s.cpu.p flagZ) off s
  | .beq off => branchCost (bitAt s.cpu.p flagZ) off s
  | .bpl off => branchCost (!bitAt s.cpu.p flagN) off s
  | .bmi off => branchCost (bitAt s.cpu.p flagN) off s
  | .bvc off => branchCost (!bitAt s.cpu.p flagV) off s
  | .bvs off => branchCost (bitAt s.cpu.p flagV) off s
  | .sta _ | .stx _ | .sty _ | .asl _ | .lsr _ | .rol _ | .ror _ | .inc _ | .dec _ | .jmp _ | .jsr _ => 0
  | .tax | .tay | .txa | .tya | .tsx | .txs | .inx | .iny | .dex | .dey | .rts | .rti | .brk
  | .pha | .php | .pla | .plp | .clc | .sec | .cli | .sei | .clv | .cld | .sed | .nop | .illegal _ => 0

/-- How many CPU cycles of an instruction are over when `exec` takes it up: its fetch, and the first operand
byte's cycle for a 16-bit operand that is fetched at once. -/
def cyclesBefore (i : Instr) : Nat :=
  match i with
  | .illegal _ => 0
  | .jsr _ => 1
  | i => if i.mode.operandBytes = 2 then 2 else 1

end Sys2Proof.Machine
end

