-- ==== Sys2Proof/Certificates/Slice0/Obligations.lean ====
section
/-!
DEFINITION. The statements for the provers, each a rule of spec/ or a property of the whole machine. A statement
about an instruction concludes that `exec` answers a next state, and says what that state holds and what it leaves
unchanged.

`exec i s` takes the instruction up in the cycle in which its last operand byte is fetched (log 7), so `s.cpu.pc`
is the address after the bytes fetched so far.
-/

open Sys2Proof Sys2Proof.Machine

/-! ## Encoding -/

/-- O1. Decoding the bytes of a well-formed instruction gives it back, and leaves the bytes after it (R100 to R106). -/
def Obligations.DecodeOfEncode : Prop :=
  ∀ (i : Instr) (rest : List Byte), WellFormed i = true → decode (encode i ++ rest) = .ok (i, rest)

/-- O2. What is decoded is well-formed, and the bytes it was decoded from are its encoding: no two instructions
share one, and no byte is dropped. -/
def Obligations.EncodeOfDecode : Prop :=
  ∀ (bs rest : List Byte) (i : Instr), decode bs = .ok (i, rest) → WellFormed i = true ∧ bs = encode i ++ rest

/-- O3. Words written out from R103 and R101 decode to the instructions they stand for, one of each family. That an
illegal byte is an instruction of one byte is the model's (log 19). -/
def Obligations.WordsDecode : Prop :=
  decode [0xB1, 0x20] = .ok (.lda (.mem (.izy 0x20)), []) ∧
  decode [0x9D, 0xF0, 0x02] = .ok (.sta (.abx 0x02F0), []) ∧
  decode [0xAA] = .ok (.tax, []) ∧
  decode [0x69, 0x03] = .ok (.adc (.imm 0x03), []) ∧
  decode [0xC1, 0x10] = .ok (.cmp (.mem (.izx 0x10)), []) ∧
  decode [0x2C, 0x02, 0x20] = .ok (.bit (.abs 0x2002), []) ∧
  decode [0x36, 0xFF] = .ok (.rol (.mem (.zpx 0xFF)), []) ∧
  decode [0x6A] = .ok (.ror .acc, []) ∧
  decode [0x6C, 0xFF, 0x10] = .ok (.jmp (.ind 0x10FF), []) ∧
  decode [0x20, 0x10, 0x80] = .ok (.jsr 0x8010, []) ∧
  decode [0xD0, 0xFB] = .ok (.bne 0xFB, []) ∧
  decode [0x28] = .ok (.plp, []) ∧
  decode [0xEB, 0x05] = .ok (.illegal 0xEB, [0x05])

/-- O4. An opcode byte is illegal exactly if it is one of the 105 of R104's list, and then the instruction is the
halt; every one of the other 151 is an instruction of the bytes its mode says. The list is marked general knowledge by
R104; the halt as an instruction is the model's (log 19). -/
def Obligations.IllegalOpcodes : Prop :=
  illegalOpcodes.length = 105 ∧ illegalOpcodes.Nodup ∧
  ∀ b0 b1 b2 : Byte,
    (b0 ∈ illegalOpcodes → decode [b0, b1, b2] = .ok (.illegal b0, [b1, b2])) ∧
    (b0 ∉ illegalOpcodes → ∃ i : Instr, ∃ rest : List Byte,
      decode [b0, b1, b2] = .ok (i, rest) ∧ i.category ≠ .halt ∧ i.length + rest.length = 3)

/-- O5. Every value of every operand byte is accepted, in every mode (R106): the opcode alone selects mnemonic, mode
and length (R100). That the illegal bytes too decode, to an instruction of one byte, is the model's (log 19). -/
def Obligations.OperandBytesNeverIllegal : Prop :=
  ∀ b0 b1 b2 c1 c2 : Byte, ∃ i j : Instr, ∃ ri rj : List Byte,
    decode [b0, b1, b2] = .ok (i, ri) ∧ decode [b0, c1, c2] = .ok (j, rj) ∧
    WellFormed i = true ∧ WellFormed j = true ∧ i.mode = j.mode ∧ i.category = j.category ∧ i.opcodes = j.opcodes

/-! ## The step -/

/-- O6. A step at a boundary where an opcode is fetched is `exec` of the instruction that the bytes at PC decode to,
in the state that fetching leaves, and the end of the last cycle after it. Fetching records the opcode's address and
moves PC past the bytes fetched; it stores nothing. Its bytes are in memory; a JSR that overwrites its own third byte
reads the new one (R241), which the premise excludes. Where `exec` takes an instruction up, and where JSR reads its
third byte, are the model's (logs 6 and 7). -/
def Obligations.StepRunsDecoded : Prop :=
  ∀ (s : State) (i : Instr) (rest : List Byte),
    let w := waitCpu s
    let pc := w.cpu.pc
    WillFetch w.cpu →
    decode [cpuPeek pc w, cpuPeek (pc + 1) w, cpuPeek (pc + 2) w] = .ok (i, rest) →
    (∀ k, k < i.length → isMemory (pc + BitVec.ofNat 16 k) = true) →
    (∀ target, i = .jsr target → pushesMiss (pc + 2) w = true) →
    let f := (fetchInstr w).state
    step s = finishOutcome (exec i f) ∧
    SameMemory w f ∧ SameStores w f ∧ SameDevices w f ∧
    f.cpu.pc = pc + BitVec.ofNat 16 (fetchedBytes i) ∧
    (i.category ≠ .halt → f.cpu =
      ({ w.cpu.fetched (cpuPeek pc w) with pc := f.cpu.pc, mode := i.mode, ready := false } : Cpu).withCycleState f.cpu)

/-- O7. A step is master cycles and nothing else: those left before the CPU's next one, and one CPU cycle's worth for
each CPU cycle that it takes, the last one cut after its own master cycle (R120, R121). That a step is an instruction
is the model's (log 5); the order inside a master cycle is the spec's decision D5. -/
def Obligations.StepIsMasterCycles : Prop :=
  ∀ s t : State, s.cpu.halted = false → 0 < s.cfg.cpuDivider → step s = .next t →
    s.cpu.cyc < t.cpu.cyc ∧
    t = masterCycles (s.bus.cpuDivCnt + (t.cpu.cyc - s.cpu.cyc - 1) * s.cfg.cpuDivider + 1) s

/-- O8. No state makes a step fault or be refused: nothing in the machine faults (R370, R393), and whatever the CPU is
doing ends (R161, R165). That no other case exists is inferred from the spec (log 14). -/
def Obligations.StepAlwaysNext : Prop := ∀ s : State, ∃ t : State, step s = .next t

/-- O9. The invariant is kept by every step. The ranges are the spec's; U and B are its decision D15. -/
def Obligations.InvariantKept : Prop := ∀ s t : State, Inv s → step s = .next t → Inv t

/-- O10. The invariant holds at reset, and a device reset keeps it. The blank cartridge and the unlisted bytes are the
model's (logs 2 and 3). -/
def Obligations.InvariantAtReset : Prop := Inv State.reset ∧ ∀ s : State, Inv s → Inv (deviceReset s)

/-- O11. Between steps the CPU is at an instruction boundary: a step from one ends at one (R158). That a step goes on to
the end of what the CPU is doing is the model's (log 5); the spec's own unit is one CPU cycle (R7, R140). -/
def Obligations.BoundaryToBoundary : Prop :=
  ∀ s t : State, AtBoundary s.cpu → step s = .next t → AtBoundary t.cpu

/-- O12. No step writes the parameters, the cartridge's constants (PRG ROM among them), the variant of its mapper, or
the buttons (R4, R34, R343, R344). The buttons as state are the model's (log 15). -/
def Obligations.StepKeepsConstants : Prop :=
  ∀ s t : State, step s = .next t →
    t.cfg = s.cfg ∧ t.cart.rom = s.cart.rom ∧ t.cart.mapper.id = s.cart.mapper.id ∧
    t.port0.buttons = s.port0.buttons ∧ t.port1.buttons = s.port1.buttons ∧ t.ppu.ready = s.ppu.ready

/-- O13. An instruction fetched at a boundary takes the CPU cycles of R161. The unit of a step is the model's (log 5).
-/
def Obligations.StepCycleCount : Prop :=
  ∀ s t : State, WillFetch (waitCpu s).cpu → step s = .next t →
    let f := fetchInstr (waitCpu s)
    t.cpu.cyc = s.cpu.cyc + f.instr.baseCycles + extraCycles f.instr f.state

/-- O14. `exec` takes the cycles that are left of an instruction: R103's count, one for a page cross of the read
category, one for a taken branch, one more if that crosses a page (R161). Where `exec` begins is the model's (log 7).
-/
def Obligations.ExecCycleCount : Prop :=
  ∀ (i : Instr) (s : State), WellFormed i = true →
    ∃ t : State, exec i s = .next t ∧ t.cpu.cyc + cyclesBefore i + 1 = s.cpu.cyc + i.baseCycles + extraCycles i s

/-! ## Operands -/

/-- O15. The effective address of each form in R102's arithmetic, on numbers. -/
def Obligations.EffectiveAddresses : Prop :=
  ∀ (s : State) (b : Byte) (w : Word),
    (effAddr (.zp b) s).toNat = b.toNat ∧
    (effAddr (.zpx b) s).toNat = (b.toNat + s.cpu.x.toNat) % 256 ∧
    (effAddr (.zpy b) s).toNat = (b.toNat + s.cpu.y.toNat) % 256 ∧
    effAddr (.abs w) s = w ∧
    (effAddr (.abx w) s).toNat = (w.toNat + s.cpu.x.toNat) % 65536 ∧
    (effAddr (.aby w) s).toNat = (w.toNat + s.cpu.y.toNat) % 65536 ∧
    (effAddr (.izx b) s).toNat =
      (Store.read unlisted s.ram ((b.toNat + s.cpu.x.toNat + 1) % 256)).toNat * 256 +
        (Store.read unlisted s.ram ((b.toNat + s.cpu.x.toNat) % 256)).toNat ∧
    (effAddr (.izy b) s).toNat =
      ((Store.read unlisted s.ram ((b.toNat + 1) % 256)).toNat * 256 + (Store.read unlisted s.ram b.toNat).toNat +
        s.cpu.y.toNat) % 65536

/-- O16. An indexed address crosses a page exactly if its high byte differs from the base's, that is if the low byte and
the index carry (R157); zero-page forms never do. -/
def Obligations.PageCross : Prop :=
  (∀ (base : Word) (index : Byte),
    (crosses base index = true ↔ hiByte (base + zext16 index) ≠ hiByte base) ∧
    (crosses base index = true ↔ 255 < (loByte base).toNat + index.toNat)) ∧
  (∀ (s : State) (w : Word), pageCross (.abx w) s = crosses w s.cpu.x ∧ pageCross (.aby w) s = crosses w s.cpu.y) ∧
  (∀ (s : State) (b : Byte), pageCross (.izy b) s =
    crosses (mkWord (Store.read unlisted s.ram ((b.toNat + 1) % 256)) (Store.read unlisted s.ram b.toNat)) s.cpu.y) ∧
  (∀ (s : State) (b : Byte), pageCross (.zpx b) s = false ∧ pageCross (.zpy b) s = false ∧ pageCross (.izx b) s = false)

/-- O17. The cycles before an operand's access arrive at the form's effective address, and store nothing: they
change no register and no memory, and no device unless `DUMMY_ACCESSES = nmos` (R145 to R151, R156). -/
def Obligations.AccessWaits : Prop :=
  ∀ (m : MemOperand) (s : State), ∀ w ∈ [readPoint m s, writePoint m s],
    w.cpu.ea = effAddr m s ∧ w.cpu = s.cpu.withCycleState w.cpu ∧ SameMemory s w ∧ SameStores s w ∧
    (s.cfg.dummyAccesses = .none → SameDevices s w)

/-! ## Loads, stores, transfers -/

/-- O18. LDA, LDX, LDY: the register takes the operand byte, N and Z are set from it (R180 to R182). -/
def Obligations.LoadResults : Prop :=
  ∀ (o : ReadOperand) (s : State),
    let v := operandByte o s
    (∃ t, exec (.lda o) s = .next t ∧ CpuIs s t { s.cpu with a := v, p := nzOf s.cpu.p v } ∧ ReadsOnly o s t) ∧
    (∃ t, exec (.ldx o) s = .next t ∧ CpuIs s t { s.cpu with x := v, p := nzOf s.cpu.p v } ∧ ReadsOnly o s t) ∧
    (∃ t, exec (.ldy o) s = .next t ∧ CpuIs s t { s.cpu with y := v, p := nzOf s.cpu.p v } ∧ ReadsOnly o s t)

/-- O19. STA, STX, STY: the register is written at the effective address, with one bus write; no register and no flag
changes, and no byte of memory but the one stored (R183 to R185). That a store makes exactly one write, in its last
cycle, is the spec's decision D8 (R155). A write to `$4014` requests a DMA. -/
def Obligations.StoreResults : Prop :=
  ∀ (m : MemOperand) (s : State),
    let ea := effAddr m s
    let w := writePoint m s
    (∃ t, exec (.sta m) s = .next t ∧ CpuIs s t (cpuWrite ea s.cpu.a s).cpu ∧ WritesAt ea s.cpu.a w s t) ∧
    (∃ t, exec (.stx m) s = .next t ∧ CpuIs s t (cpuWrite ea s.cpu.x s).cpu ∧ WritesAt ea s.cpu.x w s t) ∧
    (∃ t, exec (.sty m) s = .next t ∧ CpuIs s t (cpuWrite ea s.cpu.y s).cpu ∧ WritesAt ea s.cpu.y w s t)

/-- O20. The register transfers, with their opcode bytes: TXS alone sets no flag (R186 to R191). -/
def Obligations.TransferResults : Prop :=
  decode [0xAA] = .ok (.tax, []) ∧ decode [0xA8] = .ok (.tay, []) ∧ decode [0x8A] = .ok (.txa, []) ∧
  decode [0x98] = .ok (.tya, []) ∧ decode [0xBA] = .ok (.tsx, []) ∧ decode [0x9A] = .ok (.txs, []) ∧
  ∀ s : State,
    (∃ t, exec .tax s = .next t ∧ CpuIs s t { s.cpu with x := s.cpu.a, p := nzOf s.cpu.p s.cpu.a } ∧ RegisterOnly s t) ∧
    (∃ t, exec .tay s = .next t ∧ CpuIs s t { s.cpu with y := s.cpu.a, p := nzOf s.cpu.p s.cpu.a } ∧ RegisterOnly s t) ∧
    (∃ t, exec .txa s = .next t ∧ CpuIs s t { s.cpu with a := s.cpu.x, p := nzOf s.cpu.p s.cpu.x } ∧ RegisterOnly s t) ∧
    (∃ t, exec .tya s = .next t ∧ CpuIs s t { s.cpu with a := s.cpu.y, p := nzOf s.cpu.p s.cpu.y } ∧ RegisterOnly s t) ∧
    (∃ t, exec .tsx s = .next t ∧ CpuIs s t { s.cpu with x := s.cpu.sp, p := nzOf s.cpu.p s.cpu.sp } ∧ RegisterOnly s t) ∧
    (∃ t, exec .txs s = .next t ∧ CpuIs s t { s.cpu with sp := s.cpu.x } ∧ RegisterOnly s t)

/-! ## Arithmetic, logic, compare, bit test -/

/-- O21. ADC and SBC: the exact sum of A, the operand (complemented for SBC) and the carry, narrowed to a byte; C is
its ninth bit, V the overflow of R200's formula; D is not looked at (R200, R201). Binary whatever D holds is the
spec's decision D1. -/
def Obligations.AddResults : Prop :=
  ∀ (o : ReadOperand) (s : State),
    let v := operandByte o s
    (∃ t, exec (.adc o) s = .next t ∧
      CpuIs s t { s.cpu with a := sumByte s.cpu.p s.cpu.a v, p := sumStatus s.cpu.p s.cpu.a v } ∧ ReadsOnly o s t) ∧
    (∃ t, exec (.sbc o) s = .next t ∧
      CpuIs s t { s.cpu with a := sumByte s.cpu.p s.cpu.a (~~~v), p := sumStatus s.cpu.p s.cpu.a (~~~v) } ∧
      ReadsOnly o s t)

/-- O22. What the result and the flags of ADC and SBC mean, on numbers, in the next state of `exec`: ADC's A is A + M + C
modulo 256, C its carry; SBC's A is A − M − (1 − C) modulo 256, and C is 1 exactly if that does not borrow; V is 1
exactly if the signed result does not fit a byte; N and Z are of the byte that A then holds (R14, R200, R201). Binary
whatever D holds is the spec's decision D1. -/
def Obligations.AddMeaning : Prop :=
  ∀ (o : ReadOperand) (s : State),
    let a := s.cpu.a
    let m := operandByte o s
    let c := carryIn s.cpu.p
    let signs (t : State) : Prop :=
      bitAt t.cpu.p flagN = decide (128 ≤ t.cpu.a.toNat) ∧ bitAt t.cpu.p flagZ = decide (t.cpu.a = 0)
    (∃ t, exec (.adc o) s = .next t ∧
      t.cpu.a.toNat = (a.toNat + m.toNat + c) % 256 ∧
      (bitAt t.cpu.p flagC = true ↔ 256 ≤ a.toNat + m.toNat + c) ∧
      (bitAt t.cpu.p flagV = true ↔ a.toInt + m.toInt + c < -128 ∨ 127 < a.toInt + m.toInt + c) ∧ signs t) ∧
    (∃ t, exec (.sbc o) s = .next t ∧
      t.cpu.a.toNat = (a.toNat + 256 - m.toNat - (1 - c)) % 256 ∧
      (bitAt t.cpu.p flagC = true ↔ m.toNat + (1 - c) ≤ a.toNat) ∧
      (bitAt t.cpu.p flagV = true ↔ a.toInt - m.toInt - (1 - c) < -128 ∨ 127 < a.toInt - m.toInt - (1 - c)) ∧ signs t)

/-- O23. AND, ORA, EOR (R202 to R204). -/
def Obligations.LogicResults : Prop :=
  ∀ (o : ReadOperand) (s : State),
    let v := operandByte o s
    (∃ t, exec (.and o) s = .next t ∧
      CpuIs s t { s.cpu with a := s.cpu.a &&& v, p := nzOf s.cpu.p (s.cpu.a &&& v) } ∧ ReadsOnly o s t) ∧
    (∃ t, exec (.ora o) s = .next t ∧
      CpuIs s t { s.cpu with a := s.cpu.a ||| v, p := nzOf s.cpu.p (s.cpu.a ||| v) } ∧ ReadsOnly o s t) ∧
    (∃ t, exec (.eor o) s = .next t ∧
      CpuIs s t { s.cpu with a := s.cpu.a ^^^ v, p := nzOf s.cpu.p (s.cpu.a ^^^ v) } ∧ ReadsOnly o s t)

/-- O24. CMP, CPX, CPY: N, Z and C of the difference; no register, no V, no carry in (R205 to R207). -/
def Obligations.CompareResults : Prop :=
  ∀ (o : ReadOperand) (s : State),
    let v := operandByte o s
    (∃ t, exec (.cmp o) s = .next t ∧ CpuIs s t { s.cpu with p := compareStatus s.cpu.p s.cpu.a v } ∧ ReadsOnly o s t) ∧
    (∃ t, exec (.cpx o) s = .next t ∧ CpuIs s t { s.cpu with p := compareStatus s.cpu.p s.cpu.x v } ∧ ReadsOnly o s t) ∧
    (∃ t, exec (.cpy o) s = .next t ∧ CpuIs s t { s.cpu with p := compareStatus s.cpu.p s.cpu.y v } ∧ ReadsOnly o s t)

/-- O25. BIT: N and V are bits 7 and 6 of the memory byte, Z is of the AND; A and C are unchanged (R208). -/
def Obligations.BitResult : Prop :=
  ∀ (m : MemOperand) (s : State),
    ∃ t, exec (.bit m) s = .next t ∧
      CpuIs s t { s.cpu with p := bitStatus s.cpu.p s.cpu.a (operandByte (.mem m) s) } ∧ ReadsOnly (.mem m) s t

/-! ## Shifts, increments, decrements -/

/-- O26. The accumulator forms of the shifts and rotates (R220 to R223, R144). -/
def Obligations.AccumulatorShifts : Prop :=
  ∀ s : State,
    let a := s.cpu.a
    let p := s.cpu.p
    (∃ t, exec (.asl .acc) s = .next t ∧
      CpuIs s t { s.cpu with a := shiftedLeft a 0, p := nzcOf p (shiftedLeft a 0) (topBit a) } ∧ RegisterOnly s t) ∧
    (∃ t, exec (.lsr .acc) s = .next t ∧
      CpuIs s t { s.cpu with a := shiftedRight a 0, p := nzcOf p (shiftedRight a 0) (lowBit a) } ∧ RegisterOnly s t) ∧
    (∃ t, exec (.rol .acc) s = .next t ∧
      CpuIs s t { s.cpu with a := shiftedLeft a (carryIn p), p := nzcOf p (shiftedLeft a (carryIn p)) (topBit a) } ∧
      RegisterOnly s t) ∧
    (∃ t, exec (.ror .acc) s = .next t ∧
      CpuIs s t { s.cpu with a := shiftedRight a (carryIn p), p := nzcOf p (shiftedRight a (carryIn p)) (lowBit a) } ∧
      RegisterOnly s t)

/-- O27. The memory forms of the shifts and rotates: the result is written at the address the byte was read from, and
no other byte of memory differs (R220 to R223). -/
def Obligations.MemoryShifts : Prop :=
  ∀ (m : MemOperand) (s : State),
    let ea := effAddr m s
    let v := rmwByte m s
    let p := s.cpu.p
    let result (i : Instr) (r : Byte) (c : Bool) : Prop :=
      ∃ t, exec i s = .next t ∧ CpuIs s t { (cpuWrite ea r s).cpu with p := nzcOf p r c } ∧
        WritesAt ea r (rmwPoint m s) s t
    result (.asl (.mem m)) (shiftedLeft v 0) (topBit v) ∧
    result (.lsr (.mem m)) (shiftedRight v 0) (lowBit v) ∧
    result (.rol (.mem m)) (shiftedLeft v (carryIn p)) (topBit v) ∧
    result (.ror (.mem m)) (shiftedRight v (carryIn p)) (lowBit v)

/-- O28. INC and DEC: the byte plus or minus one, modulo 256; C and V are unchanged (R224, R225). -/
def Obligations.MemoryIncDec : Prop :=
  ∀ (m : MemOperand) (s : State),
    let ea := effAddr m s
    let v := rmwByte m s
    let result (i : Instr) (r : Byte) : Prop :=
      ∃ t, exec i s = .next t ∧ CpuIs s t { (cpuWrite ea r s).cpu with p := nzOf s.cpu.p r } ∧
        WritesAt ea r (rmwPoint m s) s t
    result (.inc m) (BitVec.ofNat 8 (v.toNat + 1)) ∧ result (.dec m) (BitVec.ofNat 8 (v.toNat + 255))

/-- O29. INX, INY, DEX, DEY, with their opcode bytes (R226 to R229). -/
def Obligations.RegisterIncDec : Prop :=
  decode [0xE8] = .ok (.inx, []) ∧ decode [0xC8] = .ok (.iny, []) ∧ decode [0xCA] = .ok (.dex, []) ∧
  decode [0x88] = .ok (.dey, []) ∧
  ∀ s : State,
    let up (b : Byte) : Byte := BitVec.ofNat 8 (b.toNat + 1)
    let down (b : Byte) : Byte := BitVec.ofNat 8 (b.toNat + 255)
    (∃ t, exec .inx s = .next t ∧ CpuIs s t { s.cpu with x := up s.cpu.x, p := nzOf s.cpu.p (up s.cpu.x) } ∧
      RegisterOnly s t) ∧
    (∃ t, exec .iny s = .next t ∧ CpuIs s t { s.cpu with y := up s.cpu.y, p := nzOf s.cpu.p (up s.cpu.y) } ∧
      RegisterOnly s t) ∧
    (∃ t, exec .dex s = .next t ∧ CpuIs s t { s.cpu with x := down s.cpu.x, p := nzOf s.cpu.p (down s.cpu.x) } ∧
      RegisterOnly s t) ∧
    (∃ t, exec .dey s = .next t ∧ CpuIs s t { s.cpu with y := down s.cpu.y, p := nzOf s.cpu.p (down s.cpu.y) } ∧
      RegisterOnly s t)

/-! ## Control flow -/

/-- O30. JMP: the absolute form goes to its operand. The indirect form reads the target's low byte at the pointer and
its high byte at the next address of the same page; where both are memory, those are the bytes stored there (R240). -/
def Obligations.JumpResults : Prop :=
  ∀ (w : Word) (s : State),
    (∃ t, exec (.jmp (.abs w)) s = .next t ∧ CpuIs s t { s.cpu with pc := w } ∧ NoAccess s t) ∧
    (∃ t, exec (.jmp (.ind w)) s = .next t ∧ CpuIs s t { s.cpu with pc := pointerTarget w s } ∧
      SameMemory s t ∧ SameStores s t ∧ DevicesOf (readEffect (samePageNext w) (pointerHighPoint w s)) t) ∧
    (samePageNext w).toNat = w.toNat / 256 * 256 + (w.toNat + 1) % 256 ∧
    (isMemory w = true → isMemory (samePageNext w) = true →
      pointerTarget w s = mkWord (cpuPeek (samePageNext w) s) (cpuPeek w s) ∧
      SameDevices s (readEffect (samePageNext w) (pointerHighPoint w s)))

/-- O31. JSR: the address of its last byte, where PC stands, is pushed high byte first; PC becomes the target (R241). -/
def Obligations.JsrResult : Prop :=
  ∀ (target : Word) (s : State),
    ∃ t, exec (.jsr target) s = .next t ∧ CpuIs s t { s.cpu with sp := s.cpu.sp - 2, pc := target } ∧
      cpuPeek (pushedAt 0 s) t = hiByte s.cpu.pc ∧ cpuPeek (pushedAt 1 s) t = loByte s.cpu.pc ∧
      SameMemoryButStack 2 s t ∧ t.cfg = s.cfg ∧ t.cart = s.cart ∧
      (isMemory s.cpu.pc = true → SameDevices s t)

/-- O32. RTS: PC is the word pulled, low byte first, plus one; SP rises by 2 (R242). -/
def Obligations.RtsResult : Prop :=
  ∀ s : State,
    ∃ t, exec .rts s = .next t ∧
      CpuIs s t { s.cpu with sp := s.cpu.sp + 2, pc := mkWord (pulledByte 2 s) (pulledByte 1 s) + 1 } ∧ JumpsOnly s t

/-- O33. RTI: P is pulled with B forced to 0 and U to 1, then PC, low byte first, used as it is; SP rises by 3 (R243).
B and U are the spec's decision D15. -/
def Obligations.RtiResult : Prop :=
  ∀ s : State,
    ∃ t, exec .rti s = .next t ∧
      CpuIs s t { s.cpu with
        sp := s.cpu.sp + 3
        pc := mkWord (pulledByte 3 s) (pulledByte 2 s)
        p := (pulledByte 1 s &&& 0xCF) ||| 0x20 } ∧
      PullsOnly s t

/-- O34. BRK takes its interrupt: the address after its padding byte is pushed, and the status with U set and B as
`BRK_PUSHES_B` says; I is set, and PC is read at `$FFFE` (R244). The padding byte, the parameter and the vector are the
spec's decisions D14, D16, D17. -/
def Obligations.BrkResult : Prop :=
  ∀ s : State,
    ∃ t, exec .brk s = .next t ∧
      Entered 0xFFFE ((s.cpu.p &&& 0xCF) ||| 0x20 ||| (if s.cfg.brkPushesB then 0x10 else 0)) (s.cpu.pc + 1) s.cpu s t

/-- O35. The eight branches: PC moves by the signed displacement if the condition holds, and stays otherwise; nothing
else changes (R245 to R253). -/
def Obligations.BranchResults : Prop :=
  ∀ (off : Byte) (s : State),
    let goes (i : Instr) (taken : Bool) : Prop :=
      ∃ t, exec i s = .next t ∧
        CpuIs s t { s.cpu with pc := if taken then BitVec.ofInt 16 (s.cpu.pc.toNat + off.toInt) else s.cpu.pc } ∧
        JumpsOnly s t
    goes (.bcc off) (s.cpu.p &&& 0x01 == 0) ∧ goes (.bcs off) (s.cpu.p &&& 0x01 != 0) ∧
    goes (.bne off) (s.cpu.p &&& 0x02 == 0) ∧ goes (.beq off) (s.cpu.p &&& 0x02 != 0) ∧
    goes (.bpl off) (s.cpu.p &&& 0x80 == 0) ∧ goes (.bmi off) (s.cpu.p &&& 0x80 != 0) ∧
    goes (.bvc off) (s.cpu.p &&& 0x40 == 0) ∧ goes (.bvs off) (s.cpu.p &&& 0x40 != 0)

/-! ## Stack and flags -/

/-- O36. PHA and PHP: the byte is stored at `0x0100 | SP`, and SP falls by one, in page 1; PHP's byte has bits 5 and 4
set, the live P is unchanged (R260, R261, R12). PHP's two bits are the spec's decision D15. -/
def Obligations.PushResults : Prop :=
  ∀ s : State,
    (pushedAt 0 s).toNat = 256 + s.cpu.sp.toNat ∧
    (∃ t, exec .pha s = .next t ∧ CpuIs s t { s.cpu with sp := s.cpu.sp - 1 } ∧
      cpuPeek (pushedAt 0 s) t = s.cpu.a ∧ PushesOnly 1 s t) ∧
    (∃ t, exec .php s = .next t ∧ CpuIs s t { s.cpu with sp := s.cpu.sp - 1 } ∧
      cpuPeek (pushedAt 0 s) t = s.cpu.p ||| 0x30 ∧ PushesOnly 1 s t)

/-- O37. PLA and PLP: SP rises by one, and the byte there is loaded; PLP forces B to 0 and U to 1 (R262, R263). B and
U are the spec's decision D15. -/
def Obligations.PullResults : Prop :=
  ∀ s : State,
    let v := pulledByte 1 s
    v = Store.read unlisted s.ram (256 + (s.cpu.sp.toNat + 1) % 256) ∧
    (∃ t, exec .pla s = .next t ∧ CpuIs s t { s.cpu with sp := s.cpu.sp + 1, a := v, p := nzOf s.cpu.p v } ∧
      PullsOnly s t) ∧
    (∃ t, exec .plp s = .next t ∧ CpuIs s t { s.cpu with sp := s.cpu.sp + 1, p := (v &&& 0xCF) ||| 0x20 } ∧
      PullsOnly s t)

/-- O38. The flag instructions, with their opcode bytes: each writes its one flag (R264 to R270). -/
def Obligations.FlagResults : Prop :=
  decode [0x18] = .ok (.clc, []) ∧ decode [0x38] = .ok (.sec, []) ∧ decode [0x58] = .ok (.cli, []) ∧
  decode [0x78] = .ok (.sei, []) ∧ decode [0xB8] = .ok (.clv, []) ∧ decode [0xD8] = .ok (.cld, []) ∧
  decode [0xF8] = .ok (.sed, []) ∧
  ∀ s : State,
    let sets (i : Instr) (p : Byte) : Prop :=
      ∃ t, exec i s = .next t ∧ CpuIs s t { s.cpu with p := p } ∧ RegisterOnly s t
    sets .clc (s.cpu.p &&& 0xFE) ∧ sets .sec (s.cpu.p ||| 0x01) ∧
    sets .cli (s.cpu.p &&& 0xFB) ∧ sets .sei (s.cpu.p ||| 0x04) ∧
    sets .clv (s.cpu.p &&& 0xBF) ∧
    sets .cld (s.cpu.p &&& 0xF7) ∧ sets .sed (s.cpu.p ||| 0x08)

/-- O39. NOP changes nothing (its own byte is past, R271). -/
def Obligations.NopResult : Prop :=
  ∀ s : State, ∃ t, exec .nop s = .next t ∧ CpuIs s t s.cpu ∧ RegisterOnly s t

/-! ## Halt, interrupts, DMA -/

/-- O40. Fetching an illegal opcode halts the CPU: the fetch completes, and nothing else changes (R371). The state
that a halt leaves is the spec's decision D18. -/
def Obligations.IllegalHalts : Prop :=
  (∀ (op : Byte) (s : State), ∃ t, exec (.illegal op) s = .next t ∧ CpuIs s t { s.cpu with halted := true } ∧
    NoAccess s t) ∧
  ∀ s : State,
    let w := waitCpu s
    WillFetch w.cpu → cpuPeek w.cpu.pc w ∈ illegalOpcodes →
    ∃ t, step s = .next t ∧
      t.cpu = { w.cpu.fetched (cpuPeek w.cpu.pc w) with
        halted := true, cyc := w.cpu.cyc + 1, nmiPending := t.cpu.nmiPending } ∧
      SameMemory w t ∧ SameStores w t ∧ t.bus.runMode = .pause

/-- O41. The halted CPU never moves again: a step is one master cycle in which the PPU steps if its divider says so;
an NMI signal that stands or that this PPU step raises is recorded as a request and cleared (R123), a request already
pending stays, nothing else of the CPU changes, and Pause is forced; only a reset clears the halt (R372, R124). A step
of a halted machine is one master cycle by the model's choice (log 5); that requests are recorded is the spec's
decisions D13, D18. -/
def Obligations.HaltedStays : Prop :=
  ∀ s : State, s.cpu.halted = true →
    let q := if s.bus.ppuDivCnt = 0 then s.ppu.step s.cart else s.ppu
    ∃ t, step s = .next t ∧
      t.cpu = { s.cpu with nmiPending := s.cpu.nmiPending || q.nmiSignal } ∧
      t.ppu = { q with nmiSignal := false } ∧ t.bus.runMode = .pause ∧
      SameMemory s t ∧ SameStores s t ∧ t.port0 = s.port0 ∧ t.port1 = s.port1 ∧
      (deviceReset s).cpu.halted = false

/-- O42. The NMI: in what follows the CPU's part of every master cycle, the PPU's signal, raised before or by this PPU
step, becomes the CPU's request and is cleared, and nothing else of the CPU changes (R123, R374); the request is
serviced, whatever I and an IRQ request say: seven cycles, the next instruction's address and the status (B 0, U 1)
pushed, I set, PC read at `$FFFA` (R376 to R378), and it is spent: none is pending after it if the PPU can raise no new
signal. Sampling, priority, the request's life and the vector are the spec's decisions D10, D11, D13, D16. That the
service is one step is the model's (log 5). -/
def Obligations.NmiService : Prop :=
  (∀ s : State,
    let q := if s.bus.ppuDivCnt = 0 then s.ppu.step s.cart else s.ppu
    (afterCpu s).ppu = { q with nmiSignal := false } ∧
    (afterCpu s).cpu = { s.cpu with nmiPending := s.cpu.nmiPending || q.nmiSignal } ∧
    (masterCycle s).ppu.nmiSignal = false) ∧
  ∀ s : State,
    let w := waitCpu s
    AtBoundary w.cpu → w.cpu.halted = false → w.cpu.dmaRequest = false → w.cpu.nmiPending = true →
    ∃ t, step s = .next t ∧ t.cpu.cyc = w.cpu.cyc + 7 ∧
      (bitAt w.ppu.ctrl 7 = false → w.ppu.nmiSignal = false → t.cpu.nmiPending = false) ∧
      let u := w.onCpu fun c => { c with nmiPending := false }
      Entered 0xFFFA ((w.cpu.p &&& 0xCF) ||| 0x20) w.cpu.pc u.cpu u t

/-- O43. IRQ service: with I = 0 and no NMI pending, the same through `$FFFE`, and the request is spent (R376, R377,
R379). Sampling, priority, the latch and the vector are the spec's decisions D10, D11, D12, D16. -/
def Obligations.IrqService : Prop :=
  ∀ s : State,
    let w := waitCpu s
    AtBoundary w.cpu → w.cpu.halted = false → w.cpu.dmaRequest = false → w.cpu.nmiPending = false →
    w.cpu.irqPending = true → bitAt w.cpu.p flagI = false →
    ∃ t, step s = .next t ∧ t.cpu.cyc = w.cpu.cyc + 7 ∧
      Entered 0xFFFE ((w.cpu.p &&& 0xCF) ||| 0x20) w.cpu.pc { w.cpu with irqPending := false } w t

/-- O44. OAM DMA: in 512 CPU cycles, or 513 from an odd one, the 256 bytes of the page go to `oam`, byte i to `oam[i]`
where its address is memory; `oam_addr`, memory and the CPU's registers are as before, an NMI pending before is pending
after (R165, R376, R384). A page with device registers has their reads' side effects (the write toggle, the read
buffer, `v`, the status, the ports); a page of memory has none. The parity, the boundary and the destination are the
spec's decision D20, DMA before NMI its D11; that the transfer is one step is the model's (log 5), and the latches left
are of no rule (log 8). -/
def Obligations.OamDma : Prop :=
  ∀ s : State,
    let w := waitCpu s
    AtBoundary w.cpu → w.cpu.halted = false → w.cpu.dmaRequest = true →
    ∃ t, step s = .next t ∧
      (∀ i : Byte, isMemory (mkWord w.cpu.dmaPage i) = true →
        Store.read unlisted t.ppu.oam i.toNat = cpuPeek (mkWord w.cpu.dmaPage i) w) ∧
      t.cpu.cyc = w.cpu.cyc + 512 + w.cpu.cyc % 2 ∧
      t.cpu = ({ w.cpu with
        dmaRequest := false, dmaAddr := 0, dmaWait := true, dmaData := Store.read unlisted t.ppu.oam 0xFF } :
          Cpu).withCycleState t.cpu ∧
      (w.cpu.nmiPending = true → t.cpu.nmiPending = true) ∧
      t.ppu.regs = { w.ppu.regs with oam := t.ppu.oam, w := t.ppu.w, readBuf := t.ppu.readBuf } ∧
      SameMemory w t ∧ SameStores w t ∧
      ((∀ i : Byte, isMemory (mkWord w.cpu.dmaPage i) = true) →
        t.ppu.w = w.ppu.w ∧ t.ppu.readBuf = w.ppu.readBuf ∧ t.port0 = w.port0 ∧ t.port1 = w.port1)

/-! ## The memory map -/

/-- O45. RAM is mirrored every `$0800`; an access has no side effect (R53). -/
def Obligations.RamMirrors : Prop :=
  ∀ (a : Word) (s : State) (v : Byte), a < 0x2000 →
    ∀ k ∈ ([0x0000, 0x0800, 0x1000, 0x1800] : List Word),
      cpuPeek (a ^^^ k) s = Store.read unlisted s.ram (a.toNat % 2048) ∧
      readEffect (a ^^^ k) s = s ∧
      cpuWrite (a ^^^ k) v s = { s with ram := Store.write unlisted s.ram (a.toNat % 2048) v }

/-- O46. `$4000–$401F` beside the DMA trigger and the controllers reads 0 and ignores writes (R55). All of it is the
spec's decision D38. -/
def Obligations.StubRange : Prop :=
  ∀ (a : Word) (s : State) (v : Byte), 0x4000 ≤ a → a < 0x4020 →
    (a ≠ 0x4016 → a ≠ 0x4017 → cpuPeek a s = 0 ∧ readEffect a s = s) ∧
    (a ≠ 0x4014 → a ≠ 0x4016 → cpuWrite a v s = s)

/-- O47. A write to `$4014` latches the page and the request, and nothing else; a second one replaces the page (R56).
The second write is the spec's own derivation. -/
def Obligations.DmaTrigger : Prop :=
  ∀ (s : State) (v u : Byte),
    cpuWrite 0x4014 v s = { s with cpu := { s.cpu with dmaPage := v, dmaRequest := true } } ∧
    cpuWrite 0x4014 u (cpuWrite 0x4014 v s) = cpuWrite 0x4014 u s

/-- O48. The controllers: after a write of any value to `$4016`, the `n`-th read of a port gives the buttons from bit
7 down, and 1 for ever after the eighth; reading one port leaves the other (R57, R58). The addresses, the bits' places
and the zero bits are the spec's decision D39. -/
def Obligations.ControllerReads : Prop :=
  ∀ (s : State) (v : Byte) (n : Nat),
    let t := cpuWrite 0x4016 v s
    let bit (buttons : Byte) : Byte := if n < 8 then (if bitAt buttons (7 - n) then 1 else 0) else 1
    cpuPeek 0x4016 ((readEffect 0x4016)^[n] t) = bit s.port0.buttons ∧
    cpuPeek 0x4017 ((readEffect 0x4017)^[n] t) = bit s.port1.buttons ∧
    ((readEffect 0x4016)^[n] t).port1 = t.port1 ∧ ((readEffect 0x4017)^[n] t).port0 = t.port0

/-- O49. The nametable layouts (R64); the palette's aliases: a byte written at either address of a pair is read at both
(R65, through R61 and R62); and where each mapper variant puts the byte of a nametable address, on a read and on a
write: the header's layout for NROM and UNROM-style, one page of the cartridge's memory for AxROM-style, either for
MMC1-style (R63, R347, R352, R355, R357). The formulas are marked general knowledge by the spec; where a single screen
is kept, and that there is no four-screen, are its decision D33, the nametables' mirror its D47. -/
def Obligations.PpuMirrors : Prop :=
  (∀ n : Nat, n < 0x400 →
    (ntMirror .vertical n = n ∧ ntMirror .vertical (n + 0x400) = n + 0x400 ∧
      ntMirror .vertical (n + 0x800) = n ∧ ntMirror .vertical (n + 0xC00) = n + 0x400) ∧
    (ntMirror .horizontal n = n ∧ ntMirror .horizontal (n + 0x400) = n ∧
      ntMirror .horizontal (n + 0x800) = n + 0x400 ∧ ntMirror .horizontal (n + 0xC00) = n + 0x400) ∧
    (∀ k < 4, ntMirror (.single false) (n + k * 0x400) = n ∧ ntMirror (.single true) (n + k * 0x400) = n + 0x400)) ∧
  (∀ (c : Cartridge) (p : Ppu) (v : Byte) (r : Word), r ∈ ([0x3F00, 0x3F04, 0x3F08, 0x3F0C] : List Word) →
    ppuRead c (ppuWritePpu c p r v) r = v ∧ ppuRead c (ppuWritePpu c p r v) (r + 0x10) = v ∧
    ppuRead c (ppuWritePpu c p (r + 0x10) v) r = v ∧ ppuRead c (ppuWritePpu c p (r + 0x10) v) (r + 0x10) = v) ∧
  ∀ (c : Cartridge) (p : Ppu) (x : Word),
    let i := x.toNat % 0x4000
    let n := i % 0x1000
    let vertical := n / 0x400 % 2 * 0x400 + n % 0x400
    let horizontal := n / 0x800 * 0x400 + n % 0x400
    let page (k : Nat) := k * 0x400 + n % 0x400
    let onboard (off : Nat) : Prop :=
      ppuRead c p x = Store.read unlisted p.ciram off ∧
      ∀ v, ppuWriteCart c x v = c ∧ ppuWritePpu c p x v = { p with ciram := Store.write unlisted p.ciram off v }
    let carried (off : Nat) : Prop :=
      ppuRead c p x = Store.read unlisted c.vram off ∧
      ∀ v, ppuWriteCart c x v = { c with vram := Store.write unlisted c.vram off v } ∧ ppuWritePpu c p x v = p
    let header := if c.rom.mirroring = .vertical then vertical else horizontal
    0x2000 ≤ i → i < 0x3F00 →
    (c.mapper = .nrom → onboard header) ∧ (∀ b, c.mapper = .unrom b → onboard header) ∧
    (∀ b q, c.mapper = .axrom b q → carried (page (if q then 1 else 0))) ∧
    (∀ r, c.mapper = .mmc1 r →
      (r.control.toNat % 4 = 0 → carried (page 0)) ∧ (r.control.toNat % 4 = 1 → carried (page 1)) ∧
      (r.control.toNat % 4 = 2 → onboard vertical) ∧ (r.control.toNat % 4 = 3 → onboard horizontal))

/-! ## The PPU -/

/-- O50. The PPU's registers are mirrored every eight bytes of `$2000–$3FFF`; PPUCTRL, PPUMASK, OAMADDR, PPUSCROLL and
PPUADDR read 0, without effect. A write to PPUCTRL sets it and bits 11..10 of `t`, to PPUMASK or OAMADDR the register
alone; one to OAMDATA stores the byte at `oam_addr` and moves `oam_addr` on by one, modulo 256; one to PPUSTATUS is
ignored (R54, R280 to R287). The zeros are the spec's decision D26, OAMDATA's read and increment its D28. -/
def Obligations.PpuWindow : Prop :=
  ∀ (a : Word) (s : State) (v : Byte), 0x2000 ≤ a → a < 0x4000 →
    let r : Word := BitVec.ofNat 16 (0x2000 + a.toNat % 8)
    let p := s.ppu
    let q := (cpuWrite a v s).ppu
    cpuPeek a s = cpuPeek r s ∧ readEffect a s = readEffect r s ∧ cpuWrite a v s = cpuWrite r v s ∧
    (a.toNat % 8 ≠ 2 → a.toNat % 8 ≠ 4 → a.toNat % 8 ≠ 7 → cpuPeek a s = 0 ∧ readEffect a s = s) ∧
    (a.toNat % 8 = 0 → cpuWrite a v s = { s with ppu := { p with ctrl := v, t := q.t } } ∧
      q.t.extractLsb' 10 2 = v.extractLsb' 0 2 ∧ q.t.extractLsb' 0 10 = p.t.extractLsb' 0 10 ∧
      q.t.extractLsb' 12 3 = p.t.extractLsb' 12 3) ∧
    (a.toNat % 8 = 1 → cpuWrite a v s = { s with ppu := { p with mask := v } }) ∧
    (a.toNat % 8 = 2 → cpuWrite a v s = s) ∧
    (a.toNat % 8 = 3 → cpuWrite a v s = { s with ppu := { p with oamAddr := v } }) ∧
    (a.toNat % 8 = 4 → cpuPeek a s = Store.read unlisted p.oam p.oamAddr.toNat ∧ readEffect a s = s ∧
      cpuWrite a v s = { s with ppu := { p with oam := q.oam, oamAddr := BitVec.ofNat 8 (p.oamAddr.toNat + 1) } } ∧
      ∀ i : Byte, Store.read unlisted q.oam i.toNat = if i = p.oamAddr then v else Store.read unlisted p.oam i.toNat)

/-- O51. Reading PPUSTATUS: the three flags above the low bits of the read buffer; VBlank and the write toggle are
cleared, and the VBlank of this frame is suppressed if its point is the PPU's very next step (R283). The low bits are
the spec's decision D26, the window its D23. -/
def Obligations.StatusRead : Prop :=
  ∀ s : State,
    cpuPeek 0x2002 s = (s.ppu.status &&& 0xE0) ||| (s.ppu.readBuf &&& 0x1F) ∧
    readEffect 0x2002 s = { s with ppu := { s.ppu with
      status := s.ppu.status &&& 0x7F
      w := false
      vblSuppress := decide (s.ppu.scanline = 241 ∧ s.ppu.cycle = 1) || s.ppu.vblSuppress } }

/-- O52. Writes to PPUSCROLL and PPUADDR, which share the toggle: each writes the fields its rule names, and leaves
every other bit of `t` and all else of the machine (R286 to R288). -/
def Obligations.ScrollWrites : Prop :=
  ∀ (s : State) (x : Byte),
    let t := (cpuWrite 0x2005 x s).ppu.t
    let u := (cpuWrite 0x2006 x s).ppu.t
    (s.ppu.w = false →
      cpuWrite 0x2005 x s = { s with ppu := { s.ppu with t := t, fineX := x.extractLsb' 0 3, w := true } } ∧
      t.extractLsb' 0 5 = x.extractLsb' 3 5 ∧ t.extractLsb' 5 10 = s.ppu.t.extractLsb' 5 10 ∧
      cpuWrite 0x2006 x s = { s with ppu := { s.ppu with t := u, w := true } } ∧
      u.extractLsb' 8 6 = x.extractLsb' 0 6 ∧ u.getLsbD 14 = false ∧ u.extractLsb' 0 8 = s.ppu.t.extractLsb' 0 8) ∧
    (s.ppu.w = true →
      cpuWrite 0x2005 x s = { s with ppu := { s.ppu with t := t, w := false } } ∧
      t.extractLsb' 12 3 = x.extractLsb' 0 3 ∧ t.extractLsb' 5 5 = x.extractLsb' 3 5 ∧
      t.extractLsb' 0 5 = s.ppu.t.extractLsb' 0 5 ∧ t.extractLsb' 10 2 = s.ppu.t.extractLsb' 10 2 ∧
      cpuWrite 0x2006 x s = { s with ppu := { s.ppu with t := u, v := u, w := false } } ∧
      u.extractLsb' 0 8 = x ∧ u.extractLsb' 8 7 = s.ppu.t.extractLsb' 8 7)

/-- O53. PPUDATA: a read below the palette gives the buffer and refills it, a palette read gives the byte at once and
buffers it; a write goes to the PPU's bus; either moves `v` by 1 or 32, modulo 2^15 (R289, R290). The palette in the
buffer and the plain increment are the spec's decision D27. -/
def Obligations.PpuData : Prop :=
  ∀ (s : State) (x : Byte),
    let a : Word := BitVec.ofNat 16 (s.ppu.v.toNat % 0x4000)
    let next : BitVec 15 := BitVec.ofNat 15 (s.ppu.v.toNat + (if s.ppu.ctrl &&& 0x04 = 0 then 1 else 32))
    cpuPeek 0x2007 s = (if s.ppu.v.toNat % 0x4000 < 0x3F00 then s.ppu.readBuf else ppuRead s.cart s.ppu a) ∧
    readEffect 0x2007 s = { s with ppu := { s.ppu with readBuf := ppuRead s.cart s.ppu a, v := next } } ∧
    let q := ppuWritePpu s.cart s.ppu a x
    cpuWrite 0x2007 x s = { s with ppu := { q with v := next }, cart := ppuWriteCart s.cart a x }

/-- O54. The VBlank point, and the only one: at (241, 1) the flag is set and an NMI signalled if PPUCTRL enables it,
unless suppressed, and the latch is spent; no other step sets the flag or the signal (R304, R305). That there is no
other point is the spec's decision D25, the latch's window its D23. -/
def Obligations.VBlankPoint : Prop :=
  ∀ (p : Ppu) (k : Cartridge),
    (p.scanline = 241 → p.cycle = 1 →
      (p.step k).vblSuppress = false ∧
      (p.vblSuppress = true → (p.step k).status = p.status ∧ (p.step k).nmiSignal = p.nmiSignal) ∧
      (p.vblSuppress = false → (p.step k).status = p.status ||| 0x80 ∧
        (p.step k).nmiSignal = (bitAt p.ctrl 7 || p.nmiSignal))) ∧
    (¬ (p.scanline = 241 ∧ p.cycle = 1) →
      (bitAt (p.step k).status 7 = true → bitAt p.status 7 = true) ∧ (p.step k).nmiSignal = p.nmiSignal ∧
      (p.step k).vblSuppress = p.vblSuppress) ∧
    (p.scanline = -1 → p.cycle = 1 → (p.step k).status &&& 0xE0 = 0)

/-- O55. The position: one dot on, to the next line after 340 and to the pre-render line after 260, where the frame is
counted; (0, 0) is passed over on an odd frame with rendering enabled (R303, R330). What an odd frame passes over is
the spec's decision D24, the flags' life its D42. -/
def Obligations.PpuPosition : Prop :=
  ∀ (p : Ppu) (k : Cartridge), p.scanline ≤ 260 → p.cycle ≤ 340 →
    let skip := decide (p.scanline = 0 ∧ p.cycle = 0 ∧ (bitAt p.mask 3 = true ∨ bitAt p.mask 4 = true) ∧ p.frame % 2 = 1)
    let lineEnds := decide (p.cycle = 340)
    let frameEnds := decide (p.cycle = 340 ∧ p.scanline = 260)
    (p.step k).cycle = (if lineEnds then 0 else if skip then 2 else p.cycle + 1) ∧
    (p.step k).scanline = (if frameEnds then -1 else if lineEnds then p.scanline + 1 else p.scanline) ∧
    (p.step k).frame = (if frameEnds then p.frame + 1 else p.frame) ∧
    (p.step k).lineReady = lineEnds ∧ (p.step k).frameReady = frameEnds

/-- O56. With rendering disabled a frame is 262 × 341 = 89342 steps, and the PPU does nothing but count, raise VBlank
and clear its flags (R331, R333). Both are derived by the spec. -/
def Obligations.FrameLength : Prop :=
  ∀ (p : Ppu) (k : Cartridge), bitAt p.mask 3 = false → bitAt p.mask 4 = false →
    -1 ≤ p.scanline → p.scanline ≤ 260 → p.cycle ≤ 340 →
    let q := (fun r : Ppu => r.step k)^[89342] p
    q.scanline = p.scanline ∧ q.cycle = p.cycle ∧ q.frame = p.frame + 1 ∧
    q = { p with
      scanline := q.scanline, cycle := q.cycle, frame := q.frame, status := q.status, lineReady := q.lineReady,
      frameReady := q.frameReady, nmiSignal := q.nmiSignal, vblSuppress := q.vblSuppress }

/-- O57. Sprite evaluation: up to eight of the sprites in range of the line are kept, in order, and the overflow flag
is set exactly by a ninth (R312). The exact overflow and the range are the spec's decision D29. -/
def Obligations.SpriteEvaluation : Prop :=
  ∀ (p : Ppu) (s : Int), p.secCount = 0 →
    let height : Int := if bitAt p.ctrl 5 then 16 else 8
    let inRange (n : Nat) : Bool :=
      decide (0 ≤ s - ((Store.read unlisted p.oam (4 * n)).toNat : Int) ∧
        s - ((Store.read unlisted p.oam (4 * n)).toNat : Int) < height)
    let found := (List.range 64).filter inRange
    let q := p.spriteEvaluate s
    q.secCount = min 8 found.length ∧
    (bitAt q.status 5 = true ↔ bitAt p.status 5 = true ∨ 8 < found.length) ∧
    (∀ k n : Nat, k < 8 → found[k]? = some n → ∀ i < 4,
      Store.read secUnlisted q.secOam (4 * k + i) = Store.read unlisted p.oam (4 * n + i))

/-! ## Mappers and reset -/

/-- O58. The MMC1-style port: a write with bit 7 set empties the shift register and selects PRG mode 3; otherwise the
fifth of five writes puts their low bits, first bit lowest, into the register its address selects (R349). The bit
order, the ports and the 0x0C are the spec's decision D36. -/
def Obligations.Mmc1Serial : Prop :=
  ∀ (c : Cartridge) (r : Mmc1), c.mapper = .mmc1 r →
    (∀ (a : Word) (v : Byte), 0x8000 ≤ a → bitAt v 7 = true →
      c.cpuWrite a v = { c with mapper := .mmc1 { r with shift := 0, shiftPos := 0, control := r.control ||| 0x0C } }) ∧
    (∀ (a0 a1 a2 a3 a4 : Word) (cmd : BitVec 5), r.shift = 0 → r.shiftPos = 0 →
      0x8000 ≤ a0 → 0x8000 ≤ a1 → 0x8000 ≤ a2 → 0x8000 ≤ a3 → 0x8000 ≤ a4 →
      let bit (i : Nat) : Byte := if cmd.getLsbD i then 1 else 0
      let done : Mmc1 :=
        if a4 < 0xA000 then { r with control := cmd }
        else if a4 < 0xC000 then { r with chr0 := cmd }
        else if a4 < 0xE000 then { r with chr1 := cmd }
        else { r with prgBank := cmd }
      ((((c.cpuWrite a0 (bit 0)).cpuWrite a1 (bit 1)).cpuWrite a2 (bit 2)).cpuWrite a3 (bit 3)).cpuWrite a4 (bit 4) =
        { c with mapper := .mmc1 done })

/-- O59. What the CPU and the PPU read of the cartridge, and what their writes change. CPU: PRG ROM through each
variant's bank formula, PRG-RAM where it exists, 0 where nothing is mapped; a write at `$8000–$FFFF` is ignored by
NROM and is the bank port of UNROM-style and AxROM-style (MMC1-style: O58). PPU: CHR through each variant's formula
modulo the memory's size, which a write changes exactly if it is RAM (R344 to R347, R350, R351, R354 to R358). The
registers' places, PRG-RAM and the zeros are the spec's decisions D35 to D38. -/
def Obligations.CartridgeReads : Prop :=
  ∀ c : Cartridge,
    (∀ a : Word,
      let n := c.rom.prgChunks
      let rom (off : Nat) : Prop := c.cpuRead a = Store.read unlisted c.rom.prg off
      (a < 0x6000 → c.cpuRead a = 0 ∧ ∀ v, c.cpuWrite a v = c) ∧
      (0x6000 ≤ a → a < 0x8000 →
        (c.hasPrgRam = true ↔ c.rom.ramPresent = true ∧ (c.mapper.id = 0 ∨ c.mapper.id = 1)) ∧
        (c.hasPrgRam = true → ∀ v, (c.cpuWrite a v).cpuRead a = v) ∧
        (c.hasPrgRam = false → c.cpuRead a = 0 ∧ ∀ v, c.cpuWrite a v = c)) ∧
      (0x8000 ≤ a →
        (c.mapper = .nrom → rom (a.toNat % (if 1 < n then 0x8000 else 0x4000)) ∧ ∀ v, c.cpuWrite a v = c) ∧
        (∀ b, c.mapper = .unrom b →
          rom ((if a < 0xC000 then b.toNat % n else n - 1) * 0x4000 + a.toNat % 0x4000) ∧
          ∀ v, c.cpuWrite a v = { c with mapper := .unrom (BitVec.ofNat 4 v.toNat) }) ∧
        (∀ b q, c.mapper = .axrom b q →
          rom ((b.toNat * 0x8000 + a.toNat % 0x8000) % (n * 0x4000)) ∧
          ∀ v, c.cpuWrite a v = { c with mapper := .axrom (BitVec.ofNat 3 v.toNat) (decide (v.toNat / 16 % 2 = 1)) }) ∧
        (∀ r, c.mapper = .mmc1 r →
          let bank := r.prgBank.toNat % 16
          rom ((match r.control.toNat / 4 % 4 with
            | 2 => if a < 0xC000 then 0 else bank
            | 3 => if a < 0xC000 then bank else n - 1
            | _ => bank / 2 * 2 + (if a < 0xC000 then 0 else 1)) % n * 0x4000 + a.toNat % 0x4000)))) ∧
    (∀ (p : Ppu) (x : Word),
      let i := x.toNat % 0x4000
      let chr (off : Nat) : Prop :=
        (∀ v, ppuWritePpu c p x v = p) ∧
        (c.rom.chrChunks = 0 → ppuRead c p x = Store.read unlisted c.chrRam (off % 8192) ∧
          ∀ v, ppuWriteCart c x v = { c with chrRam := Store.write unlisted c.chrRam (off % 8192) v }) ∧
        (0 < c.rom.chrChunks → ppuRead c p x = Store.read unlisted c.rom.chr (off % (8192 * c.rom.chrChunks)) ∧
          ∀ v, ppuWriteCart c x v = c)
      i < 0x2000 →
      (c.mapper.id ≠ 1 → chr i) ∧
      (∀ r, c.mapper = .mmc1 r →
        (r.control.toNat < 16 → chr (r.chr0.toNat / 2 * 0x2000 + i)) ∧
        (16 ≤ r.control.toNat →
          chr (if i < 0x1000 then r.chr0.toNat * 0x1000 + i else r.chr1.toNat * 0x1000 + (i - 0x1000)))))

/-- O60. A device reset: SP, P, PC and every other value the spec gives, and the memories, A, X, Y, the parameters,
the buttons and the run mode left as they were; PC is read through the mapper's reset state (R400 to R402, R360).
Beside the three CPU values the source gives, these are the spec's decisions D2, D6, D20, D21, D22. -/
def Obligations.ResetValues : Prop :=
  ∀ s : State,
    let t := deviceReset s
    t.cpu.sp = 0xFD ∧ t.cpu.p = 0x20 ∧ t.cpu.pc = mkWord (cpuPeek 0xFFFD t) (cpuPeek 0xFFFC t) ∧
    t.cpu.a = s.cpu.a ∧ t.cpu.x = s.cpu.x ∧ t.cpu.y = s.cpu.y ∧
    t.cpu.ir = 0 ∧ t.cpu.mode = .imp ∧ t.cpu.sub = 0 ∧ t.cpu.ready = true ∧
    t.cpu.irqPending = false ∧ t.cpu.nmiPending = false ∧ t.cpu.dmaRequest = false ∧ t.cpu.nmiActive = false ∧
    t.cpu.irqActive = false ∧ t.cpu.halted = false ∧ t.cpu.history = Vector.replicate 8 0 ∧ t.cpu.histPos = 0 ∧
    t.cpu.lo = 0 ∧ t.cpu.hi = 0 ∧ t.cpu.ptr = 0 ∧ t.cpu.ea = 0 ∧ t.cpu.m = 0 ∧ t.cpu.cross = false ∧ t.cpu.taken = false ∧
    t.cpu.dmaActive = false ∧ t.cpu.dmaAddr = 0 ∧ t.cpu.dmaPage = 0 ∧ t.cpu.dmaData = 0 ∧ t.cpu.dmaWait = true ∧
    t.cpu.cyc = s.cfg.dmaParityAtReset ∧
    t.ppu.ctrl = 0 ∧ t.ppu.mask = 0 ∧ t.ppu.status = 0 ∧ t.ppu.oamAddr = 0 ∧ t.ppu.v = 0 ∧ t.ppu.t = 0 ∧
    t.ppu.fineX = 0 ∧ t.ppu.w = false ∧ t.ppu.readBuf = 0 ∧ t.ppu.bgLo = 0 ∧ t.ppu.bgHi = 0 ∧ t.ppu.atLo = 0 ∧
    t.ppu.atHi = 0 ∧ t.ppu.nxTile = 0 ∧ t.ppu.nxAttr = 0 ∧ t.ppu.nxLo = 0 ∧ t.ppu.nxHi = 0 ∧
    (∀ i < 32, Store.read secUnlisted t.ppu.secOam i = 0xFF) ∧ t.ppu.secCount = 0 ∧ t.ppu.sprCount = 0 ∧
    t.ppu.secZero = false ∧ t.ppu.sprZero = false ∧ t.ppu.spr = Vector.replicate 8 ⟨0, 0, 0, 0⟩ ∧
    t.ppu.scanline = 0 ∧ t.ppu.cycle = 0 ∧ t.ppu.frame = 0 ∧ t.ppu.ready = false ∧ t.ppu.lineReady = false ∧
    t.ppu.frameReady = false ∧ t.ppu.nmiSignal = false ∧ t.ppu.vblSuppress = false ∧
    t.ppu.oam = s.ppu.oam ∧ t.ppu.pal = s.ppu.pal ∧ t.ppu.ciram = s.ppu.ciram ∧ t.ppu.fb = s.ppu.fb ∧
    t.ram = s.ram ∧ t.cfg = s.cfg ∧ t.bus = { s.bus with cpuDivCnt := 0, ppuDivCnt := 0 } ∧
    t.cart = { s.cart with mapper := t.cart.mapper } ∧
    (s.cart.mapper = .nrom → t.cart.mapper = .nrom) ∧
    (∀ b, s.cart.mapper = .unrom b → t.cart.mapper = .unrom 0) ∧
    (∀ b q, s.cart.mapper = .axrom b q → t.cart.mapper = .axrom 0 false) ∧
    (∀ r, s.cart.mapper = .mmc1 r → t.cart.mapper =
      .mmc1 ⟨0, 0, if s.cart.rom.mirroring = .vertical then 0x0E else 0x0F, 0, 0, 0⟩) ∧
    t.port0 = { s.port0 with latched := 0, reads := 0 } ∧ t.port1 = { s.port1 with latched := 0, reads := 0 }
end

