-- ==== Sys2Proof/Laws/Bits.lean ====
section
/-!
SUPPORT. The bytes of a word, as numbers.
-/

namespace Sys2Proof.Machine

theorem toNat_mkWord (h l : Byte) : (mkWord h l).toNat = h.toNat * 256 + l.toNat := by
  unfold mkWord
  rw [BitVec.toNat_append, ← Nat.shiftLeft_add_eq_or_of_lt l.isLt, Nat.shiftLeft_eq]

theorem toNat_hiByte (w : Word) : (hiByte w).toNat = w.toNat / 256 := by
  have := w.isLt
  unfold hiByte
  rw [BitVec.extractLsb'_toNat, Nat.shiftRight_eq_div_pow]
  omega

theorem toNat_loByte (w : Word) : (loByte w).toNat = w.toNat % 256 := by
  unfold loByte
  rw [BitVec.extractLsb'_toNat, Nat.shiftRight_eq_div_pow]
  omega

theorem toNat_zext16 (b : Byte) : (zext16 b).toNat = b.toNat := by
  have := b.isLt
  unfold zext16
  rw [BitVec.toNat_setWidth]
  omega

/-- The second byte of an indirect jump's pointer is in the page of the first (R240). -/
theorem toNat_samePageNext (w : Word) : (samePageNext w).toNat = w.toNat / 256 * 256 + (w.toNat + 1) % 256 := by
  unfold samePageNext
  rw [toNat_mkWord, toNat_hiByte, BitVec.toNat_add, toNat_loByte]
  have : (1 : Byte).toNat = 1 := rfl
  rw [this]
  omega

/-- A page cross is the carry out of the low byte (R157). -/
theorem crosses_iff (base : Word) (index : Byte) :
    crosses base index = true ↔ 255 < (loByte base).toNat + index.toNat := by
  have h1 := base.isLt
  have h2 := index.isLt
  have key : hiByte (base + zext16 index) = hiByte base ↔ ¬ 255 < (loByte base).toNat + index.toNat := by
    rw [← BitVec.toNat_inj, toNat_hiByte, toNat_hiByte, toNat_loByte, BitVec.toNat_add, toNat_zext16]
    omega
  unfold crosses
  rw [bne_iff_ne, ne_eq, key, not_not]

end Sys2Proof.Machine
end

