-- ==== Sys2Proof/Laws/State.lean ====
section
/-!
SUPPORT. The fields of a state after each named update, one lemma per field, true by definition.
-/

namespace Sys2Proof.Machine

section
variable (s : State)

@[simp] theorem State.onCpu_cfg (f : Cpu → Cpu) : (s.onCpu f).cfg = s.cfg := rfl
@[simp] theorem State.onCpu_cpu (f : Cpu → Cpu) : (s.onCpu f).cpu = f s.cpu := rfl
@[simp] theorem State.onCpu_ram (f : Cpu → Cpu) : (s.onCpu f).ram = s.ram := rfl
@[simp] theorem State.onCpu_ppu (f : Cpu → Cpu) : (s.onCpu f).ppu = s.ppu := rfl
@[simp] theorem State.onCpu_cart (f : Cpu → Cpu) : (s.onCpu f).cart = s.cart := rfl
@[simp] theorem State.onCpu_port0 (f : Cpu → Cpu) : (s.onCpu f).port0 = s.port0 := rfl
@[simp] theorem State.onCpu_port1 (f : Cpu → Cpu) : (s.onCpu f).port1 = s.port1 := rfl
@[simp] theorem State.onCpu_bus (f : Cpu → Cpu) : (s.onCpu f).bus = s.bus := rfl

@[simp] theorem State.onPpu_cfg (f : Ppu → Ppu) : (s.onPpu f).cfg = s.cfg := rfl
@[simp] theorem State.onPpu_cpu (f : Ppu → Ppu) : (s.onPpu f).cpu = s.cpu := rfl
@[simp] theorem State.onPpu_ram (f : Ppu → Ppu) : (s.onPpu f).ram = s.ram := rfl
@[simp] theorem State.onPpu_ppu (f : Ppu → Ppu) : (s.onPpu f).ppu = f s.ppu := rfl
@[simp] theorem State.onPpu_cart (f : Ppu → Ppu) : (s.onPpu f).cart = s.cart := rfl
@[simp] theorem State.onPpu_port0 (f : Ppu → Ppu) : (s.onPpu f).port0 = s.port0 := rfl
@[simp] theorem State.onPpu_port1 (f : Ppu → Ppu) : (s.onPpu f).port1 = s.port1 := rfl
@[simp] theorem State.onPpu_bus (f : Ppu → Ppu) : (s.onPpu f).bus = s.bus := rfl

@[simp] theorem State.onCart_cfg (f : Cartridge → Cartridge) : (s.onCart f).cfg = s.cfg := rfl
@[simp] theorem State.onCart_cpu (f : Cartridge → Cartridge) : (s.onCart f).cpu = s.cpu := rfl
@[simp] theorem State.onCart_ram (f : Cartridge → Cartridge) : (s.onCart f).ram = s.ram := rfl
@[simp] theorem State.onCart_ppu (f : Cartridge → Cartridge) : (s.onCart f).ppu = s.ppu := rfl
@[simp] theorem State.onCart_cart (f : Cartridge → Cartridge) : (s.onCart f).cart = f s.cart := rfl
@[simp] theorem State.onCart_port0 (f : Cartridge → Cartridge) : (s.onCart f).port0 = s.port0 := rfl
@[simp] theorem State.onCart_port1 (f : Cartridge → Cartridge) : (s.onCart f).port1 = s.port1 := rfl
@[simp] theorem State.onCart_bus (f : Cartridge → Cartridge) : (s.onCart f).bus = s.bus := rfl

@[simp] theorem State.onBus_cfg (f : Bus → Bus) : (s.onBus f).cfg = s.cfg := rfl
@[simp] theorem State.onBus_cpu (f : Bus → Bus) : (s.onBus f).cpu = s.cpu := rfl
@[simp] theorem State.onBus_ram (f : Bus → Bus) : (s.onBus f).ram = s.ram := rfl
@[simp] theorem State.onBus_ppu (f : Bus → Bus) : (s.onBus f).ppu = s.ppu := rfl
@[simp] theorem State.onBus_cart (f : Bus → Bus) : (s.onBus f).cart = s.cart := rfl
@[simp] theorem State.onBus_port0 (f : Bus → Bus) : (s.onBus f).port0 = s.port0 := rfl
@[simp] theorem State.onBus_port1 (f : Bus → Bus) : (s.onBus f).port1 = s.port1 := rfl
@[simp] theorem State.onBus_bus (f : Bus → Bus) : (s.onBus f).bus = f s.bus := rfl

@[simp] theorem retire_cfg : (retire s).cfg = s.cfg := rfl
@[simp] theorem retire_cpu : (retire s).cpu = { s.cpu with ready := true } := rfl
@[simp] theorem retire_ram : (retire s).ram = s.ram := rfl
@[simp] theorem retire_ppu : (retire s).ppu = s.ppu := rfl
@[simp] theorem retire_cart : (retire s).cart = s.cart := rfl
@[simp] theorem retire_port0 : (retire s).port0 = s.port0 := rfl
@[simp] theorem retire_port1 : (retire s).port1 = s.port1 := rfl
@[simp] theorem retire_bus : (retire s).bus = s.bus := rfl
end

section
variable (c w : Cpu)

@[simp] theorem Cpu.withCycleState_a : (c.withCycleState w).a = c.a := rfl
@[simp] theorem Cpu.withCycleState_x : (c.withCycleState w).x = c.x := rfl
@[simp] theorem Cpu.withCycleState_y : (c.withCycleState w).y = c.y := rfl
@[simp] theorem Cpu.withCycleState_sp : (c.withCycleState w).sp = c.sp := rfl
@[simp] theorem Cpu.withCycleState_pc : (c.withCycleState w).pc = c.pc := rfl
@[simp] theorem Cpu.withCycleState_p : (c.withCycleState w).p = c.p := rfl
@[simp] theorem Cpu.withCycleState_ir : (c.withCycleState w).ir = c.ir := rfl
@[simp] theorem Cpu.withCycleState_mode : (c.withCycleState w).mode = c.mode := rfl
@[simp] theorem Cpu.withCycleState_sub : (c.withCycleState w).sub = w.sub := rfl
@[simp] theorem Cpu.withCycleState_ready : (c.withCycleState w).ready = c.ready := rfl
@[simp] theorem Cpu.withCycleState_irqPending : (c.withCycleState w).irqPending = c.irqPending := rfl
@[simp] theorem Cpu.withCycleState_nmiPending : (c.withCycleState w).nmiPending = w.nmiPending := rfl
@[simp] theorem Cpu.withCycleState_dmaRequest : (c.withCycleState w).dmaRequest = c.dmaRequest := rfl
@[simp] theorem Cpu.withCycleState_nmiActive : (c.withCycleState w).nmiActive = c.nmiActive := rfl
@[simp] theorem Cpu.withCycleState_irqActive : (c.withCycleState w).irqActive = c.irqActive := rfl
@[simp] theorem Cpu.withCycleState_halted : (c.withCycleState w).halted = c.halted := rfl
@[simp] theorem Cpu.withCycleState_history : (c.withCycleState w).history = c.history := rfl
@[simp] theorem Cpu.withCycleState_histPos : (c.withCycleState w).histPos = c.histPos := rfl
@[simp] theorem Cpu.withCycleState_lo : (c.withCycleState w).lo = w.lo := rfl
@[simp] theorem Cpu.withCycleState_hi : (c.withCycleState w).hi = w.hi := rfl
@[simp] theorem Cpu.withCycleState_ptr : (c.withCycleState w).ptr = w.ptr := rfl
@[simp] theorem Cpu.withCycleState_ea : (c.withCycleState w).ea = w.ea := rfl
@[simp] theorem Cpu.withCycleState_m : (c.withCycleState w).m = w.m := rfl
@[simp] theorem Cpu.withCycleState_cross : (c.withCycleState w).cross = w.cross := rfl
@[simp] theorem Cpu.withCycleState_taken : (c.withCycleState w).taken = w.taken := rfl
@[simp] theorem Cpu.withCycleState_dmaActive : (c.withCycleState w).dmaActive = c.dmaActive := rfl
@[simp] theorem Cpu.withCycleState_dmaAddr : (c.withCycleState w).dmaAddr = c.dmaAddr := rfl
@[simp] theorem Cpu.withCycleState_dmaPage : (c.withCycleState w).dmaPage = c.dmaPage := rfl
@[simp] theorem Cpu.withCycleState_dmaData : (c.withCycleState w).dmaData = c.dmaData := rfl
@[simp] theorem Cpu.withCycleState_dmaWait : (c.withCycleState w).dmaWait = c.dmaWait := rfl
@[simp] theorem Cpu.withCycleState_cyc : (c.withCycleState w).cyc = w.cyc := rfl
@[simp] theorem Cpu.withCycleState_diagnostic : (c.withCycleState w).diagnostic = c.diagnostic := rfl
end

section
variable (p : Ppu)

@[simp] theorem Ppu.regs_ctrl : p.regs.ctrl = p.ctrl := rfl
@[simp] theorem Ppu.regs_mask : p.regs.mask = p.mask := rfl
@[simp] theorem Ppu.regs_oamAddr : p.regs.oamAddr = p.oamAddr := rfl
@[simp] theorem Ppu.regs_t : p.regs.t = p.t := rfl
@[simp] theorem Ppu.regs_fineX : p.regs.fineX = p.fineX := rfl
@[simp] theorem Ppu.regs_w : p.regs.w = p.w := rfl
@[simp] theorem Ppu.regs_readBuf : p.regs.readBuf = p.readBuf := rfl
@[simp] theorem Ppu.regs_pal : p.regs.pal = p.pal := rfl
@[simp] theorem Ppu.regs_oam : p.regs.oam = p.oam := rfl
@[simp] theorem Ppu.regs_ciram : p.regs.ciram = p.ciram := rfl
@[simp] theorem Ppu.regs_ready : p.regs.ready = p.ready := rfl
end

section
variable (c : Cpu) (b : Byte)

@[simp] theorem setPcLow_a : (setPcLow b c).a = c.a := rfl
@[simp] theorem setPcLow_x : (setPcLow b c).x = c.x := rfl
@[simp] theorem setPcLow_y : (setPcLow b c).y = c.y := rfl
@[simp] theorem setPcLow_sp : (setPcLow b c).sp = c.sp := rfl
@[simp] theorem setPcLow_pc : (setPcLow b c).pc = mkWord (hiByte c.pc) b := rfl
@[simp] theorem setPcLow_p : (setPcLow b c).p = c.p := rfl
@[simp] theorem setPcLow_ir : (setPcLow b c).ir = c.ir := rfl
@[simp] theorem setPcLow_mode : (setPcLow b c).mode = c.mode := rfl
@[simp] theorem setPcLow_sub : (setPcLow b c).sub = c.sub := rfl
@[simp] theorem setPcLow_ready : (setPcLow b c).ready = c.ready := rfl
@[simp] theorem setPcLow_irqPending : (setPcLow b c).irqPending = c.irqPending := rfl
@[simp] theorem setPcLow_nmiPending : (setPcLow b c).nmiPending = c.nmiPending := rfl
@[simp] theorem setPcLow_dmaRequest : (setPcLow b c).dmaRequest = c.dmaRequest := rfl
@[simp] theorem setPcLow_nmiActive : (setPcLow b c).nmiActive = c.nmiActive := rfl
@[simp] theorem setPcLow_irqActive : (setPcLow b c).irqActive = c.irqActive := rfl
@[simp] theorem setPcLow_halted : (setPcLow b c).halted = c.halted := rfl
@[simp] theorem setPcLow_history : (setPcLow b c).history = c.history := rfl
@[simp] theorem setPcLow_histPos : (setPcLow b c).histPos = c.histPos := rfl
@[simp] theorem setPcLow_lo : (setPcLow b c).lo = c.lo := rfl
@[simp] theorem setPcLow_hi : (setPcLow b c).hi = c.hi := rfl
@[simp] theorem setPcLow_ptr : (setPcLow b c).ptr = c.ptr := rfl
@[simp] theorem setPcLow_ea : (setPcLow b c).ea = c.ea := rfl
@[simp] theorem setPcLow_m : (setPcLow b c).m = c.m := rfl
@[simp] theorem setPcLow_cross : (setPcLow b c).cross = c.cross := rfl
@[simp] theorem setPcLow_taken : (setPcLow b c).taken = c.taken := rfl
@[simp] theorem setPcLow_dmaActive : (setPcLow b c).dmaActive = c.dmaActive := rfl
@[simp] theorem setPcLow_dmaAddr : (setPcLow b c).dmaAddr = c.dmaAddr := rfl
@[simp] theorem setPcLow_dmaPage : (setPcLow b c).dmaPage = c.dmaPage := rfl
@[simp] theorem setPcLow_dmaData : (setPcLow b c).dmaData = c.dmaData := rfl
@[simp] theorem setPcLow_dmaWait : (setPcLow b c).dmaWait = c.dmaWait := rfl
@[simp] theorem setPcLow_cyc : (setPcLow b c).cyc = c.cyc := rfl
@[simp] theorem setPcLow_diagnostic : (setPcLow b c).diagnostic = c.diagnostic := rfl

@[simp] theorem setPcHigh_a : (setPcHigh b c).a = c.a := rfl
@[simp] theorem setPcHigh_x : (setPcHigh b c).x = c.x := rfl
@[simp] theorem setPcHigh_y : (setPcHigh b c).y = c.y := rfl
@[simp] theorem setPcHigh_sp : (setPcHigh b c).sp = c.sp := rfl
@[simp] theorem setPcHigh_pc : (setPcHigh b c).pc = mkWord b (loByte c.pc) := rfl
@[simp] theorem setPcHigh_p : (setPcHigh b c).p = c.p := rfl
@[simp] theorem setPcHigh_ir : (setPcHigh b c).ir = c.ir := rfl
@[simp] theorem setPcHigh_mode : (setPcHigh b c).mode = c.mode := rfl
@[simp] theorem setPcHigh_sub : (setPcHigh b c).sub = c.sub := rfl
@[simp] theorem setPcHigh_ready : (setPcHigh b c).ready = c.ready := rfl
@[simp] theorem setPcHigh_irqPending : (setPcHigh b c).irqPending = c.irqPending := rfl
@[simp] theorem setPcHigh_nmiPending : (setPcHigh b c).nmiPending = c.nmiPending := rfl
@[simp] theorem setPcHigh_dmaRequest : (setPcHigh b c).dmaRequest = c.dmaRequest := rfl
@[simp] theorem setPcHigh_nmiActive : (setPcHigh b c).nmiActive = c.nmiActive := rfl
@[simp] theorem setPcHigh_irqActive : (setPcHigh b c).irqActive = c.irqActive := rfl
@[simp] theorem setPcHigh_halted : (setPcHigh b c).halted = c.halted := rfl
@[simp] theorem setPcHigh_history : (setPcHigh b c).history = c.history := rfl
@[simp] theorem setPcHigh_histPos : (setPcHigh b c).histPos = c.histPos := rfl
@[simp] theorem setPcHigh_lo : (setPcHigh b c).lo = c.lo := rfl
@[simp] theorem setPcHigh_hi : (setPcHigh b c).hi = c.hi := rfl
@[simp] theorem setPcHigh_ptr : (setPcHigh b c).ptr = c.ptr := rfl
@[simp] theorem setPcHigh_ea : (setPcHigh b c).ea = c.ea := rfl
@[simp] theorem setPcHigh_m : (setPcHigh b c).m = c.m := rfl
@[simp] theorem setPcHigh_cross : (setPcHigh b c).cross = c.cross := rfl
@[simp] theorem setPcHigh_taken : (setPcHigh b c).taken = c.taken := rfl
@[simp] theorem setPcHigh_dmaActive : (setPcHigh b c).dmaActive = c.dmaActive := rfl
@[simp] theorem setPcHigh_dmaAddr : (setPcHigh b c).dmaAddr = c.dmaAddr := rfl
@[simp] theorem setPcHigh_dmaPage : (setPcHigh b c).dmaPage = c.dmaPage := rfl
@[simp] theorem setPcHigh_dmaData : (setPcHigh b c).dmaData = c.dmaData := rfl
@[simp] theorem setPcHigh_dmaWait : (setPcHigh b c).dmaWait = c.dmaWait := rfl
@[simp] theorem setPcHigh_cyc : (setPcHigh b c).cyc = c.cyc := rfl
@[simp] theorem setPcHigh_diagnostic : (setPcHigh b c).diagnostic = c.diagnostic := rfl

@[simp] theorem incPc_a : (incPc c).a = c.a := rfl
@[simp] theorem incPc_x : (incPc c).x = c.x := rfl
@[simp] theorem incPc_y : (incPc c).y = c.y := rfl
@[simp] theorem incPc_sp : (incPc c).sp = c.sp := rfl
@[simp] theorem incPc_pc : (incPc c).pc = c.pc + 1 := rfl
@[simp] theorem incPc_p : (incPc c).p = c.p := rfl
@[simp] theorem incPc_ir : (incPc c).ir = c.ir := rfl
@[simp] theorem incPc_mode : (incPc c).mode = c.mode := rfl
@[simp] theorem incPc_sub : (incPc c).sub = c.sub := rfl
@[simp] theorem incPc_ready : (incPc c).ready = c.ready := rfl
@[simp] theorem incPc_irqPending : (incPc c).irqPending = c.irqPending := rfl
@[simp] theorem incPc_nmiPending : (incPc c).nmiPending = c.nmiPending := rfl
@[simp] theorem incPc_dmaRequest : (incPc c).dmaRequest = c.dmaRequest := rfl
@[simp] theorem incPc_nmiActive : (incPc c).nmiActive = c.nmiActive := rfl
@[simp] theorem incPc_irqActive : (incPc c).irqActive = c.irqActive := rfl
@[simp] theorem incPc_halted : (incPc c).halted = c.halted := rfl
@[simp] theorem incPc_history : (incPc c).history = c.history := rfl
@[simp] theorem incPc_histPos : (incPc c).histPos = c.histPos := rfl
@[simp] theorem incPc_lo : (incPc c).lo = c.lo := rfl
@[simp] theorem incPc_hi : (incPc c).hi = c.hi := rfl
@[simp] theorem incPc_ptr : (incPc c).ptr = c.ptr := rfl
@[simp] theorem incPc_ea : (incPc c).ea = c.ea := rfl
@[simp] theorem incPc_m : (incPc c).m = c.m := rfl
@[simp] theorem incPc_cross : (incPc c).cross = c.cross := rfl
@[simp] theorem incPc_taken : (incPc c).taken = c.taken := rfl
@[simp] theorem incPc_dmaActive : (incPc c).dmaActive = c.dmaActive := rfl
@[simp] theorem incPc_dmaAddr : (incPc c).dmaAddr = c.dmaAddr := rfl
@[simp] theorem incPc_dmaPage : (incPc c).dmaPage = c.dmaPage := rfl
@[simp] theorem incPc_dmaData : (incPc c).dmaData = c.dmaData := rfl
@[simp] theorem incPc_dmaWait : (incPc c).dmaWait = c.dmaWait := rfl
@[simp] theorem incPc_cyc : (incPc c).cyc = c.cyc := rfl
@[simp] theorem incPc_diagnostic : (incPc c).diagnostic = c.diagnostic := rfl

@[simp] theorem endService_a : (endService c).a = c.a := rfl
@[simp] theorem endService_x : (endService c).x = c.x := rfl
@[simp] theorem endService_y : (endService c).y = c.y := rfl
@[simp] theorem endService_sp : (endService c).sp = c.sp := rfl
@[simp] theorem endService_pc : (endService c).pc = c.pc := rfl
@[simp] theorem endService_p : (endService c).p = c.p := rfl
@[simp] theorem endService_ir : (endService c).ir = c.ir := rfl
@[simp] theorem endService_mode : (endService c).mode = c.mode := rfl
@[simp] theorem endService_sub : (endService c).sub = c.sub + 1 := rfl
@[simp] theorem endService_ready : (endService c).ready = c.ready := rfl
@[simp] theorem endService_irqPending : (endService c).irqPending = c.irqPending := rfl
@[simp] theorem endService_nmiPending : (endService c).nmiPending = c.nmiPending := rfl
@[simp] theorem endService_dmaRequest : (endService c).dmaRequest = c.dmaRequest := rfl
@[simp] theorem endService_nmiActive : (endService c).nmiActive = false := rfl
@[simp] theorem endService_irqActive : (endService c).irqActive = false := rfl
@[simp] theorem endService_halted : (endService c).halted = c.halted := rfl
@[simp] theorem endService_history : (endService c).history = c.history := rfl
@[simp] theorem endService_histPos : (endService c).histPos = c.histPos := rfl
@[simp] theorem endService_lo : (endService c).lo = c.lo := rfl
@[simp] theorem endService_hi : (endService c).hi = c.hi := rfl
@[simp] theorem endService_ptr : (endService c).ptr = c.ptr := rfl
@[simp] theorem endService_ea : (endService c).ea = c.ea := rfl
@[simp] theorem endService_m : (endService c).m = c.m := rfl
@[simp] theorem endService_cross : (endService c).cross = c.cross := rfl
@[simp] theorem endService_taken : (endService c).taken = c.taken := rfl
@[simp] theorem endService_dmaActive : (endService c).dmaActive = c.dmaActive := rfl
@[simp] theorem endService_dmaAddr : (endService c).dmaAddr = c.dmaAddr := rfl
@[simp] theorem endService_dmaPage : (endService c).dmaPage = c.dmaPage := rfl
@[simp] theorem endService_dmaData : (endService c).dmaData = c.dmaData := rfl
@[simp] theorem endService_dmaWait : (endService c).dmaWait = c.dmaWait := rfl
@[simp] theorem endService_cyc : (endService c).cyc = c.cyc := rfl
@[simp] theorem endService_diagnostic : (endService c).diagnostic = c.diagnostic := rfl

end

end Sys2Proof.Machine
end

