-- ==== Sys2Proof/Laws/Clock.lean ====
section
/-!
SUPPORT. What time passing does: everything a PPU step, a master cycle's end and the wait for the next CPU step
can change.
-/

namespace Sys2Proof.Machine

/-! The PPU's step leaves the registers that only CPU accesses change. -/

theorem Ppu.whenever_regs (p : Ppu) (b : Bool) {f : Ppu → Ppu} (h : ∀ q : Ppu, (f q).regs = q.regs) :
    (p.whenever b f).regs = p.regs := by
  unfold Ppu.whenever
  split
  · exact h p
  · rfl

@[simp] theorem Ppu.clearFlags_regs (p : Ppu) : p.clearFlags.regs = p.regs := rfl

@[simp] theorem Ppu.vblankPoint_regs (p : Ppu) : p.vblankPoint.regs = p.regs := by
  unfold Ppu.vblankPoint
  split <;> rfl

@[simp] theorem Ppu.bgShift_regs (p : Ppu) : p.bgShift.regs = p.regs := rfl

@[simp] theorem Ppu.bgLoad_regs (p : Ppu) : p.bgLoad.regs = p.regs := rfl

@[simp] theorem Ppu.incX_regs (p : Ppu) : p.incX.regs = p.regs := by
  unfold Ppu.incX
  dsimp only
  split <;> rfl

@[simp] theorem Ppu.incY_regs (p : Ppu) : p.incY.regs = p.regs := by
  unfold Ppu.incY
  dsimp only
  split_ifs <;> rfl

@[simp] theorem Ppu.bgPhase_regs (p : Ppu) (k : Cartridge) (c : Nat) : (p.bgPhase k c).regs = p.regs := by
  unfold Ppu.bgPhase
  split <;> first | rfl | exact Ppu.incX_regs p

@[simp] theorem Ppu.copyHorizontal_regs (p : Ppu) : p.copyHorizontal.regs = p.regs := rfl

@[simp] theorem Ppu.copyVertical_regs (p : Ppu) : p.copyVertical.regs = p.regs := rfl

@[simp] theorem Ppu.spriteClear_regs (p : Ppu) : p.spriteClear.regs = p.regs := rfl

theorem Ppu.evaluateSprite_regs (s : Int) (p : Ppu) (n : Nat) : (p.evaluateSprite s n).regs = p.regs := by
  unfold Ppu.evaluateSprite
  dsimp only
  split_ifs <;> rfl

@[simp] theorem Ppu.spriteEvaluate_regs (p : Ppu) (s : Int) : (p.spriteEvaluate s).regs = p.regs := by
  unfold Ppu.spriteEvaluate
  induction List.range 64 generalizing p with
  | nil => rfl
  | cons n rest ih => rw [List.foldl_cons, ih, Ppu.evaluateSprite_regs]

@[simp] theorem Ppu.spriteFetch_regs (p : Ppu) (c : Cartridge) (s : Int) : (p.spriteFetch c s).regs = p.regs := rfl

@[simp] theorem Ppu.pixelOutput_regs (p : Ppu) (c : Cartridge) (s : Int) (x : Nat) :
    (p.pixelOutput c s x).regs = p.regs := rfl

@[simp] theorem Ppu.render_regs (p : Ppu) (k : Cartridge) (s : Int) (c : Nat) : (p.render k s c).regs = p.regs := by
  unfold Ppu.render
  rw [Ppu.whenever_regs, Ppu.whenever_regs, Ppu.whenever_regs, Ppu.whenever_regs, Ppu.whenever_regs,
    Ppu.whenever_regs, Ppu.whenever_regs, Ppu.whenever_regs] <;> simp

@[simp] theorem Ppu.endOfCycle_regs (p : Ppu) (s : Int) (c : Nat) : (p.endOfCycle s c).regs = p.regs := by
  unfold Ppu.endOfCycle
  split_ifs <;> rfl

@[simp] theorem Ppu.oddFrameSkip_regs (p : Ppu) : p.oddFrameSkip.regs = p.regs := by
  unfold Ppu.oddFrameSkip
  split_ifs <;> rfl

/-- A PPU step writes no register of the CPU's and no memory but secondary OAM and the framebuffer. -/
@[simp] theorem Ppu.step_regs (p : Ppu) (k : Cartridge) : (p.step k).regs = p.regs := by
  unfold Ppu.step
  dsimp only
  rw [Ppu.endOfCycle_regs, Ppu.whenever_regs, Ppu.whenever_regs, Ppu.whenever_regs, Ppu.oddFrameSkip_regs] <;>
    first | rfl | simp

/-! The end of a master cycle. -/

/-- `t` is `s` some time later, nothing but time having acted: the CPU differs at most in its cycle count and
in an NMI request that was made, the PPU at most in what its steps write. -/
structure Later (s t : State) : Prop where
  cfg : t.cfg = s.cfg
  ram : t.ram = s.ram
  cart : t.cart = s.cart
  port0 : t.port0 = s.port0
  port1 : t.port1 = s.port1
  cpu : t.cpu = { s.cpu with cyc := t.cpu.cyc, nmiPending := t.cpu.nmiPending }
  nmi : s.cpu.nmiPending = true → t.cpu.nmiPending = true
  regs : t.ppu.regs = s.ppu.regs
  mode : s.cpu.halted = false → t.bus.runMode = s.bus.runMode

theorem Later.refl (s : State) : Later s s := ⟨rfl, rfl, rfl, rfl, rfl, rfl, id, rfl, fun _ => rfl⟩

theorem Later.trans {s t u : State} (h : Later s t) (g : Later t u) : Later s u where
  cfg := g.cfg.trans h.cfg
  ram := g.ram.trans h.ram
  cart := g.cart.trans h.cart
  port0 := g.port0.trans h.port0
  port1 := g.port1.trans h.port1
  cpu := by rw [g.cpu, h.cpu]
  nmi := fun n => g.nmi (h.nmi n)
  regs := g.regs.trans h.regs
  mode := fun n => (g.mode (by rw [h.cpu]; exact n)).trans (h.mode n)

theorem Later.trans' {s t u : State} (g : Later t u) (h : Later s t) : Later s u := h.trans g

theorem later_ppuTick (s : State) : Later s (ppuTick s) := by
  unfold ppuTick
  split
  · exact ⟨rfl, rfl, rfl, rfl, rfl, rfl, id, Ppu.step_regs _ _, fun _ => rfl⟩
  · exact ⟨rfl, rfl, rfl, rfl, rfl, rfl, id, rfl, fun _ => rfl⟩

theorem later_mapperTick (s : State) : Later s (mapperTick s) := Later.refl s

theorem later_routeNmi (s : State) : Later s (routeNmi s) := by
  unfold routeNmi
  split
  · exact ⟨rfl, rfl, rfl, rfl, rfl, rfl, fun _ => rfl, rfl, fun _ => rfl⟩
  · exact Later.refl s

theorem later_observeHalt (s : State) : Later s (observeHalt s) := by
  unfold observeHalt
  split
  next h => exact ⟨rfl, rfl, rfl, rfl, rfl, rfl, id, rfl, fun n => by simp [h] at n⟩
  · exact Later.refl s

/-- What the end of a master cycle can change. -/
theorem later_afterCpu (s : State) : Later s (afterCpu s) :=
  (later_ppuTick s).trans ((later_mapperTick _).trans ((later_routeNmi _).trans (later_observeHalt _)))

theorem later_idleCycle (s : State) : Later s (idleCycle s) := by
  unfold idleCycle
  exact (later_afterCpu _).trans' ⟨rfl, rfl, rfl, rfl, rfl, rfl, id, rfl, fun _ => rfl⟩

theorem later_idleCycles (n : Nat) (s : State) : Later s (idleCycles n s) := by
  induction n generalizing s with
  | zero => exact Later.refl s
  | succ n ih => exact (later_idleCycle s).trans (ih _)

theorem later_waitCpu (s : State) : Later s (waitCpu s) := later_idleCycles _ s

theorem later_finishCycle (s : State) : Later s (finishCycle s) := by
  unfold finishCycle
  exact (later_afterCpu _).trans' ⟨rfl, rfl, rfl, rfl, rfl, rfl, id, rfl, fun _ => rfl⟩

theorem later_elapse (s : State) : Later s (elapse s) := (later_finishCycle s).trans (later_waitCpu _)

/-! The fields after each, for simp. -/

theorem later_advance (s : State) : Later (s.onCpu fun c => { c with sub := c.sub + 1 }) (advance s) := later_elapse _

section
variable (s : State)

@[simp] theorem waitCpu_cfg : (waitCpu s).cfg = s.cfg := (later_waitCpu s).cfg
@[simp] theorem waitCpu_ram : (waitCpu s).ram = s.ram := (later_waitCpu s).ram
@[simp] theorem waitCpu_cart : (waitCpu s).cart = s.cart := (later_waitCpu s).cart
@[simp] theorem waitCpu_port0 : (waitCpu s).port0 = s.port0 := (later_waitCpu s).port0
@[simp] theorem waitCpu_port1 : (waitCpu s).port1 = s.port1 := (later_waitCpu s).port1
@[simp] theorem waitCpu_regs : (waitCpu s).ppu.regs = s.ppu.regs := (later_waitCpu s).regs
@[simp] theorem waitCpu_a : (waitCpu s).cpu.a = s.cpu.a := (congrArg Cpu.a (later_waitCpu s).cpu).trans rfl
@[simp] theorem waitCpu_x : (waitCpu s).cpu.x = s.cpu.x := (congrArg Cpu.x (later_waitCpu s).cpu).trans rfl
@[simp] theorem waitCpu_y : (waitCpu s).cpu.y = s.cpu.y := (congrArg Cpu.y (later_waitCpu s).cpu).trans rfl
@[simp] theorem waitCpu_sp : (waitCpu s).cpu.sp = s.cpu.sp := (congrArg Cpu.sp (later_waitCpu s).cpu).trans rfl
@[simp] theorem waitCpu_pc : (waitCpu s).cpu.pc = s.cpu.pc := (congrArg Cpu.pc (later_waitCpu s).cpu).trans rfl
@[simp] theorem waitCpu_p : (waitCpu s).cpu.p = s.cpu.p := (congrArg Cpu.p (later_waitCpu s).cpu).trans rfl
@[simp] theorem waitCpu_ir : (waitCpu s).cpu.ir = s.cpu.ir := (congrArg Cpu.ir (later_waitCpu s).cpu).trans rfl
@[simp] theorem waitCpu_mode : (waitCpu s).cpu.mode = s.cpu.mode := (congrArg Cpu.mode (later_waitCpu s).cpu).trans rfl
@[simp] theorem waitCpu_sub : (waitCpu s).cpu.sub = s.cpu.sub := (congrArg Cpu.sub (later_waitCpu s).cpu).trans rfl
@[simp] theorem waitCpu_ready : (waitCpu s).cpu.ready = s.cpu.ready := (congrArg Cpu.ready (later_waitCpu s).cpu).trans rfl
@[simp] theorem waitCpu_irqPending : (waitCpu s).cpu.irqPending = s.cpu.irqPending := (congrArg Cpu.irqPending (later_waitCpu s).cpu).trans rfl
@[simp] theorem waitCpu_dmaRequest : (waitCpu s).cpu.dmaRequest = s.cpu.dmaRequest := (congrArg Cpu.dmaRequest (later_waitCpu s).cpu).trans rfl
@[simp] theorem waitCpu_nmiActive : (waitCpu s).cpu.nmiActive = s.cpu.nmiActive := (congrArg Cpu.nmiActive (later_waitCpu s).cpu).trans rfl
@[simp] theorem waitCpu_irqActive : (waitCpu s).cpu.irqActive = s.cpu.irqActive := (congrArg Cpu.irqActive (later_waitCpu s).cpu).trans rfl
@[simp] theorem waitCpu_halted : (waitCpu s).cpu.halted = s.cpu.halted := (congrArg Cpu.halted (later_waitCpu s).cpu).trans rfl
@[simp] theorem waitCpu_history : (waitCpu s).cpu.history = s.cpu.history := (congrArg Cpu.history (later_waitCpu s).cpu).trans rfl
@[simp] theorem waitCpu_histPos : (waitCpu s).cpu.histPos = s.cpu.histPos := (congrArg Cpu.histPos (later_waitCpu s).cpu).trans rfl
@[simp] theorem waitCpu_lo : (waitCpu s).cpu.lo = s.cpu.lo := (congrArg Cpu.lo (later_waitCpu s).cpu).trans rfl
@[simp] theorem waitCpu_hi : (waitCpu s).cpu.hi = s.cpu.hi := (congrArg Cpu.hi (later_waitCpu s).cpu).trans rfl
@[simp] theorem waitCpu_ptr : (waitCpu s).cpu.ptr = s.cpu.ptr := (congrArg Cpu.ptr (later_waitCpu s).cpu).trans rfl
@[simp] theorem waitCpu_ea : (waitCpu s).cpu.ea = s.cpu.ea := (congrArg Cpu.ea (later_waitCpu s).cpu).trans rfl
@[simp] theorem waitCpu_m : (waitCpu s).cpu.m = s.cpu.m := (congrArg Cpu.m (later_waitCpu s).cpu).trans rfl
@[simp] theorem waitCpu_cross : (waitCpu s).cpu.cross = s.cpu.cross := (congrArg Cpu.cross (later_waitCpu s).cpu).trans rfl
@[simp] theorem waitCpu_taken : (waitCpu s).cpu.taken = s.cpu.taken := (congrArg Cpu.taken (later_waitCpu s).cpu).trans rfl
@[simp] theorem waitCpu_dmaActive : (waitCpu s).cpu.dmaActive = s.cpu.dmaActive := (congrArg Cpu.dmaActive (later_waitCpu s).cpu).trans rfl
@[simp] theorem waitCpu_dmaAddr : (waitCpu s).cpu.dmaAddr = s.cpu.dmaAddr := (congrArg Cpu.dmaAddr (later_waitCpu s).cpu).trans rfl
@[simp] theorem waitCpu_dmaPage : (waitCpu s).cpu.dmaPage = s.cpu.dmaPage := (congrArg Cpu.dmaPage (later_waitCpu s).cpu).trans rfl
@[simp] theorem waitCpu_dmaData : (waitCpu s).cpu.dmaData = s.cpu.dmaData := (congrArg Cpu.dmaData (later_waitCpu s).cpu).trans rfl
@[simp] theorem waitCpu_dmaWait : (waitCpu s).cpu.dmaWait = s.cpu.dmaWait := (congrArg Cpu.dmaWait (later_waitCpu s).cpu).trans rfl
@[simp] theorem waitCpu_diagnostic : (waitCpu s).cpu.diagnostic = s.cpu.diagnostic := (congrArg Cpu.diagnostic (later_waitCpu s).cpu).trans rfl

@[simp] theorem finishCycle_cfg : (finishCycle s).cfg = s.cfg := (later_finishCycle s).cfg
@[simp] theorem finishCycle_ram : (finishCycle s).ram = s.ram := (later_finishCycle s).ram
@[simp] theorem finishCycle_cart : (finishCycle s).cart = s.cart := (later_finishCycle s).cart
@[simp] theorem finishCycle_port0 : (finishCycle s).port0 = s.port0 := (later_finishCycle s).port0
@[simp] theorem finishCycle_port1 : (finishCycle s).port1 = s.port1 := (later_finishCycle s).port1
@[simp] theorem finishCycle_regs : (finishCycle s).ppu.regs = s.ppu.regs := (later_finishCycle s).regs
@[simp] theorem finishCycle_a : (finishCycle s).cpu.a = s.cpu.a := (congrArg Cpu.a (later_finishCycle s).cpu).trans rfl
@[simp] theorem finishCycle_x : (finishCycle s).cpu.x = s.cpu.x := (congrArg Cpu.x (later_finishCycle s).cpu).trans rfl
@[simp] theorem finishCycle_y : (finishCycle s).cpu.y = s.cpu.y := (congrArg Cpu.y (later_finishCycle s).cpu).trans rfl
@[simp] theorem finishCycle_sp : (finishCycle s).cpu.sp = s.cpu.sp := (congrArg Cpu.sp (later_finishCycle s).cpu).trans rfl
@[simp] theorem finishCycle_pc : (finishCycle s).cpu.pc = s.cpu.pc := (congrArg Cpu.pc (later_finishCycle s).cpu).trans rfl
@[simp] theorem finishCycle_p : (finishCycle s).cpu.p = s.cpu.p := (congrArg Cpu.p (later_finishCycle s).cpu).trans rfl
@[simp] theorem finishCycle_ir : (finishCycle s).cpu.ir = s.cpu.ir := (congrArg Cpu.ir (later_finishCycle s).cpu).trans rfl
@[simp] theorem finishCycle_mode : (finishCycle s).cpu.mode = s.cpu.mode := (congrArg Cpu.mode (later_finishCycle s).cpu).trans rfl
@[simp] theorem finishCycle_sub : (finishCycle s).cpu.sub = s.cpu.sub := (congrArg Cpu.sub (later_finishCycle s).cpu).trans rfl
@[simp] theorem finishCycle_ready : (finishCycle s).cpu.ready = s.cpu.ready := (congrArg Cpu.ready (later_finishCycle s).cpu).trans rfl
@[simp] theorem finishCycle_irqPending : (finishCycle s).cpu.irqPending = s.cpu.irqPending := (congrArg Cpu.irqPending (later_finishCycle s).cpu).trans rfl
@[simp] theorem finishCycle_dmaRequest : (finishCycle s).cpu.dmaRequest = s.cpu.dmaRequest := (congrArg Cpu.dmaRequest (later_finishCycle s).cpu).trans rfl
@[simp] theorem finishCycle_nmiActive : (finishCycle s).cpu.nmiActive = s.cpu.nmiActive := (congrArg Cpu.nmiActive (later_finishCycle s).cpu).trans rfl
@[simp] theorem finishCycle_irqActive : (finishCycle s).cpu.irqActive = s.cpu.irqActive := (congrArg Cpu.irqActive (later_finishCycle s).cpu).trans rfl
@[simp] theorem finishCycle_halted : (finishCycle s).cpu.halted = s.cpu.halted := (congrArg Cpu.halted (later_finishCycle s).cpu).trans rfl
@[simp] theorem finishCycle_history : (finishCycle s).cpu.history = s.cpu.history := (congrArg Cpu.history (later_finishCycle s).cpu).trans rfl
@[simp] theorem finishCycle_histPos : (finishCycle s).cpu.histPos = s.cpu.histPos := (congrArg Cpu.histPos (later_finishCycle s).cpu).trans rfl
@[simp] theorem finishCycle_lo : (finishCycle s).cpu.lo = s.cpu.lo := (congrArg Cpu.lo (later_finishCycle s).cpu).trans rfl
@[simp] theorem finishCycle_hi : (finishCycle s).cpu.hi = s.cpu.hi := (congrArg Cpu.hi (later_finishCycle s).cpu).trans rfl
@[simp] theorem finishCycle_ptr : (finishCycle s).cpu.ptr = s.cpu.ptr := (congrArg Cpu.ptr (later_finishCycle s).cpu).trans rfl
@[simp] theorem finishCycle_ea : (finishCycle s).cpu.ea = s.cpu.ea := (congrArg Cpu.ea (later_finishCycle s).cpu).trans rfl
@[simp] theorem finishCycle_m : (finishCycle s).cpu.m = s.cpu.m := (congrArg Cpu.m (later_finishCycle s).cpu).trans rfl
@[simp] theorem finishCycle_cross : (finishCycle s).cpu.cross = s.cpu.cross := (congrArg Cpu.cross (later_finishCycle s).cpu).trans rfl
@[simp] theorem finishCycle_taken : (finishCycle s).cpu.taken = s.cpu.taken := (congrArg Cpu.taken (later_finishCycle s).cpu).trans rfl
@[simp] theorem finishCycle_dmaActive : (finishCycle s).cpu.dmaActive = s.cpu.dmaActive := (congrArg Cpu.dmaActive (later_finishCycle s).cpu).trans rfl
@[simp] theorem finishCycle_dmaAddr : (finishCycle s).cpu.dmaAddr = s.cpu.dmaAddr := (congrArg Cpu.dmaAddr (later_finishCycle s).cpu).trans rfl
@[simp] theorem finishCycle_dmaPage : (finishCycle s).cpu.dmaPage = s.cpu.dmaPage := (congrArg Cpu.dmaPage (later_finishCycle s).cpu).trans rfl
@[simp] theorem finishCycle_dmaData : (finishCycle s).cpu.dmaData = s.cpu.dmaData := (congrArg Cpu.dmaData (later_finishCycle s).cpu).trans rfl
@[simp] theorem finishCycle_dmaWait : (finishCycle s).cpu.dmaWait = s.cpu.dmaWait := (congrArg Cpu.dmaWait (later_finishCycle s).cpu).trans rfl
@[simp] theorem finishCycle_diagnostic : (finishCycle s).cpu.diagnostic = s.cpu.diagnostic := (congrArg Cpu.diagnostic (later_finishCycle s).cpu).trans rfl

@[simp] theorem elapse_cfg : (elapse s).cfg = s.cfg := (later_elapse s).cfg
@[simp] theorem elapse_ram : (elapse s).ram = s.ram := (later_elapse s).ram
@[simp] theorem elapse_cart : (elapse s).cart = s.cart := (later_elapse s).cart
@[simp] theorem elapse_port0 : (elapse s).port0 = s.port0 := (later_elapse s).port0
@[simp] theorem elapse_port1 : (elapse s).port1 = s.port1 := (later_elapse s).port1
@[simp] theorem elapse_regs : (elapse s).ppu.regs = s.ppu.regs := (later_elapse s).regs
@[simp] theorem elapse_a : (elapse s).cpu.a = s.cpu.a := (congrArg Cpu.a (later_elapse s).cpu).trans rfl
@[simp] theorem elapse_x : (elapse s).cpu.x = s.cpu.x := (congrArg Cpu.x (later_elapse s).cpu).trans rfl
@[simp] theorem elapse_y : (elapse s).cpu.y = s.cpu.y := (congrArg Cpu.y (later_elapse s).cpu).trans rfl
@[simp] theorem elapse_sp : (elapse s).cpu.sp = s.cpu.sp := (congrArg Cpu.sp (later_elapse s).cpu).trans rfl
@[simp] theorem elapse_pc : (elapse s).cpu.pc = s.cpu.pc := (congrArg Cpu.pc (later_elapse s).cpu).trans rfl
@[simp] theorem elapse_p : (elapse s).cpu.p = s.cpu.p := (congrArg Cpu.p (later_elapse s).cpu).trans rfl
@[simp] theorem elapse_ir : (elapse s).cpu.ir = s.cpu.ir := (congrArg Cpu.ir (later_elapse s).cpu).trans rfl
@[simp] theorem elapse_mode : (elapse s).cpu.mode = s.cpu.mode := (congrArg Cpu.mode (later_elapse s).cpu).trans rfl
@[simp] theorem elapse_sub : (elapse s).cpu.sub = s.cpu.sub := (congrArg Cpu.sub (later_elapse s).cpu).trans rfl
@[simp] theorem elapse_ready : (elapse s).cpu.ready = s.cpu.ready := (congrArg Cpu.ready (later_elapse s).cpu).trans rfl
@[simp] theorem elapse_irqPending : (elapse s).cpu.irqPending = s.cpu.irqPending := (congrArg Cpu.irqPending (later_elapse s).cpu).trans rfl
@[simp] theorem elapse_dmaRequest : (elapse s).cpu.dmaRequest = s.cpu.dmaRequest := (congrArg Cpu.dmaRequest (later_elapse s).cpu).trans rfl
@[simp] theorem elapse_nmiActive : (elapse s).cpu.nmiActive = s.cpu.nmiActive := (congrArg Cpu.nmiActive (later_elapse s).cpu).trans rfl
@[simp] theorem elapse_irqActive : (elapse s).cpu.irqActive = s.cpu.irqActive := (congrArg Cpu.irqActive (later_elapse s).cpu).trans rfl
@[simp] theorem elapse_halted : (elapse s).cpu.halted = s.cpu.halted := (congrArg Cpu.halted (later_elapse s).cpu).trans rfl
@[simp] theorem elapse_history : (elapse s).cpu.history = s.cpu.history := (congrArg Cpu.history (later_elapse s).cpu).trans rfl
@[simp] theorem elapse_histPos : (elapse s).cpu.histPos = s.cpu.histPos := (congrArg Cpu.histPos (later_elapse s).cpu).trans rfl
@[simp] theorem elapse_lo : (elapse s).cpu.lo = s.cpu.lo := (congrArg Cpu.lo (later_elapse s).cpu).trans rfl
@[simp] theorem elapse_hi : (elapse s).cpu.hi = s.cpu.hi := (congrArg Cpu.hi (later_elapse s).cpu).trans rfl
@[simp] theorem elapse_ptr : (elapse s).cpu.ptr = s.cpu.ptr := (congrArg Cpu.ptr (later_elapse s).cpu).trans rfl
@[simp] theorem elapse_ea : (elapse s).cpu.ea = s.cpu.ea := (congrArg Cpu.ea (later_elapse s).cpu).trans rfl
@[simp] theorem elapse_m : (elapse s).cpu.m = s.cpu.m := (congrArg Cpu.m (later_elapse s).cpu).trans rfl
@[simp] theorem elapse_cross : (elapse s).cpu.cross = s.cpu.cross := (congrArg Cpu.cross (later_elapse s).cpu).trans rfl
@[simp] theorem elapse_taken : (elapse s).cpu.taken = s.cpu.taken := (congrArg Cpu.taken (later_elapse s).cpu).trans rfl
@[simp] theorem elapse_dmaActive : (elapse s).cpu.dmaActive = s.cpu.dmaActive := (congrArg Cpu.dmaActive (later_elapse s).cpu).trans rfl
@[simp] theorem elapse_dmaAddr : (elapse s).cpu.dmaAddr = s.cpu.dmaAddr := (congrArg Cpu.dmaAddr (later_elapse s).cpu).trans rfl
@[simp] theorem elapse_dmaPage : (elapse s).cpu.dmaPage = s.cpu.dmaPage := (congrArg Cpu.dmaPage (later_elapse s).cpu).trans rfl
@[simp] theorem elapse_dmaData : (elapse s).cpu.dmaData = s.cpu.dmaData := (congrArg Cpu.dmaData (later_elapse s).cpu).trans rfl
@[simp] theorem elapse_dmaWait : (elapse s).cpu.dmaWait = s.cpu.dmaWait := (congrArg Cpu.dmaWait (later_elapse s).cpu).trans rfl
@[simp] theorem elapse_diagnostic : (elapse s).cpu.diagnostic = s.cpu.diagnostic := (congrArg Cpu.diagnostic (later_elapse s).cpu).trans rfl

@[simp] theorem advance_cfg : (advance s).cfg = s.cfg := (later_advance s).cfg
@[simp] theorem advance_ram : (advance s).ram = s.ram := (later_advance s).ram
@[simp] theorem advance_cart : (advance s).cart = s.cart := (later_advance s).cart
@[simp] theorem advance_port0 : (advance s).port0 = s.port0 := (later_advance s).port0
@[simp] theorem advance_port1 : (advance s).port1 = s.port1 := (later_advance s).port1
@[simp] theorem advance_regs : (advance s).ppu.regs = s.ppu.regs := (later_advance s).regs
@[simp] theorem advance_a : (advance s).cpu.a = s.cpu.a := (congrArg Cpu.a (later_advance s).cpu).trans rfl
@[simp] theorem advance_x : (advance s).cpu.x = s.cpu.x := (congrArg Cpu.x (later_advance s).cpu).trans rfl
@[simp] theorem advance_y : (advance s).cpu.y = s.cpu.y := (congrArg Cpu.y (later_advance s).cpu).trans rfl
@[simp] theorem advance_sp : (advance s).cpu.sp = s.cpu.sp := (congrArg Cpu.sp (later_advance s).cpu).trans rfl
@[simp] theorem advance_pc : (advance s).cpu.pc = s.cpu.pc := (congrArg Cpu.pc (later_advance s).cpu).trans rfl
@[simp] theorem advance_p : (advance s).cpu.p = s.cpu.p := (congrArg Cpu.p (later_advance s).cpu).trans rfl
@[simp] theorem advance_ir : (advance s).cpu.ir = s.cpu.ir := (congrArg Cpu.ir (later_advance s).cpu).trans rfl
@[simp] theorem advance_mode : (advance s).cpu.mode = s.cpu.mode := (congrArg Cpu.mode (later_advance s).cpu).trans rfl
@[simp] theorem advance_sub : (advance s).cpu.sub = s.cpu.sub + 1 := (congrArg Cpu.sub (later_advance s).cpu).trans rfl
@[simp] theorem advance_ready : (advance s).cpu.ready = s.cpu.ready := (congrArg Cpu.ready (later_advance s).cpu).trans rfl
@[simp] theorem advance_irqPending : (advance s).cpu.irqPending = s.cpu.irqPending := (congrArg Cpu.irqPending (later_advance s).cpu).trans rfl
@[simp] theorem advance_dmaRequest : (advance s).cpu.dmaRequest = s.cpu.dmaRequest := (congrArg Cpu.dmaRequest (later_advance s).cpu).trans rfl
@[simp] theorem advance_nmiActive : (advance s).cpu.nmiActive = s.cpu.nmiActive := (congrArg Cpu.nmiActive (later_advance s).cpu).trans rfl
@[simp] theorem advance_irqActive : (advance s).cpu.irqActive = s.cpu.irqActive := (congrArg Cpu.irqActive (later_advance s).cpu).trans rfl
@[simp] theorem advance_halted : (advance s).cpu.halted = s.cpu.halted := (congrArg Cpu.halted (later_advance s).cpu).trans rfl
@[simp] theorem advance_history : (advance s).cpu.history = s.cpu.history := (congrArg Cpu.history (later_advance s).cpu).trans rfl
@[simp] theorem advance_histPos : (advance s).cpu.histPos = s.cpu.histPos := (congrArg Cpu.histPos (later_advance s).cpu).trans rfl
@[simp] theorem advance_lo : (advance s).cpu.lo = s.cpu.lo := (congrArg Cpu.lo (later_advance s).cpu).trans rfl
@[simp] theorem advance_hi : (advance s).cpu.hi = s.cpu.hi := (congrArg Cpu.hi (later_advance s).cpu).trans rfl
@[simp] theorem advance_ptr : (advance s).cpu.ptr = s.cpu.ptr := (congrArg Cpu.ptr (later_advance s).cpu).trans rfl
@[simp] theorem advance_ea : (advance s).cpu.ea = s.cpu.ea := (congrArg Cpu.ea (later_advance s).cpu).trans rfl
@[simp] theorem advance_m : (advance s).cpu.m = s.cpu.m := (congrArg Cpu.m (later_advance s).cpu).trans rfl
@[simp] theorem advance_cross : (advance s).cpu.cross = s.cpu.cross := (congrArg Cpu.cross (later_advance s).cpu).trans rfl
@[simp] theorem advance_taken : (advance s).cpu.taken = s.cpu.taken := (congrArg Cpu.taken (later_advance s).cpu).trans rfl
@[simp] theorem advance_dmaActive : (advance s).cpu.dmaActive = s.cpu.dmaActive := (congrArg Cpu.dmaActive (later_advance s).cpu).trans rfl
@[simp] theorem advance_dmaAddr : (advance s).cpu.dmaAddr = s.cpu.dmaAddr := (congrArg Cpu.dmaAddr (later_advance s).cpu).trans rfl
@[simp] theorem advance_dmaPage : (advance s).cpu.dmaPage = s.cpu.dmaPage := (congrArg Cpu.dmaPage (later_advance s).cpu).trans rfl
@[simp] theorem advance_dmaData : (advance s).cpu.dmaData = s.cpu.dmaData := (congrArg Cpu.dmaData (later_advance s).cpu).trans rfl
@[simp] theorem advance_dmaWait : (advance s).cpu.dmaWait = s.cpu.dmaWait := (congrArg Cpu.dmaWait (later_advance s).cpu).trans rfl
@[simp] theorem advance_diagnostic : (advance s).cpu.diagnostic = s.cpu.diagnostic := (congrArg Cpu.diagnostic (later_advance s).cpu).trans rfl

end

/-! The cycle count: one for each CPU cycle that is over. -/

@[simp] theorem ppuTick_cpu (s : State) : (ppuTick s).cpu = s.cpu := by
  unfold ppuTick
  split <;> rfl

@[simp] theorem afterCpu_cyc (s : State) : (afterCpu s).cpu.cyc = s.cpu.cyc := by
  have h : ∀ u : State, (observeHalt u).cpu = u.cpu := fun u => by unfold observeHalt; split <;> rfl
  have g : ∀ u : State, (routeNmi u).cpu.cyc = u.cpu.cyc := fun u => by unfold routeNmi; split <;> rfl
  rw [afterCpu, h, g]
  exact congrArg Cpu.cyc (ppuTick_cpu s)

theorem idleCycles_cyc (n : Nat) (s : State) : (idleCycles n s).cpu.cyc = s.cpu.cyc := by
  induction n generalizing s with
  | zero => rfl
  | succ n ih => exact (ih _).trans (afterCpu_cyc _)

@[simp] theorem waitCpu_cyc (s : State) : (waitCpu s).cpu.cyc = s.cpu.cyc := idleCycles_cyc _ s

@[simp] theorem finishCycle_cyc (s : State) : (finishCycle s).cpu.cyc = s.cpu.cyc + 1 := afterCpu_cyc _

@[simp] theorem elapse_cyc (s : State) : (elapse s).cpu.cyc = s.cpu.cyc + 1 := by
  rw [elapse, waitCpu_cyc, finishCycle_cyc]

@[simp] theorem advance_cyc (s : State) : (advance s).cpu.cyc = s.cpu.cyc + 1 := by
  rw [advance, elapse_cyc]
  rfl

end Sys2Proof.Machine
end

