-- ==== Sys2Proof/Laws/Memory.lean ====
section
/-!
SUPPORT. The laws of memories: a read after a write, and the canonical form that every operation keeps.
-/

namespace Sys2Proof.Machine

variable {w : Nat} {d : BitVec w} {m : Store w}

@[simp] theorem Store.read_nil (d : BitVec w) (a : Nat) : Store.read d [] a = d := rfl

theorem Store.read_drop_same (a : Nat) : Store.read d (Store.drop a m) a = d := by
  induction m with
  | nil => rfl
  | cons e rest ih =>
    obtain ⟨k, v⟩ := e
    by_cases h : k = a <;> simp [Store.drop, Store.read, h, ih]

theorem Store.read_drop_ne {a b : Nat} (h : b ≠ a) : Store.read d (Store.drop a m) b = Store.read d m b := by
  induction m with
  | nil => rfl
  | cons e rest ih =>
    obtain ⟨k, v⟩ := e
    by_cases hk : k = a
    · subst hk; simp [Store.drop, Store.read, ih, Ne.symm h]
    · simp [Store.drop, Store.read, hk, ih]

theorem Store.read_cons_ne {a b : Nat} {v : BitVec w} (h : b ≠ a) :
    Store.read d (Store.cons d a v m) b = Store.read d m b := by
  unfold Store.cons
  split <;> simp [Store.read, Ne.symm h]

/-- Reading the cell just written gives the value written. -/
@[simp] theorem Store.read_write_same (m : Store w) (a : Nat) (v : BitVec w) :
    Store.read d (Store.write d m a v) a = v := by
  induction m with
  | nil => by_cases h : v = d <;> simp [Store.write, Store.cons, Store.read, h]
  | cons e rest ih =>
    obtain ⟨k, u⟩ := e
    unfold Store.write
    split_ifs with h1 h2
    · simp [Store.read, Nat.ne_of_lt h1, ih]
    · by_cases h : v = d
      · simp [Store.cons, h, Store.read_drop_same]
      · simp [Store.cons, h, Store.read]
    · by_cases h : v = d
      · simp [Store.cons, h, Store.read, h2, Store.read_drop_same]
      · simp [Store.cons, h, Store.read]

/-- A write leaves every other cell alone. -/
theorem Store.read_write_ne {a b : Nat} (h : b ≠ a) (v : BitVec w) :
    Store.read d (Store.write d m a v) b = Store.read d m b := by
  induction m with
  | nil => simp [Store.write, Store.read_cons_ne h]
  | cons e rest ih =>
    obtain ⟨k, u⟩ := e
    unfold Store.write
    split_ifs with h1 h2
    · simp [Store.read, ih]
    · subst h2; rw [Store.read_cons_ne h, Store.read_drop_ne h]; simp [Store.read, Ne.symm h]
    · rw [Store.read_cons_ne h]; simp [Store.read, Store.read_drop_ne h]

theorem Store.read_write (m : Store w) (a b : Nat) (v : BitVec w) :
    Store.read d (Store.write d m a v) b = if b = a then v else Store.read d m b := by
  split
  next h => rw [h, Store.read_write_same]
  next h => rw [Store.read_write_ne h]

/-! The canonical form. -/

theorem Store.all_drop {q : Nat × BitVec w → Bool} (a : Nat) (h : m.all q = true) : (Store.drop a m).all q = true := by
  induction m with
  | nil => rfl
  | cons e rest ih =>
    obtain ⟨k, v⟩ := e
    simp only [List.all_cons, Bool.and_eq_true] at h
    by_cases hk : k = a <;> simp [Store.drop, hk, h.1, ih h.2]

theorem Store.all_cons {q : Nat × BitVec w → Bool} {a : Nat} {v : BitVec w} (ha : q (a, v) = true)
    (h : m.all q = true) : (Store.cons d a v m).all q = true := by
  unfold Store.cons
  split
  · exact h
  · rw [List.all_cons, ha, h]; rfl

theorem Store.all_write {q : Nat × BitVec w → Bool} {a : Nat} {v : BitVec w} (ha : q (a, v) = true)
    (h : m.all q = true) : (Store.write d m a v).all q = true := by
  induction m with
  | nil => exact Store.all_cons ha h
  | cons e rest ih =>
    obtain ⟨k, u⟩ := e
    have hr := h
    simp only [List.all_cons, Bool.and_eq_true] at hr
    unfold Store.write
    split_ifs with h1 h2
    · rw [List.all_cons, hr.1, ih hr.2]; rfl
    · exact Store.all_cons ha (Store.all_drop a hr.2)
    · exact Store.all_cons ha (by rw [List.all_cons, hr.1, Store.all_drop a hr.2]; rfl)

/-- A write below the size keeps every address below it. -/
theorem Store.within_write {n a : Nat} (h : Store.within n m = true) (ha : a < n) (v : BitVec w) :
    Store.within n (Store.write d m a v) = true := Store.all_write (by simpa using ha) h

theorem Store.wf_drop (a : Nat) (h : Store.wf d m = true) : Store.wf d (Store.drop a m) = true := by
  induction m with
  | nil => rfl
  | cons e rest ih =>
    obtain ⟨k, v⟩ := e
    simp only [Store.wf, Bool.and_eq_true] at h
    by_cases hk : k = a
    · simpa [Store.drop, hk] using ih h.2
    · simp only [Store.drop, hk, if_false, Store.wf, h.1.1, Bool.true_and, Bool.and_eq_true]
      exact ⟨Store.all_drop a h.1.2, ih h.2⟩

theorem Store.wf_cons {a : Nat} {v : BitVec w} (ha : m.all (fun e => decide (a < e.1)) = true)
    (h : Store.wf d m = true) : Store.wf d (Store.cons d a v m) = true := by
  unfold Store.cons
  split
  · exact h
  next hv => simp [Store.wf, hv, ha, h]

/-- A write keeps the canonical form. -/
theorem Store.wf_write (a : Nat) (v : BitVec w) (h : Store.wf d m = true) :
    Store.wf d (Store.write d m a v) = true := by
  induction m with
  | nil => exact Store.wf_cons rfl rfl
  | cons e rest ih =>
    obtain ⟨k, u⟩ := e
    have hr := h
    simp only [Store.wf, Bool.and_eq_true] at hr
    unfold Store.write
    split_ifs with h1 h2
    · simp only [Store.wf, hr.1.1, Bool.true_and, Bool.and_eq_true]
      exact ⟨Store.all_write (by simpa using h1) hr.1.2, ih hr.2⟩
    · subst h2
      exact Store.wf_cons (Store.all_drop k hr.1.2) (Store.wf_drop k hr.2)
    · have hlt : a < k := by omega
      refine Store.wf_cons ?_ ?_
      · rw [List.all_cons, decide_eq_true hlt, Bool.true_and]
        refine Store.all_drop a (List.all_eq_true.mpr fun e he => ?_)
        have := List.all_eq_true.mp hr.1.2 e he
        simp only [decide_eq_true_eq] at this ⊢
        omega
      · simp only [Store.wf, hr.1.1, Bool.true_and, Bool.and_eq_true]
        exact ⟨Store.all_drop a hr.1.2, Store.wf_drop a hr.2⟩

theorem Store.all_ofBytes (d : Byte) (base : Nat) (bs : List Byte) :
    (Store.ofBytes d base bs).all (fun e => decide (base ≤ e.1 ∧ e.1 < base + bs.length)) = true := by
  induction bs generalizing base with
  | nil => rfl
  | cons b rest ih =>
    refine Store.all_cons (by simp) (List.all_eq_true.mpr fun e he => ?_)
    have := List.all_eq_true.mp (ih (base + 1)) e he
    simp only [decide_eq_true_eq, List.length_cons] at this ⊢
    omega

/-- Laying a list of bytes out gives a memory in canonical form. -/
theorem Store.wf_ofBytes (d : Byte) (base : Nat) (bs : List Byte) : Store.wf d (Store.ofBytes d base bs) = true := by
  induction bs generalizing base with
  | nil => rfl
  | cons b rest ih =>
    refine Store.wf_cons (List.all_eq_true.mpr fun e he => ?_) (ih (base + 1))
    have := List.all_eq_true.mp (Store.all_ofBytes d (base + 1) rest) e he
    simp only [decide_eq_true_eq] at this ⊢
    omega

theorem Store.within_ofBytes (d : Byte) (bs : List Byte) : Store.within bs.length (Store.ofBytes d 0 bs) = true := by
  refine List.all_eq_true.mpr fun e he => ?_
  have := List.all_eq_true.mp (Store.all_ofBytes d 0 bs) e he
  simp only [decide_eq_true_eq] at this ⊢
  omega

theorem Store.cleared_wf : Store.wf secUnlisted Store.cleared = true := rfl

end Sys2Proof.Machine
end

