-- ==== Sys2Proof/Laws/Bus.lean ====
section
/-!
SUPPORT. What a bus read and a bus write change, and which addresses are plain memory.
-/

namespace Sys2Proof.Machine

/-! Reads. -/

@[simp] theorem readEffect_cfg (a : Word) (s : State) : (readEffect a s).cfg = s.cfg := by
  unfold readEffect; split <;> rfl

@[simp] theorem readEffect_cpu (a : Word) (s : State) : (readEffect a s).cpu = s.cpu := by
  unfold readEffect; split <;> rfl

@[simp] theorem readEffect_ram (a : Word) (s : State) : (readEffect a s).ram = s.ram := by
  unfold readEffect; split <;> rfl

@[simp] theorem readEffect_cart (a : Word) (s : State) : (readEffect a s).cart = s.cart := by
  unfold readEffect; split <;> rfl

@[simp] theorem readEffect_bus (a : Word) (s : State) : (readEffect a s).bus = s.bus := by
  unfold readEffect; split <;> rfl

/-- A read of memory leaves the state as it was (R53, R70). -/
theorem readEffect_memory {a : Word} (h : isMemory a = true) (s : State) : readEffect a s = s := by
  unfold isMemory at h
  unfold readEffect
  split at h <;> simp_all

@[simp] theorem idleRead_cfg (a : Word) (s : State) : (idleRead a s).cfg = s.cfg := by
  unfold idleRead; split <;> simp

@[simp] theorem idleRead_cpu (a : Word) (s : State) : (idleRead a s).cpu = s.cpu := by
  unfold idleRead; split <;> simp

@[simp] theorem idleRead_ram (a : Word) (s : State) : (idleRead a s).ram = s.ram := by
  unfold idleRead; split <;> simp

@[simp] theorem idleRead_cart (a : Word) (s : State) : (idleRead a s).cart = s.cart := by
  unfold idleRead; split <;> simp

@[simp] theorem idleRead_bus (a : Word) (s : State) : (idleRead a s).bus = s.bus := by
  unfold idleRead; split <;> simp

/-- With `DUMMY_ACCESSES = none` an idle cycle makes no read (R156). -/
theorem idleRead_none {s : State} (h : s.cfg.dummyAccesses = .none) (a : Word) : idleRead a s = s := by
  simp [idleRead, h]

theorem idleRead_memory {a : Word} (h : isMemory a = true) (s : State) : idleRead a s = s := by
  unfold idleRead; split <;> simp [readEffect_memory h]

theorem idleRead_quiet {s : State} (h : QuietIdle s) : idleRead s.cpu.pc s = s :=
  h.elim (fun n => idleRead_none n _) (fun n => idleRead_memory n _)

/-! Which addresses are memory. -/

/-- What is read at a memory address depends on RAM and cartridge alone. -/
theorem cpuPeek_memory {a : Word} (h : isMemory a = true) {s t : State} (hr : t.ram = s.ram) (hc : t.cart = s.cart) :
    cpuPeek a t = cpuPeek a s := by
  unfold isMemory at h
  unfold cpuPeek
  split at h <;> simp_all

theorem SameMemory.of {s t : State} (hr : t.ram = s.ram) (hc : t.cart = s.cart) : SameMemory s t :=
  fun _ h => cpuPeek_memory h hr hc

theorem region_low {a : Word} (h : a < 0x2000) : region a = .ram (a &&& 0x07FF).toNat := by
  unfold region; rw [if_pos h]

theorem zext16_lt (b : Byte) : zext16 b < 0x2000 := by
  have h := b.isLt
  show (zext16 b).toNat < 8192
  simp only [zext16, BitVec.toNat_setWidth]
  omega

theorem toNat_stackAddr (b : Byte) : (stackAddr b).toNat = 256 + b.toNat := by
  have h := b.isLt
  unfold stackAddr zext16
  rw [BitVec.toNat_or]
  simp only [BitVec.toNat_setWidth]
  rw [Nat.mod_eq_of_lt (by omega : b.toNat < 2 ^ 16)]
  have := Nat.two_pow_add_eq_or_of_lt (i := 8) (b := b.toNat) (by omega) 1
  simpa using this.symm

theorem stackAddr_lt (b : Byte) : stackAddr b < 0x2000 := by
  have h := b.isLt
  show (stackAddr b).toNat < 8192
  rw [toNat_stackAddr]
  omega

theorem and_07FF (a : Word) : (a &&& 0x07FF).toNat = a.toNat % 2048 := by
  rw [BitVec.toNat_and]
  exact Nat.and_two_pow_sub_one_eq_mod a.toNat 11

theorem region_zext16 (b : Byte) : region (zext16 b) = .ram b.toNat := by
  rw [region_low (zext16_lt b), and_07FF]
  have h := b.isLt
  simp only [zext16, BitVec.toNat_setWidth]
  congr 1
  omega

theorem region_stackAddr (b : Byte) : region (stackAddr b) = .ram (256 + b.toNat) := by
  rw [region_low (stackAddr_lt b), and_07FF, toNat_stackAddr]
  have h := b.isLt
  congr 1
  omega

theorem isMemory_zext16 (b : Byte) : isMemory (zext16 b) = true := by simp [isMemory, region_zext16]

theorem isMemory_stackAddr (b : Byte) : isMemory (stackAddr b) = true := by simp [isMemory, region_stackAddr]

/-- The vectors are in cartridge space (R60). -/
theorem isMemory_of_high {a : Word} (h : 0x8000 ≤ a) : isMemory a = true := by
  have h1 : ¬ a < 0x2000 := by bv_omega
  have h2 : ¬ a < 0x4000 := by bv_omega
  have h3 : ¬ a < 0x4020 := by bv_omega
  unfold isMemory region
  rw [if_neg h1, if_neg h2, if_neg h3]

/-! Writes. -/

@[simp] theorem cpuWrite_cfg (a : Word) (v : Byte) (s : State) : (cpuWrite a v s).cfg = s.cfg := by
  unfold cpuWrite; split <;> rfl

@[simp] theorem cpuWrite_bus (a : Word) (v : Byte) (s : State) : (cpuWrite a v s).bus = s.bus := by
  unfold cpuWrite; split <;> rfl

/-- All that a write can change of the CPU: the DMA request and its page (R56). -/
theorem cpuWrite_cpu (a : Word) (v : Byte) (s : State) :
    (cpuWrite a v s).cpu =
      { s.cpu with
        dmaPage := if region a = .dma then v else s.cpu.dmaPage
        dmaRequest := if region a = .dma then true else s.cpu.dmaRequest } := by
  unfold cpuWrite; split <;> simp_all

theorem cpuWrite_ram {a : Word} {off : Nat} (h : region a = .ram off) (v : Byte) (s : State) :
    cpuWrite a v s = { s with ram := Store.write unlisted s.ram off v } := by simp [cpuWrite, h]

theorem cpuWrite_cpu_ram {a : Word} {off : Nat} (h : region a = .ram off) (v : Byte) (s : State) :
    (cpuWrite a v s).cpu = s.cpu := by simp [cpuWrite, h]

@[simp] theorem Mapper.write_hasRam (c : Cartridge) (a : Word) (v : Byte) :
    ({ c with mapper := c.mapper.write a v } : Cartridge).hasPrgRam = c.hasPrgRam := by
  unfold Cartridge.hasPrgRam Mapper.write
  cases c.mapper <;> rfl

/-- What a cartridge write leaves of the other addresses (R344). -/
theorem cartridge_cpuRead_write {ea a : Word} (c : Cartridge) (v : Byte)
    (h : (if ea < 0x8000 then decide (ea = a) else decide (0x8000 ≤ a)) = false) :
    (c.cpuWrite ea v).cpuRead a = c.cpuRead a := by
  unfold Cartridge.cpuWrite
  split_ifs with h1 h2 h3
  · rfl
  · simp only [h2, if_true, decide_eq_false_iff_not] at h
    have hne : a.toNat - 0x6000 ≠ ea.toNat - 0x6000 ∨ ¬ (0x6000 ≤ a ∧ a < 0x8000) := by bv_omega
    unfold Cartridge.cpuRead
    have hm : Cartridge.mapCpuRead { c with prgRam := Store.write unlisted c.prgRam (ea.toNat - 0x6000) v } a =
      c.mapCpuRead a := rfl
    rw [hm]
    cases hc : c.mapCpuRead a with
    | prg off => rfl
    | unmapped => rfl
    | prgRam off =>
      simp only
      have hoff : off = a.toNat - 0x6000 ∧ 0x6000 ≤ a ∧ a < 0x8000 := by
        unfold Cartridge.mapCpuRead at hc
        split_ifs at hc with g1 g2
        · injection hc with hc; refine ⟨hc.symm, ?_, g2⟩; bv_omega
      rw [Store.read_write_ne]
      rcases hne with hne | hne
      · rw [hoff.1]; exact hne
      · exact absurd hoff.2 hne
  · rfl
  · simp only [h2, if_false, decide_eq_false_iff_not] at h
    have ha : a < 0x8000 := by bv_omega
    have hm : Cartridge.mapCpuRead { c with mapper := c.mapper.write ea v } a = c.mapCpuRead a := by
      unfold Cartridge.mapCpuRead
      rw [Mapper.write_hasRam, if_pos ha, if_pos ha]
    unfold Cartridge.cpuRead
    rw [hm]

/-- Only PPUDATA, of the PPU's registers, reaches the cartridge, and never what the CPU reads there. -/
theorem ppuRegWriteCart_cpuRead (c : Cartridge) (p : Ppu) (n : Nat) (v : Byte) (a : Word) :
    (ppuRegWriteCart c p n v).cpuRead a = c.cpuRead a := by
  unfold ppuRegWriteCart ppuWriteCart Cartridge.chrWrite
  dsimp only
  split
  · split_ifs <;> try rfl
    split <;> rfl
  · rfl

/-- A write leaves every byte of memory alone that it does not touch. -/
theorem sameMemoryBut_cpuWrite (ea : Word) (v : Byte) (s : State) : SameMemoryBut ea s (cpuWrite ea v s) := by
  intro a ha ht
  unfold touches at ht
  unfold isMemory at ha
  unfold cpuPeek cpuWrite
  cases hr : region ea <;> cases hs : region a <;> simp_all [ppuRegWriteCart_cpuRead]
  · next i j => exact Store.read_write_ne (Ne.symm ht) v
  · apply cartridge_cpuRead_write
    simpa using ht

theorem touches_self_ram {a : Word} {off : Nat} (h : region a = .ram off) : touches a a = true := by
  simp [touches, h]

/-- The byte just written to RAM reads back. -/
theorem cpuPeek_write_ram {a : Word} {off : Nat} (h : region a = .ram off) (v : Byte) (s : State) :
    cpuPeek a (cpuWrite a v s) = v := by
  simp [cpuPeek, cpuWrite, h]

@[simp] theorem idleWrite_cfg (a : Word) (v : Byte) (s : State) : (idleWrite a v s).cfg = s.cfg := by
  unfold idleWrite; split <;> simp

theorem idleWrite_cpu (a : Word) (v : Byte) (s : State) :
    (idleWrite a v s).cpu = s.cpu ∨ (idleWrite a v s).cpu = (cpuWrite a v s).cpu := by
  unfold idleWrite; split <;> simp

theorem sameMemoryBut_idleWrite (ea : Word) (v : Byte) (s : State) : SameMemoryBut ea s (idleWrite ea v s) := by
  unfold idleWrite
  split
  · exact fun _ _ _ => rfl
  · exact sameMemoryBut_cpuWrite ea v s

theorem SameMemoryBut.trans {ea : Word} {s t u : State} (h : SameMemoryBut ea s t) (g : SameMemoryBut ea t u) :
    SameMemoryBut ea s u := fun a ha ht => (g a ha ht).trans (h a ha ht)

theorem SameMemory.but {s t : State} (h : SameMemory s t) (ea : Word) : SameMemoryBut ea s t := fun a ha _ => h a ha

end Sys2Proof.Machine
end

