-- ==== Sys2Proof/Laws/Operands.lean ====
section
/-!
SUPPORT. Running a sequence of cycles, and everything the cycles before an operand's access can do.
-/

namespace Sys2Proof.Machine

/-! Sequences. -/

/-- The cycles of a list that all go on can be run ahead of the rest. -/
theorem runCycles_append {xs : List Cycle} (h : ∀ c ∈ xs, ∀ s, ∃ t, c s = .more t) (ys : List Cycle) (s : State) :
    runCycles (xs ++ ys) s = runCycles ys (leadCycles xs s) := by
  induction xs generalizing s with
  | nil => rfl
  | cons c cs ih =>
    obtain ⟨t, ht⟩ := h c (by simp) s
    simp only [List.cons_append, runCycles, leadCycles, ht]
    exact ih (fun d hd => h d (by simp [hd])) _

theorem addressCycles_more (m : MemOperand) : ∀ c ∈ addressCycles m, ∀ s, ∃ t, c s = .more t := by
  intro c hc s
  cases m <;> simp only [addressCycles, List.mem_cons, List.not_mem_nil, or_false] at hc <;>
    rcases hc with rfl | rfl | rfl | rfl <;> exact ⟨_, rfl⟩

/-! What waiting does. -/

/-- `t` is `s` after cycles that stored nothing and changed no register: only the cycle state of the CPU differs,
and the devices only by time and by the dummy reads of `DUMMY_ACCESSES = nmos`. -/
structure Waits (s t : State) : Prop where
  cfg : t.cfg = s.cfg
  ram : t.ram = s.ram
  cart : t.cart = s.cart
  cpu : t.cpu = s.cpu.withCycleState t.cpu
  nmi : s.cpu.nmiPending = true → t.cpu.nmiPending = true
  devices : s.cfg.dummyAccesses = .none → SameDevices s t

theorem Waits.refl (s : State) : Waits s s := ⟨rfl, rfl, rfl, rfl, id, fun _ => ⟨rfl, rfl, rfl⟩⟩

theorem Waits.trans {s t u : State} (h : Waits s t) (g : Waits t u) : Waits s u where
  cfg := g.cfg.trans h.cfg
  ram := g.ram.trans h.ram
  cart := g.cart.trans h.cart
  cpu := by rw [g.cpu, h.cpu]; rfl
  nmi := fun n => g.nmi (h.nmi n)
  devices := fun n =>
    have a := h.devices n
    have b := g.devices (by rw [h.cfg]; exact n)
    ⟨b.1.trans a.1, b.2.1.trans a.2.1, b.2.2.trans a.2.2⟩

theorem Later.waits {s t : State} (h : Later s t) : Waits s t :=
  ⟨h.cfg, h.ram, h.cart, by rw [h.cpu]; rfl, h.nmi, fun _ => ⟨h.regs, h.port0, h.port1⟩⟩

theorem waits_onCpu {s : State} {f : Cpu → Cpu} (h : f s.cpu = s.cpu.withCycleState (f s.cpu))
    (n : (f s.cpu).nmiPending = s.cpu.nmiPending) : Waits s (s.onCpu f) :=
  ⟨rfl, rfl, rfl, h, fun g => n.trans g, fun _ => ⟨rfl, rfl, rfl⟩⟩

theorem waits_advance (s : State) : Waits s (advance s) :=
  (waits_onCpu (f := fun c => { c with sub := c.sub + 1 }) rfl rfl).trans (later_advance s).waits

theorem waits_idleRead (a : Word) (s : State) : Waits s (idleRead a s) :=
  ⟨by simp, by simp, by simp, by simp; rfl, by simp, fun n => by rw [idleRead_none n]; exact ⟨rfl, rfl, rfl⟩⟩

/-- Two states after waiting read memory alike. -/
theorem Waits.peek {s t : State} (h : Waits s t) {a : Word} (ha : isMemory a = true) : cpuPeek a t = cpuPeek a s :=
  cpuPeek_memory ha h.ram h.cart

theorem Waits.sameMemory {s t : State} (h : Waits s t) : SameMemory s t := fun _ ha => h.peek ha

section
variable {s t : State} (h : Waits s t)
include h
theorem Waits.a : t.cpu.a = s.cpu.a := (congrArg Cpu.a h.cpu).trans rfl
theorem Waits.x : t.cpu.x = s.cpu.x := (congrArg Cpu.x h.cpu).trans rfl
theorem Waits.y : t.cpu.y = s.cpu.y := (congrArg Cpu.y h.cpu).trans rfl
theorem Waits.sp : t.cpu.sp = s.cpu.sp := (congrArg Cpu.sp h.cpu).trans rfl
theorem Waits.pc : t.cpu.pc = s.cpu.pc := (congrArg Cpu.pc h.cpu).trans rfl
theorem Waits.p : t.cpu.p = s.cpu.p := (congrArg Cpu.p h.cpu).trans rfl
end

/-! The address cycles. -/

/-- The pointer in page 0 is what it was. -/
theorem Waits.zpPointer {s t : State} (h : Waits s t) (b : Byte) : zpPointer b t = zpPointer b s := by
  unfold Machine.zpPointer
  rw [h.peek (isMemory_zext16 _), h.peek (by exact isMemory_zext16 _)]

/-- Everything the address cycles do: they wait, and leave the effective address of the form (R102), with the page
cross where the form has a fix-up cycle (R157). -/
structure AddressReady (m : MemOperand) (s t : State) : Prop where
  waits : Waits s t
  ea : t.cpu.ea = effAddr m s
  cross : hasFixUp m = true → t.cpu.cross = pageCross m s

theorem loByte_zext16 (b : Byte) : loByte (zext16 b) = b := by
  unfold loByte zext16
  ext i hi
  simp only [BitVec.getElem_extractLsb', BitVec.getLsbD_setWidth, Nat.zero_add, BitVec.getLsbD_eq_getElem hi]
  simp; omega

theorem hiByte_mkWord (h l : Byte) : hiByte (mkWord h l) = h := by
  unfold hiByte mkWord
  ext i hi
  rw [BitVec.getElem_extractLsb']
  exact (BitVec.getLsbD_append).trans (by simp [BitVec.getLsbD_eq_getElem hi])

theorem loByte_mkWord (h l : Byte) : loByte (mkWord h l) = l := by
  unfold loByte mkWord
  ext i hi
  rw [BitVec.getElem_extractLsb']
  exact (BitVec.getLsbD_append).trans (by simp [hi])

theorem mkWord_hi_lo (w : Word) : mkWord (hiByte w) (loByte w) = w := by
  unfold mkWord hiByte loByte
  ext i hi
  simp only [BitVec.getElem_append, BitVec.getElem_extractLsb']
  split
  · simp [BitVec.getLsbD_eq_getElem hi]
  · rw [show 8 + (i - 8) = i by omega, BitVec.getLsbD_eq_getElem hi]

theorem addressReady (m : MemOperand) (s : State) : AddressReady m s (leadCycles (addressCycles m) s) := by
  cases m with
  | zp b => exact ⟨(waits_onCpu rfl rfl).trans (waits_advance _), by simp [addressCycles, leadCycles, setEa, effAddr], nofun⟩
  | abs w => exact ⟨(waits_onCpu rfl rfl).trans (waits_advance _), by simp [addressCycles, leadCycles, setEa, effAddr], nofun⟩
  | abx w =>
    refine ⟨(waits_onCpu rfl rfl).trans (waits_advance _), ?_, fun _ => ?_⟩ <;>
      simp [addressCycles, leadCycles, indexBase, effAddr, pageCross, Index.get]
  | aby w =>
    refine ⟨(waits_onCpu rfl rfl).trans (waits_advance _), ?_, fun _ => ?_⟩ <;>
      simp [addressCycles, leadCycles, indexBase, effAddr, pageCross, Index.get]
  | zpx b =>
    refine ⟨(waits_advance _).trans (((waits_idleRead _ _).trans (waits_onCpu rfl rfl)).trans (waits_advance _)), ?_, nofun⟩
    simp [addressCycles, leadCycles, hold, zpIndexCycle, effAddr, Index.get]
  | zpy b =>
    refine ⟨(waits_advance _).trans (((waits_idleRead _ _).trans (waits_onCpu rfl rfl)).trans (waits_advance _)), ?_, nofun⟩
    simp [addressCycles, leadCycles, hold, zpIndexCycle, effAddr, Index.get]
  | izx b =>
    have hz : ∀ (c : Byte) (u : State), readEffect (zext16 c) u = u := fun c u => readEffect_memory (isMemory_zext16 c) u
    have hn : ∀ (c : Byte) (u : State), readEffect (zpNext c) u = u := fun c u => hz (c + 1) u
    set s1 := advance s with h1
    set s2 := advance ((idleRead (zext16 b) s1).onCpu fun c => { c with ptr := zext16 (b + c.x) }) with h2
    have p2 : s2.cpu.ptr = zext16 (b + s.cpu.x) := by simp [h2, h1]
    set s3 := advance (s2.onCpu fun c => { c with ea := mkWord (hiByte c.ea) (cpuPeek s2.cpu.ptr s2) }) with h3
    have p3 : s3.cpu.ptr = zext16 (b + s.cpu.x) := by simp [h3, p2]
    set s4 := advance (s3.onCpu fun c => { c with ea := mkWord (cpuPeek (zpNext (b + s.cpu.x)) s3) (loByte c.ea) }) with h4
    have e : leadCycles (addressCycles (.izx b)) s = s4 := by
      simp only [addressCycles, leadCycles, hold, izxPointerCycle, izxLowCycle, izxHighCycle, ← h1, ← h2]
      rw [p2, hz, ← p2, ← h3, p3, loByte_zext16, hn]
    have w2 : Waits s s2 := (waits_advance _).trans (((waits_idleRead _ _).trans (waits_onCpu rfl rfl)).trans (waits_advance _))
    have w3 : Waits s s3 := w2.trans ((waits_onCpu rfl rfl).trans (waits_advance _))
    have w4 : Waits s s4 := w3.trans ((waits_onCpu rfl rfl).trans (waits_advance _))
    rw [e]
    refine ⟨w4, ?_, nofun⟩
    have e4 : s4.cpu.ea = mkWord (cpuPeek (zpNext (b + s.cpu.x)) s3) (loByte s3.cpu.ea) := by simp [h4]
    have e3 : s3.cpu.ea = mkWord (hiByte s2.cpu.ea) (cpuPeek s2.cpu.ptr s2) := by simp [h3]
    rw [e4, e3, loByte_mkWord, p2, w2.peek (isMemory_zext16 _), w3.peek (by exact isMemory_zext16 _)]
    rfl
  | izy b =>
    have hz : ∀ (c : Byte) (u : State), readEffect (zext16 c) u = u := fun c u => readEffect_memory (isMemory_zext16 c) u
    have hn : ∀ (c : Byte) (u : State), readEffect (zpNext c) u = u := fun c u => hz (c + 1) u
    set s1 := advance s with h1
    set s2 := advance (s1.onCpu fun c => { c with ptr := mkWord (hiByte c.ptr) (cpuPeek (zext16 b) s1) }) with h2
    set s3 := advance (s2.onCpu fun c => indexBase (mkWord (cpuPeek (zpNext b) s2) (loByte c.ptr)) .y c) with h3
    have e : leadCycles (addressCycles (.izy b)) s = s3 := by
      simp only [addressCycles, leadCycles, hold, izyLowCycle, izyHighCycle, ← h1]
      rw [hz, ← h2, hn]
    have w1 : Waits s s1 := waits_advance _
    have w2 : Waits s s2 := w1.trans ((waits_onCpu rfl rfl).trans (waits_advance _))
    have w3 : Waits s s3 := w2.trans ((waits_onCpu rfl rfl).trans (waits_advance _))
    have pt : mkWord (cpuPeek (zpNext b) s2) (loByte s2.cpu.ptr) = zpPointer b s := by
      have : s2.cpu.ptr = mkWord (hiByte s1.cpu.ptr) (cpuPeek (zext16 b) s1) := by simp [h2]
      rw [this, loByte_mkWord, w1.peek (isMemory_zext16 _), w2.peek (by exact isMemory_zext16 _)]
      rfl
    rw [e]
    refine ⟨w3, ?_, fun _ => ?_⟩
    · have : s3.cpu.ea = mkWord (cpuPeek (zpNext b) s2) (loByte s2.cpu.ptr) + zext16 s2.cpu.y := by simp [h3, indexBase, Index.get]
      rw [this, pt, w2.y]
      rfl
    · have : s3.cpu.cross = crosses (mkWord (cpuPeek (zpNext b) s2) (loByte s2.cpu.ptr)) s2.cpu.y := by
        simp [h3, indexBase, Index.get]
      rw [this, pt, w2.y]
      rfl

/-- Everything that happens before the access to a form's operand. -/
theorem accessPoint_ready (fix : Bool) (m : MemOperand) (s : State) : AddressReady m s (accessPoint fix m s) := by
  have h := addressReady m s
  unfold accessPoint
  cases fix with
  | false => exact h
  | true =>
    refine ⟨h.waits.trans ((waits_idleRead _ _).trans (waits_advance _)), ?_, fun n => ?_⟩
    · simpa using h.ea
    · simpa using h.cross n

/-! The three categories of memory instruction, each as one access after the waiting. -/

/-- The read category (R145 to R151): one read, at the effective address, and the operation on the byte. -/
theorem run_readCycles_mem (op : Byte → Cpu → Cpu) (m : MemOperand) (s : State) :
    runCycles (readCycles op (.mem m)) s =
      retire ((readEffect (effAddr m s) (readPoint m s)).onCpu fun c =>
        op (operandByte (.mem m) s) { c with m := operandByte (.mem m) s }) := by
  have hr : AddressReady m s (readPoint m s) := accessPoint_ready (hasFixUp m && pageCross m s) m s
  have hb : operandByte (.mem m) s = cpuPeek (readPoint m s).cpu.ea (readPoint m s) := by rw [hr.ea]; rfl
  unfold readCycles
  rw [runCycles_append (addressCycles_more m), hb, ← hr.ea]
  cases hf : hasFixUp m with
  | false =>
    have hp : readPoint m s = leadCycles (addressCycles m) s := by simp [readPoint, accessPoint, hf]
    rw [hp]
    rfl
  | true =>
    have hc := (addressReady m s).cross hf
    cases hx : pageCross m s with
    | false =>
      have hp : readPoint m s = leadCycles (addressCycles m) s := by simp [readPoint, accessPoint, hx]
      rw [hp]
      simp only [if_true, runCycles, fixUpOrRead, hc.trans hx]
      rfl
    | true =>
      have hp : readPoint m s =
          advance (idleRead (rawAddr (leadCycles (addressCycles m) s).cpu) (leadCycles (addressCycles m) s)) := by
        simp [readPoint, accessPoint, hf, hx]
      rw [hp]
      simp only [if_true, runCycles, fixUpOrRead, hc.trans hx, fixUpCycle]
      rfl

theorem run_readCycles_imm (op : Byte → Cpu → Cpu) (v : Byte) (s : State) :
    runCycles (readCycles op (.imm v)) s = retire (s.onCpu fun c => op v { c with m := v }) := rfl

/-- The write category (R146 to R151, R155): one write, at the effective address. -/
theorem run_writeCycles (val : Cpu → Byte) (m : MemOperand) (s : State) :
    runCycles (writeCycles val m) s =
      retire (cpuWrite (effAddr m s) (val (writePoint m s).cpu)
        ((writePoint m s).onCpu fun c => { c with m := val (writePoint m s).cpu })) := by
  have hw := accessPoint_ready (hasFixUp m) m s
  unfold writeCycles
  rw [runCycles_append (addressCycles_more m)]
  have he : (writePoint m s).cpu.ea = effAddr m s := hw.ea
  have run : runCycles (if hasFixUp m then [fixUpCycle, writeLast val] else [writeLast val])
      (leadCycles (addressCycles m) s) = runCycles [writeLast val] (writePoint m s) := by
    unfold writePoint accessPoint
    cases hasFixUp m <;> rfl
  rw [run, ← he]
  rfl

/-- The read-modify-write category (R146 to R149): the read, the idle write-back, the write of the result. -/
theorem run_rmwCycles (f : Byte → Byte → Byte × Byte) (m : MemOperand) (s : State) :
    runCycles (rmwCycles f m) s =
      retire ((cpuWrite (effAddr m s) (f (rmwPoint m s).cpu.p (rmwPoint m s).cpu.m).1 (rmwPoint m s)).onCpu fun c =>
        { c with p := (f (rmwPoint m s).cpu.p (rmwPoint m s).cpu.m).2 }) := by
  have hw := accessPoint_ready (hasFixUp m) m s
  have run : runCycles (rmwCycles f m) s = runCycles [rmwRead, rmwHold, rmwLast f] (writePoint m s) := by
    unfold rmwCycles
    rw [runCycles_append (addressCycles_more m)]
    unfold writePoint accessPoint
    cases hasFixUp m with
    | false => rfl
    | true =>
      show runCycles (fixUpCycle :: [rmwRead, rmwHold, rmwLast f]) _ = _
      rw [runCycles]
      rfl
  rw [run]
  set w := writePoint m s with hwdef
  have hea : w.cpu.ea = effAddr m s := hw.ea
  have step1 : rmwRead w = .more ((readEffect (effAddr m s) w).onCpu fun c => { c with m := rmwByte m s }) := by
    unfold rmwRead rmwByte
    rw [hea]
  set r := advance ((readEffect (effAddr m s) w).onCpu fun c => { c with m := rmwByte m s }) with hr
  have rea : r.cpu.ea = effAddr m s := by simp [hr, hea]
  have rm : r.cpu.m = rmwByte m s := by simp [hr]
  have step2 : rmwHold r = .more (idleWrite (effAddr m s) (rmwByte m s) r) := by
    unfold rmwHold
    rw [rea, rm]
  have hp : advance (idleWrite (effAddr m s) (rmwByte m s) r) = rmwPoint m s := rfl
  have pea : (rmwPoint m s).cpu.ea = effAddr m s := by
    rw [← hp, advance_ea]
    rcases idleWrite_cpu (effAddr m s) (rmwByte m s) r with h | h
    · rw [h, rea]
    · rw [h, cpuWrite_cpu]; exact rea
  simp only [runCycles, step1, ← hr, step2, hp]
  unfold rmwLast
  simp only [pea]

/-- Internal instructions (R144): one idle cycle, and the operation. -/
theorem run_internalCycles (op : Cpu → Cpu) (s : State) :
    runCycles (internalCycles op) s = retire ((idleRead s.cpu.pc s).onCpu op) := rfl

end Sys2Proof.Machine
end

