-- ==== Sys2Proof/Laws/Categories.lean ====
section
/-!
SUPPORT. One lemma for each shape of instruction: what the CPU is afterwards, and what is unchanged.
-/

namespace Sys2Proof.Machine

/-- An operation on the registers alone: it neither reads nor writes the cycle state. -/
def RegisterOp (f : Cpu → Cpu) : Prop := ∀ c w : Cpu, f (c.withCycleState w) = (f c).withCycleState w

/-- An operation whose registers do not depend on the cycle state, which it may write. -/
def SettlesRegisters (f : Cpu → Cpu) : Prop :=
  ∀ c w : Cpu, f (c.withCycleState w) = (f c).withCycleState (f (c.withCycleState w))

theorem RegisterOp.settles {f : Cpu → Cpu} (h : RegisterOp f) : SettlesRegisters f := fun c w => by rw [h]; rfl

/-- The end of a service sequence counts its row in `sub` (R377). -/
theorem settlesRegisters_endService : SettlesRegisters endService := fun _ _ => rfl

/-- The CPU after waiting, an operation on the registers, and retirement. -/
theorem cpuIs_of_waits {s w t : State} {f : Cpu → Cpu} (hw : Waits s w) (hf : RegisterOp f) (b : Byte)
    (ht : t.cpu = { f { w.cpu with m := b } with ready := true }) : CpuIs s t (f s.cpu) := by
  have e : ({ w.cpu with m := b } : Cpu) = s.cpu.withCycleState { w.cpu with m := b } := by
    conv => lhs; rw [hw.cpu]
    rfl
  refine ⟨?_, fun n => ?_⟩
  · rw [ht, e, hf]
    rfl
  · rw [ht, e, hf]
    exact hw.nmi n

/-- The read category: the registers take the operation on the operand byte; beside the CPU only the one read acts. -/
theorem read_result {op : Byte → Cpu → Cpu} (hop : ∀ v, RegisterOp (op v)) (o : ReadOperand) (s : State) :
    CpuIs s (runCycles (readCycles op o) s) (op (operandByte o s) s.cpu) ∧
      ReadsOnly o s (runCycles (readCycles op o) s) := by
  cases o with
  | imm v =>
    rw [run_readCycles_imm]
    exact ⟨cpuIs_of_waits (Waits.refl s) (hop v) v rfl, fun _ _ => rfl, ⟨rfl, rfl, rfl⟩, ⟨rfl, rfl, rfl, rfl⟩⟩
  | mem m =>
    rw [run_readCycles_mem]
    have hw : Waits s (readPoint m s) := (accessPoint_ready _ m s).waits
    refine ⟨cpuIs_of_waits hw (hop _) (operandByte (.mem m) s) (by simp [retire]), fun a ha => ?_, ⟨?_, ?_, ?_⟩,
      ⟨rfl, rfl, rfl, rfl⟩⟩
    · refine (cpuPeek_memory ha ?_ ?_).trans (hw.peek ha) <;> simp [retire]
    · simpa [retire] using hw.cfg
    · simpa [retire] using hw.ram
    · simpa [retire] using hw.cart

/-- The write category: no register changes, and the last act is the one write (R155). -/
theorem write_result {val : Cpu → Byte} (hval : ∀ c w : Cpu, val (c.withCycleState w) = val c) (m : MemOperand)
    (s : State) :
    CpuIs s (runCycles (writeCycles val m) s) (cpuWrite (effAddr m s) (val s.cpu) s).cpu ∧
      WritesAt (effAddr m s) (val s.cpu) (writePoint m s) s (runCycles (writeCycles val m) s) := by
  rw [run_writeCycles]
  have hw : Waits s (writePoint m s) := (accessPoint_ready _ m s).waits
  have hv : val (writePoint m s).cpu = val s.cpu := by rw [hw.cpu]; exact hval _ _
  rw [hv]
  set ea := effAddr m s
  set v := val s.cpu
  set w := writePoint m s with hwd
  have hc : (cpuWrite ea v (w.onCpu fun c => { c with m := v })).cpu = { (cpuWrite ea v w).cpu with m := v } := by
    rw [cpuWrite_cpu, cpuWrite_cpu]; rfl
  have hr : (cpuWrite ea v (w.onCpu fun c => { c with m := v })) =
      { cpuWrite ea v w with cpu := { (cpuWrite ea v w).cpu with m := v } } := by
    unfold cpuWrite
    split <;> rfl
  rw [hr]
  refine ⟨⟨?_, fun n => ?_⟩, ?_, ?_, ?_, rfl, rfl, ⟨rfl, rfl, rfl, rfl⟩⟩
  · show ({ (cpuWrite ea v w).cpu with m := v, ready := true } : Cpu) = _
    rw [cpuWrite_cpu, cpuWrite_cpu, hw.cpu]
    rfl
  · show (cpuWrite ea v w).cpu.nmiPending = true
    rw [cpuWrite_cpu]
    exact hw.nmi n
  · show (cpuWrite ea v w).cfg = _
    rw [cpuWrite_cfg, hw.cfg]
  · intro a ha ht
    have h1 := sameMemoryBut_cpuWrite ea v w a ha ht
    refine Eq.trans ?_ (h1.trans (hw.peek ha))
    exact cpuPeek_memory ha rfl rfl
  · intro off hoff
    have h1 := cpuPeek_write_ram hoff v w
    have hm : isMemory ea = true := by simp [isMemory, hoff]
    exact (cpuPeek_memory hm rfl rfl).trans h1

/-- `d` is `c` as far as the registers go: the cycle state may differ, and no NMI request is lost. -/
def Follows (c d : Cpu) : Prop := d = c.withCycleState d ∧ (c.nmiPending = true → d.nmiPending = true)

theorem Follows.refl (c : Cpu) : Follows c c := ⟨rfl, id⟩

theorem Follows.trans {c d e : Cpu} (h : Follows c d) (g : Follows d e) : Follows c e :=
  ⟨by rw [g.1, h.1]; rfl, fun n => g.2 (h.2 n)⟩

theorem Waits.follows {s t : State} (h : Waits s t) : Follows s.cpu t.cpu := ⟨h.cpu, h.nmi⟩

theorem follows_advance (s : State) : Follows s.cpu (advance s).cpu := (waits_advance s).follows

/-- An operation on the registers, applied to both. -/
theorem Follows.map {c d : Cpu} (h : Follows c d) {f : Cpu → Cpu} (hf : SettlesRegisters f)
    (hn : ∀ e : Cpu, (f e).nmiPending = e.nmiPending) : Follows (f c) (f d) := by
  refine ⟨?_, fun n => ?_⟩
  · have e := hf c d
    rwa [← h.1] at e
  · rw [hn] at n ⊢; exact h.2 n

theorem Follows.withM {c d : Cpu} (h : Follows c d) (b : Byte) : Follows c { d with m := b } :=
  h.trans ⟨rfl, id⟩

/-- The registers after an instruction, and its retirement. -/
theorem cpuIs_of_follows {s t : State} {c d : Cpu} (h : Follows c d) (hc : c.nmiPending = s.cpu.nmiPending)
    (ht : t.cpu = { d with ready := true }) : CpuIs s t c := by
  refine ⟨?_, fun n => ?_⟩
  · rw [ht, h.1]; rfl
  · rw [ht]; exact h.2 (hc.trans n)

/-- What a write does to the CPU. -/
def dmaLatch (a : Word) (v : Byte) (c : Cpu) : Cpu :=
  { c with
    dmaPage := if region a = .dma then v else c.dmaPage
    dmaRequest := if region a = .dma then true else c.dmaRequest }

theorem cpuWrite_dmaLatch (a : Word) (v : Byte) (s : State) : (cpuWrite a v s).cpu = dmaLatch a v s.cpu :=
  cpuWrite_cpu a v s

theorem registerOp_dmaLatch (a : Word) (v : Byte) : RegisterOp (dmaLatch a v) := fun _ _ => rfl

theorem dmaLatch_twice (a : Word) (u v : Byte) (c : Cpu) : dmaLatch a v (dmaLatch a u c) = dmaLatch a v c := by
  unfold dmaLatch
  split <;> rfl

/-- The state in which a read-modify-write makes its last write: what differs from `s`. -/
structure RmwReady (o : MemOperand) (s t : State) : Prop where
  cfg : t.cfg = s.cfg
  mem : SameMemoryBut (effAddr o s) s t
  status : t.cpu.p = s.cpu.p
  latch : t.cpu.m = rmwByte o s
  cpu : ∀ x : Byte, Follows (cpuWrite (effAddr o s) x s).cpu (cpuWrite (effAddr o s) x t).cpu

theorem rmwPoint_ready (m : MemOperand) (s : State) : RmwReady m s (rmwPoint m s) := by
  have hw : Waits s (writePoint m s) := (accessPoint_ready _ m s).waits
  unfold rmwPoint
  set w := writePoint m s
  set ea := effAddr m s
  set v := rmwByte m s
  set q := (readEffect ea w).onCpu fun c => { c with m := v } with hq
  have hqf : Follows s.cpu q.cpu := by
    have : q.cpu = { w.cpu with m := v } := by simp [hq]
    rw [this]; exact hw.follows.withM v
  have hrf : Follows s.cpu (advance q).cpu := hqf.trans (follows_advance q)
  have hrm : ∀ a, isMemory a = true → cpuPeek a (advance q) = cpuPeek a s := fun a ha =>
    (cpuPeek_memory ha (by simp [hq]) (by simp [hq])).trans (hw.peek ha)
  set r := advance q with hr
  have hic : (idleWrite ea v r).cpu = r.cpu ∨ (idleWrite ea v r).cpu = dmaLatch ea v r.cpu := by
    rcases idleWrite_cpu ea v r with h | h
    · exact .inl h
    · exact .inr (h.trans (cpuWrite_dmaLatch _ _ _))
  have hcm : r.cpu.m = v := by simp [hr, hq]
  have hcp : r.cpu.p = s.cpu.p := (congrArg Cpu.p hrf.1).trans rfl
  refine ⟨?_, ?_, ?_, ?_, fun x => ?_⟩
  · simp [hr, hq, hw.cfg]
  · intro a ha ht
    have h1 := sameMemoryBut_idleWrite ea v r a ha ht
    refine Eq.trans (cpuPeek_memory ha ?_ ?_) (h1.trans (hrm a ha)) <;> simp
  · rcases hic with h | h <;> simp [h, dmaLatch, hcp]
  · rcases hic with h | h <;> simp [h, dmaLatch, hcm, v]
  · rw [cpuWrite_dmaLatch, cpuWrite_dmaLatch]
    have h2 := (follows_advance (idleWrite ea v r)).map (registerOp_dmaLatch ea x).settles (fun _ => rfl)
    have h3 : dmaLatch ea x (idleWrite ea v r).cpu = dmaLatch ea x r.cpu := by
      rcases hic with h | h <;> rw [h]
      exact dmaLatch_twice ea v x r.cpu
    rw [h3] at h2
    exact (hrf.map (registerOp_dmaLatch ea x).settles (fun _ => rfl)).trans h2

/-- The read-modify-write category: only the status changes, and the last act is the write of the result. -/
theorem rmw_result (f : Byte → Byte → Byte × Byte) (m : MemOperand) (s : State) :
    CpuIs s (runCycles (rmwCycles f m) s)
        { (cpuWrite (effAddr m s) (f s.cpu.p (rmwByte m s)).1 s).cpu with p := (f s.cpu.p (rmwByte m s)).2 } ∧
      WritesAt (effAddr m s) (f s.cpu.p (rmwByte m s)).1 (rmwPoint m s) s (runCycles (rmwCycles f m) s) := by
  rw [run_rmwCycles]
  have h := rmwPoint_ready m s
  rw [h.status, h.latch]
  set w := rmwPoint m s
  set ea := effAddr m s
  set r := f s.cpu.p (rmwByte m s)
  refine ⟨cpuIs_of_follows ((h.cpu r.1).map (f := fun c => { c with p := r.2 }) (fun _ _ => rfl) (fun _ => rfl)) ?_ rfl,
    ?_, ?_, ?_, rfl, rfl, ⟨rfl, rfl, rfl, rfl⟩⟩
  · show (cpuWrite ea r.1 s).cpu.nmiPending = _
    rw [cpuWrite_cpu]
  · show (cpuWrite ea r.1 w).cfg = _
    rw [cpuWrite_cfg, h.cfg]
  · intro a ha ht
    have h1 := sameMemoryBut_cpuWrite ea r.1 w a ha ht
    exact Eq.trans (cpuPeek_memory ha rfl rfl) (h1.trans (h.mem a ha ht))
  · intro off hoff
    have hm : isMemory ea = true := by simp [isMemory, hoff]
    exact (cpuPeek_memory hm rfl rfl).trans (cpuPeek_write_ram hoff r.1 w)

/-- Internal instructions (R144): the registers take the operation, and nothing else acts but the idle read at PC. -/
theorem internal_result {f : Cpu → Cpu} (hf : RegisterOp f) (s : State) :
    CpuIs s (runCycles (internalCycles f) s) (f s.cpu) ∧ RegisterOnly s (runCycles (internalCycles f) s) := by
  rw [run_internalCycles]
  refine ⟨cpuIs_of_waits (waits_idleRead s.cpu.pc s) hf (idleRead s.cpu.pc s).cpu.m rfl, fun a ha => ?_, ⟨?_, ?_, ?_⟩, ?_,
    fun hq => ?_⟩
  · exact cpuPeek_memory ha (by simp [retire]) (by simp [retire])
  · simp [retire]
  · simp [retire]
  · simp [retire]
  · simp [retire]
  · rw [idleRead_quiet hq]
    exact ⟨rfl, rfl, rfl⟩

end Sys2Proof.Machine
end

