-- ==== Sys2Proof/Laws/Stack.lean ====
section
/-!
SUPPORT. Sequences that push and pull: their registers, the RAM they leave, and what they leave unchanged.
-/

namespace Sys2Proof.Machine

/-- `t` comes after `s` in a sequence: its registers are `c` and its RAM is `r`, the cycle state apart; the cartridge
is untouched, and under `q` (that idle reads have no effect) every device register is. -/
structure After (q : Prop) (s : State) (c : Cpu) (r : Store 8) (t : State) : Prop where
  cfg : t.cfg = s.cfg
  cart : t.cart = s.cart
  ram : t.ram = r
  cpu : Follows c t.cpu
  devices : q → SameDevices s t

section
variable {q : Prop} {s t : State} {c : Cpu} {r : Store 8}

theorem After.refl (q : Prop) (s : State) : After q s s.cpu s.ram s :=
  ⟨rfl, rfl, rfl, Follows.refl _, fun _ => ⟨rfl, rfl, rfl⟩⟩

theorem After.advance (h : After q s c r t) : After q s c r (advance t) :=
  ⟨by simp [h.cfg], by simp [h.cart], by simp [h.ram], h.cpu.trans (follows_advance t), fun n =>
    have d := h.devices n
    ⟨by rw [advance_regs]; exact d.1, by rw [advance_port0]; exact d.2.1, by rw [advance_port1]; exact d.2.2⟩⟩

theorem After.elapse (h : After q s c r t) : After q s c r (elapse t) :=
  ⟨by simp [h.cfg], by simp [h.cart], by simp [h.ram], h.cpu.trans (later_elapse t).waits.follows, fun n =>
    have d := h.devices n
    ⟨by rw [elapse_regs]; exact d.1, by rw [elapse_port0]; exact d.2.1, by rw [elapse_port1]; exact d.2.2⟩⟩

theorem After.idle (h : After q s c r t) {a : Word} (hq : q → s.cfg.dummyAccesses = .none ∨ isMemory a = true) :
    After q s c r (idleRead a t) := by
  refine ⟨by simp [h.cfg], by simp [h.cart], by simp [h.ram], by simpa using h.cpu, fun n => ?_⟩
  rcases hq n with g | g
  · rw [idleRead_none (by rw [h.cfg]; exact g)]; exact h.devices n
  · rw [idleRead_memory g]; exact h.devices n

theorem After.onCpu (h : After q s c r t) {f : Cpu → Cpu} (hf : SettlesRegisters f)
    (hn : ∀ e : Cpu, (f e).nmiPending = e.nmiPending) : After q s (f c) r (t.onCpu f) :=
  ⟨h.cfg, h.cart, h.ram, h.cpu.map hf hn, h.devices⟩

theorem After.sp (h : After q s c r t) : t.cpu.sp = c.sp := (congrArg Cpu.sp h.cpu.1).trans rfl

theorem After.pc (h : After q s c r t) : t.cpu.pc = c.pc := (congrArg Cpu.pc h.cpu.1).trans rfl

theorem After.p (h : After q s c r t) : t.cpu.p = c.p := (congrArg Cpu.p h.cpu.1).trans rfl

theorem After.a (h : After q s c r t) : t.cpu.a = c.a := (congrArg Cpu.a h.cpu.1).trans rfl

/-- A byte pushed (R6, R12). -/
theorem After.push (h : After q s c r t) (v : Byte) :
    After q s { c with sp := c.sp - 1 } (Store.write unlisted r (256 + c.sp.toNat) v) (push v t) := by
  unfold Machine.push
  rw [cpuWrite_ram (region_stackAddr _), h.sp, h.ram]
  exact ⟨h.cfg, h.cart, rfl, h.cpu.map (f := fun e => { e with sp := e.sp - 1 }) (fun _ _ => rfl) (fun _ => rfl), h.devices⟩

/-- A byte pulled (R6, R12). -/
theorem After.pull (h : After q s c r t) : After q s { c with sp := c.sp + 1 } r (afterPull t) := by
  unfold afterPull pullAddr
  rw [readEffect_memory (isMemory_stackAddr _)]
  exact h.onCpu (f := fun e => { e with sp := e.sp + 1 }) (fun _ _ => rfl) (fun _ => rfl)

theorem After.pullValue (h : After q s c r t) :
    pullValue t = Store.read unlisted r (256 + (c.sp + 1).toNat) := by
  unfold Machine.pullValue pullAddr cpuPeek
  rw [region_stackAddr, h.sp, h.ram]

/-- A byte of the cartridge, where the sequence has not written. -/
theorem After.peek_cart (h : After q s c r t) {a : Word} (ha : region a = .cartridge) : cpuPeek a t = cpuPeek a s := by
  unfold cpuPeek
  rw [ha, h.cart]

theorem After.retire (h : After q s c r t) (hc : c.nmiPending = s.cpu.nmiPending) : CpuIs s (retire t) c :=
  cpuIs_of_follows h.cpu hc rfl

theorem After.retired (h : After q s c r t) :
    (Machine.retire t).cfg = s.cfg ∧ (Machine.retire t).cart = s.cart ∧ (Machine.retire t).ram = r ∧
      (q → SameDevices s (Machine.retire t)) := ⟨h.cfg, h.cart, h.ram, h.devices⟩

end

theorem cpuPeek_stack (k : Nat) (s t : State) :
    cpuPeek (pushedAt k s) t = Store.read unlisted t.ram (256 + (s.cpu.sp - BitVec.ofNat 8 k).toNat) := by
  unfold cpuPeek pushedAt
  rw [region_stackAddr]

theorem pulledByte_eq (k : Nat) (s : State) :
    pulledByte k s = Store.read unlisted s.ram (256 + (s.cpu.sp + BitVec.ofNat 8 k).toNat) := by
  unfold pulledByte cpuPeek
  rw [region_stackAddr]

theorem touches_pushed {k : Nat} {s : State} {a : Word} {j : Nat} (ha : region a = .ram j)
    (h : touches (pushedAt k s) a = false) : j ≠ 256 + (s.cpu.sp - BitVec.ofNat 8 k).toNat := by
  unfold touches pushedAt at h
  rw [region_stackAddr, ha] at h
  simpa using (of_decide_eq_false h : ¬ _).imp Eq.symm

/-- RAM with the pushed bytes: every byte outside the stack cells is as before. -/
theorem sameMemoryButStack_of {n : Nat} {s t : State} (hc : t.cart = s.cart)
    (hr : ∀ j, (∀ k, k < n → j ≠ 256 + (s.cpu.sp - BitVec.ofNat 8 k).toNat) →
      Store.read unlisted t.ram j = Store.read unlisted s.ram j) : SameMemoryButStack n s t := by
  intro a ha ht
  unfold isMemory at ha
  cases hreg : region a with
  | ram j =>
    unfold cpuPeek
    rw [hreg]
    exact hr j fun k hk => touches_pushed hreg (ht k hk)
  | cartridge =>
    unfold cpuPeek
    rw [hreg, hc]
  | _ => simp [hreg] at ha

/-! The pushing instructions. -/

theorem sp_minus (b : Byte) (k : Nat) (hk : k < 256) : (b - BitVec.ofNat 8 k).toNat = (b.toNat + 256 - k) % 256 := by
  have := b.isLt
  rw [BitVec.toNat_sub, BitVec.toNat_ofNat]
  omega

/-- One byte pushed, after an idle cycle at PC (R260, R261). -/
theorem push_result (val : Cpu → Byte) (hv : ∀ c w : Cpu, val (c.withCycleState w) = val c) (s : State) :
    let t := runCycles [idleAtPc, fun s => .done (push (val s.cpu) s)] s
    CpuIs s t { s.cpu with sp := s.cpu.sp - 1 } ∧ cpuPeek (pushedAt 0 s) t = val s.cpu ∧ PushesOnly 1 s t := by
  intro t
  have h0 : After (QuietIdle s) s s.cpu s.ram (advance (idleRead s.cpu.pc s)) :=
    ((After.refl _ s).idle id).advance
  have hval : val (advance (idleRead s.cpu.pc s)).cpu = val s.cpu := by rw [h0.cpu.1]; exact hv _ _
  have h1 := h0.push (val s.cpu)
  have ht : t = retire (push (val s.cpu) (advance (idleRead s.cpu.pc s))) := by rw [← hval]; rfl
  rw [ht]
  obtain ⟨g1, g2, g3, g4⟩ := h1.retired
  refine ⟨h1.retire rfl, ?_, sameMemoryButStack_of g2 fun j hj => ?_, g1, g2, g4⟩
  · rw [cpuPeek_stack, g3]
    simp
  · rw [g3]
    exact Store.read_write_ne (by simpa using hj 0 (by omega)) _

/-! The pulling instructions. -/

/-- Nothing stored: memory is as before. -/
theorem sameMemory_of {s t : State} (hr : t.ram = s.ram) (hc : t.cart = s.cart) : SameMemory s t :=
  fun _ ha => cpuPeek_memory ha hr hc

theorem setPcHigh_low (h l : Byte) (c : Cpu) : setPcHigh h (setPcLow l c) = { c with pc := mkWord h l } := by
  unfold setPcHigh setPcLow
  rw [loByte_mkWord]

/-- One byte pulled, after two idle cycles (R262, R263). -/
theorem pull_result {op : Byte → Cpu → Cpu} (hop : ∀ v, RegisterOp (op v)) (hn : ∀ v c, (op v c).nmiPending = c.nmiPending)
    (s : State) :
    let t := runCycles [idleAtPc, idleAtStack, fun s => .done ((afterPull s).onCpu (op (pullValue s)))] s
    CpuIs s t (op (pulledByte 1 s) { s.cpu with sp := s.cpu.sp + 1 }) ∧ PullsOnly s t := by
  intro t
  have h0 : After (QuietIdle s) s s.cpu s.ram (advance (idleRead s.cpu.pc s)) := ((After.refl _ s).idle id).advance
  set u := advance (idleRead s.cpu.pc s)
  have h1 : After (QuietIdle s) s s.cpu s.ram (advance (idleRead (stackAddr u.cpu.sp) u)) :=
    (h0.idle fun _ => .inr (isMemory_stackAddr _)).advance
  set w := advance (idleRead (stackAddr u.cpu.sp) u)
  have hv : pullValue w = pulledByte 1 s := by rw [h1.pullValue, pulledByte_eq]; rfl
  have h2 := h1.pull.onCpu (hop (pullValue w)).settles (hn _)
  have ht : t = retire ((afterPull w).onCpu (op (pullValue w))) := rfl
  rw [ht]
  obtain ⟨g1, g2, g3, g4⟩ := h2.retired
  rw [hv] at h2 ⊢
  rw [hv] at g1 g2 g3 g4
  exact ⟨h2.retire (hn _ _), sameMemory_of g3 g2, ⟨g1, g3, g2⟩, g4⟩

/-- RTS (R242). -/
theorem rts_result (s : State) :
    CpuIs s (runCycles cyclesRts s)
        { s.cpu with sp := s.cpu.sp + 2, pc := mkWord (pulledByte 2 s) (pulledByte 1 s) + 1 } ∧
      JumpsOnly s (runCycles cyclesRts s) := by
  have h0 : After (s.cfg.dummyAccesses = .none) s s.cpu s.ram (advance (idleRead s.cpu.pc s)) :=
    ((After.refl _ s).idle .inl).advance
  set u := advance (idleRead s.cpu.pc s)
  have h1 : After (s.cfg.dummyAccesses = .none) s s.cpu s.ram (advance (idleRead (stackAddr u.cpu.sp) u)) :=
    (h0.idle .inl).advance
  set w := advance (idleRead (stackAddr u.cpu.sp) u)
  have v1 : pullValue w = pulledByte 1 s := by rw [h1.pullValue, pulledByte_eq]; rfl
  have h2 := (h1.pull.onCpu (f := setPcLow (pullValue w)) (fun _ _ => rfl) (fun _ => rfl)).advance
  set x := advance ((afterPull w).onCpu (setPcLow (pullValue w)))
  have v2 : pullValue x = pulledByte 2 s := by
    rw [h2.pullValue, pulledByte_eq]
    simp only [setPcLow]
    rw [BitVec.add_assoc]
    rfl
  have h3 := (h2.pull.onCpu (f := setPcHigh (pullValue x)) (fun _ _ => rfl) (fun _ => rfl)).advance
  set y := advance ((afterPull x).onCpu (setPcHigh (pullValue x)))
  have h4 := ((h3.idle (a := y.cpu.pc) .inl).onCpu (f := incPc) (fun _ _ => rfl) (fun _ => rfl))
  have ht : runCycles cyclesRts s = retire ((idleRead y.cpu.pc y).onCpu incPc) := rfl
  rw [ht]
  obtain ⟨g1, g2, g3, g4⟩ := h4.retired
  have hc := h4.retire rfl
  rw [v1, v2] at hc
  have e : ∀ b : Byte, b + 1 + 1 = b + 2 := fun b => by bv_omega
  simp only [incPc, setPcHigh, setPcLow, loByte_mkWord, e] at hc
  exact ⟨hc, sameMemory_of g3 g2, ⟨g1, g3, g2⟩, g4⟩

/-- RTI (R243). -/
theorem rti_result (s : State) :
    CpuIs s (runCycles cyclesRti s)
        { s.cpu with
          sp := s.cpu.sp + 3
          pc := mkWord (pulledByte 3 s) (pulledByte 2 s)
          p := pulledStatus (pulledByte 1 s) } ∧
      PullsOnly s (runCycles cyclesRti s) := by
  have h0 : After (QuietIdle s) s s.cpu s.ram (advance (idleRead s.cpu.pc s)) := ((After.refl _ s).idle id).advance
  set u := advance (idleRead s.cpu.pc s)
  have h1 : After (QuietIdle s) s s.cpu s.ram (advance (idleRead (stackAddr u.cpu.sp) u)) :=
    (h0.idle fun _ => .inr (isMemory_stackAddr _)).advance
  set w := advance (idleRead (stackAddr u.cpu.sp) u)
  have v1 : pullValue w = pulledByte 1 s := by rw [h1.pullValue, pulledByte_eq]; rfl
  have h2 := (h1.pull.onCpu (f := fun c => { c with p := pulledStatus (pullValue w) }) (fun _ _ => rfl) (fun _ => rfl)).advance
  set x := advance ((afterPull w).onCpu fun c => { c with p := pulledStatus (pullValue w) })
  have v2 : pullValue x = pulledByte 2 s := by
    rw [h2.pullValue, pulledByte_eq, BitVec.add_assoc]
    rfl
  have h3 := (h2.pull.onCpu (f := setPcLow (pullValue x)) (fun _ _ => rfl) (fun _ => rfl)).advance
  set y := advance ((afterPull x).onCpu (setPcLow (pullValue x)))
  have v3 : pullValue y = pulledByte 3 s := by
    rw [h3.pullValue, pulledByte_eq]
    simp only [setPcLow]
    rw [BitVec.add_assoc, BitVec.add_assoc]
    rfl
  have h4 := h3.pull.onCpu (f := setPcHigh (pullValue y)) (fun _ _ => rfl) (fun _ => rfl)
  have ht : runCycles cyclesRti s = retire ((afterPull y).onCpu (setPcHigh (pullValue y))) := rfl
  have hc : CpuIs s (runCycles cyclesRti s) _ := ht ▸ h4.retire rfl
  obtain ⟨g1, g2, g3, g4⟩ := ht ▸ h4.retired
  rw [v1, v2, v3] at hc
  have e : ∀ b : Byte, b + 1 + 1 + 1 = b + 3 := fun b => by bv_omega
  simp only [setPcHigh, setPcLow, loByte_mkWord, e] at hc
  exact ⟨hc, sameMemory_of g3 g2, ⟨g1, g3, g2⟩, g4⟩

/-! Taking an interrupt. -/

/-- RAM after three bytes are pushed from a stack pointer. -/
def pushThree (sp : Byte) (a b c : Byte) (r : Store 8) : Store 8 :=
  Store.write unlisted
    (Store.write unlisted (Store.write unlisted r (256 + sp.toNat) a) (256 + (sp - 1).toNat) b)
    (256 + (sp - 1 - 1).toNat) c

theorem read_pushThree (sp a b c : Byte) (r : Store 8) :
    Store.read unlisted (pushThree sp a b c r) (256 + sp.toNat) = a ∧
    Store.read unlisted (pushThree sp a b c r) (256 + (sp - 1).toNat) = b ∧
    Store.read unlisted (pushThree sp a b c r) (256 + (sp - 2).toNat) = c ∧
    ∀ j, (∀ k, k < 3 → j ≠ 256 + (sp - BitVec.ofNat 8 k).toNat) →
      Store.read unlisted (pushThree sp a b c r) j = Store.read unlisted r j := by
  have e2 : sp - 1 - 1 = sp - 2 := by bv_omega
  have n1 : (sp - 1).toNat ≠ sp.toNat := by bv_omega
  have n2 : (sp - 2).toNat ≠ sp.toNat := by bv_omega
  have n3 : (sp - 2).toNat ≠ (sp - 1).toNat := by bv_omega
  unfold pushThree
  rw [e2]
  refine ⟨?_, ?_, Store.read_write_same _ _ _, fun j hj => ?_⟩
  · rw [Store.read_write_ne (by omega), Store.read_write_ne (by omega), Store.read_write_same]
  · rw [Store.read_write_ne (by omega), Store.read_write_same]
  · have h0 : j ≠ 256 + sp.toNat := by simpa using hj 0 (by omega)
    have h1 : j ≠ 256 + (sp - 1).toNat := hj 1 (by omega)
    have h2 : j ≠ 256 + (sp - 2).toNat := hj 2 (by omega)
    rw [Store.read_write_ne h2, Store.read_write_ne h1, Store.read_write_ne h0]

/-- The five cycles shared by NMI, IRQ and BRK: three bytes pushed, I set, PC from the vector (R244, R377). -/
theorem after_entry {q : Prop} {s t : State} {c : Cpu} (h : After q s c s.ram t) {b : State → Bool} {bv : Bool}
    (hb : ∀ u : State, u.cfg = s.cfg → b u = bv) {vector : State → Word} {vec : Word}
    (hvec : ∀ u : State, u.cpu.nmiActive = c.nmiActive → vector u = vec) (hv0 : region vec = .cartridge)
    (hv1 : region (vec + 1) = .cartridge) {close : Cpu → Cpu} (hclose : SettlesRegisters close)
    (hn : ∀ e : Cpu, (close e).nmiPending = e.nmiPending) :
    ∃ x, runCycles (entryCycles b vector close) t = retire x ∧
      After q s (close { c with sp := c.sp - 3, pc := vectorAt vec s, p := setFlag c.p flagI true })
        (pushThree c.sp (hiByte c.pc) (loByte c.pc) (pushedStatus c.p bv) s.ram) x := by
  have hmem : ∀ {a : Word}, region a = .cartridge → isMemory a = true := fun h => by simp [isMemory, h]
  have h1 := (h.push (hiByte c.pc)).advance
  set t1 := advance (push (hiByte c.pc) t) with e1
  have h2 := (h1.push (loByte c.pc)).advance
  set t2 := advance (push (loByte c.pc) t1) with e2
  have h3 := ((h2.push (pushedStatus c.p bv)).onCpu (f := fun c => { c with p := setFlag c.p flagI true })
    (fun _ _ => rfl) (fun _ => rfl)).advance
  set t3 := advance ((push (pushedStatus c.p bv) t2).onCpu fun c => { c with p := setFlag c.p flagI true }) with e3
  have v3 : vector t3 = vec := hvec t3 (by rw [h3.cpu.1]; rfl)
  have h4 := (h3.onCpu (f := setPcLow (cpuPeek vec s)) (fun _ _ => rfl) (fun _ => rfl)).advance
  set t4 := advance (t3.onCpu (setPcLow (cpuPeek vec s))) with e4
  have v4 : vector t4 = vec := hvec t4 (by rw [h4.cpu.1]; rfl)
  have h5 := h4.onCpu (f := fun c => close (setPcHigh (cpuPeek (vec + 1) s) c))
    (fun c w => hclose (setPcHigh _ c) w) (fun _ => hn _)
  refine ⟨t4.onCpu fun c => close (setPcHigh (cpuPeek (vec + 1) s) c), ?_, ?_⟩
  · have p0 : t.cpu.pc = c.pc := h.pc
    have p1 : t1.cpu.pc = c.pc := h1.pc
    have p2 : t2.cpu.p = c.p := h2.p
    have pb : b t2 = bv := hb t2 h2.cfg
    have q3 : cpuPeek vec t3 = cpuPeek vec s := h3.peek_cart hv0
    have q4 : cpuPeek (vec + 1) t4 = cpuPeek (vec + 1) s := h4.peek_cart hv1
    simp only [entryCycles, runCycles, p0, ← e1, p1, ← e2, p2, pb, ← e3, v3, readEffect_memory (hmem hv0), q3, ← e4, v4,
      readEffect_memory (hmem hv1), q4]
  · have e : ∀ b : Byte, b - 1 - 1 - 1 = b - 3 := fun b => by bv_omega
    simp only [setPcHigh, setPcLow, loByte_mkWord, e] at h5
    exact h5

theorem setFlag_I (p : Byte) : setFlag p flagI true = p ||| 0x04 := by revert p; decide

/-- What the entry leaves, in the statements' terms. -/
theorem entered_of {s x T : State} {vec : Word} {pb : Byte} {ret : Word} {c : Cpu}
    (h : After (QuietIdle s) s { c with sp := s.cpu.sp - 3, pc := vectorAt vec s, p := setFlag s.cpu.p flagI true }
      (pushThree s.cpu.sp (hiByte ret) (loByte ret) pb s.ram) x)
    (hT : T = retire x) (hn : c.nmiPending = s.cpu.nmiPending) : Entered vec pb ret c s T := by
  subst hT
  obtain ⟨g1, g2, g3, g4⟩ := h.retired
  obtain ⟨r0, r1, r2, r3⟩ := read_pushThree s.cpu.sp (hiByte ret) (loByte ret) pb s.ram
  refine ⟨?_, ?_, ?_, ?_, sameMemoryButStack_of g2 fun j hj => ?_, g1, g2, g4⟩
  · have := h.retire hn
    rwa [setFlag_I] at this
  · rw [cpuPeek_stack, g3]; simpa using r0
  · rw [cpuPeek_stack, g3]; exact r1
  · rw [cpuPeek_stack, g3]; exact r2
  · rw [g3]; exact r3 j hj

/-- BRK (R244). -/
theorem brk_result (s : State) :
    Entered 0xFFFE (pushedStatus s.cpu.p s.cfg.brkPushesB) (s.cpu.pc + 1) s.cpu s (runCycles cyclesBrk s) := by
  have h0 : After (QuietIdle s) s (incPc s.cpu) s.ram (advance ((idleRead s.cpu.pc s).onCpu incPc)) :=
    (((After.refl _ s).idle id).onCpu (f := incPc) (fun _ _ => rfl) (fun _ => rfl)).advance
  obtain ⟨x, hx, ha⟩ := after_entry h0 (b := fun s => s.cfg.brkPushesB) (bv := s.cfg.brkPushesB)
    (fun u hu => by rw [hu]) (vector := fun _ => irqVector) (vec := 0xFFFE) (fun _ _ => rfl) (by decide) (by decide)
    (close := id) (fun _ _ => rfl) (fun _ => rfl)
  exact entered_of ha hx rfl

end Sys2Proof.Machine
end

