-- ==== Sys2Proof/Laws/Control.lean ====
section
/-!
SUPPORT. Jumps, subroutine calls and branches.
-/

namespace Sys2Proof.Machine

/-- The sequence of JSR's first four cycles (R241): two bytes pushed. -/
theorem after_jsrLead (q : Prop) (s : State) :
    After q s { s.cpu with sp := s.cpu.sp - 2 }
      (Store.write unlisted (Store.write unlisted s.ram (256 + s.cpu.sp.toNat) (hiByte s.cpu.pc))
        (256 + (s.cpu.sp - 1).toNat) (loByte s.cpu.pc))
      (leadCycles jsrLead s) := by
  have h0 : After q s s.cpu s.ram (advance s) := (After.refl q s).advance
  set u := advance s with hu
  have h1 : After q s s.cpu s.ram (advance (idleRead (stackAddr u.cpu.sp) u)) :=
    (h0.idle fun _ => .inr (isMemory_stackAddr _)).advance
  set w := advance (idleRead (stackAddr u.cpu.sp) u) with hw
  have h2 := (h1.push (hiByte s.cpu.pc)).advance
  set x := advance (push (hiByte s.cpu.pc) w) with hx
  have h3 := (h2.push (loByte s.cpu.pc)).advance
  have e : leadCycles jsrLead s = advance (push (loByte s.cpu.pc) x) := by
    have p1 : w.cpu.pc = s.cpu.pc := h1.pc
    have p2 : x.cpu.pc = s.cpu.pc := h2.pc
    simp only [jsrLead, leadCycles, hold, idleAtStack, ← hu, ← hw, p1, ← hx, p2]
  have e2 : ∀ b : Byte, b - 1 - 1 = b - 2 := fun b => by bv_omega
  rw [e]
  simp only [e2] at h3
  exact h3

theorem jsrLead_more : ∀ c ∈ jsrLead, ∀ s, ∃ t, c s = .more t := by
  intro c hc s
  simp only [jsrLead, List.mem_cons, List.not_mem_nil, or_false] at hc
  rcases hc with rfl | rfl | rfl | rfl <;> exact ⟨_, rfl⟩

/-- JSR (R241). -/
theorem jsr_result (target : Word) (s : State) :
    let t := runCycles (cyclesJsr target) s
    CpuIs s t { s.cpu with sp := s.cpu.sp - 2, pc := target } ∧
      cpuPeek (pushedAt 0 s) t = hiByte s.cpu.pc ∧ cpuPeek (pushedAt 1 s) t = loByte s.cpu.pc ∧
      SameMemoryButStack 2 s t ∧ t.cfg = s.cfg ∧ t.cart = s.cart ∧ (isMemory s.cpu.pc = true → SameDevices s t) := by
  intro t
  have h := after_jsrLead (isMemory s.cpu.pc = true) s
  set w := leadCycles jsrLead s
  have hpc : w.cpu.pc = s.cpu.pc := h.pc
  have ht : t = retire ((readEffect w.cpu.pc w).onCpu fun c => { c with hi := hiByte target, pc := target }) := by
    show runCycles (jsrLead ++ [jsrLast target]) s = _
    rw [runCycles_append jsrLead_more]
    rfl
  have hr : t.ram = w.ram := by rw [ht]; simp [retire]
  have hk : t.cart = s.cart := by rw [ht]; simp [retire, h.cart]
  have n1 : (s.cpu.sp - 1).toNat ≠ s.cpu.sp.toNat := by bv_omega
  refine ⟨?_, ?_, ?_, sameMemoryButStack_of hk fun j hj => ?_, ?_, hk, fun hm => ?_⟩
  · refine cpuIs_of_follows (d := { w.cpu with hi := hiByte target, pc := target })
      ((h.cpu.map (f := fun c => { c with pc := target }) (fun _ _ => rfl) (fun _ => rfl)).trans ⟨rfl, id⟩) rfl ?_
    rw [ht]
    simp [retire]
  · rw [cpuPeek_stack, hr, h.ram, Store.read_write_ne (by simpa using n1.symm)]
    simp
  · rw [cpuPeek_stack, hr, h.ram]
    exact Store.read_write_same _ _ _
  · rw [hr, h.ram]
    have h0 : j ≠ 256 + s.cpu.sp.toNat := by simpa using hj 0 (by omega)
    have h1 : j ≠ 256 + (s.cpu.sp - 1).toNat := hj 1 (by omega)
    rw [Store.read_write_ne h1, Store.read_write_ne h0]
  · rw [ht]; simp [retire, h.cfg]
  · rw [ht, hpc, readEffect_memory hm]
    exact h.devices hm

/-! JMP. -/

theorem jmp_abs_result (w : Word) (s : State) :
    CpuIs s (runCycles (cyclesJmp (.abs w)) s) { s.cpu with pc := w } ∧ NoAccess s (runCycles (cyclesJmp (.abs w)) s) :=
  ⟨⟨rfl, id⟩, fun _ _ => rfl, ⟨rfl, rfl, rfl⟩, ⟨rfl, rfl, rfl, rfl⟩⟩

/-- Where the pointer's two bytes are read, nothing but time and the first read has acted (R240). -/
theorem pointerHigh_follows (ptr : Word) (s : State) :
    Follows s.cpu (pointerHighPoint ptr s).cpu ∧ (pointerHighPoint ptr s).cfg = s.cfg ∧
      (pointerHighPoint ptr s).ram = s.ram ∧ (pointerHighPoint ptr s).cart = s.cart := by
  unfold pointerHighPoint
  dsimp only
  have hl : Waits s (pointerLowPoint ptr s) := (waits_onCpu (f := fun c => { c with ptr := ptr }) rfl rfl).trans (waits_advance _)
  set l := pointerLowPoint ptr s
  refine ⟨?_, by simp [hl.cfg], by simp [hl.ram], by simp [hl.cart]⟩
  refine hl.follows.trans (Follows.trans ?_ (follows_advance _))
  show Follows l.cpu { (readEffect ptr l).cpu with ea := _ }
  rw [readEffect_cpu]
  exact ⟨rfl, id⟩

theorem jmp_ind_result (w : Word) (s : State) :
    let t := runCycles (cyclesJmp (.ind w)) s
    CpuIs s t { s.cpu with pc := pointerTarget w s } ∧ SameMemory s t ∧ SameStores s t ∧
      DevicesOf (readEffect (samePageNext w) (pointerHighPoint w s)) t := by
  intro t
  obtain ⟨hf, hc, hr, hk⟩ := pointerHigh_follows w s
  have lp : (pointerLowPoint w s).cpu.ptr = w := by simp [pointerLowPoint]
  have hp : (pointerHighPoint w s).cpu.ptr = w := by simp [pointerHighPoint, lp]
  have he : (pointerHighPoint w s).cpu.ea = zext16 (cpuPeek w (pointerLowPoint w s)) := by simp [pointerHighPoint]
  have ht : t = retire ((readEffect (samePageNext w) (pointerHighPoint w s)).onCpu fun c =>
      { c with pc := pointerTarget w s }) := by
    have e1 : advance (s.onCpu fun c => { c with ptr := w }) = pointerLowPoint w s := rfl
    have e2 : advance ((readEffect w (pointerLowPoint w s)).onCpu fun c =>
      { c with ea := zext16 (cpuPeek w (pointerLowPoint w s)) }) = pointerHighPoint w s := rfl
    show runCycles (cyclesJmp (.ind w)) s = _
    simp only [cyclesJmp, runCycles, e1, lp, e2, hp]
    congr 1
    unfold State.onCpu
    simp only [readEffect_cpu, he, loByte_zext16]
    rfl
  refine ⟨?_, ?_, ⟨?_, ?_, ?_⟩, ?_⟩
  · refine cpuIs_of_follows (hf.map (f := fun c => { c with pc := pointerTarget w s }) (fun _ _ => rfl) (fun _ => rfl)) rfl ?_
    rw [ht]; simp [retire]
  · exact sameMemory_of (by rw [ht]; simp [retire, hr]) (by rw [ht]; simp [retire, hk])
  · rw [ht]; simp [retire, hc]
  · rw [ht]; simp [retire, hr]
  · rw [ht]; simp [retire, hk]
  · rw [ht]; exact ⟨rfl, rfl, rfl, rfl⟩

/-! Branches. -/

/-- A branch (R152, R245): PC is the target if the condition holds, and nothing else changes. -/
theorem branch_result (cond : Byte → Bool) (off : Byte) (s : State) :
    let t := runCycles (branchCycles cond off) s
    CpuIs s t { s.cpu with pc := if cond s.cpu.p then branchTarget s.cpu.pc off else s.cpu.pc } ∧ JumpsOnly s t := by
  intro t
  set q := s.cfg.dummyAccesses = .none with hq
  have fin : ∀ {x : State} {c : Cpu}, After q s c s.ram x → t = retire x → c.nmiPending = s.cpu.nmiPending →
      CpuIs s t c ∧ JumpsOnly s t := by
    intro x c h e n
    obtain ⟨g1, g2, g3, g4⟩ := h.retired
    rw [e]
    exact ⟨h.retire n, sameMemory_of g3 g2, ⟨g1, g3, g2⟩, g4⟩
  cases hc : cond s.cpu.p with
  | false =>
    have e : t = retire (s.onCpu fun c => { c with taken := false }) := by
      show runCycles (branchCycles cond off) s = _
      simp only [branchCycles, runCycles, branchDecide, hc, Bool.false_eq_true, if_false]
    exact fin (c := s.cpu) (x := s.onCpu fun c => { c with taken := false }) ⟨rfl, rfl, rfl, ⟨rfl, id⟩, fun _ => ⟨rfl, rfl, rfl⟩⟩ e rfl
  | true =>
    set g := branchTarget s.cpu.pc off with hg
    set u := s.onCpu fun c => { c with taken := true, ea := g, cross := hiByte g != hiByte c.pc } with hu
    have h0 : After q s s.cpu s.ram u := ⟨rfl, rfl, rfl, ⟨rfl, id⟩, fun _ => ⟨rfl, rfl, rfl⟩⟩
    have h1 := (h0.advance.idle (a := (advance u).cpu.pc) .inl)
    set w := idleRead (advance u).cpu.pc (advance u) with hw
    have wea : w.cpu.ea = g := by simp [hw, hu]
    have wx : w.cpu.cross = (hiByte g != hiByte s.cpu.pc) := by simp [hw, hu]
    cases hx : (hiByte g != hiByte s.cpu.pc) with
    | false =>
      have e : t = retire (w.onCpu fun c => { c with pc := g }) := by
        show runCycles (branchCycles cond off) s = _
        simp only [branchCycles, runCycles, branchDecide, hc, if_true, ← hg, ← hu, branchTake, ← hw, wx, hx,
          Bool.false_eq_true, if_false]
        rw [← wea]
        rfl
      exact fin (h1.onCpu (f := fun c => { c with pc := g }) (fun _ _ => rfl) (fun _ => rfl)) e rfl
    | true =>
      have h2 := (h1.advance.idle (a := mkWord (hiByte (advance w).cpu.pc) (loByte (advance w).cpu.ea)) .inl)
      set x := idleRead (mkWord (hiByte (advance w).cpu.pc) (loByte (advance w).cpu.ea)) (advance w) with hxd
      have xea : x.cpu.ea = g := by simp [hxd, wea]
      have e : t = retire (x.onCpu fun c => { c with pc := g }) := by
        show runCycles (branchCycles cond off) s = _
        simp only [branchCycles, runCycles, branchDecide, hc, if_true, ← hg, ← hu, branchTake, ← hw, wx, hx, branchFix,
          ← hxd]
        rw [← xea]
        rfl
      exact fin (h2.onCpu (f := fun c => { c with pc := g }) (fun _ _ => rfl) (fun _ => rfl)) e rfl

/-- The branch target is the sum with the signed displacement (R245). -/
theorem branchTarget_eq (pc : Word) (off : Byte) : branchTarget pc off = BitVec.ofInt 16 (pc.toNat + off.toInt) := by
  unfold branchTarget sext16
  apply BitVec.eq_of_toInt_eq
  rw [BitVec.toInt_add, BitVec.toInt_ofInt, BitVec.toInt_signExtend_of_le (by omega), BitVec.toInt_eq_toNat_bmod pc]
  simp

end Sys2Proof.Machine
end

