-- ==== Sys2Proof/Laws/Decode.lean ====
section
/-!
SUPPORT. The cells of the opcode map: what each makes of its operand bytes, and that encoding gives them back.
-/

namespace Sys2Proof

open Machine

/-- What a cell of the opcode map does with the operand bytes: the mode and the category do not depend on them, bytes
the mode has not are not looked at, the result is well-formed, and its encoding is the opcode with those bytes. -/
structure CellOk (op : Byte) (f : Form) : Prop where
  mode : ∀ a b, (f a b).mode = (f 0 0).mode
  category : ∀ a b, (f a b).category = (f 0 0).category
  legal : (f 0 0).category ≠ .halt
  opcodes : ∀ a b, (f a b).opcodes = (f 0 0).opcodes
  wf : ∀ a b, WellFormed (f a b) = true
  none : (f 0 0).mode.operandBytes = 0 → ∀ a b, f a b = f 0 0
  one : (f 0 0).mode.operandBytes = 1 → ∀ a b, f a b = f a 0
  bytes : ∀ a b, encode (f a b) = op :: [a, b].take (f 0 0).mode.operandBytes

theorem cellsOk_of {rows : List (Byte × Form)} (h : ∀ e ∈ rows, CellOk e.1 e.2) {op : Byte} {f : Form}
    (hl : lookupOpcode op rows = some f) : CellOk op f := by
  induction rows with
  | nil => cases hl
  | cons e rest ih =>
    obtain ⟨k, g⟩ := e
    unfold lookupOpcode at hl
    split at hl
    next hk => cases hl; exact hk ▸ h (k, f) (by simp)
    · exact ih (fun e he => h e (by simp [he])) hl

theorem forall_cells_cons {p : Byte × Form → Prop} {e : Byte × Form} {rest : List (Byte × Form)} (h : p e)
    (hr : ∀ x ∈ rest, p x) : ∀ x ∈ e :: rest, p x := by
  intro x hx
  rcases List.mem_cons.mp hx with rfl | hx
  · exact h
  · exact hr x hx

theorem forall_cells_nil {p : Byte × Form → Prop} : ∀ x ∈ ([] : List (Byte × Form)), p x := nofun

theorem operandWord_bytes (op hi lo : Byte) :
    [op, loByte (mkWord hi lo), hiByte (mkWord hi lo)] = [op, lo, hi] := by rw [loByte_mkWord, hiByte_mkWord]

/-! The cells of R103's map, row by row. -/

theorem opcodeRow0_ok : ∀ e ∈ opcodeRow0, CellOk e.1 e.2 := by
  unfold opcodeRow0
  repeat' apply forall_cells_cons
  all_goals first
    | exact forall_cells_nil
    | refine ⟨fun _ _ => rfl, fun _ _ => rfl, by decide, fun _ _ => rfl, fun _ _ => rfl, ?_, ?_, ?_⟩
  all_goals first
    | exact fun _ _ _ => rfl
    | exact fun _ _ => rfl
    | exact fun h => absurd h (by decide)
    | exact fun a b => operandWord_bytes _ b a

theorem opcodeRow1_ok : ∀ e ∈ opcodeRow1, CellOk e.1 e.2 := by
  unfold opcodeRow1
  repeat' apply forall_cells_cons
  all_goals first
    | exact forall_cells_nil
    | refine ⟨fun _ _ => rfl, fun _ _ => rfl, by decide, fun _ _ => rfl, fun _ _ => rfl, ?_, ?_, ?_⟩
  all_goals first
    | exact fun _ _ _ => rfl
    | exact fun _ _ => rfl
    | exact fun h => absurd h (by decide)
    | exact fun a b => operandWord_bytes _ b a

theorem opcodeRow2_ok : ∀ e ∈ opcodeRow2, CellOk e.1 e.2 := by
  unfold opcodeRow2
  repeat' apply forall_cells_cons
  all_goals first
    | exact forall_cells_nil
    | refine ⟨fun _ _ => rfl, fun _ _ => rfl, by decide, fun _ _ => rfl, fun _ _ => rfl, ?_, ?_, ?_⟩
  all_goals first
    | exact fun _ _ _ => rfl
    | exact fun _ _ => rfl
    | exact fun h => absurd h (by decide)
    | exact fun a b => operandWord_bytes _ b a

theorem opcodeRow3_ok : ∀ e ∈ opcodeRow3, CellOk e.1 e.2 := by
  unfold opcodeRow3
  repeat' apply forall_cells_cons
  all_goals first
    | exact forall_cells_nil
    | refine ⟨fun _ _ => rfl, fun _ _ => rfl, by decide, fun _ _ => rfl, fun _ _ => rfl, ?_, ?_, ?_⟩
  all_goals first
    | exact fun _ _ _ => rfl
    | exact fun _ _ => rfl
    | exact fun h => absurd h (by decide)
    | exact fun a b => operandWord_bytes _ b a

theorem opcodeRow4_ok : ∀ e ∈ opcodeRow4, CellOk e.1 e.2 := by
  unfold opcodeRow4
  repeat' apply forall_cells_cons
  all_goals first
    | exact forall_cells_nil
    | refine ⟨fun _ _ => rfl, fun _ _ => rfl, by decide, fun _ _ => rfl, fun _ _ => rfl, ?_, ?_, ?_⟩
  all_goals first
    | exact fun _ _ _ => rfl
    | exact fun _ _ => rfl
    | exact fun h => absurd h (by decide)
    | exact fun a b => operandWord_bytes _ b a

theorem opcodeRow5_ok : ∀ e ∈ opcodeRow5, CellOk e.1 e.2 := by
  unfold opcodeRow5
  repeat' apply forall_cells_cons
  all_goals first
    | exact forall_cells_nil
    | refine ⟨fun _ _ => rfl, fun _ _ => rfl, by decide, fun _ _ => rfl, fun _ _ => rfl, ?_, ?_, ?_⟩
  all_goals first
    | exact fun _ _ _ => rfl
    | exact fun _ _ => rfl
    | exact fun h => absurd h (by decide)
    | exact fun a b => operandWord_bytes _ b a

theorem opcodeRow6_ok : ∀ e ∈ opcodeRow6, CellOk e.1 e.2 := by
  unfold opcodeRow6
  repeat' apply forall_cells_cons
  all_goals first
    | exact forall_cells_nil
    | refine ⟨fun _ _ => rfl, fun _ _ => rfl, by decide, fun _ _ => rfl, fun _ _ => rfl, ?_, ?_, ?_⟩
  all_goals first
    | exact fun _ _ _ => rfl
    | exact fun _ _ => rfl
    | exact fun h => absurd h (by decide)
    | exact fun a b => operandWord_bytes _ b a

theorem opcodeRow7_ok : ∀ e ∈ opcodeRow7, CellOk e.1 e.2 := by
  unfold opcodeRow7
  repeat' apply forall_cells_cons
  all_goals first
    | exact forall_cells_nil
    | refine ⟨fun _ _ => rfl, fun _ _ => rfl, by decide, fun _ _ => rfl, fun _ _ => rfl, ?_, ?_, ?_⟩
  all_goals first
    | exact fun _ _ _ => rfl
    | exact fun _ _ => rfl
    | exact fun h => absurd h (by decide)
    | exact fun a b => operandWord_bytes _ b a

theorem opcodeRow8_ok : ∀ e ∈ opcodeRow8, CellOk e.1 e.2 := by
  unfold opcodeRow8
  repeat' apply forall_cells_cons
  all_goals first
    | exact forall_cells_nil
    | refine ⟨fun _ _ => rfl, fun _ _ => rfl, by decide, fun _ _ => rfl, fun _ _ => rfl, ?_, ?_, ?_⟩
  all_goals first
    | exact fun _ _ _ => rfl
    | exact fun _ _ => rfl
    | exact fun h => absurd h (by decide)
    | exact fun a b => operandWord_bytes _ b a

theorem opcodeRow9_ok : ∀ e ∈ opcodeRow9, CellOk e.1 e.2 := by
  unfold opcodeRow9
  repeat' apply forall_cells_cons
  all_goals first
    | exact forall_cells_nil
    | refine ⟨fun _ _ => rfl, fun _ _ => rfl, by decide, fun _ _ => rfl, fun _ _ => rfl, ?_, ?_, ?_⟩
  all_goals first
    | exact fun _ _ _ => rfl
    | exact fun _ _ => rfl
    | exact fun h => absurd h (by decide)
    | exact fun a b => operandWord_bytes _ b a

theorem opcodeRowA_ok : ∀ e ∈ opcodeRowA, CellOk e.1 e.2 := by
  unfold opcodeRowA
  repeat' apply forall_cells_cons
  all_goals first
    | exact forall_cells_nil
    | refine ⟨fun _ _ => rfl, fun _ _ => rfl, by decide, fun _ _ => rfl, fun _ _ => rfl, ?_, ?_, ?_⟩
  all_goals first
    | exact fun _ _ _ => rfl
    | exact fun _ _ => rfl
    | exact fun h => absurd h (by decide)
    | exact fun a b => operandWord_bytes _ b a

theorem opcodeRowB_ok : ∀ e ∈ opcodeRowB, CellOk e.1 e.2 := by
  unfold opcodeRowB
  repeat' apply forall_cells_cons
  all_goals first
    | exact forall_cells_nil
    | refine ⟨fun _ _ => rfl, fun _ _ => rfl, by decide, fun _ _ => rfl, fun _ _ => rfl, ?_, ?_, ?_⟩
  all_goals first
    | exact fun _ _ _ => rfl
    | exact fun _ _ => rfl
    | exact fun h => absurd h (by decide)
    | exact fun a b => operandWord_bytes _ b a

theorem opcodeRowC_ok : ∀ e ∈ opcodeRowC, CellOk e.1 e.2 := by
  unfold opcodeRowC
  repeat' apply forall_cells_cons
  all_goals first
    | exact forall_cells_nil
    | refine ⟨fun _ _ => rfl, fun _ _ => rfl, by decide, fun _ _ => rfl, fun _ _ => rfl, ?_, ?_, ?_⟩
  all_goals first
    | exact fun _ _ _ => rfl
    | exact fun _ _ => rfl
    | exact fun h => absurd h (by decide)
    | exact fun a b => operandWord_bytes _ b a

theorem opcodeRowD_ok : ∀ e ∈ opcodeRowD, CellOk e.1 e.2 := by
  unfold opcodeRowD
  repeat' apply forall_cells_cons
  all_goals first
    | exact forall_cells_nil
    | refine ⟨fun _ _ => rfl, fun _ _ => rfl, by decide, fun _ _ => rfl, fun _ _ => rfl, ?_, ?_, ?_⟩
  all_goals first
    | exact fun _ _ _ => rfl
    | exact fun _ _ => rfl
    | exact fun h => absurd h (by decide)
    | exact fun a b => operandWord_bytes _ b a

theorem opcodeRowE_ok : ∀ e ∈ opcodeRowE, CellOk e.1 e.2 := by
  unfold opcodeRowE
  repeat' apply forall_cells_cons
  all_goals first
    | exact forall_cells_nil
    | refine ⟨fun _ _ => rfl, fun _ _ => rfl, by decide, fun _ _ => rfl, fun _ _ => rfl, ?_, ?_, ?_⟩
  all_goals first
    | exact fun _ _ _ => rfl
    | exact fun _ _ => rfl
    | exact fun h => absurd h (by decide)
    | exact fun a b => operandWord_bytes _ b a

theorem opcodeRowF_ok : ∀ e ∈ opcodeRowF, CellOk e.1 e.2 := by
  unfold opcodeRowF
  repeat' apply forall_cells_cons
  all_goals first
    | exact forall_cells_nil
    | refine ⟨fun _ _ => rfl, fun _ _ => rfl, by decide, fun _ _ => rfl, fun _ _ => rfl, ?_, ?_, ?_⟩
  all_goals first
    | exact fun _ _ _ => rfl
    | exact fun _ _ => rfl
    | exact fun h => absurd h (by decide)
    | exact fun a b => operandWord_bytes _ b a

/-- Every cell of R103's map. -/
theorem opcodeMap_ok : ∀ e ∈ opcodeMap, CellOk e.1 e.2 := by
  intro e he
  simp only [opcodeMap, List.mem_append] at he
  rcases he with ((((((((((((((h | h) | h) | h) | h) | h) | h) | h) | h) | h) | h) | h) | h) | h) | h) | h
  · exact opcodeRow0_ok e h
  · exact opcodeRow1_ok e h
  · exact opcodeRow2_ok e h
  · exact opcodeRow3_ok e h
  · exact opcodeRow4_ok e h
  · exact opcodeRow5_ok e h
  · exact opcodeRow6_ok e h
  · exact opcodeRow7_ok e h
  · exact opcodeRow8_ok e h
  · exact opcodeRow9_ok e h
  · exact opcodeRowA_ok e h
  · exact opcodeRowB_ok e h
  · exact opcodeRowC_ok e h
  · exact opcodeRowD_ok e h
  · exact opcodeRowE_ok e h
  · exact opcodeRowF_ok e h

/-- The cell of a legal opcode. -/
theorem cellOk {op : Byte} {f : Form} (h : lookupOpcode op opcodeMap = some f) : CellOk op f := cellsOk_of opcodeMap_ok h

theorem instrOf_legal {op : Byte} (h : isIllegal op = false) : ∃ f, CellOk op f ∧ ∀ a b, instrOf op a b = f a b := by
  unfold isIllegal at h
  cases hl : lookupOpcode op opcodeMap with
  | none => rw [hl] at h; cases h
  | some f => exact ⟨f, cellOk hl, fun a b => by simp [instrOf, hl]⟩

theorem instrOf_illegal {op : Byte} (h : isIllegal op = true) (a b : Byte) : instrOf op a b = .illegal op := by
  unfold isIllegal at h
  cases hl : lookupOpcode op opcodeMap with
  | none => simp [instrOf, hl]
  | some f => rw [hl] at h; cases h

/-- The map's illegal bytes are R104's. -/
theorem isIllegal_iff (op : Byte) : isIllegal op = true ↔ op ∈ illegalOpcodes := by revert op; decide +kernel

end Sys2Proof
end

