-- ==== Sys2Proof/Laws/Flags.lean ====
section
/-!
SUPPORT. Fields of a word, and the flag computations written with masks.
-/

namespace Sys2Proof.Machine

/-- Everything a field write does, bit by bit. -/
theorem getLsbD_setField {n len : Nat} (v : BitVec n) (lo : Nat) (x : BitVec len) {j : Nat} (hj : j < n) :
    (setField v lo len x).getLsbD j = if lo ≤ j ∧ j < lo + len then x.getLsbD (j - lo) else v.getLsbD j := by
  unfold setField
  simp only [BitVec.getLsbD_or, BitVec.getLsbD_and, BitVec.getLsbD_not, BitVec.getLsbD_shiftLeft,
    BitVec.getLsbD_setWidth, BitVec.getLsbD_allOnes, hj, decide_true, Bool.true_and]
  by_cases h1 : j < lo
  · have : ¬ (lo ≤ j ∧ j < lo + len) := by omega
    simp [h1, this]
  · by_cases h2 : j < lo + len
    · have h3 : j - lo < n := by omega
      have h4 : j - lo < len := by omega
      have h5 : lo ≤ j ∧ j < lo + len := by omega
      simp [h1, h3, h4, h5]
    · have h4 : ¬ j - lo < len := by omega
      have h5 : ¬ (lo ≤ j ∧ j < lo + len) := by omega
      have h6 : x.getLsbD (j - lo) = false := BitVec.getLsbD_of_ge _ _ (by omega)
      simp [h1, h4, h5, h6]

/-- Everything a bit write does. -/
theorem getLsbD_setBitTo {n : Nat} (v : BitVec n) (i : Nat) (b : Bool) {j : Nat} (hj : j < n) :
    (setBitTo v i b).getLsbD j = if j = i then b else v.getLsbD j := by
  unfold setBitTo
  rw [getLsbD_setField v i _ hj]
  by_cases h : j = i
  · subst h
    cases b <;> simp [ofBit]
  · have : ¬ (i ≤ j ∧ j < i + 1) := by omega
    rw [if_neg h, if_neg this]

/-- Bytes are equal when their eight bits are. -/
theorem byte_ext {a b : Byte} (h : ∀ j, j < 8 → a.getLsbD j = b.getLsbD j) : a = b :=
  BitVec.eq_of_getLsbD_eq h

theorem lt_eight {j : Nat} (h : j < 8) : j = 0 ∨ j = 1 ∨ j = 2 ∨ j = 3 ∨ j = 4 ∨ j = 5 ∨ j = 6 ∨ j = 7 := by omega

theorem zBit_bits (v : Byte) (j : Nat) : (zBit v).getLsbD j = (decide (j = 1) && (v == 0)) := by
  unfold zBit
  by_cases h : v = 0
  · rw [if_pos h]
    by_cases hj : j < 8
    · rcases lt_eight hj with rfl | rfl | rfl | rfl | rfl | rfl | rfl | rfl <;> simp [h]
    · rw [BitVec.getLsbD_of_ge _ _ (by omega)]
      have : j ≠ 1 := by omega
      simp [this]
  · rw [if_neg h, beq_false_of_ne h, Bool.and_false]
    exact BitVec.getLsbD_zero

/-- `setNZ` (R6) changes N and Z alone. -/
theorem setNZ_eq (p v : Byte) : setNZ p v = nzOf p v := by
  refine byte_ext fun j hj => ?_
  unfold setNZ setFlag nzOf nBit
  rw [getLsbD_setBitTo _ _ _ hj, getLsbD_setBitTo _ _ _ hj]
  simp only [BitVec.getLsbD_or, BitVec.getLsbD_and, zBit_bits]
  rcases lt_eight hj with rfl | rfl | rfl | rfl | rfl | rfl | rfl | rfl <;> simp [flagN, flagZ, bitAt]

theorem shiftFlags_eq (p r : Byte) (c : Bool) : shiftFlags p r c = nzcOf p r c := by
  refine byte_ext fun j hj => ?_
  unfold shiftFlags setNZ setFlag nzcOf nBit
  rw [getLsbD_setBitTo _ _ _ hj, getLsbD_setBitTo _ _ _ hj, getLsbD_setBitTo _ _ _ hj]
  simp only [BitVec.getLsbD_or, BitVec.getLsbD_and, zBit_bits]
  rcases lt_eight hj with rfl | rfl | rfl | rfl | rfl | rfl | rfl | rfl <;>
    cases c <;> simp [flagN, flagZ, flagC, bitAt, cBit]

/-- A byte masked with one bit is zero when that bit is 0. -/
theorem and_bit (b m : Byte) {i : Nat} (hi : i < 8) (hm : ∀ j, j < 8 → m.getLsbD j = decide (j = i)) :
    b &&& m = 0 ↔ b.getLsbD i = false := by
  constructor
  · intro h
    have := congrArg (fun c : Byte => c.getLsbD i) h
    rw [BitVec.getLsbD_and, hm i hi, decide_eq_true rfl, Bool.and_true] at this
    exact this.trans BitVec.getLsbD_zero
  · intro h
    refine byte_ext fun j hj => ?_
    rw [BitVec.getLsbD_and, hm j hj]
    by_cases g : j = i
    · rw [g, h]; exact (Bool.false_and _).trans BitVec.getLsbD_zero.symm
    · rw [decide_eq_false g, Bool.and_false]; exact BitVec.getLsbD_zero.symm

theorem carryIn_eq (p : Byte) : (ofBit (flag p flagC) 9).toNat = carryIn p := by
  have h := and_bit p 0x01 (i := 0) (by decide) (by decide)
  unfold carryIn flag flagC bitAt ofBit
  cases hb : p.getLsbD 0 with
  | false => rw [if_pos (h.mpr hb)]; rfl
  | true =>
    have hn : ¬ (p &&& 0x01 = 0) := fun g => by rw [h.mp g] at hb; cases hb
    rw [if_neg hn]
    rfl

theorem adcSum_toNat (p a m : Byte) : (adcSum p a m).toNat = exactSum p a m := by
  have ha := a.isLt
  have hm := m.isLt
  have hc : carryIn p ≤ 1 := by unfold carryIn; split <;> omega
  unfold adcSum exactSum
  rw [BitVec.toNat_add, BitVec.toNat_add, carryIn_eq]
  simp only [BitVec.toNat_setWidth]
  omega

/-- ADC's result is the exact sum, narrowed (R200). -/
theorem adcResult_eq (p a m : Byte) : adcResult p a m = sumByte p a m := by
  apply BitVec.eq_of_toNat_eq
  simp only [adcResult, sumByte, BitVec.toNat_setWidth, adcSum_toNat, BitVec.toNat_ofNat]

theorem adcCarry_eq (p a m : Byte) : bitAt (adcSum p a m) 8 = decide (256 ≤ exactSum p a m) := by
  have h := (adcSum p a m).isLt
  unfold bitAt
  rw [BitVec.getLsbD, Nat.testBit_eq_decide_div_mod_eq, ← adcSum_toNat]
  rw [decide_eq_decide]
  omega

theorem bit7_ne (b : Byte) : (b &&& 0x80 != 0) = b.getLsbD 7 := by
  have h := and_bit b 0x80 (i := 7) (by decide) (by decide)
  cases hb : b.getLsbD 7 with
  | false => rw [h.mpr hb]; rfl
  | true => exact bne_iff_ne.mpr fun g => by rw [h.mp g] at hb; cases hb

/-- ADC's flags (R200). -/
theorem adcFlags_eq (p a m : Byte) : adcFlags p a m = sumStatus p a m := by
  refine byte_ext fun j hj => ?_
  unfold adcFlags setNZ setFlag sumStatus nBit
  simp only [adcResult_eq, adcCarry_eq, bit7_ne]
  generalize decide (256 ≤ exactSum p a m) = c
  generalize (a ^^^ sumByte p a m) &&& (m ^^^ sumByte p a m) = o
  rw [getLsbD_setBitTo _ _ _ hj, getLsbD_setBitTo _ _ _ hj, getLsbD_setBitTo _ _ _ hj, getLsbD_setBitTo _ _ _ hj]
  simp only [BitVec.getLsbD_or, BitVec.getLsbD_and, zBit_bits]
  have hv : bitAt o 7 = o.getLsbD 7 := rfl
  rw [hv]
  cases c <;> cases o.getLsbD 7 <;>
    rcases lt_eight hj with rfl | rfl | rfl | rfl | rfl | rfl | rfl | rfl <;>
      simp [flagN, flagZ, flagC, flagV, bitAt, cBit, vBit]

theorem compareFlags_eq (p r m : Byte) : compareFlags p r m = compareStatus p r m := by
  have hz : (r == m) = (r - m == 0) := by
    by_cases h : r = m
    · subst h; simp
    · have : r - m ≠ 0 := fun g => h (by bv_omega)
      rw [beq_false_of_ne h, beq_false_of_ne this]
  have hc : decide (m ≤ r) = decide (m.toNat ≤ r.toNat) := rfl
  refine byte_ext fun j hj => ?_
  unfold compareFlags setFlag compareStatus nBit
  rw [hz, hc, getLsbD_setBitTo _ _ _ hj, getLsbD_setBitTo _ _ _ hj, getLsbD_setBitTo _ _ _ hj]
  simp only [BitVec.getLsbD_or, BitVec.getLsbD_and, zBit_bits]
  generalize decide (m.toNat ≤ r.toNat) = c
  cases c <;> rcases lt_eight hj with rfl | rfl | rfl | rfl | rfl | rfl | rfl | rfl <;>
    simp [flagN, flagZ, flagC, bitAt, cBit]

theorem bitFlags_eq (p a m : Byte) : bitFlags p a m = bitStatus p a m := by
  refine byte_ext fun j hj => ?_
  unfold bitFlags setFlag bitStatus
  rw [getLsbD_setBitTo _ _ _ hj, getLsbD_setBitTo _ _ _ hj, getLsbD_setBitTo _ _ _ hj]
  simp only [BitVec.getLsbD_or, BitVec.getLsbD_and, zBit_bits]
  rcases lt_eight hj with rfl | rfl | rfl | rfl | rfl | rfl | rfl | rfl <;> simp [flagN, flagZ, flagV, bitAt]

end Sys2Proof.Machine
end

