-- ==== Sys2Proof/Laws/Invariant.lean ====
section
/-!
SUPPORT. The invariant's parts, and that every operation keeps them.
-/

namespace Sys2Proof.Machine

/-! The PPU's part. -/

theorem MemOk.write {w : Nat} {d : BitVec w} {n : Nat} {m : Store w} (h : MemOk d n m) {a : Nat} (ha : a < n)
    (v : BitVec w) : MemOk d n (Store.write d m a v) := ⟨Store.wf_write a v h.1, Store.within_write h.2 ha v⟩

/-- The PPU's share of the invariant. -/
structure PpuInv (p : Ppu) : Prop where
  oam : MemOk unlisted 256 p.oam
  pal : MemOk unlisted 32 p.pal
  ciram : MemOk unlisted 2048 p.ciram
  sec : MemOk secUnlisted 32 p.secOam
  fb : MemOk fbUnlisted 61440 p.fb
  lineLow : -1 ≤ p.scanline
  lineHigh : p.scanline ≤ 260
  dot : p.cycle ≤ 340
  secCount : p.secCount ≤ 8
  sprCount : p.sprCount ≤ 8
  status : p.status &&& 0x1F = 0
  ready : p.ready = false

theorem PpuInv.whenever {p : Ppu} (h : PpuInv p) {b : Bool} {f : Ppu → Ppu} (hf : ∀ q, b = true → PpuInv q → PpuInv (f q)) :
    PpuInv (p.whenever b f) := by
  unfold Ppu.whenever
  split
  next hb => exact hf p hb h
  · exact h

/-- A status bit above the fifth may be written. -/
theorem status_setBit {v : Byte} (h : v &&& 0x1F = 0) (b : Bool) :
    (∀ i, 5 ≤ i → i < 8 → setBitTo v i b &&& 0x1F = 0) ∧ setField v 5 3 0 &&& 0x1F = 0 := by
  constructor
  · intro i h5 h8
    refine byte_ext fun j hj => ?_
    have hv := congrArg (fun c : Byte => c.getLsbD j) h
    simp only [BitVec.getLsbD_and] at hv
    rw [BitVec.getLsbD_and, getLsbD_setBitTo _ _ _ hj]
    split
    next e =>
      subst e
      rcases lt_eight hj with rfl | rfl | rfl | rfl | rfl | rfl | rfl | rfl <;> simp at h5 ⊢
    · exact hv
  · refine byte_ext fun j hj => ?_
    have hv := congrArg (fun c : Byte => c.getLsbD j) h
    simp only [BitVec.getLsbD_and] at hv
    rw [BitVec.getLsbD_and, getLsbD_setField _ _ _ hj]
    split
    · simp
    · exact hv

theorem PpuInv.withStatus {p : Ppu} (h : PpuInv p) {v : Byte} (hv : v &&& 0x1F = 0) : PpuInv { p with status := v } :=
  ⟨h.oam, h.pal, h.ciram, h.sec, h.fb, h.lineLow, h.lineHigh, h.dot, h.secCount, h.sprCount, hv, h.ready⟩

theorem PpuInv.vblankPoint {p : Ppu} (h : PpuInv p) : PpuInv p.vblankPoint := by
  unfold Ppu.vblankPoint
  split
  · exact ⟨h.oam, h.pal, h.ciram, h.sec, h.fb, h.lineLow, h.lineHigh, h.dot, h.secCount, h.sprCount, h.status, h.ready⟩
  · exact ⟨h.oam, h.pal, h.ciram, h.sec, h.fb, h.lineLow, h.lineHigh, h.dot, h.secCount, h.sprCount,
      (status_setBit h.status true).1 7 (by omega) (by omega), h.ready⟩

theorem PpuInv.incX {p : Ppu} (h : PpuInv p) : PpuInv p.incX := by
  unfold Ppu.incX
  dsimp only
  split <;>
    exact ⟨h.oam, h.pal, h.ciram, h.sec, h.fb, h.lineLow, h.lineHigh, h.dot, h.secCount, h.sprCount, h.status, h.ready⟩

theorem PpuInv.incY {p : Ppu} (h : PpuInv p) : PpuInv p.incY := by
  unfold Ppu.incY
  dsimp only
  split_ifs <;>
    exact ⟨h.oam, h.pal, h.ciram, h.sec, h.fb, h.lineLow, h.lineHigh, h.dot, h.secCount, h.sprCount, h.status, h.ready⟩

theorem PpuInv.bgPhase {p : Ppu} (h : PpuInv p) (k : Cartridge) (c : Nat) : PpuInv (p.bgShift.bgPhase k c) := by
  have hs : PpuInv p.bgShift :=
    ⟨h.oam, h.pal, h.ciram, h.sec, h.fb, h.lineLow, h.lineHigh, h.dot, h.secCount, h.sprCount, h.status, h.ready⟩
  unfold Ppu.bgPhase
  split
  all_goals first
    | exact PpuInv.incX hs
    | exact hs
    | exact ⟨h.oam, h.pal, h.ciram, h.sec, h.fb, h.lineLow, h.lineHigh, h.dot, h.secCount, h.sprCount, h.status, h.ready⟩

theorem PpuInv.evaluateSprite {p : Ppu} (h : PpuInv p) (s : Int) (n : Nat) : PpuInv (p.evaluateSprite s n) := by
  unfold Ppu.evaluateSprite
  dsimp only
  split_ifs with h1 h2
  · refine ⟨h.oam, h.pal, h.ciram, ?_, h.fb, h.lineLow, h.lineHigh, h.dot, ?_, h.sprCount, h.status, h.ready⟩
    · exact (((h.sec.write (by omega) _).write (by omega) _).write (by omega) _).write (by omega) _
    · exact Nat.succ_le_of_lt h2
  · exact h.withStatus ((status_setBit h.status true).1 5 (by omega) (by omega))
  · exact h

theorem PpuInv.spriteEvaluate {p : Ppu} (h : PpuInv p) (s : Int) : PpuInv (p.spriteEvaluate s) := by
  unfold Ppu.spriteEvaluate
  induction List.range 64 generalizing p with
  | nil => exact h
  | cons n rest ih => exact ih (h.evaluateSprite s n)

theorem PpuInv.pixelOutput {p : Ppu} (h : PpuInv p) (k : Cartridge) {s : Int} (h0 : 0 ≤ s) (h1 : s ≤ 239) {x : Nat}
    (hx : x < 256) : PpuInv (p.pixelOutput k s x) := by
  refine ⟨h.oam, h.pal, h.ciram, h.sec, h.fb.write (by omega) _, h.lineLow, h.lineHigh, h.dot, h.secCount, h.sprCount, ?_,
    h.ready⟩
  show (if _ then setBitTo p.status 6 true else p.status) &&& 0x1F = 0
  split
  · exact (status_setBit h.status true).1 6 (by omega) (by omega)
  · exact h.status

theorem PpuInv.render {p : Ppu} (h : PpuInv p) (k : Cartridge) {s : Int} (hs : s ≤ 239) (c : Nat) :
    PpuInv (p.render k s c) := by
  unfold Ppu.render
  refine PpuInv.whenever (PpuInv.whenever (PpuInv.whenever (PpuInv.whenever (PpuInv.whenever (PpuInv.whenever
    (PpuInv.whenever (PpuInv.whenever h ?_) ?_) ?_) ?_) ?_) ?_) ?_) ?_
  · exact fun q _ g => g.bgPhase k c
  · exact fun q _ g => g.incY
  · exact fun q _ g =>
      ⟨g.oam, g.pal, g.ciram, g.sec, g.fb, g.lineLow, g.lineHigh, g.dot, g.secCount, g.sprCount, g.status, g.ready⟩
  · exact fun q _ g =>
      ⟨g.oam, g.pal, g.ciram, g.sec, g.fb, g.lineLow, g.lineHigh, g.dot, g.secCount, g.sprCount, g.status, g.ready⟩
  · intro q hb g
    simp only [decide_eq_true_eq] at hb
    exact g.pixelOutput k hb.1 hs (by omega)
  · exact fun q _ g =>
      ⟨g.oam, g.pal, g.ciram, ⟨rfl, rfl⟩, g.fb, g.lineLow, g.lineHigh, g.dot, Nat.zero_le _, g.sprCount, g.status, g.ready⟩
  · exact fun q _ g => g.spriteEvaluate s
  · exact fun q _ g =>
      ⟨g.oam, g.pal, g.ciram, g.sec, g.fb, g.lineLow, g.lineHigh, g.dot, g.secCount, g.secCount, g.status, g.ready⟩

theorem PpuInv.endOfCycle {p : Ppu} (h : PpuInv p) {s : Int} (h0 : -1 ≤ s) (c : Nat) :
    PpuInv (p.endOfCycle s c) := by
  unfold Ppu.endOfCycle
  split_ifs with h1 h2
  · exact ⟨h.oam, h.pal, h.ciram, h.sec, h.fb, Int.le_refl _, by show (-1 : Int) ≤ 260; omega, Nat.zero_le _, h.secCount, h.sprCount, h.status, h.ready⟩
  · exact ⟨h.oam, h.pal, h.ciram, h.sec, h.fb, by show -1 ≤ s + 1; omega, by show s + 1 ≤ 260; omega, Nat.zero_le _, h.secCount, h.sprCount, h.status, h.ready⟩
  · exact ⟨h.oam, h.pal, h.ciram, h.sec, h.fb, h.lineLow, h.lineHigh, by show c + 1 ≤ 340; omega, h.secCount, h.sprCount, h.status, h.ready⟩

/-- A PPU step keeps the PPU's share of the invariant. -/
theorem PpuInv.step {p : Ppu} (h : PpuInv p) (k : Cartridge) : PpuInv (p.step k) := by
  unfold Ppu.step
  dsimp only
  have h0 : PpuInv ({ p with lineReady := false, frameReady := false } : Ppu) :=
    ⟨h.oam, h.pal, h.ciram, h.sec, h.fb, h.lineLow, h.lineHigh, h.dot, h.secCount, h.sprCount, h.status, h.ready⟩
  have h1 : PpuInv ({ p with lineReady := false, frameReady := false } : Ppu).oddFrameSkip := by
    unfold Ppu.oddFrameSkip
    split_ifs
    · exact ⟨h.oam, h.pal, h.ciram, h.sec, h.fb, h.lineLow, h.lineHigh, by show 1 ≤ 340; omega, h.secCount, h.sprCount, h.status, h.ready⟩
    · exact h0
  refine PpuInv.endOfCycle (PpuInv.whenever (PpuInv.whenever (PpuInv.whenever h1 ?_) ?_) ?_) h1.lineLow _
  · exact fun q _ g => g.withStatus (status_setBit g.status true).2
  · exact fun q _ g => g.vblankPoint
  · intro q hb g
    simp only [Bool.and_eq_true, decide_eq_true_eq] at hb
    exact g.render k hb.2.2 _

/-! The registers' part. -/

theorem ntMirror_lt (mode : NtMode) (n : Nat) : ntMirror mode n < 2048 := by
  unfold ntMirror
  cases mode with
  | horizontal => simp only; omega
  | vertical => simp only; omega
  | single page => cases page <;> simp only [if_true, Bool.false_eq_true, if_false] <;> omega

theorem palIndex_lt (a : Nat) : palIndex a < 32 := by
  unfold palIndex
  dsimp only
  split <;> omega

/-- A write to the PPU's bus keeps its memories. -/
theorem PpuInv.writePpu {p : Ppu} (h : PpuInv p) (c : Cartridge) (a : Word) (v : Byte) : PpuInv (ppuWritePpu c p a v) := by
  unfold ppuWritePpu
  dsimp only
  split_ifs
  · exact h
  · split
    · exact ⟨h.oam, h.pal, h.ciram.write (ntMirror_lt _ _) _, h.sec, h.fb, h.lineLow, h.lineHigh, h.dot, h.secCount, h.sprCount, h.status, h.ready⟩
    · exact h
  · exact ⟨h.oam, h.pal.write (palIndex_lt _) _, h.ciram, h.sec, h.fb, h.lineLow, h.lineHigh, h.dot, h.secCount, h.sprCount, h.status, h.ready⟩

theorem PpuInv.regWrite {p : Ppu} (h : PpuInv p) (c : Cartridge) (n : Nat) (v : Byte) : PpuInv (ppuRegWritePpu c p n v) := by
  unfold ppuRegWritePpu Ppu.writeCtrl Ppu.writeOamData Ppu.writeScroll Ppu.writeAddr Ppu.advanceV
  split
  · exact ⟨h.oam, h.pal, h.ciram, h.sec, h.fb, h.lineLow, h.lineHigh, h.dot, h.secCount, h.sprCount, h.status, h.ready⟩
  · exact ⟨h.oam, h.pal, h.ciram, h.sec, h.fb, h.lineLow, h.lineHigh, h.dot, h.secCount, h.sprCount, h.status, h.ready⟩
  · exact ⟨h.oam, h.pal, h.ciram, h.sec, h.fb, h.lineLow, h.lineHigh, h.dot, h.secCount, h.sprCount, h.status, h.ready⟩
  · exact ⟨h.oam.write p.oamAddr.isLt _, h.pal, h.ciram, h.sec, h.fb, h.lineLow, h.lineHigh, h.dot, h.secCount, h.sprCount, h.status, h.ready⟩
  · split <;>
      exact ⟨h.oam, h.pal, h.ciram, h.sec, h.fb, h.lineLow, h.lineHigh, h.dot, h.secCount, h.sprCount, h.status, h.ready⟩
  · split <;>
      exact ⟨h.oam, h.pal, h.ciram, h.sec, h.fb, h.lineLow, h.lineHigh, h.dot, h.secCount, h.sprCount, h.status, h.ready⟩
  · have g := h.writePpu c p.vAddr v
    exact ⟨g.oam, g.pal, g.ciram, g.sec, g.fb, g.lineLow, g.lineHigh, g.dot, g.secCount, g.sprCount, g.status, g.ready⟩
  · exact h

theorem PpuInv.regRead {p : Ppu} (h : PpuInv p) (c : Cartridge) (n : Nat) : PpuInv (ppuRegAfterRead c p n) := by
  unfold ppuRegAfterRead Ppu.afterStatusRead Ppu.advanceV
  split
  · exact ⟨h.oam, h.pal, h.ciram, h.sec, h.fb, h.lineLow, h.lineHigh, h.dot, h.secCount, h.sprCount,
      (status_setBit h.status false).1 7 (by omega) (by omega), h.ready⟩
  · exact ⟨h.oam, h.pal, h.ciram, h.sec, h.fb, h.lineLow, h.lineHigh, h.dot, h.secCount, h.sprCount, h.status, h.ready⟩
  · exact h

/-! The cartridge's part. -/

/-- The cartridge's share of the invariant. -/
structure CartInv (c : Cartridge) : Prop where
  prgRam : MemOk unlisted 8192 c.prgRam
  chrRam : MemOk unlisted 8192 c.chrRam
  vram : MemOk unlisted 2048 c.vram
  ok : CartOk c

theorem mapVram_lt {c : Cartridge} {n off : Nat} (h : c.mapVram n = .cart off) : off < 2048 := by
  unfold Cartridge.mapVram at h
  split at h
  · simp at h
  · simp at h
  · split at h <;> simp only [VramTarget.cart.injEq, reduceCtorEq] at h <;> omega
  · next a b page _ => cases page <;> simp only [VramTarget.cart.injEq, if_true, Bool.false_eq_true, if_false] at h <;> omega

theorem CartInv.ppuWrite {c : Cartridge} (h : CartInv c) (a : Word) (v : Byte) : CartInv (ppuWriteCart c a v) := by
  unfold ppuWriteCart Cartridge.chrWrite
  dsimp only
  split_ifs
  · exact ⟨h.prgRam, h.chrRam.write (Nat.mod_lt _ (by omega)) _, h.vram, h.ok⟩
  · exact h
  · split
    · exact h
    next off ho => exact ⟨h.prgRam, h.chrRam, h.vram.write (mapVram_lt ho) _, h.ok⟩
  · exact h

theorem Mapper.write_ok (m : Mapper) (a : Word) (v : Byte) (h : m.ok = true) :
    (m.write a v).id = m.id ∧ (m.write a v).ok = true := by
  cases m with
  | mmc1 r =>
    refine ⟨rfl, ?_⟩
    simp only [Mapper.ok, decide_eq_true_eq] at h
    unfold Mapper.write mmc1Write Mapper.ok
    dsimp only
    split_ifs with h1 h2
    · simp
    · split <;> simp
    · simp only [decide_eq_true_eq]; omega
  | _ => exact ⟨rfl, rfl⟩

theorem CartInv.cpuWrite {c : Cartridge} (h : CartInv c) (a : Word) (v : Byte) : CartInv (c.cpuWrite a v) := by
  unfold Cartridge.cpuWrite
  split_ifs with h1 h2
  · exact h
  · exact ⟨h.prgRam.write (by bv_omega) _, h.chrRam, h.vram, h.ok⟩
  · exact h
  · have g := Mapper.write_ok c.mapper a v h.ok.2
    exact ⟨h.prgRam, h.chrRam, h.vram, g.1.trans h.ok.1, g.2⟩

/-! The whole. -/

theorem inv_iff (s : State) : Inv s ↔ MemOk unlisted 2048 s.ram ∧ PpuInv s.ppu ∧ CartInv s.cart ∧ StatusOk s.cpu.p ∧
    PortOk s.port0 ∧ PortOk s.port1 ∧ ClockOk s := by
  constructor
  · rintro ⟨⟨h1, h2, h3, h4, h5, h6, h7, h8, h9⟩, hs, ⟨a1, a2, a3, a4, a5, a6, a7⟩, p0, p1, hc, hk⟩
    exact ⟨h1, ⟨h2, h3, h4, h5, h6, a1, a2, a3, a4, a5, a6, a7⟩, ⟨h7, h8, h9, hc⟩, hs, p0, p1, hk⟩
  · rintro ⟨h1, ⟨h2, h3, h4, h5, h6, a1, a2, a3, a4, a5, a6, a7⟩, ⟨h7, h8, h9, hc⟩, hs, p0, p1, hk⟩
    exact ⟨⟨h1, h2, h3, h4, h5, h6, h7, h8, h9⟩, hs, ⟨a1, a2, a3, a4, a5, a6, a7⟩, p0, p1, hc, hk⟩

/-- A change of the CPU that keeps the status well-formed. -/
theorem inv_onCpu {s : State} (h : Inv s) {f : Cpu → Cpu} (hf : StatusOk (f s.cpu).p) : Inv (s.onCpu f) := by
  rw [inv_iff] at h ⊢
  exact ⟨h.1, h.2.1, h.2.2.1, hf, h.2.2.2.2⟩

/-- A read keeps the invariant. -/
theorem inv_readEffect {s : State} (h : Inv s) (a : Word) : Inv (readEffect a s) := by
  rw [inv_iff] at h ⊢
  obtain ⟨h1, h2, h3, h4, h5, h6, h7⟩ := h
  have port : ∀ p : Port, PortOk p → PortOk p.afterRead := by
    intro p hp
    unfold Port.afterRead
    split
    next hl => exact Nat.succ_le_of_lt hl
    · exact hp
  unfold readEffect
  split
  · exact ⟨h1, h2.regRead _ _, h3, h4, h5, h6, h7⟩
  · exact ⟨h1, h2, h3, h4, port _ h5, h6, h7⟩
  · exact ⟨h1, h2, h3, h4, h5, port _ h6, h7⟩
  all_goals exact ⟨h1, h2, h3, h4, h5, h6, h7⟩

theorem region_ram_lt {a : Word} {off : Nat} (h : region a = .ram off) : off < 2048 := by
  unfold region at h
  split_ifs at h
  injection h with h
  rw [← h, and_07FF]
  exact Nat.mod_lt _ (by omega)

/-- A write keeps the invariant. -/
theorem inv_cpuWrite {s : State} (h : Inv s) (a : Word) (v : Byte) : Inv (cpuWrite a v s) := by
  rw [inv_iff] at h ⊢
  obtain ⟨h1, h2, h3, h4, h5, h6, h7⟩ := h
  have reg : ∀ n, CartInv (ppuRegWriteCart s.cart s.ppu n v) := by
    intro n
    unfold ppuRegWriteCart
    split
    · exact h3.ppuWrite _ _
    · exact h3
  unfold cpuWrite
  split
  next off ho => exact ⟨h1.write (region_ram_lt ho) _, h2, h3, h4, h5, h6, h7⟩
  · exact ⟨h1, h2.regWrite _ _ _, reg _, h4, h5, h6, h7⟩
  · exact ⟨h1, h2, h3, h4, h5, h6, h7⟩
  · exact ⟨h1, h2, h3, h4, Nat.zero_le _, Nat.zero_le _, h7⟩
  · exact ⟨h1, h2, h3, h4, h5, h6, h7⟩
  · exact ⟨h1, h2, h3, h4, h5, h6, h7⟩
  · exact ⟨h1, h2, h3.cpuWrite _ _, h4, h5, h6, h7⟩

/-- The rest of a master cycle keeps the invariant. -/
theorem inv_afterCpu {s : State} (h : Inv s) : Inv (afterCpu s) := by
  rw [inv_iff] at h
  obtain ⟨h1, h2, h3, h4, h5, h6, h7⟩ := h
  have t1 : Inv (ppuTick s) := by
    rw [inv_iff]
    unfold ppuTick
    split
    · exact ⟨h1, h2.step _, h3, h4, h5, h6, h7.1, h7.2.1, h7.2.2.1, Nat.sub_lt h7.2.1 Nat.one_pos⟩
    · exact ⟨h1, h2, h3, h4, h5, h6, h7.1, h7.2.1, h7.2.2.1, Nat.lt_of_le_of_lt (Nat.sub_le _ _) h7.2.2.2⟩
  have t2 : ∀ u, Inv u → Inv (routeNmi u) := by
    intro u hu
    unfold routeNmi
    split
    · rw [inv_iff] at hu ⊢
      obtain ⟨g1, g2, g3, g4, g5, g6, g7⟩ := hu
      exact ⟨g1, ⟨g2.oam, g2.pal, g2.ciram, g2.sec, g2.fb, g2.lineLow, g2.lineHigh, g2.dot, g2.secCount, g2.sprCount,
        g2.status, g2.ready⟩, g3, g4, g5, g6, g7⟩
    · exact hu
  have t3 : ∀ u, Inv u → Inv (observeHalt u) := by
    intro u hu
    unfold observeHalt
    split
    · rw [inv_iff] at hu ⊢; exact hu
    · exact hu
  exact t3 _ (t2 _ t1)

theorem inv_withCpuDiv {s : State} (h : Inv s) {n : Nat} (hn : n < s.cfg.cpuDivider) (k : Nat) :
    Inv { s with cpu := { s.cpu with cyc := k }, bus := { s.bus with cpuDivCnt := n } } := by
  rw [inv_iff] at h ⊢
  obtain ⟨h1, h2, h3, h4, h5, h6, h7⟩ := h
  exact ⟨h1, h2, h3, h4, h5, h6, h7.1, h7.2.1, hn, h7.2.2.2⟩

theorem inv_clock {s : State} (h : Inv s) : ClockOk s := ((inv_iff s).mp h).2.2.2.2.2.2

theorem inv_status {s : State} (h : Inv s) : StatusOk s.cpu.p := ((inv_iff s).mp h).2.2.2.1

theorem inv_idleCycle {s : State} (h : Inv s) : Inv (idleCycle s) := by
  have := inv_clock h
  exact inv_afterCpu (inv_withCpuDiv h (Nat.lt_of_le_of_lt (Nat.sub_le s.bus.cpuDivCnt 1) this.2.2.1) s.cpu.cyc)

theorem inv_idleCycles {s : State} (h : Inv s) (n : Nat) : Inv (idleCycles n s) := by
  induction n generalizing s with
  | zero => exact h
  | succ n ih => exact ih (inv_idleCycle h)

theorem inv_waitCpu {s : State} (h : Inv s) : Inv (waitCpu s) := inv_idleCycles h _

theorem inv_finishCycle {s : State} (h : Inv s) : Inv (finishCycle s) := by
  have := inv_clock h
  exact inv_afterCpu (inv_withCpuDiv h (Nat.sub_lt this.1 Nat.one_pos) (s.cpu.cyc + 1))

theorem inv_elapse {s : State} (h : Inv s) : Inv (elapse s) := inv_waitCpu (inv_finishCycle h)

theorem inv_advance {s : State} (h : Inv s) : Inv (advance s) := inv_elapse (inv_onCpu h (inv_status h))

/-! Status bytes. -/

theorem statusOk_setFlag {p : Byte} (h : StatusOk p) {i : Nat} (h4 : i ≠ 4) (h5 : i ≠ 5) (b : Bool) :
    StatusOk (setFlag p i b) := by
  unfold StatusOk bitAt setFlag flagB flagU at *
  rw [getLsbD_setBitTo _ _ _ (by omega), getLsbD_setBitTo _ _ _ (by omega), if_neg (Ne.symm h4), if_neg (Ne.symm h5)]
  exact h

theorem statusOk_pulled : ∀ b : Byte, StatusOk (pulledStatus b) := by decide

/-! Cycles. -/

/-- A cycle that keeps the invariant. -/
def Cycle.Keeps (c : Cycle) : Prop := ∀ s, Inv s → (∀ t, c s = .more t → Inv t) ∧ ∀ t, c s = .done t → Inv t

theorem inv_runCycles {cs : List Cycle} (h : ∀ c ∈ cs, Cycle.Keeps c) {s : State} (hs : Inv s) : Inv (runCycles cs s) := by
  induction cs generalizing s with
  | nil => exact inv_onCpu hs (inv_status hs)
  | cons c cs ih =>
    unfold runCycles
    have hc := h c (by simp) s hs
    split
    next t ht => exact inv_onCpu (hc.2 t ht) (inv_status (hc.2 t ht))
    next t ht => exact ih (fun d hd => h d (by simp [hd])) (inv_advance (hc.1 t ht))

theorem inv_leadCycles {cs : List Cycle} (h : ∀ c ∈ cs, Cycle.Keeps c) {s : State} (hs : Inv s) : Inv (leadCycles cs s) := by
  induction cs generalizing s with
  | nil => exact hs
  | cons c cs ih =>
    unfold leadCycles
    have hc := h c (by simp) s hs
    split
    next t ht => exact hc.2 t ht
    next t ht => exact ih (fun d hd => h d (by simp [hd])) (inv_advance (hc.1 t ht))

theorem inv_idleRead {s : State} (h : Inv s) (a : Word) : Inv (idleRead a s) := by
  unfold idleRead
  split
  · exact h
  · exact inv_readEffect h a

theorem inv_idleWrite {s : State} (h : Inv s) (a : Word) (v : Byte) : Inv (idleWrite a v s) := by
  unfold idleWrite
  split
  · exact h
  · exact inv_cpuWrite h a v

theorem inv_push {s : State} (h : Inv s) (v : Byte) : Inv (push v s) :=
  inv_onCpu (inv_cpuWrite h _ _) (inv_status (inv_cpuWrite h _ _))

theorem inv_afterPull {s : State} (h : Inv s) : Inv (afterPull s) :=
  inv_onCpu (inv_readEffect h _) (inv_status (inv_readEffect h _))

theorem more_inj {s t : State} (h : Progress.more s = Progress.more t) : s = t := by cases h; rfl

theorem done_inj {s t : State} (h : Progress.done s = Progress.done t) : s = t := by cases h; rfl

theorem more_ne_done {s t : State} (h : Progress.more s = Progress.done t) : False := by cases h

/-- A cycle that always goes on, in a state that meets the invariant. -/
theorem keeps_more {f : State → State} (h : ∀ s, Inv s → Inv (f s)) : Cycle.Keeps fun s => .more (f s) :=
  fun s hs => ⟨fun _ e => more_inj e ▸ h s hs, fun _ e => (more_ne_done e).elim⟩

theorem keeps_done {f : State → State} (h : ∀ s, Inv s → Inv (f s)) : Cycle.Keeps fun s => .done (f s) :=
  fun s hs => ⟨fun _ e => (more_ne_done e.symm).elim, fun _ e => done_inj e ▸ h s hs⟩

theorem inv_onCpu_same {s : State} (h : Inv s) {f : Cpu → Cpu} (hf : (f s.cpu).p = s.cpu.p) : Inv (s.onCpu f) :=
  inv_onCpu h (by rw [hf]; exact inv_status h)

end Sys2Proof.Machine
end

