-- ==== Sys2Proof/Machine/Rom.lean ====
section
/-!
DEFINITION. ROM images: the 16-byte header, the cartridge record it gives, and the fallback cartridge
(spec/49_mappers.md R340 to R343).
-/

namespace Sys2Proof.Machine

/-- The magic "NES", 0x1A (R340). -/
def romMagic : List Byte := [0x4E, 0x45, 0x53, 0x1A]

/-- The header's fields (R340). -/
structure Header where
  prgChunks : Nat
  chrChunks : Nat
  mapperId : Nat
  mirroring : Mirroring
  ramPresent : Bool
  trainer : Bool
deriving DecidableEq, Repr

/-- Reads the 16-byte header (R340); bytes 8 to 15, the four-screen bit and flags 7's low nybble are ignored.
`none` where the image is shorter or the magic is wrong (R341). -/
def parseHeader (image : List Byte) : Option Header :=
  if image.length < 16 ∨ image.take 4 ≠ romMagic then none
  else
    let flags6 := image.getD 6 0
    let flags7 := image.getD 7 0
    some
      { prgChunks := (image.getD 4 0).toNat
        chrChunks := (image.getD 5 0).toNat
        mapperId := ((flags7 &&& 0xF0) ||| (flags6 >>> 4)).toNat
        mirroring := if bitAt flags6 0 then .vertical else .horizontal
        ramPresent := bitAt flags6 1
        trainer := bitAt flags6 2 }

/-- Where the PRG data begins: after the header and the trainer, if there is one (R340, D50). -/
def Header.prgStart (h : Header) : Nat := if h.trainer then 16 + 512 else 16

/-- The length of an image with this header (R340). -/
def Header.imageLength (h : Header) : Nat := h.prgStart + h.prgChunks * 16384 + h.chrChunks * 8192

/-- The cartridge constants of an image (R340); `none` for a load failure (R341: truncated, wrong magic, no
PRG chunk) or an unsupported mapper (R342). -/
def parseRom (image : List Byte) : Option Rom :=
  match parseHeader image with
  | none => none
  | some h =>
    if image.length < h.imageLength ∨ h.prgChunks = 0 ∨ Mapper.select h.mapperId h.mirroring = none then none
    else
      let data := image.drop h.prgStart
      some
        { prg := Store.ofBytes unlisted 0 (data.take (h.prgChunks * 16384))
          chr := Store.ofBytes unlisted 0 ((data.drop (h.prgChunks * 16384)).take (h.chrChunks * 8192))
          prgChunks := h.prgChunks
          chrChunks := h.chrChunks
          mapperId := h.mapperId
          mirroring := h.mirroring
          ramPresent := h.ramPresent }

/-- `FALLBACK_CART` (R342, D40): an NROM record with at least one PRG chunk, its contents free constants
(log 11). -/
def fallbackRom : Rom where
  prg := Store.ofBytes unlisted 0 (Config.fallbackPrg.take ((Config.fallbackPrgExtra + 1) * 16384))
  chr := Store.ofBytes unlisted 0 (Config.fallbackChr.take (Config.fallbackChrChunks * 8192))
  prgChunks := Config.fallbackPrgExtra + 1
  chrChunks := Config.fallbackChrChunks
  mapperId := 0
  mirroring := if Config.fallbackVertical then .vertical else .horizontal
  ramPresent := Config.fallbackRam

/-- The contents that the memories a cartridge carries come up with: any value (R35, D3), so an argument of
whoever loads a ROM (log 21). -/
structure CartMemories where
  prgRam : Store 8
  chrRam : Store 8
  vram : Store 8
deriving DecidableEq, Repr

/-- The cartridge of a record: the live variant is the one its id selects (R343), at its reset values. -/
def insertRom (rom : Rom) (mem : CartMemories) : Cartridge where
  rom := rom
  mapper := (Mapper.select rom.mapperId rom.mirroring).getD .nrom
  prgRam := mem.prgRam
  chrRam := mem.chrRam
  vram := mem.vram

/-- The cartridge that loading an image makes (R341 to R343). -/
def loadCartridge (image : List Byte) (mem : CartMemories) : Cartridge :=
  insertRom ((parseRom image).getD fallbackRom) mem

end Sys2Proof.Machine
end

