-- ==== Sys2Proof/Machine/HostOps.lean ====
section
/-!
DEFINITION. What the host can do between master cycles (spec/40_bus_master_cycle.md R125 to R131): load a ROM,
power on, buttons, RequestIRQ, the run loop, polling, peeks, snapshots, tampering. No step performs any of it.
-/

namespace Sys2Proof.Machine

/-- Loads a ROM: the cartridge is destroyed and made anew, then the device is reset (R127, R341). -/
def loadRom (image : List Byte) (mem : CartMemories) (s : State) : State :=
  deviceReset { s with cart := loadCartridge image mem }

/-- Power-on contents: any value (R403). -/
structure PowerOn where
  a : Byte
  x : Byte
  y : Byte
  ram : Store 8
  oam : Store 8
  pal : Store 8
  ciram : Store 8
  fb : Store 6
  cart : CartMemories
deriving DecidableEq, Repr

/-- Power-on (R403): arbitrary contents, Pause, a cartridge, then `Reset()`. -/
def powerOn (cfg : Config) (image : List Byte) (k : PowerOn) : State :=
  loadRom image k.cart
    { State.reset with
      cfg := cfg
      cpu := { State.reset.cpu with a := k.a, x := k.x, y := k.y }
      ram := k.ram
      ppu := { Ppu.reset with oam := k.oam, pal := k.pal, ciram := k.ciram, fb := k.fb } }

/-- The environment event `RequestIRQ` (R375). -/
def requestIrq (s : State) : State := s.onCpu fun c => { c with irqPending := true }

/-- The button bits, most significant bit first in shift order (R57). -/
inductive Button where
  | right | left | down | up | start | select | b | a
deriving DecidableEq, Repr

/-- The bit of a button (R57). -/
def Button.bit : Button → Nat
  | .right => 0 | .left => 1 | .down => 2 | .up => 3 | .start => 4 | .select => 5 | .b => 6 | .a => 7

/-- Sets or clears a button of port 0 or 1 (R57, R127). -/
def setButton (second : Bool) (button : Button) (pressed : Bool) (s : State) : State :=
  if second then { s with port1 := { s.port1 with buttons := setBitTo s.port1.buttons button.bit pressed } }
  else { s with port0 := { s.port0 with buttons := setBitTo s.port0.buttons button.bit pressed } }

/-- Selects the run mode (R127). -/
def setRunMode (m : RunMode) (s : State) : State := s.onBus fun b => { b with runMode := m }

/-- `IsLineReady` (R129). -/
def isLineReady (s : State) : Bool := s.ppu.lineReady

/-- `IsFrameReady` (R129). -/
def isFrameReady (s : State) : Bool := s.ppu.frameReady

/-- `PPUPeek` (R66). -/
def ppuPeek (addr : Word) (s : State) : Byte := ppuRead s.cart s.ppu addr

/-- Saves a snapshot: a copy of every state field (R131). -/
def saveSnapshot (s : State) : State := s

/-- Loads a snapshot into a machine with the same cartridge (R131): every state field comes back; the
parameters, the cartridge constants and the buttons are no state fields (10_state.md) and stay (log 22). -/
def loadSnapshot (saved s : State) : State :=
  { saved with
    cfg := s.cfg
    cart := { saved.cart with rom := s.cart.rom }
    port0 := { saved.port0 with buttons := s.port0.buttons }
    port1 := { saved.port1 with buttons := s.port1.buttons } }

/-- A memory that an inspector can edit (R127). -/
inductive MemoryName where
  | ram | oam | pal | ciram | secOam | prgRam | chrRam | cartvram
deriving DecidableEq, Repr

/-- Puts a cell into a memory of `n` cells; an address it does not have is ignored. -/
def Store.put {w : Nat} (d : BitVec w) (n : Nat) (m : Store w) (i : Nat) (v : BitVec w) : Store w :=
  if i < n then Store.write d m i v else m

/-- Writes byte `i` of a memory directly: no bus access, no side effect. -/
def editByte (m : MemoryName) (i : Nat) (v : Byte) (s : State) : State :=
  match m with
  | .ram => { s with ram := Store.put unlisted 2048 s.ram i v }
  | .oam => s.onPpu fun p => { p with oam := Store.put unlisted 256 p.oam i v }
  | .pal => s.onPpu fun p => { p with pal := Store.put unlisted 32 p.pal i v }
  | .ciram => s.onPpu fun p => { p with ciram := Store.put unlisted 2048 p.ciram i v }
  | .secOam => s.onPpu fun p => { p with secOam := Store.put secUnlisted 32 p.secOam i v }
  | .prgRam => s.onCart fun c => { c with prgRam := Store.put unlisted 8192 c.prgRam i v }
  | .chrRam => s.onCart fun c => { c with chrRam := Store.put unlisted 8192 c.chrRam i v }
  | .cartvram => s.onCart fun c => { c with vram := Store.put unlisted 2048 c.vram i v }

/-- The registers of `p` over the memories of `q`. -/
def Ppu.overMemoriesOf (p q : Ppu) : Ppu :=
  { p with secOam := q.secOam, pal := q.pal, oam := q.oam, ciram := q.ciram, fb := q.fb }

/-- One edit of an inspector: registers of one device set to any values, or one cell of a memory (R127; log 28). -/
inductive Edit where
  | cpu (c : Cpu)
  | ppu (p : Ppu)
  | mapper (m : Mapper)
  | port (second : Bool) (p : Port)
  | byte (m : MemoryName) (i : Nat) (v : Byte)
  | pixel (i : Nat) (v : BitVec 6)
deriving DecidableEq, Repr

/-- Tampering (R127: "directly editing registers or memory from an inspector"). Registers take the values given; the
mapper keeps its variant, a port its buttons (log 28). -/
def tamper (e : Edit) (s : State) : State :=
  match e with
  | .cpu c => { s with cpu := c }
  | .ppu p => { s with ppu := p.overMemoriesOf s.ppu }
  | .mapper m => s.onCart fun c => { c with mapper := if m.id = c.mapper.id then m else c.mapper }
  | .port false p => { s with port0 := { p with buttons := s.port0.buttons } }
  | .port true p => { s with port1 := { p with buttons := s.port1.buttons } }
  | .byte m i v => editByte m i v s
  | .pixel i v => s.onPpu fun p => { p with fb := Store.put fbUnlisted 61440 p.fb i v }

/-- A flag becomes true between two states: it was not, and it is. -/
def becomes (flag : State → Bool) (before after : State) : Bool := !flag before && flag after

/-- A CPU instruction, service sequence or DMA has retired between two states (R158): `ready` became true. -/
def retired : State → State → Bool := becomes fun s => s.cpu.ready

/-- Master cycles until `stop before after` holds of the last one, or the CPU is halted (R125); at most `n`
(log 24). -/
def runUntil (stop : State → State → Bool) : Nat → State → State
  | 0, s => s
  | n + 1, s =>
    let t := masterCycle s
    if stop s t || t.cpu.halted then t else runUntil stop n t

/-- The drain (R126): master cycles while the CPU is inside an instruction or a DMA is in progress, unless it
is halted; at most `n` (log 24). -/
def drain : Nat → State → State
  | 0, s => s
  | n + 1, s => if (!s.cpu.ready || s.cpu.dmaActive) && !s.cpu.halted then drain n (masterCycle s) else s

/-- More master cycles than a frame has. -/
def frameBound (s : State) : Nat := (2 * 262 * 341) * (s.cfg.ppuDivider + 1) + s.bus.ppuDivCnt

/-- More master cycles than an instruction, service sequence or DMA transfer has. -/
def instrBound (s : State) : Nat := runCpuBound * (s.cfg.cpuDivider + 1) + s.bus.cpuDivCnt

/-- `Update()` (R125): each loop ends when its flag becomes true, so a flag still standing from before does not end
it. -/
def update (s : State) : State :=
  match s.bus.runMode with
  | .pause => s
  | .running => drain (instrBound s) (runUntil (becomes isFrameReady) (frameBound s) s)
  | .advanceOneFrame =>
    setRunMode .pause (drain (instrBound s) (runUntil (becomes isFrameReady) (frameBound s) s))
  | .advanceOneScanline =>
    setRunMode .pause (drain (instrBound s) (runUntil (becomes isLineReady) (frameBound s) s))
  | .advanceOneInstruction =>
    setRunMode .pause (drain (instrBound s) (runUntil retired (2 * instrBound s) s))
  | .advanceSingleCycle => setRunMode .pause (masterCycle s)

end Sys2Proof.Machine
end

