-- ==== Sys2Proof/Laws/Host.lean ====
section
/-!
SUPPORT. The host's edits keep the memories in canonical form, within their sizes.
-/

namespace Sys2Proof.Machine

theorem MemOk.put {w : Nat} {d : BitVec w} {n : Nat} {m : Store w} (h : MemOk d n m) (i : Nat) (v : BitVec w) :
    MemOk d n (Store.put d n m i v) := by
  unfold Store.put
  split
  · exact h.write ‹_› v
  · exact h

theorem memoriesOk_editByte {s : State} (h : MemoriesOk s) (m : MemoryName) (i : Nat) (v : Byte) :
    MemoriesOk (editByte m i v s) := by
  obtain ⟨ram, oam, pal, ciram, sec, fb, prg, chr, vram⟩ := h
  cases m
  · exact ⟨ram.put i v, oam, pal, ciram, sec, fb, prg, chr, vram⟩
  · exact ⟨ram, oam.put i v, pal, ciram, sec, fb, prg, chr, vram⟩
  · exact ⟨ram, oam, pal.put i v, ciram, sec, fb, prg, chr, vram⟩
  · exact ⟨ram, oam, pal, ciram.put i v, sec, fb, prg, chr, vram⟩
  · exact ⟨ram, oam, pal, ciram, sec.put i v, fb, prg, chr, vram⟩
  · exact ⟨ram, oam, pal, ciram, sec, fb, prg.put i v, chr, vram⟩
  · exact ⟨ram, oam, pal, ciram, sec, fb, prg, chr.put i v, vram⟩
  · exact ⟨ram, oam, pal, ciram, sec, fb, prg, chr, vram.put i v⟩

/-- No edit breaks a memory's form: registers are edited over the memories that stand. -/
theorem memoriesOk_tamper {s : State} (h : MemoriesOk s) (e : Edit) : MemoriesOk (tamper e s) := by
  cases e with
  | cpu c => exact h
  | ppu p => exact h
  | mapper m => exact h
  | port second p => cases second <;> exact h
  | byte m i v => exact memoriesOk_editByte h m i v
  | pixel i v =>
    obtain ⟨ram, oam, pal, ciram, sec, fb, prg, chr, vram⟩ := h
    exact ⟨ram, oam, pal, ciram, sec, fb.put i v, prg, chr, vram⟩

/-- No edit touches the parameters or the cartridge's constants, nor the buttons. -/
theorem tamper_constants (e : Edit) (s : State) :
    (tamper e s).cfg = s.cfg ∧ (tamper e s).cart.rom = s.cart.rom ∧
    (tamper e s).cart.mapper.id = s.cart.mapper.id ∧
    (tamper e s).port0.buttons = s.port0.buttons ∧ (tamper e s).port1.buttons = s.port1.buttons := by
  cases e with
  | cpu c => exact ⟨rfl, rfl, rfl, rfl, rfl⟩
  | ppu p => exact ⟨rfl, rfl, rfl, rfl, rfl⟩
  | mapper m => exact ⟨rfl, rfl, by simp only [tamper, State.onCart]; split <;> simp_all, rfl, rfl⟩
  | port second p => cases second <;> exact ⟨rfl, rfl, rfl, rfl, rfl⟩
  | byte m i v => cases m <;> exact ⟨rfl, rfl, rfl, rfl, rfl⟩
  | pixel i v => exact ⟨rfl, rfl, rfl, rfl, rfl⟩

end Sys2Proof.Machine
end

