-- ==== Sys2Proof/Laws/Keeps.lean ====
section
/-!
SUPPORT. Every cycle of every instruction, of interrupt service and of DMA keeps the invariant.
-/

namespace Sys2Proof.Machine

/-- An operation on the registers that leaves the status well-formed. -/
def StatusKeeper (f : Cpu → Cpu) : Prop := ∀ c : Cpu, StatusOk c.p → StatusOk (f c).p

theorem inv_onCpu_keeper {s : State} (h : Inv s) {f : Cpu → Cpu} (hf : StatusKeeper f) : Inv (s.onCpu f) :=
  inv_onCpu h (hf _ (inv_status h))

theorem addressCycles_keep (m : MemOperand) : ∀ c ∈ addressCycles m, Cycle.Keeps c := by
  intro c hc
  have read : ∀ (a : State → Word) (f : State → Cpu → Cpu), (∀ s, (f s (readEffect (a s) s).cpu).p = s.cpu.p) →
      Cycle.Keeps fun s => .more ((readEffect (a s) s).onCpu (f s)) := fun a f hf =>
    keeps_more (f := fun s => (readEffect (a s) s).onCpu (f s)) fun s hs =>
      inv_onCpu_same (inv_readEffect hs _) (by rw [hf, readEffect_cpu])
  have idle : ∀ (a : Word) (f : Cpu → Cpu), (∀ c, (f c).p = c.p) →
      Cycle.Keeps fun s => .more ((idleRead a s).onCpu f) := fun a f hf =>
    keeps_more (f := fun s => (idleRead a s).onCpu f) fun s hs => inv_onCpu_same (inv_idleRead hs _) (hf _)
  have plain : ∀ f : Cpu → Cpu, (∀ c, (f c).p = c.p) → Cycle.Keeps fun s => .more (s.onCpu f) := fun f hf =>
    keeps_more (f := fun s => s.onCpu f) fun s hs => inv_onCpu_same hs (hf _)
  have hold' : Cycle.Keeps hold := keeps_more (f := id) fun s hs => hs
  cases m with
  | zp b => simp only [addressCycles, List.mem_cons, List.not_mem_nil, or_false] at hc; subst hc; exact plain _ fun _ => rfl
  | abs b => simp only [addressCycles, List.mem_cons, List.not_mem_nil, or_false] at hc; subst hc; exact plain _ fun _ => rfl
  | abx w => simp only [addressCycles, List.mem_cons, List.not_mem_nil, or_false] at hc; subst hc; exact plain _ fun _ => rfl
  | aby w => simp only [addressCycles, List.mem_cons, List.not_mem_nil, or_false] at hc; subst hc; exact plain _ fun _ => rfl
  | zpx b =>
    simp only [addressCycles, List.mem_cons, List.not_mem_nil, or_false] at hc
    rcases hc with rfl | rfl
    · exact hold'
    · exact idle _ _ fun _ => rfl
  | zpy b =>
    simp only [addressCycles, List.mem_cons, List.not_mem_nil, or_false] at hc
    rcases hc with rfl | rfl
    · exact hold'
    · exact idle _ _ fun _ => rfl
  | izx b =>
    simp only [addressCycles, List.mem_cons, List.not_mem_nil, or_false] at hc
    rcases hc with rfl | rfl | rfl | rfl
    · exact hold'
    · exact idle _ _ fun _ => rfl
    · exact read (fun s => s.cpu.ptr) (fun s c => { c with ea := mkWord (hiByte c.ea) (cpuPeek s.cpu.ptr s) })
        fun s => by simp
    · exact read (fun s => zpNext (loByte s.cpu.ptr))
        (fun s c => { c with ea := mkWord (cpuPeek (zpNext (loByte s.cpu.ptr)) s) (loByte c.ea) }) fun s => by simp
  | izy b =>
    simp only [addressCycles, List.mem_cons, List.not_mem_nil, or_false] at hc
    rcases hc with rfl | rfl | rfl
    · exact hold'
    · exact read (fun _ => zext16 b) (fun s c => { c with ptr := mkWord (hiByte c.ptr) (cpuPeek (zext16 b) s) })
        fun s => by simp
    · exact read (fun _ => zpNext b) (fun s c => indexBase (mkWord (cpuPeek (zpNext b) s) (loByte c.ptr)) .y c)
        fun s => by simp [indexBase]

theorem fixUpCycle_keeps : Cycle.Keeps fixUpCycle :=
  keeps_more (f := fun s => idleRead (rawAddr s.cpu) s) fun _ hs => inv_idleRead hs _

theorem readLast_keeps {op : Byte → Cpu → Cpu} (hop : ∀ v, StatusKeeper (op v)) : Cycle.Keeps (readLast op) :=
  keeps_done (f := fun s => (readEffect s.cpu.ea s).onCpu fun c => op (cpuPeek s.cpu.ea s) { c with m := cpuPeek s.cpu.ea s })
    fun s hs => inv_onCpu_keeper (inv_readEffect hs _) (f := fun c => op (cpuPeek s.cpu.ea s) { c with m := cpuPeek s.cpu.ea s })
      fun c hc => hop _ { c with m := cpuPeek s.cpu.ea s } hc

/-- The read category. -/
theorem readCycles_keep {op : Byte → Cpu → Cpu} (hop : ∀ v, StatusKeeper (op v)) (o : ReadOperand) :
    ∀ c ∈ readCycles op o, Cycle.Keeps c := by
  intro c hc
  cases o with
  | imm v =>
    simp only [readCycles, List.mem_cons, List.not_mem_nil, or_false] at hc
    subst hc
    exact keeps_done (f := fun s => s.onCpu fun c => op v { c with m := v }) fun s hs =>
      inv_onCpu_keeper hs (f := fun c => op v { c with m := v }) fun c hc => hop v { c with m := v } hc
  | mem m =>
    simp only [readCycles, List.mem_append] at hc
    rcases hc with hc | hc
    · exact addressCycles_keep m c hc
    · have hr := readLast_keeps hop
      split at hc
      · simp only [List.mem_cons, List.not_mem_nil, or_false] at hc
        rcases hc with rfl | rfl
        · intro s hs
          unfold fixUpOrRead
          split
          · exact fixUpCycle_keeps s hs
          · exact hr s hs
        · exact hr
      · simp only [List.mem_cons, List.not_mem_nil, or_false] at hc
        subst hc
        exact hr

/-- The write category. -/
theorem writeCycles_keep (val : Cpu → Byte) (m : MemOperand) : ∀ c ∈ writeCycles val m, Cycle.Keeps c := by
  intro c hc
  have hw : Cycle.Keeps (writeLast val) :=
    keeps_done (f := fun s => cpuWrite s.cpu.ea (val s.cpu) (s.onCpu fun c => { c with m := val s.cpu })) fun s hs =>
      inv_cpuWrite (inv_onCpu_same hs rfl) _ _
  simp only [writeCycles, List.mem_append] at hc
  rcases hc with hc | hc
  · exact addressCycles_keep m c hc
  · split at hc
    · simp only [List.mem_cons, List.not_mem_nil, or_false] at hc
      rcases hc with rfl | rfl
      · exact fixUpCycle_keeps
      · exact hw
    · simp only [List.mem_cons, List.not_mem_nil, or_false] at hc
      subst hc
      exact hw

/-- The read-modify-write category. -/
theorem rmwCycles_keep {f : Byte → Byte → Byte × Byte} (hf : ∀ p v, StatusOk p → StatusOk (f p v).2) (m : MemOperand) :
    ∀ c ∈ rmwCycles f m, Cycle.Keeps c := by
  intro c hc
  have h1 : Cycle.Keeps rmwRead :=
    keeps_more (f := fun s => (readEffect s.cpu.ea s).onCpu fun c => { c with m := cpuPeek s.cpu.ea s }) fun s hs =>
      inv_onCpu_same (inv_readEffect hs _) rfl
  have h2 : Cycle.Keeps rmwHold := keeps_more (f := fun s => idleWrite s.cpu.ea s.cpu.m s) fun s hs => inv_idleWrite hs _ _
  have h3 : Cycle.Keeps (rmwLast f) :=
    keeps_done (f := fun s => (cpuWrite s.cpu.ea (f s.cpu.p s.cpu.m).1 s).onCpu fun c => { c with p := (f s.cpu.p s.cpu.m).2 })
      fun s hs => inv_onCpu (inv_cpuWrite hs _ _) (hf _ _ (inv_status hs))
  simp only [rmwCycles, List.mem_append] at hc
  rcases hc with hc | hc | hc
  · exact addressCycles_keep m c hc
  · split at hc
    · simp only [List.mem_cons, List.not_mem_nil, or_false] at hc
      subst hc
      exact fixUpCycle_keeps
    · simp at hc
  · simp only [List.mem_cons, List.not_mem_nil, or_false] at hc
    rcases hc with rfl | rfl | rfl
    · exact h1
    · exact h2
    · exact h3

/-- The internal category. -/
theorem internalCycles_keep {f : Cpu → Cpu} (hf : StatusKeeper f) : ∀ c ∈ internalCycles f, Cycle.Keeps c := by
  intro c hc
  simp only [internalCycles, List.mem_cons, List.not_mem_nil, or_false] at hc
  subst hc
  exact keeps_done (f := fun s => (idleRead s.cpu.pc s).onCpu f) fun s hs => inv_onCpu_keeper (inv_idleRead hs _) hf

/-- The branches. -/
theorem branchCycles_keep (cond : Byte → Bool) (off : Byte) : ∀ c ∈ branchCycles cond off, Cycle.Keeps c := by
  intro c hc
  simp only [branchCycles, List.mem_cons, List.not_mem_nil, or_false] at hc
  rcases hc with rfl | rfl | rfl
  · intro s hs
    unfold branchDecide
    dsimp only
    split
    · exact ⟨fun _ e => more_inj e ▸ inv_onCpu_same hs rfl, fun _ e => (more_ne_done e).elim⟩
    · exact ⟨fun _ e => (more_ne_done e.symm).elim, fun _ e => done_inj e ▸ inv_onCpu_same hs rfl⟩
  · intro s hs
    unfold branchTake
    dsimp only
    split
    · exact ⟨fun _ e => more_inj e ▸ inv_idleRead hs _, fun _ e => (more_ne_done e).elim⟩
    · exact ⟨fun _ e => (more_ne_done e.symm).elim, fun _ e => done_inj e ▸ inv_onCpu_same (inv_idleRead hs _) rfl⟩
  · exact keeps_done (f := fun s => (idleRead (mkWord (hiByte s.cpu.pc) (loByte s.cpu.ea)) s).onCpu fun c => { c with pc := c.ea })
      fun s hs => inv_onCpu_same (inv_idleRead hs _) rfl

theorem idleAtPc_keeps : Cycle.Keeps idleAtPc := keeps_more (f := fun s => idleRead s.cpu.pc s) fun _ hs => inv_idleRead hs _

theorem idleAtStack_keeps : Cycle.Keeps idleAtStack :=
  keeps_more (f := fun s => idleRead (stackAddr s.cpu.sp) s) fun _ hs => inv_idleRead hs _

/-- A pull, and a change of the registers made from the byte. -/
theorem pull_keeps_more {f : Byte → Cpu → Cpu} (hf : ∀ v, StatusKeeper (f v)) :
    Cycle.Keeps fun s => .more ((afterPull s).onCpu (f (pullValue s))) :=
  keeps_more (f := fun s => (afterPull s).onCpu (f (pullValue s))) fun _ hs => inv_onCpu_keeper (inv_afterPull hs) (hf _)

theorem pull_keeps_done {f : Byte → Cpu → Cpu} (hf : ∀ v, StatusKeeper (f v)) :
    Cycle.Keeps fun s => .done ((afterPull s).onCpu (f (pullValue s))) :=
  keeps_done (f := fun s => (afterPull s).onCpu (f (pullValue s))) fun _ hs => inv_onCpu_keeper (inv_afterPull hs) (hf _)

theorem push_keeps_more (v : State → Byte) : Cycle.Keeps fun s => .more (push (v s) s) :=
  keeps_more (f := fun s => push (v s) s) fun _ hs => inv_push hs _

theorem push_keeps_done (v : State → Byte) : Cycle.Keeps fun s => .done (push (v s) s) :=
  keeps_done (f := fun s => push (v s) s) fun _ hs => inv_push hs _

theorem entryCycles_keep (b : State → Bool) (vector : State → Word) {close : Cpu → Cpu} (hclose : ∀ c, (close c).p = c.p) :
    ∀ c ∈ entryCycles b vector close, Cycle.Keeps c := by
  intro c hc
  simp only [entryCycles, List.mem_cons, List.not_mem_nil, or_false] at hc
  rcases hc with rfl | rfl | rfl | rfl | rfl
  · exact push_keeps_more _
  · exact push_keeps_more _
  · exact keeps_more (f := fun s => (push (pushedStatus s.cpu.p (b s)) s).onCpu fun c => { c with p := setFlag c.p flagI true })
      fun s hs => inv_onCpu_keeper (inv_push hs _) (f := fun c => { c with p := setFlag c.p flagI true })
        fun c hc => statusOk_setFlag hc (by decide) (by decide) true
  · exact keeps_more (f := fun s => (readEffect (vector s) s).onCpu (setPcLow (cpuPeek (vector s) s))) fun s hs =>
      inv_onCpu_same (inv_readEffect hs _) rfl
  · exact keeps_done (f := fun s => (readEffect (vector s + 1) s).onCpu fun c => close (setPcHigh (cpuPeek (vector s + 1) s) c))
      fun s hs => inv_onCpu_same (inv_readEffect hs _) (hclose _)

theorem serviceCycles_keep : ∀ c ∈ serviceCycles, Cycle.Keeps c := by
  intro c hc
  rw [serviceCycles, List.mem_cons, List.mem_cons] at hc
  rcases hc with rfl | rfl | hc
  · exact idleAtPc_keeps
  · exact idleAtPc_keeps
  · exact entryCycles_keep _ _ (close := endService) (fun _ => rfl) c hc

theorem brkCycles_keep : ∀ c ∈ brkCycles, Cycle.Keeps c := by
  intro c hc
  rw [brkCycles, List.mem_cons] at hc
  rcases hc with rfl | hc
  · exact keeps_more (f := fun s => (idleRead s.cpu.pc s).onCpu incPc) fun s hs => inv_onCpu_same (inv_idleRead hs _) rfl
  · exact entryCycles_keep _ _ (close := id) (fun _ => rfl) c hc

theorem rtiCycles_keep : ∀ c ∈ rtiCycles, Cycle.Keeps c := by
  intro c hc
  simp only [rtiCycles, List.mem_cons, List.not_mem_nil, or_false] at hc
  rcases hc with rfl | rfl | rfl | rfl | rfl
  · exact idleAtPc_keeps
  · exact idleAtStack_keeps
  · exact pull_keeps_more (f := fun v c => { c with p := pulledStatus v }) fun v _ _ => statusOk_pulled v
  · exact pull_keeps_more fun _ _ h => h
  · exact pull_keeps_done fun _ _ h => h

theorem cyclesRts_keep : ∀ c ∈ cyclesRts, Cycle.Keeps c := by
  intro c hc
  simp only [cyclesRts, List.mem_cons, List.not_mem_nil, or_false] at hc
  rcases hc with rfl | rfl | rfl | rfl | rfl
  · exact idleAtPc_keeps
  · exact idleAtStack_keeps
  · exact pull_keeps_more fun _ _ h => h
  · exact pull_keeps_more fun _ _ h => h
  · exact keeps_done (f := fun s => (idleRead s.cpu.pc s).onCpu incPc) fun s hs => inv_onCpu_same (inv_idleRead hs _) rfl

theorem jsrLead_keep : ∀ c ∈ jsrLead, Cycle.Keeps c := by
  intro c hc
  simp only [jsrLead, List.mem_cons, List.not_mem_nil, or_false] at hc
  rcases hc with rfl | rfl | rfl | rfl
  · exact keeps_more (f := id) fun s hs => hs
  · exact idleAtStack_keeps
  · exact push_keeps_more _
  · exact push_keeps_more _

theorem cyclesJsr_keep (target : Word) : ∀ c ∈ cyclesJsr target, Cycle.Keeps c := by
  intro c hc
  rw [cyclesJsr, List.mem_append, List.mem_singleton] at hc
  rcases hc with hc | rfl
  · exact jsrLead_keep c hc
  · exact keeps_done (f := fun s => (readEffect s.cpu.pc s).onCpu fun c => { c with hi := hiByte target, pc := target })
      fun s hs => inv_onCpu_same (inv_readEffect hs _) rfl

theorem cyclesJmp_keep (o : JumpOperand) : ∀ c ∈ cyclesJmp o, Cycle.Keeps c := by
  intro c hc
  cases o with
  | abs w =>
    simp only [cyclesJmp, List.mem_cons, List.not_mem_nil, or_false] at hc
    subst hc
    exact keeps_done (f := fun s => s.onCpu fun c => { c with pc := w }) fun s hs => inv_onCpu_same hs rfl
  | ind w =>
    simp only [cyclesJmp, List.mem_cons, List.not_mem_nil, or_false] at hc
    rcases hc with rfl | rfl | rfl
    · exact keeps_more (f := fun s => s.onCpu fun c => { c with ptr := w }) fun s hs => inv_onCpu_same hs rfl
    · exact keeps_more (f := fun s => (readEffect s.cpu.ptr s).onCpu fun c => { c with ea := zext16 (cpuPeek s.cpu.ptr s) })
        fun s hs => inv_onCpu_same (inv_readEffect hs _) rfl
    · exact keeps_done (f := fun s => (readEffect (samePageNext s.cpu.ptr) s).onCpu fun c =>
        { c with pc := mkWord (cpuPeek (samePageNext s.cpu.ptr) s) (loByte c.ea) }) fun s hs =>
          inv_onCpu_same (inv_readEffect hs _) rfl

/-! Which operations leave the status well-formed. -/

theorem statusOk_setNZ {p : Byte} (h : StatusOk p) (v : Byte) : StatusOk (setNZ p v) :=
  statusOk_setFlag (statusOk_setFlag h (by decide) (by decide) _) (by decide) (by decide) _

theorem statusOk_shift {p : Byte} (h : StatusOk p) (r : Byte) (c : Bool) : StatusOk (shiftFlags p r c) :=
  statusOk_setNZ (statusOk_setFlag h (by decide) (by decide) _) _

theorem statusOk_adc {p : Byte} (h : StatusOk p) (a m : Byte) : StatusOk (adcFlags p a m) :=
  statusOk_setNZ (statusOk_setFlag (statusOk_setFlag h (by decide) (by decide) _) (by decide) (by decide) _) _

theorem statusOk_compare {p : Byte} (h : StatusOk p) (r m : Byte) : StatusOk (compareFlags p r m) :=
  statusOk_setFlag (statusOk_setFlag (statusOk_setFlag h (by decide) (by decide) _) (by decide) (by decide) _)
    (by decide) (by decide) _

theorem statusOk_bit {p : Byte} (h : StatusOk p) (a m : Byte) : StatusOk (bitFlags p a m) :=
  statusOk_setFlag (statusOk_setFlag (statusOk_setFlag h (by decide) (by decide) _) (by decide) (by decide) _)
    (by decide) (by decide) _

theorem shiftCycles_keep {f : Byte → Byte → Byte × Byte} (hf : ∀ p v, StatusOk p → StatusOk (f p v).2) (o : ShiftOperand) :
    ∀ c ∈ shiftCycles f o, Cycle.Keeps c := by
  cases o with
  | acc => exact internalCycles_keep (f := fun c => { c with a := (f c.p c.a).1, p := (f c.p c.a).2 }) fun c hc => hf c.p c.a hc
  | mem m => exact rmwCycles_keep hf m

theorem flagOp_keeper {i : Nat} (h4 : i ≠ 4) (h5 : i ≠ 5) (b : Bool) :
    StatusKeeper fun c => { c with p := setFlag c.p i b } := fun _ hc => statusOk_setFlag hc h4 h5 b

/-- Every cycle of every instruction keeps the invariant. -/
theorem cyclesOf_keep (i : Instr) : ∀ c ∈ cyclesOf i, Cycle.Keeps c := by
  cases i with
  | lda o => exact readCycles_keep (op := loadA) (fun v c hc => show StatusOk (setNZ c.p v) from statusOk_setNZ hc v) o
  | ldx o => exact readCycles_keep (op := loadX) (fun v c hc => show StatusOk (setNZ c.p v) from statusOk_setNZ hc v) o
  | ldy o => exact readCycles_keep (op := loadY) (fun v c hc => show StatusOk (setNZ c.p v) from statusOk_setNZ hc v) o
  | sta m => exact writeCycles_keep _ m
  | stx m => exact writeCycles_keep _ m
  | sty m => exact writeCycles_keep _ m
  | tax => exact internalCycles_keep (f := fun c => { c with x := c.a, p := setNZ c.p (c.a) }) fun c hc => show StatusOk (setNZ c.p (c.a)) from statusOk_setNZ hc _
  | tay => exact internalCycles_keep (f := fun c => { c with y := c.a, p := setNZ c.p (c.a) }) fun c hc => show StatusOk (setNZ c.p (c.a)) from statusOk_setNZ hc _
  | txa => exact internalCycles_keep (f := fun c => { c with a := c.x, p := setNZ c.p (c.x) }) fun c hc => show StatusOk (setNZ c.p (c.x)) from statusOk_setNZ hc _
  | tya => exact internalCycles_keep (f := fun c => { c with a := c.y, p := setNZ c.p (c.y) }) fun c hc => show StatusOk (setNZ c.p (c.y)) from statusOk_setNZ hc _
  | tsx => exact internalCycles_keep (f := fun c => { c with x := c.sp, p := setNZ c.p (c.sp) }) fun c hc => show StatusOk (setNZ c.p (c.sp)) from statusOk_setNZ hc _
  | txs => exact internalCycles_keep fun c hc => hc
  | adc o => exact readCycles_keep (op := opAdc) (fun v c hc => show StatusOk (adcFlags c.p c.a v) from statusOk_adc hc _ _) o
  | sbc o => exact readCycles_keep (op := opSbc) (fun v c hc => show StatusOk (adcFlags c.p c.a (v ^^^ 0xFF)) from statusOk_adc hc _ _) o
  | and o => exact readCycles_keep (op := opAnd) (fun v c hc => show StatusOk (setNZ c.p (c.a &&& v)) from statusOk_setNZ hc _) o
  | ora o => exact readCycles_keep (op := opOra) (fun v c hc => show StatusOk (setNZ c.p (c.a ||| v)) from statusOk_setNZ hc _) o
  | eor o => exact readCycles_keep (op := opEor) (fun v c hc => show StatusOk (setNZ c.p (c.a ^^^ v)) from statusOk_setNZ hc _) o
  | cmp o => exact readCycles_keep (op := opCmp) (fun v c hc => show StatusOk (compareFlags c.p c.a v) from statusOk_compare hc _ _) o
  | cpx o => exact readCycles_keep (op := opCpx) (fun v c hc => show StatusOk (compareFlags c.p c.x v) from statusOk_compare hc _ _) o
  | cpy o => exact readCycles_keep (op := opCpy) (fun v c hc => show StatusOk (compareFlags c.p c.y v) from statusOk_compare hc _ _) o
  | bit m => exact readCycles_keep (op := opBit) (fun v c hc => show StatusOk (bitFlags c.p c.a v) from statusOk_bit hc _ _) (.mem m)
  | asl o => exact shiftCycles_keep (f := fAsl) (fun p v hp => show StatusOk (shiftFlags p (aslResult v) (bitAt v 7)) from statusOk_shift hp _ _) o
  | lsr o => exact shiftCycles_keep (f := fLsr) (fun p v hp => show StatusOk (shiftFlags p (lsrResult v) (bitAt v 0)) from statusOk_shift hp _ _) o
  | rol o => exact shiftCycles_keep (f := fRol) (fun p v hp => show StatusOk (shiftFlags p (rolResult p v) (bitAt v 7)) from statusOk_shift hp _ _) o
  | ror o => exact shiftCycles_keep (f := fRor) (fun p v hp => show StatusOk (shiftFlags p (rorResult p v) (bitAt v 0)) from statusOk_shift hp _ _) o
  | inc m => exact rmwCycles_keep (f := fInc) (fun p v hp => show StatusOk (setNZ p (v + 1)) from statusOk_setNZ hp _) m
  | dec m => exact rmwCycles_keep (f := fDec) (fun p v hp => show StatusOk (setNZ p (v - 1)) from statusOk_setNZ hp _) m
  | inx => exact internalCycles_keep (f := fun c => { c with x := c.x + 1, p := setNZ c.p (c.x + 1) }) fun c hc => show StatusOk (setNZ c.p (c.x + 1)) from statusOk_setNZ hc _
  | iny => exact internalCycles_keep (f := fun c => { c with y := c.y + 1, p := setNZ c.p (c.y + 1) }) fun c hc => show StatusOk (setNZ c.p (c.y + 1)) from statusOk_setNZ hc _
  | dex => exact internalCycles_keep (f := fun c => { c with x := c.x - 1, p := setNZ c.p (c.x - 1) }) fun c hc => show StatusOk (setNZ c.p (c.x - 1)) from statusOk_setNZ hc _
  | dey => exact internalCycles_keep (f := fun c => { c with y := c.y - 1, p := setNZ c.p (c.y - 1) }) fun c hc => show StatusOk (setNZ c.p (c.y - 1)) from statusOk_setNZ hc _
  | jmp o => exact cyclesJmp_keep o
  | jsr target => exact cyclesJsr_keep target
  | rts => exact cyclesRts_keep
  | rti => exact rtiCycles_keep
  | brk => exact brkCycles_keep
  | bcc off => exact branchCycles_keep _ off
  | bcs off => exact branchCycles_keep _ off
  | beq off => exact branchCycles_keep _ off
  | bne off => exact branchCycles_keep _ off
  | bmi off => exact branchCycles_keep _ off
  | bpl off => exact branchCycles_keep _ off
  | bvc off => exact branchCycles_keep _ off
  | bvs off => exact branchCycles_keep _ off
  | pha =>
    intro c hc
    simp only [cyclesOf, cyclesPha, List.mem_cons, List.not_mem_nil, or_false] at hc
    rcases hc with rfl | rfl
    · exact idleAtPc_keeps
    · exact push_keeps_done _
  | php =>
    intro c hc
    simp only [cyclesOf, cyclesPhp, List.mem_cons, List.not_mem_nil, or_false] at hc
    rcases hc with rfl | rfl
    · exact idleAtPc_keeps
    · exact push_keeps_done _
  | pla =>
    intro c hc
    simp only [cyclesOf, cyclesPla, List.mem_cons, List.not_mem_nil, or_false] at hc
    rcases hc with rfl | rfl | rfl
    · exact idleAtPc_keeps
    · exact idleAtStack_keeps
    · exact pull_keeps_done (f := fun v c => { c with a := v, p := setNZ c.p v }) fun v c hc =>
      show StatusOk (setNZ c.p v) from statusOk_setNZ hc v
  | plp =>
    intro c hc
    simp only [cyclesOf, cyclesPlp, List.mem_cons, List.not_mem_nil, or_false] at hc
    rcases hc with rfl | rfl | rfl
    · exact idleAtPc_keeps
    · exact idleAtStack_keeps
    · exact pull_keeps_done (f := fun v c => { c with p := pulledStatus v }) fun v _ _ => statusOk_pulled v
  | clc => exact internalCycles_keep (flagOp_keeper (by decide) (by decide) _)
  | sec => exact internalCycles_keep (flagOp_keeper (by decide) (by decide) _)
  | cli => exact internalCycles_keep (flagOp_keeper (by decide) (by decide) _)
  | sei => exact internalCycles_keep (flagOp_keeper (by decide) (by decide) _)
  | clv => exact internalCycles_keep (flagOp_keeper (by decide) (by decide) _)
  | cld => exact internalCycles_keep (flagOp_keeper (by decide) (by decide) _)
  | sed => exact internalCycles_keep (flagOp_keeper (by decide) (by decide) _)
  | nop => exact internalCycles_keep fun c hc => hc
  | illegal op =>
    intro c hc
    simp only [cyclesOf, cyclesIllegal, List.mem_cons, List.not_mem_nil, or_false] at hc
    subst hc
    exact keeps_done (f := fun s => s.onCpu fun c => { c with halted := true }) fun s hs => inv_onCpu_same hs rfl

/-- Each meaning is the run of its instruction's cycles. -/
theorem exec_eq (i : Instr) (s : State) : exec i s = .next (runCycles (cyclesOf i) s) := by cases i <;> rfl

end Sys2Proof.Machine
end

