-- ==== Sys2Proof/Laws/PerInstr.lean ====
section
/-!
SUPPORT. Facts about every instruction as syntax, one lemma per constructor.
-/

namespace Sys2Proof.Laws.Encoding

/-- The encoding of a well-formed instruction is one opcode byte, R105's for its mode, and then its operand bytes, as
many as its mode has (R100, R101). -/
def Statement (i : Instr) : Prop :=
  WellFormed i = true →
    ∃ op, lookupMode i.mode i.opcodes = some op ∧ encode i = op :: i.operandBytes ∧
      i.operandBytes.length = i.mode.operandBytes ∧ (encode i).length = i.length

/-- The operand bytes are as many as the mode has. -/
theorem operandBytes_length (i : Instr) : i.operandBytes.length = i.mode.operandBytes := by
  have mem : ∀ m : MemOperand, m.bytes.length = m.mode.operandBytes := fun m => by cases m <;> rfl
  cases i <;> first
    | rfl
    | exact mem _
    | (rename_i o; cases o <;> first | rfl | exact mem _)

/-- What is left to show of a constructor: its mode has an opcode. -/
theorem of_lookup {i : Instr} {op : Byte} (h : lookupMode i.mode i.opcodes = some op) : Statement i := by
  intro _
  have e : encode i = op :: i.operandBytes := by unfold encode; rw [h]
  refine ⟨op, h, e, operandBytes_length i, ?_⟩
  rw [e, List.length_cons, operandBytes_length, Instr.length, Nat.add_comm]

/-- The mode of a well-formed instruction is one of those its mnemonic has. -/
theorem mode_mem {i : Instr} (h : WellFormed i = true) : i.mode ∈ i.modes := by
  unfold WellFormed at h
  rw [Bool.and_eq_true] at h
  exact List.contains_iff_mem.mp h.1

/-- A mode of the list has an opcode, if every one has. -/
theorem of_modes {i : Instr} (h : ∀ m ∈ i.modes, (lookupMode m i.opcodes).isSome = true) : Statement i := by
  intro hw
  obtain ⟨op, ho⟩ := Option.isSome_iff_exists.mp (h i.mode (mode_mem hw))
  exact of_lookup ho hw

theorem lda (o : ReadOperand) : Statement (.lda o) := of_modes (i := .lda o) fun m hm => by
  revert m hm; simp only [Instr.modes, Instr.opcodes, List.forall_mem_cons]; decide

theorem ldx (o : ReadOperand) : Statement (.ldx o) := of_modes (i := .ldx o) fun m hm => by
  revert m hm; simp only [Instr.modes, Instr.opcodes, List.forall_mem_cons]; decide

theorem ldy (o : ReadOperand) : Statement (.ldy o) := of_modes (i := .ldy o) fun m hm => by
  revert m hm; simp only [Instr.modes, Instr.opcodes, List.forall_mem_cons]; decide

theorem sta (m : MemOperand) : Statement (.sta m) := of_modes (i := .sta m) fun m hm => by
  revert m hm; simp only [Instr.modes, Instr.opcodes, List.forall_mem_cons]; decide

theorem stx (m : MemOperand) : Statement (.stx m) := of_modes (i := .stx m) fun m hm => by
  revert m hm; simp only [Instr.modes, Instr.opcodes, List.forall_mem_cons]; decide

theorem sty (m : MemOperand) : Statement (.sty m) := of_modes (i := .sty m) fun m hm => by
  revert m hm; simp only [Instr.modes, Instr.opcodes, List.forall_mem_cons]; decide

theorem tax : Statement .tax := of_lookup rfl

theorem tay : Statement .tay := of_lookup rfl

theorem txa : Statement .txa := of_lookup rfl

theorem tya : Statement .tya := of_lookup rfl

theorem tsx : Statement .tsx := of_lookup rfl

theorem txs : Statement .txs := of_lookup rfl

theorem adc (o : ReadOperand) : Statement (.adc o) := of_modes (i := .adc o) fun m hm => by
  revert m hm; simp only [Instr.modes, Instr.opcodes, List.forall_mem_cons]; decide

theorem sbc (o : ReadOperand) : Statement (.sbc o) := of_modes (i := .sbc o) fun m hm => by
  revert m hm; simp only [Instr.modes, Instr.opcodes, List.forall_mem_cons]; decide

theorem and (o : ReadOperand) : Statement (.and o) := of_modes (i := .and o) fun m hm => by
  revert m hm; simp only [Instr.modes, Instr.opcodes, List.forall_mem_cons]; decide

theorem ora (o : ReadOperand) : Statement (.ora o) := of_modes (i := .ora o) fun m hm => by
  revert m hm; simp only [Instr.modes, Instr.opcodes, List.forall_mem_cons]; decide

theorem eor (o : ReadOperand) : Statement (.eor o) := of_modes (i := .eor o) fun m hm => by
  revert m hm; simp only [Instr.modes, Instr.opcodes, List.forall_mem_cons]; decide

theorem cmp (o : ReadOperand) : Statement (.cmp o) := of_modes (i := .cmp o) fun m hm => by
  revert m hm; simp only [Instr.modes, Instr.opcodes, List.forall_mem_cons]; decide

theorem cpx (o : ReadOperand) : Statement (.cpx o) := of_modes (i := .cpx o) fun m hm => by
  revert m hm; simp only [Instr.modes, Instr.opcodes, List.forall_mem_cons]; decide

theorem cpy (o : ReadOperand) : Statement (.cpy o) := of_modes (i := .cpy o) fun m hm => by
  revert m hm; simp only [Instr.modes, Instr.opcodes, List.forall_mem_cons]; decide

theorem bit (m : MemOperand) : Statement (.bit m) := of_modes (i := .bit m) fun m hm => by
  revert m hm; simp only [Instr.modes, Instr.opcodes, List.forall_mem_cons]; decide

theorem asl (o : ShiftOperand) : Statement (.asl o) := of_modes (i := .asl o) fun m hm => by
  revert m hm; simp only [Instr.modes, Instr.opcodes, List.forall_mem_cons]; decide

theorem lsr (o : ShiftOperand) : Statement (.lsr o) := of_modes (i := .lsr o) fun m hm => by
  revert m hm; simp only [Instr.modes, Instr.opcodes, List.forall_mem_cons]; decide

theorem rol (o : ShiftOperand) : Statement (.rol o) := of_modes (i := .rol o) fun m hm => by
  revert m hm; simp only [Instr.modes, Instr.opcodes, List.forall_mem_cons]; decide

theorem ror (o : ShiftOperand) : Statement (.ror o) := of_modes (i := .ror o) fun m hm => by
  revert m hm; simp only [Instr.modes, Instr.opcodes, List.forall_mem_cons]; decide

theorem inc (m : MemOperand) : Statement (.inc m) := of_modes (i := .inc m) fun m hm => by
  revert m hm; simp only [Instr.modes, Instr.opcodes, List.forall_mem_cons]; decide

theorem dec (m : MemOperand) : Statement (.dec m) := of_modes (i := .dec m) fun m hm => by
  revert m hm; simp only [Instr.modes, Instr.opcodes, List.forall_mem_cons]; decide

theorem inx : Statement .inx := of_lookup rfl

theorem iny : Statement .iny := of_lookup rfl

theorem dex : Statement .dex := of_lookup rfl

theorem dey : Statement .dey := of_lookup rfl

theorem jmp (o : JumpOperand) : Statement (.jmp o) := of_modes (i := .jmp o) fun m hm => by
  revert m hm; simp only [Instr.modes, Instr.opcodes, List.forall_mem_cons]; decide

theorem jsr (target : Word) : Statement (.jsr target) := of_modes (i := .jsr target) fun m hm => by
  revert m hm; simp only [Instr.modes, Instr.opcodes, List.forall_mem_cons]; decide

theorem rts : Statement .rts := of_lookup rfl

theorem rti : Statement .rti := of_lookup rfl

theorem brk : Statement .brk := of_lookup rfl

theorem bcc (off : Byte) : Statement (.bcc off) := of_modes (i := .bcc off) fun m hm => by
  revert m hm; simp only [Instr.modes, Instr.opcodes, List.forall_mem_cons]; decide

theorem bcs (off : Byte) : Statement (.bcs off) := of_modes (i := .bcs off) fun m hm => by
  revert m hm; simp only [Instr.modes, Instr.opcodes, List.forall_mem_cons]; decide

theorem beq (off : Byte) : Statement (.beq off) := of_modes (i := .beq off) fun m hm => by
  revert m hm; simp only [Instr.modes, Instr.opcodes, List.forall_mem_cons]; decide

theorem bne (off : Byte) : Statement (.bne off) := of_modes (i := .bne off) fun m hm => by
  revert m hm; simp only [Instr.modes, Instr.opcodes, List.forall_mem_cons]; decide

theorem bmi (off : Byte) : Statement (.bmi off) := of_modes (i := .bmi off) fun m hm => by
  revert m hm; simp only [Instr.modes, Instr.opcodes, List.forall_mem_cons]; decide

theorem bpl (off : Byte) : Statement (.bpl off) := of_modes (i := .bpl off) fun m hm => by
  revert m hm; simp only [Instr.modes, Instr.opcodes, List.forall_mem_cons]; decide

theorem bvc (off : Byte) : Statement (.bvc off) := of_modes (i := .bvc off) fun m hm => by
  revert m hm; simp only [Instr.modes, Instr.opcodes, List.forall_mem_cons]; decide

theorem bvs (off : Byte) : Statement (.bvs off) := of_modes (i := .bvs off) fun m hm => by
  revert m hm; simp only [Instr.modes, Instr.opcodes, List.forall_mem_cons]; decide

theorem pha : Statement .pha := of_lookup rfl

theorem php : Statement .php := of_lookup rfl

theorem pla : Statement .pla := of_lookup rfl

theorem plp : Statement .plp := of_lookup rfl

theorem clc : Statement .clc := of_lookup rfl

theorem sec : Statement .sec := of_lookup rfl

theorem cli : Statement .cli := of_lookup rfl

theorem sei : Statement .sei := of_lookup rfl

theorem clv : Statement .clv := of_lookup rfl

theorem cld : Statement .cld := of_lookup rfl

theorem sed : Statement .sed := of_lookup rfl

theorem nop : Statement .nop := of_lookup rfl

theorem illegal (op : Byte) : Statement (.illegal op) := of_lookup rfl

end Sys2Proof.Laws.Encoding
end

