-- ==== Sys2Proof/Laws/Steady.lean ====
section
/-!
SUPPORT. What no cycle of an instruction or of interrupt service touches: the parameters, the bus counters, the
cycle count and the control state of the CPU, until the sequence ends.
-/

namespace Sys2Proof.Machine

/-- The parameters, the bus counters, the cycle count and the control state are the same. -/
structure SameControl (s t : State) : Prop where
  cfg : t.cfg = s.cfg
  bus : t.bus = s.bus
  cyc : t.cpu.cyc = s.cpu.cyc
  sub : t.cpu.sub = s.cpu.sub
  ready : t.cpu.ready = s.cpu.ready
  ir : t.cpu.ir = s.cpu.ir
  lo : t.cpu.lo = s.cpu.lo
  hi : t.cpu.hi = s.cpu.hi
  halted : t.cpu.halted = s.cpu.halted
  dma : t.cpu.dmaActive = s.cpu.dmaActive
  nmi : t.cpu.nmiActive = s.cpu.nmiActive
  irq : t.cpu.irqActive = s.cpu.irqActive
  ppuReady : t.ppu.ready = s.ppu.ready
  rom : t.cart.rom = s.cart.rom
  mapper : t.cart.mapper.id = s.cart.mapper.id
  buttons0 : t.port0.buttons = s.port0.buttons
  buttons1 : t.port1.buttons = s.port1.buttons

theorem SameControl.refl (s : State) : SameControl s s :=
  ⟨rfl, rfl, rfl, rfl, rfl, rfl, rfl, rfl, rfl, rfl, rfl, rfl, rfl, rfl, rfl, rfl, rfl⟩

theorem SameControl.trans {s t u : State} (h : SameControl s t) (g : SameControl t u) : SameControl s u :=
  ⟨g.cfg.trans h.cfg, g.bus.trans h.bus, g.cyc.trans h.cyc, g.sub.trans h.sub, g.ready.trans h.ready, g.ir.trans h.ir,
    g.lo.trans h.lo, g.hi.trans h.hi, g.halted.trans h.halted, g.dma.trans h.dma, g.nmi.trans h.nmi, g.irq.trans h.irq,
    g.ppuReady.trans h.ppuReady, g.rom.trans h.rom, g.mapper.trans h.mapper, g.buttons0.trans h.buttons0,
    g.buttons1.trans h.buttons1⟩

theorem ppuRegAfterRead_ready (c : Cartridge) (p : Ppu) (n : Nat) : (ppuRegAfterRead c p n).ready = p.ready := by
  unfold ppuRegAfterRead Ppu.afterStatusRead Ppu.advanceV
  split <;> rfl

theorem ppuWritePpu_ready (c : Cartridge) (p : Ppu) (a : Word) (v : Byte) : (ppuWritePpu c p a v).ready = p.ready := by
  unfold ppuWritePpu
  dsimp only
  split_ifs
  · rfl
  · split <;> rfl
  · rfl

theorem ppuRegWritePpu_ready (c : Cartridge) (p : Ppu) (n : Nat) (v : Byte) : (ppuRegWritePpu c p n v).ready = p.ready := by
  unfold ppuRegWritePpu Ppu.writeCtrl Ppu.writeOamData Ppu.writeScroll Ppu.writeAddr Ppu.advanceV
  split
  · rfl
  · rfl
  · rfl
  · rfl
  · split <;> rfl
  · split <;> rfl
  · exact ppuWritePpu_ready c p _ v
  · rfl

theorem ppuWriteCart_rom (c : Cartridge) (a : Word) (v : Byte) :
    (ppuWriteCart c a v).rom = c.rom ∧ (ppuWriteCart c a v).mapper = c.mapper := by
  unfold ppuWriteCart Cartridge.chrWrite
  dsimp only
  split_ifs
  · exact ⟨rfl, rfl⟩
  · exact ⟨rfl, rfl⟩
  · split <;> exact ⟨rfl, rfl⟩
  · exact ⟨rfl, rfl⟩

theorem Mapper.write_id (m : Mapper) (a : Word) (v : Byte) : (m.write a v).id = m.id := by cases m <;> rfl

theorem cartridge_cpuWrite_rom (c : Cartridge) (a : Word) (v : Byte) :
    (c.cpuWrite a v).rom = c.rom ∧ (c.cpuWrite a v).mapper.id = c.mapper.id := by
  unfold Cartridge.cpuWrite
  split_ifs
  · exact ⟨rfl, rfl⟩
  · exact ⟨rfl, rfl⟩
  · exact ⟨rfl, rfl⟩
  · exact ⟨rfl, Mapper.write_id _ _ _⟩

theorem control_readEffect (a : Word) (s : State) : SameControl s (readEffect a s) := by
  refine ⟨by simp, by simp, by simp, by simp, by simp, by simp, by simp, by simp, by simp, by simp, by simp, by simp,
    ?_, by simp, by simp, ?_, ?_⟩
  all_goals
    unfold readEffect
    split
    all_goals first
      | rfl
      | exact ppuRegAfterRead_ready _ _ _
      | (show (Port.afterRead _).buttons = _; unfold Port.afterRead; split <;> rfl)

theorem control_cpuWrite (a : Word) (v : Byte) (s : State) : SameControl s (cpuWrite a v s) := by
  have hr : ∀ n, (ppuRegWriteCart s.cart s.ppu n v).rom = s.cart.rom ∧
      (ppuRegWriteCart s.cart s.ppu n v).mapper.id = s.cart.mapper.id := by
    intro n
    unfold ppuRegWriteCart
    split
    · have h := ppuWriteCart_rom s.cart s.ppu.vAddr v
      exact ⟨h.1, by rw [h.2]⟩
    · exact ⟨rfl, rfl⟩
  refine ⟨by simp, by simp, ?_, ?_, ?_, ?_, ?_, ?_, ?_, ?_, ?_, ?_, ?_, ?_, ?_, ?_, ?_⟩
  any_goals rw [cpuWrite_cpu]
  all_goals
    unfold cpuWrite
    split
    all_goals first
      | rfl
      | exact ppuRegWritePpu_ready _ _ _ _
      | exact (hr _).1
      | exact (hr _).2
      | exact (cartridge_cpuWrite_rom _ _ _).1
      | exact (cartridge_cpuWrite_rom _ _ _).2

/-- A change of the CPU that leaves the control state. -/
theorem control_onCpu {s : State} {f : Cpu → Cpu}
    (h : ∀ c : Cpu, (f c).cyc = c.cyc ∧ (f c).sub = c.sub ∧ (f c).ready = c.ready ∧ (f c).ir = c.ir ∧ (f c).lo = c.lo ∧
      (f c).hi = c.hi ∧ (f c).halted = c.halted ∧ (f c).dmaActive = c.dmaActive ∧ (f c).nmiActive = c.nmiActive ∧
      (f c).irqActive = c.irqActive) : SameControl s (s.onCpu f) := by
  obtain ⟨h1, h2, h3, h4, h5, h6, h7, h8, h9, h10⟩ := h s.cpu
  exact ⟨rfl, rfl, h1, h2, h3, h4, h5, h6, h7, h8, h9, h10, rfl, rfl, rfl, rfl, rfl⟩

theorem control_idleRead (a : Word) (s : State) : SameControl s (idleRead a s) := by
  unfold idleRead
  split
  · exact SameControl.refl s
  · exact control_readEffect a s

theorem control_idleWrite (a : Word) (v : Byte) (s : State) : SameControl s (idleWrite a v s) := by
  unfold idleWrite
  split
  · exact SameControl.refl s
  · exact control_cpuWrite a v s

theorem control_push (v : Byte) (s : State) : SameControl s (push v s) :=
  (control_cpuWrite _ v s).trans (control_onCpu fun _ => ⟨rfl, rfl, rfl, rfl, rfl, rfl, rfl, rfl, rfl, rfl⟩)

theorem control_afterPull (s : State) : SameControl s (afterPull s) :=
  (control_readEffect _ s).trans (control_onCpu fun _ => ⟨rfl, rfl, rfl, rfl, rfl, rfl, rfl, rfl, rfl, rfl⟩)

/-- What the last cycle of a sequence leaves of it: it may change what it ends. -/
structure SameClock (s t : State) : Prop where
  cfg : t.cfg = s.cfg
  bus : t.bus = s.bus
  cyc : t.cpu.cyc = s.cpu.cyc
  dma : t.cpu.dmaActive = s.cpu.dmaActive
  active : (t.cpu.nmiActive = s.cpu.nmiActive ∧ t.cpu.irqActive = s.cpu.irqActive) ∨
    (t.cpu.nmiActive = false ∧ t.cpu.irqActive = false)
  ppuReady : t.ppu.ready = s.ppu.ready
  rom : t.cart.rom = s.cart.rom
  mapper : t.cart.mapper.id = s.cart.mapper.id
  buttons0 : t.port0.buttons = s.port0.buttons
  buttons1 : t.port1.buttons = s.port1.buttons

theorem SameControl.clock {s t : State} (h : SameControl s t) : SameClock s t :=
  ⟨h.cfg, h.bus, h.cyc, h.dma, .inl ⟨h.nmi, h.irq⟩, h.ppuReady, h.rom, h.mapper, h.buttons0, h.buttons1⟩

theorem SameClock.trans {s t u : State} (h : SameClock s t) (g : SameClock t u) : SameClock s u :=
  ⟨g.cfg.trans h.cfg, g.bus.trans h.bus, g.cyc.trans h.cyc, g.dma.trans h.dma,
    g.active.elim (fun a => h.active.imp (fun b => ⟨a.1.trans b.1, a.2.trans b.2⟩) fun b => ⟨a.1.trans b.1, a.2.trans b.2⟩)
      .inr,
    g.ppuReady.trans h.ppuReady, g.rom.trans h.rom, g.mapper.trans h.mapper, g.buttons0.trans h.buttons0, g.buttons1.trans h.buttons1⟩

/-- A cycle that leaves the control state while its sequence goes on. -/
structure Cycle.Steady (c : Cycle) : Prop where
  more : ∀ s t, c s = .more t → SameControl s t
  done : ∀ s t, c s = .done t → SameClock s t

theorem steady_more {f : State → State} (h : ∀ s, SameControl s (f s)) : Cycle.Steady fun s => .more (f s) :=
  ⟨fun s _ e => more_inj e ▸ h s, fun _ _ e => (more_ne_done e).elim⟩

theorem steady_done {f : State → State} (h : ∀ s, SameClock s (f s)) : Cycle.Steady fun s => .done (f s) :=
  ⟨fun _ _ e => (more_ne_done e.symm).elim, fun s _ e => done_inj e ▸ h s⟩

/-- An operation on the registers that leaves the count of cycles, and what is in progress. -/
def CountKeeper (f : Cpu → Cpu) : Prop :=
  ∀ c : Cpu, (f c).cyc = c.cyc ∧ (f c).dmaActive = c.dmaActive ∧ (f c).nmiActive = c.nmiActive ∧ (f c).irqActive = c.irqActive

/-- A change of the CPU that leaves the count of cycles. -/
theorem clock_onCpu {s : State} {f : Cpu → Cpu} (h : CountKeeper f) : SameClock s (s.onCpu f) :=
  ⟨rfl, rfl, (h s.cpu).1, (h s.cpu).2.1, .inl (h s.cpu).2.2, rfl, rfl, rfl, rfl, rfl⟩

theorem addressCycles_steady (m : MemOperand) : ∀ c ∈ addressCycles m, Cycle.Steady c := by
  intro c hc
  have hold' : Cycle.Steady hold := steady_more (f := id) SameControl.refl
  cases m with
  | zp b =>
    simp only [addressCycles, List.mem_cons, List.not_mem_nil, or_false] at hc
    subst hc
    exact steady_more (f := fun s => s.onCpu fun c => { c with ea := zext16 b }) fun s =>
      control_onCpu fun _ => ⟨rfl, rfl, rfl, rfl, rfl, rfl, rfl, rfl, rfl, rfl⟩
  | abs w =>
    simp only [addressCycles, List.mem_cons, List.not_mem_nil, or_false] at hc
    subst hc
    exact steady_more (f := fun s => s.onCpu fun c => { c with ea := w }) fun s =>
      control_onCpu fun _ => ⟨rfl, rfl, rfl, rfl, rfl, rfl, rfl, rfl, rfl, rfl⟩
  | abx w =>
    simp only [addressCycles, List.mem_cons, List.not_mem_nil, or_false] at hc
    subst hc
    exact steady_more (f := fun s => s.onCpu (indexBase w .x)) fun s =>
      control_onCpu fun _ => ⟨rfl, rfl, rfl, rfl, rfl, rfl, rfl, rfl, rfl, rfl⟩
  | aby w =>
    simp only [addressCycles, List.mem_cons, List.not_mem_nil, or_false] at hc
    subst hc
    exact steady_more (f := fun s => s.onCpu (indexBase w .y)) fun s =>
      control_onCpu fun _ => ⟨rfl, rfl, rfl, rfl, rfl, rfl, rfl, rfl, rfl, rfl⟩
  | zpx b =>
    simp only [addressCycles, List.mem_cons, List.not_mem_nil, or_false] at hc
    rcases hc with rfl | rfl
    · exact hold'
    · exact steady_more (f := fun s => (idleRead (zext16 b) s).onCpu fun c => { c with ea := zpIndexed b (Index.x.get c) })
        fun s => (control_idleRead _ s).trans (control_onCpu fun _ => ⟨rfl, rfl, rfl, rfl, rfl, rfl, rfl, rfl, rfl, rfl⟩)
  | zpy b =>
    simp only [addressCycles, List.mem_cons, List.not_mem_nil, or_false] at hc
    rcases hc with rfl | rfl
    · exact hold'
    · exact steady_more (f := fun s => (idleRead (zext16 b) s).onCpu fun c => { c with ea := zpIndexed b (Index.y.get c) })
        fun s => (control_idleRead _ s).trans (control_onCpu fun _ => ⟨rfl, rfl, rfl, rfl, rfl, rfl, rfl, rfl, rfl, rfl⟩)
  | izx b =>
    simp only [addressCycles, List.mem_cons, List.not_mem_nil, or_false] at hc
    rcases hc with rfl | rfl | rfl | rfl
    · exact hold'
    · exact steady_more (f := fun s => (idleRead (zext16 b) s).onCpu fun c => { c with ptr := zext16 (b + c.x) })
        fun s => (control_idleRead _ s).trans (control_onCpu fun _ => ⟨rfl, rfl, rfl, rfl, rfl, rfl, rfl, rfl, rfl, rfl⟩)
    · exact steady_more (f := fun s => (readEffect s.cpu.ptr s).onCpu fun c =>
          { c with ea := mkWord (hiByte c.ea) (cpuPeek s.cpu.ptr s) })
        fun s => (control_readEffect _ s).trans (control_onCpu fun _ => ⟨rfl, rfl, rfl, rfl, rfl, rfl, rfl, rfl, rfl, rfl⟩)
    · exact steady_more (f := fun s => (readEffect (zpNext (loByte s.cpu.ptr)) s).onCpu fun c =>
          { c with ea := mkWord (cpuPeek (zpNext (loByte s.cpu.ptr)) s) (loByte c.ea) })
        fun s => (control_readEffect _ s).trans (control_onCpu fun _ => ⟨rfl, rfl, rfl, rfl, rfl, rfl, rfl, rfl, rfl, rfl⟩)
  | izy b =>
    simp only [addressCycles, List.mem_cons, List.not_mem_nil, or_false] at hc
    rcases hc with rfl | rfl | rfl
    · exact hold'
    · exact steady_more (f := fun s => (readEffect (zext16 b) s).onCpu fun c =>
          { c with ptr := mkWord (hiByte c.ptr) (cpuPeek (zext16 b) s) })
        fun s => (control_readEffect _ s).trans (control_onCpu fun _ => ⟨rfl, rfl, rfl, rfl, rfl, rfl, rfl, rfl, rfl, rfl⟩)
    · exact steady_more (f := fun s => (readEffect (zpNext b) s).onCpu fun c =>
          indexBase (mkWord (cpuPeek (zpNext b) s) (loByte c.ptr)) .y c)
        fun s => (control_readEffect _ s).trans (control_onCpu fun _ => ⟨rfl, rfl, rfl, rfl, rfl, rfl, rfl, rfl, rfl, rfl⟩)

theorem fixUpCycle_steady : Cycle.Steady fixUpCycle :=
  steady_more (f := fun s => idleRead (rawAddr s.cpu) s) fun s => control_idleRead _ s

theorem readLast_steady {op : Byte → Cpu → Cpu} (hop : ∀ v, CountKeeper (op v)) : Cycle.Steady (readLast op) :=
  steady_done (f := fun s => (readEffect s.cpu.ea s).onCpu fun c => op (cpuPeek s.cpu.ea s) { c with m := cpuPeek s.cpu.ea s })
    fun s => (control_readEffect _ s).clock.trans (clock_onCpu fun c => hop _ { c with m := cpuPeek s.cpu.ea s })

theorem readCycles_steady {op : Byte → Cpu → Cpu} (hop : ∀ v, CountKeeper (op v)) (o : ReadOperand) :
    ∀ c ∈ readCycles op o, Cycle.Steady c := by
  intro c hc
  cases o with
  | imm v =>
    simp only [readCycles, List.mem_cons, List.not_mem_nil, or_false] at hc
    subst hc
    exact steady_done (f := fun s => s.onCpu fun c => op v { c with m := v }) fun s =>
      clock_onCpu fun c => hop v { c with m := v }
  | mem m =>
    simp only [readCycles, List.mem_append] at hc
    rcases hc with hc | hc
    · exact addressCycles_steady m c hc
    · have hr := readLast_steady hop
      split at hc
      · simp only [List.mem_cons, List.not_mem_nil, or_false] at hc
        rcases hc with rfl | rfl
        · refine ⟨fun s t e => ?_, fun s t e => ?_⟩ <;> unfold fixUpOrRead at e <;> split at e
          · exact fixUpCycle_steady.more s t e
          · exact hr.more s t e
          · exact fixUpCycle_steady.done s t e
          · exact hr.done s t e
        · exact hr
      · simp only [List.mem_cons, List.not_mem_nil, or_false] at hc
        subst hc
        exact hr

theorem writeCycles_steady (val : Cpu → Byte) (m : MemOperand) : ∀ c ∈ writeCycles val m, Cycle.Steady c := by
  intro c hc
  have hw : Cycle.Steady (writeLast val) :=
    steady_done (f := fun s => cpuWrite s.cpu.ea (val s.cpu) (s.onCpu fun c => { c with m := val s.cpu })) fun s =>
      (clock_onCpu (f := fun c => { c with m := val s.cpu }) fun _ => ⟨rfl, rfl, rfl, rfl⟩).trans (control_cpuWrite _ _ _).clock
  simp only [writeCycles, List.mem_append] at hc
  rcases hc with hc | hc
  · exact addressCycles_steady m c hc
  · split at hc
    · simp only [List.mem_cons, List.not_mem_nil, or_false] at hc
      rcases hc with rfl | rfl
      · exact fixUpCycle_steady
      · exact hw
    · simp only [List.mem_cons, List.not_mem_nil, or_false] at hc
      subst hc
      exact hw

theorem rmwCycles_steady (f : Byte → Byte → Byte × Byte) (m : MemOperand) : ∀ c ∈ rmwCycles f m, Cycle.Steady c := by
  intro c hc
  have h1 : Cycle.Steady rmwRead :=
    steady_more (f := fun s => (readEffect s.cpu.ea s).onCpu fun c => { c with m := cpuPeek s.cpu.ea s }) fun s =>
      (control_readEffect _ s).trans (control_onCpu fun _ => ⟨rfl, rfl, rfl, rfl, rfl, rfl, rfl, rfl, rfl, rfl⟩)
  have h2 : Cycle.Steady rmwHold := steady_more (f := fun s => idleWrite s.cpu.ea s.cpu.m s) fun s => control_idleWrite _ _ s
  have h3 : Cycle.Steady (rmwLast f) :=
    steady_done (f := fun s => (cpuWrite s.cpu.ea (f s.cpu.p s.cpu.m).1 s).onCpu fun c => { c with p := (f s.cpu.p s.cpu.m).2 })
      fun s => (control_cpuWrite _ _ s).clock.trans (clock_onCpu fun _ => ⟨rfl, rfl, rfl, rfl⟩)
  simp only [rmwCycles, List.mem_append] at hc
  rcases hc with hc | hc | hc
  · exact addressCycles_steady m c hc
  · split at hc
    · simp only [List.mem_cons, List.not_mem_nil, or_false] at hc
      subst hc
      exact fixUpCycle_steady
    · simp at hc
  · simp only [List.mem_cons, List.not_mem_nil, or_false] at hc
    rcases hc with rfl | rfl | rfl
    · exact h1
    · exact h2
    · exact h3

theorem internalCycles_steady {f : Cpu → Cpu} (hf : CountKeeper f) : ∀ c ∈ internalCycles f, Cycle.Steady c := by
  intro c hc
  simp only [internalCycles, List.mem_cons, List.not_mem_nil, or_false] at hc
  subst hc
  exact steady_done (f := fun s => (idleRead s.cpu.pc s).onCpu f) fun s => (control_idleRead _ s).clock.trans (clock_onCpu hf)

theorem branchCycles_steady (cond : Byte → Bool) (off : Byte) : ∀ c ∈ branchCycles cond off, Cycle.Steady c := by
  intro c hc
  simp only [branchCycles, List.mem_cons, List.not_mem_nil, or_false] at hc
  rcases hc with rfl | rfl | rfl
  · refine ⟨fun s t e => ?_, fun s t e => ?_⟩ <;> unfold branchDecide at e <;> dsimp only at e <;> split at e
    · exact more_inj e ▸ control_onCpu fun _ => ⟨rfl, rfl, rfl, rfl, rfl, rfl, rfl, rfl, rfl, rfl⟩
    · exact (more_ne_done e.symm).elim
    · exact (more_ne_done e).elim
    · exact done_inj e ▸ clock_onCpu fun _ => ⟨rfl, rfl, rfl, rfl⟩
  · refine ⟨fun s t e => ?_, fun s t e => ?_⟩ <;> unfold branchTake at e <;> dsimp only at e <;> split at e
    · exact more_inj e ▸ control_idleRead _ s
    · exact (more_ne_done e.symm).elim
    · exact (more_ne_done e).elim
    · exact done_inj e ▸ (control_idleRead _ s).clock.trans (clock_onCpu fun _ => ⟨rfl, rfl, rfl, rfl⟩)
  · exact steady_done (f := fun s => (idleRead (mkWord (hiByte s.cpu.pc) (loByte s.cpu.ea)) s).onCpu fun c => { c with pc := c.ea })
      fun s => (control_idleRead _ s).clock.trans (clock_onCpu fun _ => ⟨rfl, rfl, rfl, rfl⟩)

theorem idleAtPc_steady : Cycle.Steady idleAtPc := steady_more (f := fun s => idleRead s.cpu.pc s) fun s => control_idleRead _ s

theorem idleAtStack_steady : Cycle.Steady idleAtStack :=
  steady_more (f := fun s => idleRead (stackAddr s.cpu.sp) s) fun s => control_idleRead _ s

theorem pull_steady_more {f : Byte → Cpu → Cpu}
    (h : ∀ v, ∀ c : Cpu, (f v c).cyc = c.cyc ∧ (f v c).sub = c.sub ∧ (f v c).ready = c.ready ∧ (f v c).ir = c.ir ∧
      (f v c).lo = c.lo ∧ (f v c).hi = c.hi ∧ (f v c).halted = c.halted ∧ (f v c).dmaActive = c.dmaActive ∧
      (f v c).nmiActive = c.nmiActive ∧ (f v c).irqActive = c.irqActive) :
    Cycle.Steady fun s => .more ((afterPull s).onCpu (f (pullValue s))) :=
  steady_more (f := fun s => (afterPull s).onCpu (f (pullValue s))) fun s => (control_afterPull s).trans (control_onCpu (h _))

theorem pull_steady_done {f : Byte → Cpu → Cpu} (h : ∀ v, CountKeeper (f v)) :
    Cycle.Steady fun s => .done ((afterPull s).onCpu (f (pullValue s))) :=
  steady_done (f := fun s => (afterPull s).onCpu (f (pullValue s))) fun s => (control_afterPull s).clock.trans (clock_onCpu (h _))

theorem push_steady_more (v : State → Byte) : Cycle.Steady fun s => .more (push (v s) s) :=
  steady_more (f := fun s => push (v s) s) fun s => control_push _ s

theorem push_steady_done (v : State → Byte) : Cycle.Steady fun s => .done (push (v s) s) :=
  steady_done (f := fun s => push (v s) s) fun s => (control_push _ s).clock

theorem entryCycles_steady (b : State → Bool) (vector : State → Word) {close : Cpu → Cpu}
    (hclose : ∀ s : State, SameClock s (s.onCpu close)) :
    ∀ c ∈ entryCycles b vector close, Cycle.Steady c := by
  intro c hc
  simp only [entryCycles, List.mem_cons, List.not_mem_nil, or_false] at hc
  rcases hc with rfl | rfl | rfl | rfl | rfl
  · exact push_steady_more _
  · exact push_steady_more _
  · exact steady_more (f := fun s => (push (pushedStatus s.cpu.p (b s)) s).onCpu fun c => { c with p := setFlag c.p flagI true })
      fun s => (control_push _ s).trans (control_onCpu fun _ => ⟨rfl, rfl, rfl, rfl, rfl, rfl, rfl, rfl, rfl, rfl⟩)
  · exact steady_more (f := fun s => (readEffect (vector s) s).onCpu (setPcLow (cpuPeek (vector s) s))) fun s =>
      (control_readEffect _ s).trans (control_onCpu fun _ => ⟨rfl, rfl, rfl, rfl, rfl, rfl, rfl, rfl, rfl, rfl⟩)
  · exact steady_done (f := fun s => (readEffect (vector s + 1) s).onCpu fun c => close (setPcHigh (cpuPeek (vector s + 1) s) c))
      fun s => (control_readEffect _ s).clock.trans ((clock_onCpu (f := setPcHigh (cpuPeek (vector s + 1) s))
        fun _ => ⟨rfl, rfl, rfl, rfl⟩).trans (hclose _))

theorem serviceCycles_steady : ∀ c ∈ serviceCycles, Cycle.Steady c := by
  intro c hc
  rw [serviceCycles, List.mem_cons, List.mem_cons] at hc
  rcases hc with rfl | rfl | hc
  · exact idleAtPc_steady
  · exact idleAtPc_steady
  · exact entryCycles_steady _ _ (close := endService)
      (fun _ => ⟨rfl, rfl, rfl, rfl, .inr ⟨rfl, rfl⟩, rfl, rfl, rfl, rfl, rfl⟩) c hc

/-- A whole service sequence counts its seven rows in `sub` (R377). -/
theorem runCycles_serviceCycles_sub (s : State) : (runCycles serviceCycles s).cpu.sub = s.cpu.sub + 7 := by
  simp only [serviceCycles, entryCycles, idleAtPc, runCycles, retire_cpu, State.onCpu_cpu, endService_sub, setPcHigh_sub,
    setPcLow_sub, advance_sub, readEffect_cpu, (control_idleRead _ _).sub, (control_push _ _).sub]

theorem jsrLead_steady : ∀ c ∈ jsrLead, Cycle.Steady c := by
  intro c hc
  simp only [jsrLead, List.mem_cons, List.not_mem_nil, or_false] at hc
  rcases hc with rfl | rfl | rfl | rfl
  · exact steady_more (f := id) SameControl.refl
  · exact idleAtStack_steady
  · exact push_steady_more _
  · exact push_steady_more _

theorem jsrLast_steady (target : Word) : Cycle.Steady (jsrLast target) :=
  steady_done (f := fun s => (readEffect s.cpu.pc s).onCpu fun c => { c with hi := hiByte target, pc := target })
    fun s => (control_readEffect _ s).clock.trans (clock_onCpu fun _ => ⟨rfl, rfl, rfl, rfl⟩)

theorem shiftCycles_steady (f : Byte → Byte → Byte × Byte) (o : ShiftOperand) : ∀ c ∈ shiftCycles f o, Cycle.Steady c := by
  cases o with
  | acc => exact internalCycles_steady (f := fun c => { c with a := (f c.p c.a).1, p := (f c.p c.a).2 }) fun _ => ⟨rfl, rfl, rfl, rfl⟩
  | mem m => exact rmwCycles_steady f m

theorem cyclesJmp_steady (o : JumpOperand) : ∀ c ∈ cyclesJmp o, Cycle.Steady c := by
  intro c hc
  cases o with
  | abs w =>
    simp only [cyclesJmp, List.mem_cons, List.not_mem_nil, or_false] at hc
    subst hc
    exact steady_done (f := fun s => s.onCpu fun c => { c with pc := w }) fun s => clock_onCpu fun _ => ⟨rfl, rfl, rfl, rfl⟩
  | ind w =>
    simp only [cyclesJmp, List.mem_cons, List.not_mem_nil, or_false] at hc
    rcases hc with rfl | rfl | rfl
    · exact steady_more (f := fun s => s.onCpu fun c => { c with ptr := w }) fun s =>
        control_onCpu fun _ => ⟨rfl, rfl, rfl, rfl, rfl, rfl, rfl, rfl, rfl, rfl⟩
    · exact steady_more (f := fun s => (readEffect s.cpu.ptr s).onCpu fun c => { c with ea := zext16 (cpuPeek s.cpu.ptr s) })
        fun s => (control_readEffect _ s).trans (control_onCpu fun _ => ⟨rfl, rfl, rfl, rfl, rfl, rfl, rfl, rfl, rfl, rfl⟩)
    · exact steady_done (f := fun s => (readEffect (samePageNext s.cpu.ptr) s).onCpu fun c =>
        { c with pc := mkWord (cpuPeek (samePageNext s.cpu.ptr) s) (loByte c.ea) }) fun s =>
          (control_readEffect _ s).clock.trans (clock_onCpu fun _ => ⟨rfl, rfl, rfl, rfl⟩)

theorem cyclesRts_steady : ∀ c ∈ cyclesRts, Cycle.Steady c := by
  intro c hc
  simp only [cyclesRts, List.mem_cons, List.not_mem_nil, or_false] at hc
  rcases hc with rfl | rfl | rfl | rfl | rfl
  · exact idleAtPc_steady
  · exact idleAtStack_steady
  · exact pull_steady_more fun _ _ => ⟨rfl, rfl, rfl, rfl, rfl, rfl, rfl, rfl, rfl, rfl⟩
  · exact pull_steady_more fun _ _ => ⟨rfl, rfl, rfl, rfl, rfl, rfl, rfl, rfl, rfl, rfl⟩
  · exact steady_done (f := fun s => (idleRead s.cpu.pc s).onCpu incPc) fun s =>
      (control_idleRead _ s).clock.trans (clock_onCpu fun _ => ⟨rfl, rfl, rfl, rfl⟩)

theorem rtiCycles_steady : ∀ c ∈ rtiCycles, Cycle.Steady c := by
  intro c hc
  simp only [rtiCycles, List.mem_cons, List.not_mem_nil, or_false] at hc
  rcases hc with rfl | rfl | rfl | rfl | rfl
  · exact idleAtPc_steady
  · exact idleAtStack_steady
  · exact pull_steady_more (f := fun v c => { c with p := pulledStatus v }) fun _ _ =>
      ⟨rfl, rfl, rfl, rfl, rfl, rfl, rfl, rfl, rfl, rfl⟩
  · exact pull_steady_more fun _ _ => ⟨rfl, rfl, rfl, rfl, rfl, rfl, rfl, rfl, rfl, rfl⟩
  · exact pull_steady_done fun _ _ => ⟨rfl, rfl, rfl, rfl⟩

theorem brkCycles_steady : ∀ c ∈ brkCycles, Cycle.Steady c := by
  intro c hc
  rw [brkCycles, List.mem_cons] at hc
  rcases hc with rfl | hc
  · exact steady_more (f := fun s => (idleRead s.cpu.pc s).onCpu incPc) fun s =>
      (control_idleRead _ s).trans (control_onCpu fun _ => ⟨rfl, rfl, rfl, rfl, rfl, rfl, rfl, rfl, rfl, rfl⟩)
  · exact entryCycles_steady _ _ (close := id) (fun _ => clock_onCpu fun _ => ⟨rfl, rfl, rfl, rfl⟩) c hc

/-- Every cycle of every instruction leaves the control state while the instruction goes on. -/
theorem cyclesOf_steady (i : Instr) : ∀ c ∈ cyclesOf i, Cycle.Steady c := by
  cases i with
  | lda o => exact readCycles_steady (op := loadA) (fun _ _ => ⟨rfl, rfl, rfl, rfl⟩) o
  | ldx o => exact readCycles_steady (op := loadX) (fun _ _ => ⟨rfl, rfl, rfl, rfl⟩) o
  | ldy o => exact readCycles_steady (op := loadY) (fun _ _ => ⟨rfl, rfl, rfl, rfl⟩) o
  | sta m => exact writeCycles_steady _ m
  | stx m => exact writeCycles_steady _ m
  | sty m => exact writeCycles_steady _ m
  | adc o => exact readCycles_steady (op := opAdc) (fun _ _ => ⟨rfl, rfl, rfl, rfl⟩) o
  | sbc o => exact readCycles_steady (op := opSbc) (fun _ _ => ⟨rfl, rfl, rfl, rfl⟩) o
  | and o => exact readCycles_steady (op := opAnd) (fun _ _ => ⟨rfl, rfl, rfl, rfl⟩) o
  | ora o => exact readCycles_steady (op := opOra) (fun _ _ => ⟨rfl, rfl, rfl, rfl⟩) o
  | eor o => exact readCycles_steady (op := opEor) (fun _ _ => ⟨rfl, rfl, rfl, rfl⟩) o
  | cmp o => exact readCycles_steady (op := opCmp) (fun _ _ => ⟨rfl, rfl, rfl, rfl⟩) o
  | cpx o => exact readCycles_steady (op := opCpx) (fun _ _ => ⟨rfl, rfl, rfl, rfl⟩) o
  | cpy o => exact readCycles_steady (op := opCpy) (fun _ _ => ⟨rfl, rfl, rfl, rfl⟩) o
  | bit m => exact readCycles_steady (op := opBit) (fun _ _ => ⟨rfl, rfl, rfl, rfl⟩) (.mem m)
  | asl o => exact shiftCycles_steady fAsl o
  | lsr o => exact shiftCycles_steady fLsr o
  | rol o => exact shiftCycles_steady fRol o
  | ror o => exact shiftCycles_steady fRor o
  | inc m => exact rmwCycles_steady fInc m
  | dec m => exact rmwCycles_steady fDec m
  | jmp o => exact cyclesJmp_steady o
  | jsr target =>
    intro c hc
    rw [cyclesOf, cyclesJsr, List.mem_append, List.mem_singleton] at hc
    rcases hc with hc | rfl
    · exact jsrLead_steady c hc
    · exact jsrLast_steady target
  | rts => exact cyclesRts_steady
  | rti => exact rtiCycles_steady
  | brk => exact brkCycles_steady
  | bcc off => exact branchCycles_steady _ off
  | bcs off => exact branchCycles_steady _ off
  | beq off => exact branchCycles_steady _ off
  | bne off => exact branchCycles_steady _ off
  | bmi off => exact branchCycles_steady _ off
  | bpl off => exact branchCycles_steady _ off
  | bvc off => exact branchCycles_steady _ off
  | bvs off => exact branchCycles_steady _ off
  | pha =>
    intro c hc
    simp only [cyclesOf, cyclesPha, List.mem_cons, List.not_mem_nil, or_false] at hc
    rcases hc with rfl | rfl
    · exact idleAtPc_steady
    · exact push_steady_done _
  | php =>
    intro c hc
    simp only [cyclesOf, cyclesPhp, List.mem_cons, List.not_mem_nil, or_false] at hc
    rcases hc with rfl | rfl
    · exact idleAtPc_steady
    · exact push_steady_done _
  | pla =>
    intro c hc
    simp only [cyclesOf, cyclesPla, List.mem_cons, List.not_mem_nil, or_false] at hc
    rcases hc with rfl | rfl | rfl
    · exact idleAtPc_steady
    · exact idleAtStack_steady
    · exact pull_steady_done (f := fun v c => { c with a := v, p := setNZ c.p v }) fun _ _ => ⟨rfl, rfl, rfl, rfl⟩
  | plp =>
    intro c hc
    simp only [cyclesOf, cyclesPlp, List.mem_cons, List.not_mem_nil, or_false] at hc
    rcases hc with rfl | rfl | rfl
    · exact idleAtPc_steady
    · exact idleAtStack_steady
    · exact pull_steady_done (f := fun v c => { c with p := pulledStatus v }) fun _ _ => ⟨rfl, rfl, rfl, rfl⟩
  | illegal op =>
    intro c hc
    simp only [cyclesOf, cyclesIllegal, List.mem_cons, List.not_mem_nil, or_false] at hc
    subst hc
    exact steady_done (f := fun s => s.onCpu fun c => { c with halted := true }) fun s => clock_onCpu fun _ => ⟨rfl, rfl, rfl, rfl⟩
  | tax => exact internalCycles_steady (f := fun c => { c with x := c.a, p := setNZ c.p c.a }) fun _ => ⟨rfl, rfl, rfl, rfl⟩
  | tay => exact internalCycles_steady (f := fun c => { c with y := c.a, p := setNZ c.p c.a }) fun _ => ⟨rfl, rfl, rfl, rfl⟩
  | txa => exact internalCycles_steady (f := fun c => { c with a := c.x, p := setNZ c.p c.x }) fun _ => ⟨rfl, rfl, rfl, rfl⟩
  | tya => exact internalCycles_steady (f := fun c => { c with a := c.y, p := setNZ c.p c.y }) fun _ => ⟨rfl, rfl, rfl, rfl⟩
  | tsx => exact internalCycles_steady (f := fun c => { c with x := c.sp, p := setNZ c.p c.sp }) fun _ => ⟨rfl, rfl, rfl, rfl⟩
  | txs => exact internalCycles_steady (f := fun c => { c with sp := c.x }) fun _ => ⟨rfl, rfl, rfl, rfl⟩
  | inx => exact internalCycles_steady (f := fun c => { c with x := c.x + 1, p := setNZ c.p (c.x + 1) }) fun _ => ⟨rfl, rfl, rfl, rfl⟩
  | iny => exact internalCycles_steady (f := fun c => { c with y := c.y + 1, p := setNZ c.p (c.y + 1) }) fun _ => ⟨rfl, rfl, rfl, rfl⟩
  | dex => exact internalCycles_steady (f := fun c => { c with x := c.x - 1, p := setNZ c.p (c.x - 1) }) fun _ => ⟨rfl, rfl, rfl, rfl⟩
  | dey => exact internalCycles_steady (f := fun c => { c with y := c.y - 1, p := setNZ c.p (c.y - 1) }) fun _ => ⟨rfl, rfl, rfl, rfl⟩
  | clc => exact internalCycles_steady (f := fun c => { c with p := setFlag c.p flagC false }) fun _ => ⟨rfl, rfl, rfl, rfl⟩
  | sec => exact internalCycles_steady (f := fun c => { c with p := setFlag c.p flagC true }) fun _ => ⟨rfl, rfl, rfl, rfl⟩
  | cli => exact internalCycles_steady (f := fun c => { c with p := setFlag c.p flagI false }) fun _ => ⟨rfl, rfl, rfl, rfl⟩
  | sei => exact internalCycles_steady (f := fun c => { c with p := setFlag c.p flagI true }) fun _ => ⟨rfl, rfl, rfl, rfl⟩
  | clv => exact internalCycles_steady (f := fun c => { c with p := setFlag c.p flagV false }) fun _ => ⟨rfl, rfl, rfl, rfl⟩
  | cld => exact internalCycles_steady (f := fun c => { c with p := setFlag c.p flagD false }) fun _ => ⟨rfl, rfl, rfl, rfl⟩
  | sed => exact internalCycles_steady (f := fun c => { c with p := setFlag c.p flagD true }) fun _ => ⟨rfl, rfl, rfl, rfl⟩
  | nop => exact internalCycles_steady (f := id) fun _ => ⟨rfl, rfl, rfl, rfl⟩

end Sys2Proof.Machine
end

