-- ==== Sys2Proof/Laws/Run.lean ====
section
/-!
SUPPORT. The step as an iteration of CPU cycles, and CPU cycles as master cycles.
-/

namespace Sys2Proof.Machine

/-! The control state after time passes. -/

theorem Later.control {s t : State} (h : Later s t) (hb : t.bus = s.bus) (hc : t.cpu.cyc = s.cpu.cyc) : SameControl s t := by
  have e {α : Type} (f : Cpu → α) (hf : ∀ c n k, f { c with cyc := n, nmiPending := k } = f c) : f t.cpu = f s.cpu := by
    rw [h.cpu]; exact hf _ _ _
  exact ⟨h.cfg, hb, hc, e (·.sub) fun _ _ _ => rfl, e (·.ready) fun _ _ _ => rfl, e (·.ir) fun _ _ _ => rfl,
    e (·.lo) fun _ _ _ => rfl, e (·.hi) fun _ _ _ => rfl, e (·.halted) fun _ _ _ => rfl, e (·.dmaActive) fun _ _ _ => rfl,
    e (·.nmiActive) fun _ _ _ => rfl, e (·.irqActive) fun _ _ _ => rfl, congrArg PpuRegs.ready h.regs, by rw [h.cart],
    by rw [h.cart], by rw [h.port0], by rw [h.port1]⟩

/-- The CPU's divider is at 0 when it has waited. -/
theorem observeHalt_bus (s : State) : (observeHalt s).bus.cpuDivCnt = s.bus.cpuDivCnt ∧
    (observeHalt s).bus.ppuDivCnt = s.bus.ppuDivCnt := by
  unfold observeHalt; split <;> exact ⟨rfl, rfl⟩

theorem afterCpu_cpuDivCnt (s : State) : (afterCpu s).bus.cpuDivCnt = s.bus.cpuDivCnt := by
  have h : ∀ u : State, (routeNmi u).bus = u.bus := fun u => by unfold routeNmi; split <;> rfl
  have g : ∀ u : State, (ppuTick u).bus.cpuDivCnt = u.bus.cpuDivCnt := fun u => by unfold ppuTick; split <;> rfl
  unfold afterCpu
  rw [(observeHalt_bus _).1, h]
  exact g s

theorem idleCycle_cpuDivCnt (s : State) : (idleCycle s).bus.cpuDivCnt = s.bus.cpuDivCnt - 1 := afterCpu_cpuDivCnt _

theorem finishCycle_cpuDivCnt (s : State) : (finishCycle s).bus.cpuDivCnt = s.cfg.cpuDivider - 1 := afterCpu_cpuDivCnt _

theorem idleCycles_cpuDivCnt (n : Nat) (s : State) : (idleCycles n s).bus.cpuDivCnt = s.bus.cpuDivCnt - n := by
  induction n generalizing s with
  | zero => rfl
  | succ n ih => rw [idleCycles, ih, idleCycle_cpuDivCnt]; omega

@[simp] theorem waitCpu_cpuDivCnt (s : State) : (waitCpu s).bus.cpuDivCnt = 0 := by
  rw [waitCpu, idleCycles_cpuDivCnt]; omega

/-! Waiting is master cycles. -/

theorem masterCycles_add (m n : Nat) (s : State) : masterCycles (m + n) s = masterCycles n (masterCycles m s) := by
  induction m generalizing s with
  | zero => rw [Nat.zero_add]; rfl
  | succ m ih => rw [Nat.add_right_comm]; exact ih _

theorem masterCycles_idle (n : Nat) (s : State) (h : n ≤ s.bus.cpuDivCnt) : masterCycles n s = idleCycles n s := by
  induction n generalizing s with
  | zero => rfl
  | succ n ih =>
    have hn : ¬ s.bus.cpuDivCnt = 0 := by omega
    have e : masterCycle s = idleCycle s := by unfold masterCycle; rw [if_neg hn]
    show masterCycles n (masterCycle s) = idleCycles n (idleCycle s)
    rw [e]
    exact ih _ (by rw [idleCycle_cpuDivCnt]; omega)

/-- Waiting for the CPU's next cycle is the master cycles its divider counts (R121). -/
theorem waitCpu_eq (s : State) : waitCpu s = masterCycles s.bus.cpuDivCnt s := (masterCycles_idle _ s le_rfl).symm

/-- A CPU cycle is one master cycle, and the wait after it is the rest of the divider's count (R120, R121). -/
theorem masterCycle_cpu {s : State} (h0 : s.bus.cpuDivCnt = 0) (hh : s.cpu.halted = false) :
    masterCycle s = finishCycle (cpuWork s) := by
  unfold masterCycle
  rw [if_pos h0, if_neg (by rw [hh]; exact Bool.false_ne_true)]

theorem elapse_eq {s : State} (h0 : s.bus.cpuDivCnt = 0) (hh : s.cpu.halted = false)
    (hd : 0 < (cpuWork s).cfg.cpuDivider) : elapse (cpuWork s) = masterCycles (cpuWork s).cfg.cpuDivider s := by
  unfold elapse
  rw [waitCpu_eq, finishCycle_cpuDivCnt, ← masterCycle_cpu h0 hh]
  have : (cpuWork s).cfg.cpuDivider = 1 + ((cpuWork s).cfg.cpuDivider - 1) := by omega
  conv => rhs; rw [this, masterCycles_add]
  rfl

@[simp] theorem elapse_cpuDivCnt (s : State) : (elapse s).bus.cpuDivCnt = 0 := waitCpu_cpuDivCnt _

/-! Running a list of cycles one CPU cycle at a time. -/

/-- The state of control in the middle of a sequence, `advance` apart. -/
theorem control_advance (s : State) : (advance s).cfg = s.cfg ∧ (advance s).bus.cpuDivCnt = 0 := ⟨by simp, elapse_cpuDivCnt _⟩

/-- A sequence whose last cycle ends it. -/
def Ends (cs : List Cycle) : Prop := ∃ init last, cs = init ++ [last] ∧ ∀ s, ∃ t, last s = .done t

/-- If a CPU step made in cycle `k` of a sequence is that cycle, running CPU steps to the end is running the list.
`P` holds all through the sequence. -/
theorem runCpu_cycles {P : State → Prop} {cs : List Cycle} {base : Nat} (hends : Ends cs)
    (hwork : ∀ u k, P u → u.cpu.sub = base + k → k < cs.length → cpuWork u = oneCycle cs k u)
    (hready : ∀ u, P u → u.cpu.ready = false)
    (hP : ∀ k (hk : k < cs.length) u t, P u → u.cpu.sub = base + k → cs[k] u = .more t → P (advance t))
    (hsteady : ∀ c ∈ cs, Cycle.Steady c) :
    ∀ n k u, cs.length ≤ n + k → k < cs.length → P u → u.cpu.sub = base + k →
      runCpu n u = .next (finishCycle (runCycles (cs.drop k) u)) := by
  intro n
  induction n with
  | zero => intro k u hn hk; omega
  | succ n ih =>
    intro k u hn hk hu hs
    have hget : cs[k]? = some cs[k] := List.getElem?_eq_getElem hk
    have hmem : cs[k] ∈ cs := List.getElem_mem hk
    rw [runCpu, hwork u k hu hs hk, oneCycle, hget]
    simp only
    rw [List.drop_eq_getElem_cons hk]
    cases hc : cs[k] u with
    | done t => simp [runCycles, hc, retire, State.onCpu]
    | more t =>
      have hsm := (hsteady _ hmem).more u t hc
      have hrt : t.cpu.ready = false := hsm.ready.trans (hready u hu)
      have hk1 : k + 1 < cs.length := by
        obtain ⟨init, last, e, hl⟩ := hends
        by_contra hcon
        have : k = init.length := by rw [e, List.length_append, List.length_singleton] at hk hcon; omega
        subst this
        obtain ⟨w, hw⟩ := hl u
        have : cs[init.length] = last := by simp [e]
        rw [this, hw] at hc
        cases hc
      have hr : (State.onCpu t fun c => { c with sub := c.sub + 1 }).cpu.ready = false := hrt
      simp only [hr, Bool.false_eq_true, if_false, runCycles, hc]
      refine ih (k + 1) (advance t) (by omega) hk1 (hP k hk u t hu hs hc) ?_
      rw [advance_sub, hsm.sub, hs]
      omega

end Sys2Proof.Machine
end

