-- ==== Sys2Proof/Laws/StepRun.lean ====
section
/-!
SUPPORT. The step is CPU cycles run to the end of what the CPU is doing, whether it fetches an instruction or not.
-/

namespace Sys2Proof.Machine

/-! Every sequence ends with its last cycle. -/

theorem ends_append (xs : List Cycle) {ys : List Cycle} (h : Ends ys) : Ends (xs ++ ys) := by
  obtain ⟨init, last, e, hl⟩ := h
  exact ⟨xs ++ init, last, by rw [e, List.append_assoc], hl⟩

theorem ends_done (xs : List Cycle) (f : State → State) : Ends (xs ++ [fun s => .done (f s)]) :=
  ⟨xs, _, rfl, fun s => ⟨f s, rfl⟩⟩

theorem readCycles_ends (op : Byte → Cpu → Cpu) (o : ReadOperand) : Ends (readCycles op o) := by
  cases o with
  | imm v => exact ends_done [] _
  | mem m =>
    refine ends_append _ ?_
    split
    · exact ⟨[fixUpOrRead op], readLast op, rfl, fun s => ⟨_, rfl⟩⟩
    · exact ⟨[], readLast op, rfl, fun s => ⟨_, rfl⟩⟩

theorem writeCycles_ends (val : Cpu → Byte) (m : MemOperand) : Ends (writeCycles val m) := by
  refine ends_append _ ?_
  split
  · exact ⟨[fixUpCycle], writeLast val, rfl, fun s => ⟨_, rfl⟩⟩
  · exact ⟨[], writeLast val, rfl, fun s => ⟨_, rfl⟩⟩

theorem rmwCycles_ends (f : Byte → Byte → Byte × Byte) (m : MemOperand) : Ends (rmwCycles f m) :=
  ends_append _ (ends_append _ ⟨[rmwRead, rmwHold], rmwLast f, rfl, fun _ => ⟨_, rfl⟩⟩)

theorem internalCycles_ends (f : Cpu → Cpu) : Ends (internalCycles f) := ⟨[], _, rfl, fun _ => ⟨_, rfl⟩⟩

theorem shiftCycles_ends (f : Byte → Byte → Byte × Byte) (o : ShiftOperand) : Ends (shiftCycles f o) := by
  cases o with
  | acc => exact internalCycles_ends _
  | mem m => exact rmwCycles_ends f m

theorem branchCycles_ends (cond : Byte → Bool) (off : Byte) : Ends (branchCycles cond off) :=
  ⟨[branchDecide cond off, branchTake], branchFix, rfl, fun _ => ⟨_, rfl⟩⟩

theorem entryCycles_ends (b : State → Bool) (vector : State → Word) (close : Cpu → Cpu) : Ends (entryCycles b vector close) :=
  ⟨[_, _, _, _], _, rfl, fun _ => ⟨_, rfl⟩⟩

theorem serviceCycles_ends : Ends serviceCycles := ends_append [_, _] (entryCycles_ends _ _ _)

theorem cyclesOf_ends (i : Instr) : Ends (cyclesOf i) := by
  cases i with
  | lda o => exact readCycles_ends _ o
  | ldx o => exact readCycles_ends _ o
  | ldy o => exact readCycles_ends _ o
  | adc o => exact readCycles_ends _ o
  | sbc o => exact readCycles_ends _ o
  | and o => exact readCycles_ends _ o
  | ora o => exact readCycles_ends _ o
  | eor o => exact readCycles_ends _ o
  | cmp o => exact readCycles_ends _ o
  | cpx o => exact readCycles_ends _ o
  | cpy o => exact readCycles_ends _ o
  | bit m => exact readCycles_ends _ (.mem m)
  | sta m => exact writeCycles_ends _ m
  | stx m => exact writeCycles_ends _ m
  | sty m => exact writeCycles_ends _ m
  | asl o => exact shiftCycles_ends _ o
  | lsr o => exact shiftCycles_ends _ o
  | rol o => exact shiftCycles_ends _ o
  | ror o => exact shiftCycles_ends _ o
  | inc m => exact rmwCycles_ends _ m
  | dec m => exact rmwCycles_ends _ m
  | jmp o =>
    cases o with
    | abs w => exact ends_done [] _
    | ind w => exact ⟨[_, _], _, rfl, fun _ => ⟨_, rfl⟩⟩
  | jsr w => exact ends_append jsrLead ⟨[], jsrLast w, rfl, fun _ => ⟨_, rfl⟩⟩
  | rts => exact ⟨[_, _, _, _], _, rfl, fun _ => ⟨_, rfl⟩⟩
  | rti => exact ⟨[_, _, _, _], _, rfl, fun _ => ⟨_, rfl⟩⟩
  | brk => exact ends_append [_] (entryCycles_ends _ _ _)
  | bcc off => exact branchCycles_ends _ off
  | bcs off => exact branchCycles_ends _ off
  | beq off => exact branchCycles_ends _ off
  | bne off => exact branchCycles_ends _ off
  | bmi off => exact branchCycles_ends _ off
  | bpl off => exact branchCycles_ends _ off
  | bvc off => exact branchCycles_ends _ off
  | bvs off => exact branchCycles_ends _ off
  | pha => exact ⟨[_], _, rfl, fun _ => ⟨_, rfl⟩⟩
  | php => exact ⟨[_], _, rfl, fun _ => ⟨_, rfl⟩⟩
  | pla => exact ⟨[_, _], _, rfl, fun _ => ⟨_, rfl⟩⟩
  | plp => exact ⟨[_, _], _, rfl, fun _ => ⟨_, rfl⟩⟩
  | illegal op => exact ⟨[], haltCycle, rfl, fun _ => ⟨_, rfl⟩⟩
  | tax => exact internalCycles_ends _
  | tay => exact internalCycles_ends _
  | txa => exact internalCycles_ends _
  | tya => exact internalCycles_ends _
  | tsx => exact internalCycles_ends _
  | txs => exact internalCycles_ends _
  | inx => exact internalCycles_ends _
  | iny => exact internalCycles_ends _
  | dex => exact internalCycles_ends _
  | dey => exact internalCycles_ends _
  | clc => exact internalCycles_ends _
  | sec => exact internalCycles_ends _
  | cli => exact internalCycles_ends _
  | sei => exact internalCycles_ends _
  | clv => exact internalCycles_ends _
  | cld => exact internalCycles_ends _
  | sed => exact internalCycles_ends _
  | nop => exact internalCycles_ends _

/-- No sequence has more than seven cycles. -/
theorem cyclesOf_length (i : Instr) : 0 < (cyclesOf i).length ∧ (cyclesOf i).length ≤ 8 := by
  have hm : ∀ m : MemOperand, 0 < (addressCycles m).length ∧ (addressCycles m).length ≤ 4 := by
    intro m; cases m <;> simp [addressCycles]
  have hr : ∀ op o, 0 < (readCycles op o).length ∧ (readCycles op o).length ≤ 8 := by
    intro op o
    cases o with
    | imm v => exact ⟨Nat.one_pos, by show 1 ≤ 8; omega⟩
    | mem m =>
      have := hm m
      simp only [readCycles, List.length_append]
      split <;> simp only [List.length_cons, List.length_nil] <;> omega
  have hw : ∀ v m, 0 < (writeCycles v m).length ∧ (writeCycles v m).length ≤ 8 := by
    intro v m
    have := hm m
    simp only [writeCycles, List.length_append]
    split <;> simp only [List.length_cons, List.length_nil] <;> omega
  have hx : ∀ f m, 0 < (rmwCycles f m).length ∧ (rmwCycles f m).length ≤ 8 := by
    intro v m
    have := hm m
    simp only [rmwCycles, List.length_append]
    split <;> simp only [List.length_cons, List.length_nil] <;> omega
  have hs : ∀ f o, 0 < (shiftCycles f o).length ∧ (shiftCycles f o).length ≤ 8 := by
    intro f o
    cases o with
    | acc => exact ⟨Nat.one_pos, by show 1 ≤ 8; omega⟩
    | mem m => exact hx f m
  cases i <;> first
    | exact hr _ _
    | exact hw _ _
    | exact hs _ _
    | exact hx _ _
    | exact hr opBit (.mem _)
    | exact ⟨by show 0 < 1; omega, by show 1 ≤ 8; omega⟩
    | exact ⟨by show 0 < 2; omega, by show 2 ≤ 8; omega⟩
    | exact ⟨by show 0 < 3; omega, by show 3 ≤ 8; omega⟩
    | exact ⟨by show 0 < 5; omega, by show 5 ≤ 8; omega⟩
    | exact ⟨by show 0 < 6; omega, by show 6 ≤ 8; omega⟩
    | (rename_i o; cases o <;> first
        | exact ⟨by show 0 < 1; omega, by show 1 ≤ 8; omega⟩
        | exact ⟨by show 0 < 3; omega, by show 3 ≤ 8; omega⟩)

/-! Service sequences. -/

/-- What holds all through a service sequence. -/
structure InService (u : State) : Prop where
  ready : u.cpu.ready = false
  dma : u.cpu.dmaActive = false
  active : (u.cpu.nmiActive || u.cpu.irqActive) = true

/-- Running CPU steps through a service sequence, from its cycle `k` on, is running the list (R377). -/
theorem runCpu_service {n k : Nat} {u : State} (hu : InService u) (hs : u.cpu.sub = k) (hk : k < serviceCycles.length)
    (hn : serviceCycles.length ≤ n + k) :
    runCpu n u = .next (finishCycle (runCycles (serviceCycles.drop k) u)) := by
  refine runCpu_cycles (P := InService) (base := 0) serviceCycles_ends ?_ (fun u h => h.ready) ?_ serviceCycles_steady n k u hn
    hk hu (by rw [hs, Nat.zero_add])
  · intro u k h hs _
    rw [Nat.zero_add] at hs
    unfold cpuWork serviceCycle
    rw [if_neg (by rw [h.dma]; exact Bool.false_ne_true), if_pos h.active, hs]
  · intro k hk u t h _ e
    have g := (serviceCycles_steady _ (List.getElem_mem hk)).more u t e
    exact ⟨by rw [advance_ready, g.ready, h.ready], by rw [advance_dmaActive, g.dma, h.dma],
      by rw [advance_nmiActive, advance_irqActive, g.nmi, g.irq, h.active]⟩

/-! Instructions. -/

/-- What holds all through an instruction, its operand bytes fetched. -/
structure InInstr (op lo hi : Byte) (u : State) : Prop where
  ready : u.cpu.ready = false
  dma : u.cpu.dmaActive = false
  nmi : u.cpu.nmiActive = false
  irq : u.cpu.irqActive = false
  ir : u.cpu.ir = op
  lo : u.cpu.lo = lo
  hi : u.cpu.hi = hi

theorem InInstr.advance {op lo hi : Byte} {u t : State} (h : InInstr op lo hi u) (g : SameControl u t) :
    InInstr op lo hi (advance t) :=
  ⟨by rw [advance_ready, g.ready, h.ready], by rw [advance_dmaActive, g.dma, h.dma],
    by rw [advance_nmiActive, g.nmi, h.nmi], by rw [advance_irqActive, g.irq, h.irq], by rw [advance_ir, g.ir, h.ir],
    by rw [advance_lo, g.lo, h.lo], by rw [advance_hi, g.hi, h.hi]⟩

theorem InInstr.work {op lo hi : Byte} {u : State} (h : InInstr op lo hi u) : cpuWork u = instrCycle u := by
  unfold cpuWork
  rw [if_neg (by rw [h.dma]; exact Bool.false_ne_true), if_neg (by rw [h.nmi, h.irq]; exact Bool.false_ne_true),
    if_neg (by rw [h.ready]; exact Bool.false_ne_true)]

/-- Past its operand bytes an instruction fetches nothing more. -/
theorem fetchOperand_past {u : State} (h : entrySub u.cpu.ir < u.cpu.sub) : fetchOperand u = u := by
  unfold fetchOperand entrySub at *
  split at h
  · rw [if_neg (by omega), if_neg (by omega)]
  · rw [if_neg (by omega), if_neg (by omega)]

theorem entrySub_pos (op : Byte) : 1 ≤ entrySub op := by unfold entrySub; split <;> omega

theorem instrCycle_past {u : State} (h : entrySub u.cpu.ir < u.cpu.sub) :
    instrCycle u = oneCycle (cyclesOf (currentInstr u)) (u.cpu.sub - entrySub u.cpu.ir) u := by
  unfold instrCycle
  rw [fetchOperand_past h]
  simp only
  rw [if_neg (by omega)]

/-- An instruction but JSR, from its entry cycle `t` on, which the CPU step from `v` begins: running CPU steps is
running its cycles. -/
theorem runCpu_instr {op : Byte} (hj : op ≠ jsrOpcode) {v t : State} {n : Nat} (hv : cpuWork v = instrCycle v)
    (ht : fetchOperand v = t) (hi : InInstr op t.cpu.lo t.cpu.hi t) (hs : t.cpu.sub = entrySub op) (hn : 8 ≤ n) :
    runCpu (n + 1) v = .next (finishCycle (runCycles (cyclesOf (instrOf op t.cpu.lo t.cpu.hi)) t)) := by
  set i := instrOf op t.cpu.lo t.cpu.hi with hidef
  have hcur : ∀ u, InInstr op t.cpu.lo t.cpu.hi u → currentInstr u = i := by
    intro u h
    unfold currentInstr
    rw [h.ir, h.lo, h.hi, if_neg hj]
  have hlen := cyclesOf_length i
  have hfirst : cpuWork v = oneCycle (cyclesOf i) 0 t := by
    rw [hv]
    unfold instrCycle
    rw [ht]
    simp only
    rw [hcur t hi, hi.ir, hs, if_neg (by omega), Nat.sub_self]
  have hget : (cyclesOf i)[0]? = some (cyclesOf i)[0] := List.getElem?_eq_getElem hlen.1
  have hmem : (cyclesOf i)[0] ∈ cyclesOf i := List.getElem_mem hlen.1
  rw [runCpu, hfirst, oneCycle, hget]
  simp only
  have hrun : runCycles (cyclesOf i) t = runCycles ((cyclesOf i).drop 0) t := by rw [List.drop_zero]
  rw [hrun, List.drop_eq_getElem_cons hlen.1]
  cases hc : (cyclesOf i)[0] t with
  | done x => simp [runCycles, hc, retire, State.onCpu]
  | more x =>
    have hsm := (cyclesOf_steady i _ hmem).more t x hc
    have hr : (State.onCpu x fun c => { c with sub := c.sub + 1 }).cpu.ready = false := hsm.ready.trans hi.ready
    have hk : 1 < (cyclesOf i).length := by
      obtain ⟨init, last, e, hl⟩ := cyclesOf_ends i
      by_contra hcon
      have : init = [] := by
        have : init.length = 0 := by rw [e, List.length_append, List.length_singleton] at hcon; omega
        exact List.eq_nil_of_length_eq_zero this
      subst this
      obtain ⟨w, hw⟩ := hl t
      have h0 : (cyclesOf i)[0] = last := by simp [e]
      rw [h0, hw] at hc
      cases hc
    simp only [hr, Bool.false_eq_true, if_false, runCycles, hc]
    refine runCpu_cycles (P := fun u => InInstr op t.cpu.lo t.cpu.hi u ∧ entrySub op < u.cpu.sub) (base := entrySub op)
      (cyclesOf_ends i) ?_ (fun u h => h.1.ready) ?_ (cyclesOf_steady i) n 1 (Machine.advance x) (by omega) hk ?_ ?_
    · intro u k h hs _
      rw [h.1.work, instrCycle_past (by rw [h.1.ir]; exact h.2), hcur u h.1, h.1.ir, hs, Nat.add_sub_cancel_left]
    · intro k hk u w h _ e
      have g := (cyclesOf_steady i _ (List.getElem_mem hk)).more u w e
      exact ⟨h.1.advance g, by rw [advance_sub, g.sub]; have := h.2; omega⟩
    · exact ⟨hi.advance hsm, by rw [advance_sub, hsm.sub, hs]; omega⟩
    · rw [advance_sub, hsm.sub, hs]

/-! JSR, whose third byte is read by its last cycle (R241; log 6). -/

theorem oneCycle_jsrLead {w w' : Word} {k : Nat} (hk : k < 4) (u : State) :
    oneCycle (cyclesJsr w) k u = oneCycle (cyclesJsr w') k u := by
  have : (cyclesJsr w)[k]? = (cyclesJsr w')[k]? := by
    unfold cyclesJsr
    rw [List.getElem?_append_left (by exact hk), List.getElem?_append_left (by exact hk)]
  unfold oneCycle
  rw [this]

theorem instrOf_jsr (a b : Byte) : instrOf jsrOpcode a b = .jsr (mkWord b a) := rfl

/-- JSR from its entry cycle `t` on: running CPU steps is running its cycles, with the byte that its last cycle reads. -/
theorem runCpu_jsr {v t : State} {n : Nat} (hv : cpuWork v = instrCycle v) (ht : fetchOperand v = t)
    (hi : InInstr jsrOpcode t.cpu.lo t.cpu.hi t) (hs : t.cpu.sub = 1) (hn : 8 ≤ n) :
    runCpu (n + 1) v = .next (finishCycle (runCycles (cyclesJsr (mkWord (jsrHigh t) t.cpu.lo)) t)) := by
  set W := mkWord (jsrHigh t) t.cpu.lo with hW
  have he : entrySub jsrOpcode = 1 := rfl
  have hcur : ∀ u, InInstr jsrOpcode t.cpu.lo t.cpu.hi u → cyclesOf (currentInstr u) = cyclesJsr (mkWord (cpuPeek u.cpu.pc u) t.cpu.lo) := by
    intro u h
    unfold currentInstr
    rw [h.ir, h.lo, if_pos rfl, instrOf_jsr]
    rfl
  have hlen : (cyclesJsr W).length = 5 := rfl
  have hfirst : cpuWork v = oneCycle (cyclesJsr W) 0 t := by
    rw [hv]
    unfold instrCycle
    rw [ht]
    simp only
    rw [hcur t hi, hi.ir, hs, he, if_neg (by omega), Nat.sub_self, oneCycle_jsrLead (by omega)]
  have h1 : runCpu (n + 1) v = runCpu n (advance t) := by
    rw [runCpu, hfirst]
    have : oneCycle (cyclesJsr W) 0 t = t.onCpu fun c => { c with sub := c.sub + 1 } := rfl
    rw [this]
    have hr : (State.onCpu t fun c => { c with sub := c.sub + 1 }).cpu.ready = false := hi.ready
    simp only [hr, Bool.false_eq_true, if_false]
    rfl
  have h2 : runCycles (cyclesJsr W) t = runCycles ((cyclesJsr W).drop 1) (advance t) := rfl
  rw [h1, h2]
  refine runCpu_cycles
    (P := fun u => InInstr jsrOpcode t.cpu.lo t.cpu.hi u ∧ 1 < u.cpu.sub ∧
      leadCycles (jsrLead.drop (u.cpu.sub - 1)) u = leadCycles jsrLead t)
    (base := 1) (cyclesOf_ends (.jsr W)) ?_ (fun u h => h.1.ready) ?_ (cyclesOf_steady (.jsr W)) n 1 (advance t)
    (by show 5 ≤ _; omega) (by show 1 < 5; omega) ⟨hi.advance (SameControl.refl t), ?_, ?_⟩ ?_
  · intro u k h hsub hk
    have hk5 : k < 5 := hk
    rw [h.1.work, instrCycle_past (by rw [h.1.ir, he]; exact h.2.1), hcur u h.1, h.1.ir, hsub, he, Nat.add_sub_cancel_left]
    by_cases h4 : k < 4
    · exact oneCycle_jsrLead h4 u
    · have hk4 : k = 4 := by omega
      have hu : u = leadCycles jsrLead t := by
        have := h.2.2
        rw [hsub, hk4] at this
        exact this
      rw [hW]
      unfold jsrHigh
      simp only
      rw [← hu]
      rfl
  · intro k hk u w h hsub e
    have hk5 : k < 5 := hk
    have g := (cyclesOf_steady (.jsr W) _ (List.getElem_mem hk)).more u w e
    refine ⟨h.1.advance g, by rw [advance_sub, g.sub]; have := h.2.1; omega, ?_⟩
    have h4 : k < 4 := by
      by_contra hcon
      have hk4 : k = 4 := by omega
      subst hk4
      exact (more_ne_done e.symm).elim
    have hlead : jsrLead[k] u = .more w := by
      have : (cyclesJsr W)[k] = jsrLead[k] := List.getElem_append_left (by exact h4)
      exact (congrFun this u).symm.trans e
    rw [advance_sub, g.sub, hsub, ← h.2.2, hsub]
    rw [show 1 + k + 1 - 1 = k + 1 by omega, show 1 + k - 1 = k by omega]
    conv => rhs; rw [List.drop_eq_getElem_cons (by exact h4)]
    simp only [leadCycles, hlead]
  · rw [advance_sub, hs]; omega
  · rw [advance_sub, hs]; rfl
  · rw [advance_sub, hs]

/-! Fetching. -/

theorem waiting_fields {u : State} (hu : fetches u.cpu = true) :
    u.cpu.dmaActive = false ∧ u.cpu.nmiActive = false ∧ u.cpu.irqActive = false ∧ u.cpu.ready = true ∧
      choose u.cpu = .fetch := by
  unfold fetches at hu
  simp only [Bool.and_eq_true, Bool.not_eq_true', decide_eq_true_eq] at hu
  exact ⟨hu.1.1.1.1, hu.1.1.1.2, hu.1.1.2, hu.1.2, hu.2⟩

theorem opcodeMode_operandBytes (op : Byte) : opcodeMode op = (instrOf op 0 0).mode := rfl

/-- Fetching an instruction and running its meaning is running CPU steps (R125, R140, R141). -/
theorem runInstr_eq {u : State} (hu : fetches u.cpu = true) : runInstr u = runCpu runCpuBound u := by
  obtain ⟨h1, h2, h3, h4, h5⟩ := waiting_fields hu
  have hw : cpuWork u = fetchCycle u := by
    unfold cpuWork boundaryCycle
    rw [if_neg (by rw [h1]; exact Bool.false_ne_true), if_neg (by rw [h2, h3]; exact Bool.false_ne_true), if_pos h4, h5]
  unfold runInstr
  rw [exec_eq]
  show finishOutcome _ = runCpu (519 + 1) u
  rw [runCpu, hw]
  unfold fetchCycle fetchInstr
  simp only
  set f := fetchOpcode u with hf
  have fcpu : f.cpu.ready = true ∧ f.cpu.dmaActive = false ∧ f.cpu.nmiActive = false ∧ f.cpu.irqActive = false := by
    simp [hf, fetchOpcode, h1, h2, h3, h4]
  cases hill : isIllegal f.cpu.ir with
  | true =>
    simp only [if_true, State.onCpu, fcpu.1, cyclesOf, cyclesIllegal, runCycles, haltCycle, finishOutcome, retire]
  | false =>
    simp only [Bool.false_eq_true, if_false, beginInstr, State.onCpu]
    set b : State := { f with cpu := { f.cpu with mode := opcodeMode f.cpu.ir, ready := false, sub := 1 } } with hb
    set v := elapse b with hv
    have vir : v.cpu.ir = f.cpu.ir := by simp [hv, hb]
    have vsub : v.cpu.sub = 1 := by simp [hv, hb]
    have vin : InInstr v.cpu.ir v.cpu.lo v.cpu.hi v :=
      ⟨by simp [hv, hb], by simp [hv, hb, fcpu.2.1], by simp [hv, hb, fcpu.2.2.1], by simp [hv, hb, fcpu.2.2.2], rfl, rfl, rfl⟩
    have vleg : isIllegal v.cpu.ir = false := by rw [vir, hill]
    obtain ⟨F, hF, hinst⟩ := instrOf_legal vleg
    have hmode : (F 0 0).mode = opcodeMode v.cpu.ir := by rw [opcodeMode_operandBytes, hinst]
    have hlow : ∀ w : State, InInstr v.cpu.ir w.cpu.lo w.cpu.hi w → w.cpu.sub = 1 →
        InInstr v.cpu.ir (fetchLow w).cpu.lo (fetchLow w).cpu.hi (fetchLow w) ∧ (fetchLow w).cpu.sub = 1 := by
      intro w h hs
      unfold fetchLow
      refine ⟨⟨?_, ?_, ?_, ?_, ?_, rfl, rfl⟩, ?_⟩
      · simpa using h.ready
      · simpa using h.dma
      · simpa using h.nmi
      · simpa using h.irq
      · simpa using h.ir
      · simpa using hs
    have hhigh : ∀ w : State, InInstr v.cpu.ir w.cpu.lo w.cpu.hi w → w.cpu.sub = 2 →
        InInstr v.cpu.ir (fetchHigh w).cpu.lo (fetchHigh w).cpu.hi (fetchHigh w) ∧ (fetchHigh w).cpu.sub = 2 := by
      intro w h hs
      unfold fetchHigh
      refine ⟨⟨?_, ?_, ?_, ?_, ?_, rfl, rfl⟩, ?_⟩
      · simpa using h.ready
      · simpa using h.dma
      · simpa using h.nmi
      · simpa using h.irq
      · simpa using h.ir
      · simpa using hs
    unfold fetchOperands
    by_cases hj : v.cpu.ir = jsrOpcode
    · have hlb : leadingBytes v.cpu.ir = 1 := by unfold leadingBytes; rw [if_pos hj]
      rw [hlb]
      simp only
      have hfo : fetchOperand v = fetchLow v := by
        unfold fetchOperand
        rw [if_pos ⟨vsub, by omega⟩]
      obtain ⟨hi, hs⟩ := hlow v vin vsub
      have hir : (fetchLow v).cpu.ir = jsrOpcode := hi.ir.trans hj
      rw [hj] at hi
      rw [runCpu_jsr (v := v) (t := fetchLow v) (n := 518) vin.work hfo hi hs (by omega), if_pos hir, hir, instrOf_jsr]
      rfl
    · have hlb : leadingBytes v.cpu.ir = (F 0 0).mode.operandBytes := by
        unfold leadingBytes
        rw [if_neg hj, hmode]
      have he : entrySub v.cpu.ir = if (F 0 0).mode.operandBytes = 2 then 2 else 1 := by
        unfold entrySub
        rw [hlb]
      have hle : (F 0 0).mode.operandBytes = 0 ∨ (F 0 0).mode.operandBytes = 1 ∨ (F 0 0).mode.operandBytes = 2 := by
        cases (F 0 0).mode <;> simp [Mode.operandBytes]
      rw [hlb]
      rcases hle with hn | hn | hn
      · rw [hn] at he hlb ⊢
        simp only
        have hfo : fetchOperand v = v := by
          unfold fetchOperand
          rw [if_neg (by omega), if_neg (by omega)]
        rw [runCpu_instr (t := v) (n := 518) hj vin.work hfo vin (by rw [vsub, he]; rfl) (by omega), hinst, hinst,
          hF.none hn v.cpu.lo v.cpu.hi]
        rfl
      · rw [hn] at he hlb ⊢
        simp only
        have hfo : fetchOperand v = fetchLow v := by
          unfold fetchOperand
          rw [if_pos ⟨vsub, by omega⟩]
        obtain ⟨hi, hs⟩ := hlow v vin vsub
        have hir : (fetchLow v).cpu.ir = v.cpu.ir := hi.ir
        rw [runCpu_instr (t := fetchLow v) (n := 518) hj vin.work hfo hi (by rw [hs, he]; rfl) (by omega), hir, if_neg hj,
          hinst, hinst, hF.one hn (fetchLow v).cpu.lo (fetchLow v).cpu.hi]
        rfl
      · rw [hn] at he hlb ⊢
        simp only
        have hfo : fetchOperand v = fetchLow v := by
          unfold fetchOperand
          rw [if_pos ⟨vsub, by omega⟩]
        obtain ⟨hi, hs⟩ := hlow v vin vsub
        have hstep : runCpu 519 v = runCpu 518 (advance (fetchLow v)) := by
          rw [runCpu, vin.work]
          unfold instrCycle
          rw [hfo]
          simp only
          have hlt : (fetchLow v).cpu.sub < entrySub (fetchLow v).cpu.ir := by
            rw [hs, hi.ir, he, if_pos rfl]
            exact Nat.one_lt_two
          rw [if_pos hlt]
          have hr : (State.onCpu (fetchLow v) fun c => { c with sub := c.sub + 1 }).cpu.ready = false := hi.ready
          simp only [hr, Bool.false_eq_true, if_false]
          rfl
        have wi := hi.advance (SameControl.refl _)
        set w := advance (fetchLow v) with hwd
        have wsub : w.cpu.sub = 2 := by rw [hwd, advance_sub, hs]
        have wii : InInstr v.cpu.ir w.cpu.lo w.cpu.hi w := ⟨wi.ready, wi.dma, wi.nmi, wi.irq, wi.ir, rfl, rfl⟩
        have hfo2 : fetchOperand w = fetchHigh w := by
          unfold fetchOperand
          rw [if_neg (by omega), if_pos ⟨wsub, by rw [wi.ir]; exact hlb⟩]
        obtain ⟨hi2, hs2⟩ := hhigh w wii wsub
        rw [hstep, runCpu_instr (t := fetchHigh w) (n := 517) hj wii.work hfo2 hi2 (by rw [hs2, he]; rfl) (by omega),
          hi2.ir]
        rfl

/-- The step of a CPU that is not halted: time passes to its next cycle, and CPU steps run to the end of what the CPU
is doing (R125, R158; log 5). -/
theorem step_eq_runCpu {s : State} (h : s.cpu.halted = false) : step s = runCpu runCpuBound (waitCpu s) := by
  unfold step
  rw [h]
  simp only [Bool.false_eq_true, if_false]
  split
  next hf => exact runInstr_eq hf
  · rfl

end Sys2Proof.Machine
end

