-- ==== Sys2Proof/Laws/Work.lean ====
section
/-!
SUPPORT. Everything the work of one CPU step can do: what it leaves unchanged, and that it keeps the invariant.
-/

namespace Sys2Proof.Machine

/-- What the work of no CPU step changes. -/
structure WorkFrame (s t : State) : Prop where
  cfg : t.cfg = s.cfg
  bus : t.bus = s.bus
  cyc : t.cpu.cyc = s.cpu.cyc
  ppuReady : t.ppu.ready = s.ppu.ready
  rom : t.cart.rom = s.cart.rom
  mapper : t.cart.mapper.id = s.cart.mapper.id
  buttons0 : t.port0.buttons = s.port0.buttons
  buttons1 : t.port1.buttons = s.port1.buttons
  halted : t.cpu.ready = false → t.cpu.halted = s.cpu.halted

theorem SameControl.work {s t : State} (h : SameControl s t) : WorkFrame s t :=
  ⟨h.cfg, h.bus, h.cyc, h.ppuReady, h.rom, h.mapper, h.buttons0, h.buttons1, fun _ => h.halted⟩

theorem WorkFrame.trans {s t u : State} (h : SameControl s t) (g : WorkFrame t u) : WorkFrame s u :=
  ⟨g.cfg.trans h.cfg, g.bus.trans h.bus, g.cyc.trans h.cyc, g.ppuReady.trans h.ppuReady, g.rom.trans h.rom,
    g.mapper.trans h.mapper, g.buttons0.trans h.buttons0, g.buttons1.trans h.buttons1, fun n => (g.halted n).trans h.halted⟩

/-- A change of the CPU that leaves the count of cycles, and the halt unless the CPU becomes ready. -/
theorem work_onCpu {s : State} {f : Cpu → Cpu} (h1 : (f s.cpu).cyc = s.cpu.cyc)
    (h2 : (f s.cpu).ready = false → (f s.cpu).halted = s.cpu.halted) : WorkFrame s (s.onCpu f) :=
  ⟨rfl, rfl, h1, rfl, rfl, rfl, rfl, rfl, h2⟩

theorem WorkFrame.then {s t u : State} (h : WorkFrame s t) (hh : t.cpu.halted = s.cpu.halted) (g : WorkFrame t u) :
    WorkFrame s u :=
  ⟨g.cfg.trans h.cfg, g.bus.trans h.bus, g.cyc.trans h.cyc, g.ppuReady.trans h.ppuReady, g.rom.trans h.rom,
    g.mapper.trans h.mapper, g.buttons0.trans h.buttons0, g.buttons1.trans h.buttons1, fun n => (g.halted n).trans hh⟩

theorem work_oneCycle {cs : List Cycle} (hs : ∀ c ∈ cs, Cycle.Steady c) (k : Nat) (s : State) :
    WorkFrame s (oneCycle cs k s) := by
  unfold oneCycle
  split
  next c hc =>
    have hm : c ∈ cs := List.mem_of_getElem? hc
    split
    next t ht =>
      have h := (hs c hm).done s t ht
      exact ⟨h.cfg, h.bus, h.cyc, h.ppuReady, h.rom, h.mapper, h.buttons0, h.buttons1, fun n => by cases n⟩
    next t ht =>
      have h := (hs c hm).more s t ht
      exact ⟨h.cfg, h.bus, h.cyc, h.ppuReady, h.rom, h.mapper, h.buttons0, h.buttons1, fun _ => h.halted⟩
  · exact work_onCpu rfl fun n => by cases n

theorem work_fetchLow (s : State) : WorkFrame s (fetchLow s) :=
  WorkFrame.trans (control_readEffect _ s) (work_onCpu rfl fun _ => rfl)

theorem work_fetchHigh (s : State) : WorkFrame s (fetchHigh s) :=
  WorkFrame.trans (control_readEffect _ s) (work_onCpu rfl fun _ => rfl)

theorem fetchOperand_frame (s : State) : WorkFrame s (fetchOperand s) ∧ (fetchOperand s).cpu.halted = s.cpu.halted := by
  unfold fetchOperand
  split_ifs
  · exact ⟨work_fetchLow s, by simp [fetchLow]⟩
  · exact ⟨work_fetchHigh s, by simp [fetchHigh]⟩
  · exact ⟨(SameControl.refl s).work, rfl⟩

theorem work_instrCycle (s : State) : WorkFrame s (instrCycle s) := by
  have h := fetchOperand_frame s
  unfold instrCycle
  dsimp only
  split_ifs
  · exact h.1.then h.2 (work_onCpu rfl fun _ => rfl)
  · exact h.1.then h.2 (work_oneCycle (cyclesOf_steady _) _ _)

theorem work_fetchCycle {s : State} (hr : s.cpu.ready = true) : WorkFrame s (fetchCycle s) := by
  have h : WorkFrame s (fetchOpcode s) := WorkFrame.trans (control_readEffect _ s) (work_onCpu rfl fun _ => rfl)
  have hh : (fetchOpcode s).cpu.halted = s.cpu.halted := by simp [fetchOpcode]
  have hrd : (fetchOpcode s).cpu.ready = true := by simp [fetchOpcode, hr]
  unfold fetchCycle beginInstr
  dsimp only
  split_ifs
  · refine h.then hh (work_onCpu rfl fun n => ?_)
    rw [show (({ (fetchOpcode s).cpu with halted := true } : Cpu)).ready = (fetchOpcode s).cpu.ready from rfl, hrd] at n
    cases n
  · exact h.then hh (work_onCpu rfl fun _ => rfl)

theorem work_dmaRead (s : State) : WorkFrame s (dmaRead s) :=
  WorkFrame.trans (control_readEffect (mkWord s.cpu.dmaPage s.cpu.dmaAddr) s)
    (work_onCpu (f := fun c => { c with dmaData := cpuPeek (mkWord s.cpu.dmaPage s.cpu.dmaAddr) s }) rfl fun _ => rfl)

theorem work_dmaWrite (s : State) : WorkFrame s (dmaWrite s) := by
  unfold dmaWrite
  dsimp only
  refine ⟨rfl, rfl, ?_, rfl, rfl, rfl, rfl, rfl, fun _ => ?_⟩
  · show (if _ then _ else _ : Cpu).cyc = _
    split <;> rfl
  · show (if _ then _ else _ : Cpu).halted = _
    split <;> rfl

theorem work_dmaCycle (s : State) : WorkFrame s (dmaCycle s) := by
  unfold dmaCycle
  split_ifs
  · exact (SameControl.refl s).work
  · exact (work_onCpu (f := dmaAlign) rfl fun _ => rfl).then rfl (work_dmaRead _)
  · exact work_dmaRead s
  · exact work_dmaWrite s

/-- What the work of a CPU step leaves unchanged. -/
theorem cpuWork_frame (s : State) : WorkFrame s (cpuWork s) := by
  unfold cpuWork
  split_ifs with h1 h2 h3
  · exact work_dmaCycle s
  · exact work_oneCycle serviceCycles_steady _ s
  · unfold boundaryCycle
    split
    · exact (work_onCpu (s := s) (f := fun c => { c with dmaRequest := false, dmaActive := true, dmaAddr := 0, dmaWait := true, ready := false })
        rfl fun _ => rfl).then rfl (work_dmaCycle _)
    · exact (work_onCpu (s := s) (f := fun c => { c with nmiPending := false, nmiActive := true, ready := false, sub := 0 })
        rfl fun _ => rfl).then rfl (work_oneCycle serviceCycles_steady _ _)
    · exact (work_onCpu (s := s) (f := fun c => { c with irqPending := false, irqActive := true, ready := false, sub := 0 })
        rfl fun _ => rfl).then rfl (work_oneCycle serviceCycles_steady _ _)
    · exact work_fetchCycle h3
  · exact work_instrCycle s

/-! The invariant. -/

theorem inv_oneCycle {cs : List Cycle} (hc : ∀ c ∈ cs, Cycle.Keeps c) (k : Nat) {s : State} (hs : Inv s) :
    Inv (oneCycle cs k s) := by
  unfold oneCycle
  split
  next c h =>
    have hk := hc c (List.mem_of_getElem? h) s hs
    split
    next t ht => exact inv_onCpu_same (hk.2 t ht) rfl
    next t ht => exact inv_onCpu_same (hk.1 t ht) rfl
  · exact inv_onCpu_same hs rfl

theorem inv_dmaCycle {s : State} (hs : Inv s) : Inv (dmaCycle s) := by
  have hr : ∀ u, Inv u → Inv (dmaRead u) := fun u hu => inv_onCpu_same (inv_readEffect hu _) rfl
  have hw : Inv (dmaWrite s) := by
    unfold dmaWrite
    dsimp only
    have hp : Inv (s.onPpu fun p => { p with oam := Store.write unlisted p.oam s.cpu.dmaAddr.toNat s.cpu.dmaData }) := by
      rw [inv_iff] at hs ⊢
      obtain ⟨h1, h2, h3⟩ := hs
      exact ⟨h1, ⟨h2.oam.write s.cpu.dmaAddr.isLt _, h2.pal, h2.ciram, h2.sec, h2.fb, h2.lineLow, h2.lineHigh, h2.dot,
        h2.secCount, h2.sprCount, h2.status, h2.ready⟩, h3⟩
    refine inv_onCpu_same hp ?_
    split <;> rfl
  unfold dmaCycle
  split_ifs
  · exact hs
  · exact hr _ (inv_onCpu_same hs rfl)
  · exact hr s hs
  · exact hw

/-- The work of a CPU step keeps the invariant. -/
theorem inv_cpuWork {s : State} (hs : Inv s) : Inv (cpuWork s) := by
  have hf : Inv (fetchOpcode s) := inv_onCpu_same (inv_readEffect hs _) (by simp)
  have ho : Inv (fetchOperand s) := by
    unfold fetchOperand fetchLow fetchHigh
    split_ifs
    · exact inv_onCpu_same (inv_readEffect hs _) rfl
    · exact inv_onCpu_same (inv_readEffect hs _) rfl
    · exact hs
  unfold cpuWork
  split_ifs
  · exact inv_dmaCycle hs
  · exact inv_oneCycle serviceCycles_keep _ hs
  · unfold boundaryCycle
    split
    · exact inv_dmaCycle (inv_onCpu_same hs rfl)
    · exact inv_oneCycle serviceCycles_keep _ (inv_onCpu_same hs rfl)
    · exact inv_oneCycle serviceCycles_keep _ (inv_onCpu_same hs rfl)
    · unfold fetchCycle beginInstr
      simp only
      split_ifs
      · exact inv_onCpu_same hf rfl
      · exact inv_onCpu_same hf rfl
  · unfold instrCycle
    simp only
    split_ifs
    · exact inv_onCpu_same ho rfl
    · exact inv_oneCycle (cyclesOf_keep _) _ ho

/-- A property that the work of a CPU step and the time around it keep, a run of CPU steps keeps. -/
theorem runCpu_keeps {P : State → Prop} (hw : ∀ s, P s → P (cpuWork s)) (hf : ∀ s, P s → P (finishCycle s))
    (he : ∀ s, P s → P (elapse s)) : ∀ n s t, P s → runCpu n s = .next t → P t := by
  intro n
  induction n with
  | zero => intro s t _ h; cases h
  | succ n ih =>
    intro s t hs h
    rw [runCpu] at h
    split at h
    · cases h; exact hf _ (hw s hs)
    · exact ih _ t (he _ (hw s hs)) h

end Sys2Proof.Machine
end

