-- ==== Sys2Proof/Machine/Disassembly.lean ====
section
/-!
DEFINITION. Assembler syntax (spec/30_encoding.md R107). Host software: nothing in the machine reads it.
-/

namespace Sys2Proof

/-- An upper-case hexadecimal digit. -/
def hexDigit (n : Nat) : String :=
  match n with
  | 0 => "0" | 1 => "1" | 2 => "2" | 3 => "3" | 4 => "4" | 5 => "5" | 6 => "6" | 7 => "7"
  | 8 => "8" | 9 => "9" | 10 => "A" | 11 => "B" | 12 => "C" | 13 => "D" | 14 => "E" | _ => "F"

/-- `$hh`. -/
def hexByte (b : Byte) : String := "$" ++ hexDigit (b.toNat / 16) ++ hexDigit (b.toNat % 16)

/-- `$hhhh`. -/
def hexWord (w : Word) : String :=
  "$" ++ hexDigit (w.toNat / 4096) ++ hexDigit (w.toNat / 256 % 16) ++ hexDigit (w.toNat / 16 % 16) ++ hexDigit (w.toNat % 16)

/-- The mnemonic of an instruction, as the opcode table spells it. -/
def Instr.mnemonic : Instr → String
  | .lda _ => "LDA" | .ldx _ => "LDX" | .ldy _ => "LDY" | .sta _ => "STA" | .stx _ => "STX" | .sty _ => "STY"
  | .tax => "TAX" | .tay => "TAY" | .txa => "TXA" | .tya => "TYA" | .tsx => "TSX" | .txs => "TXS"
  | .adc _ => "ADC" | .sbc _ => "SBC" | .and _ => "AND" | .ora _ => "ORA" | .eor _ => "EOR"
  | .cmp _ => "CMP" | .cpx _ => "CPX" | .cpy _ => "CPY" | .bit _ => "BIT"
  | .asl _ => "ASL" | .lsr _ => "LSR" | .rol _ => "ROL" | .ror _ => "ROR" | .inc _ => "INC" | .dec _ => "DEC"
  | .inx => "INX" | .iny => "INY" | .dex => "DEX" | .dey => "DEY"
  | .jmp _ => "JMP" | .jsr _ => "JSR" | .rts => "RTS" | .rti => "RTI" | .brk => "BRK"
  | .bcc _ => "BCC" | .bcs _ => "BCS" | .beq _ => "BEQ" | .bne _ => "BNE"
  | .bmi _ => "BMI" | .bpl _ => "BPL" | .bvc _ => "BVC" | .bvs _ => "BVS"
  | .pha => "PHA" | .php => "PHP" | .pla => "PLA" | .plp => "PLP"
  | .clc => "CLC" | .sec => "SEC" | .cli => "CLI" | .sei => "SEI" | .clv => "CLV" | .cld => "CLD" | .sed => "SED"
  | .nop => "NOP" | .illegal _ => "ILLEGAL"

/-- The text of a memory form (R107). -/
def MemOperand.text : MemOperand → String
  | .zp b => " " ++ hexByte b
  | .zpx b => " " ++ hexByte b ++ ",X"
  | .zpy b => " " ++ hexByte b ++ ",Y"
  | .abs w => " " ++ hexWord w
  | .abx w => " " ++ hexWord w ++ ",X"
  | .aby w => " " ++ hexWord w ++ ",Y"
  | .izx b => " (" ++ hexByte b ++ ",X)"
  | .izy b => " (" ++ hexByte b ++ "),Y"

/-- The text of a read operand (R107). -/
def ReadOperand.text : ReadOperand → String
  | .imm v => " #" ++ hexByte v
  | .mem m => m.text

/-- The text of a shift operand (R107). -/
def ShiftOperand.text : ShiftOperand → String
  | .acc => " A"
  | .mem m => m.text

/-- The text of a jump operand (R107). -/
def JumpOperand.text : JumpOperand → String
  | .abs w => " " ++ hexWord w
  | .ind w => " (" ++ hexWord w ++ ")"

/-- The operand text of an instruction at address `pc`; a branch shows its target (R107). -/
def Instr.operandText (pc : Word) : Instr → String
  | .lda o | .ldx o | .ldy o | .adc o | .sbc o | .and o | .ora o | .eor o | .cmp o | .cpx o | .cpy o => o.text
  | .sta m | .stx m | .sty m | .bit m | .inc m | .dec m => m.text
  | .asl o | .lsr o | .rol o | .ror o => o.text
  | .jmp o => o.text
  | .jsr w => " " ++ hexWord w
  | .bcc b | .bcs b | .beq b | .bne b | .bmi b | .bpl b | .bvc b | .bvs b => " " ++ hexWord (pc + 2 + sext16 b)
  | .tax | .tay | .txa | .tya | .tsx | .txs | .inx | .iny | .dex | .dey | .rts | .rti | .brk
  | .pha | .php | .pla | .plp | .clc | .sec | .cli | .sei | .clv | .cld | .sed | .nop => ""
  | .illegal op => " " ++ hexByte op

/-- The disassembly of an instruction at address `pc` (R107); an illegal byte has no template in R107, and shows
the table's name and the byte (DESIGN CHOICE: log 25). -/
def Instr.text (pc : Word) (i : Instr) : String := i.mnemonic ++ i.operandText pc

end Sys2Proof
end

