-- ==== Sys2Proof/Tests/Slice0.lean ====
section
/-!
SUPPORT. Tests, each on one step or one small operation, with expected results from the spec (the vector of
spec/95_test_vectors.md or the rule is named with each), and a witness for the hypotheses of every obligation that
has some.
-/

namespace Sys2Proof.Tests

open Sys2Proof Sys2Proof.Machine

-- The tests are evaluated one after another: a thread for each at once takes more stacks than the check's memory holds.
set_option Elab.async false

/-! ## Small states -/

/-- A byte memory from a list of its bytes. -/
def store (cells : List (Nat × Byte)) : Store 8 := cells.foldl (fun m c => Store.write unlisted m c.1 c.2) []

/-- The bytes of a program at `$8000`, which is `prg[0]`. -/
def bytesAt (start : Nat) (bs : List Byte) : List (Nat × Byte) := (List.range' start bs.length).zip bs

/-- The cartridge `T0` of spec/95_test_vectors.md with its reset vector and some PRG bytes. -/
def t0Cart (cells : List (Nat × Byte)) : Cartridge :=
  { Cartridge.blank with
    rom := { Cartridge.blank.rom with prg := store (cells ++ [(0x3FFC, 0x00), (0x3FFD, 0x80)]), mirroring := .vertical } }

/-- The machine after reset with the cartridge `T0`. -/
def t0 (cells : List (Nat × Byte)) : State := deviceReset { State.reset with cart := t0Cart cells }

/-- One instruction at `$8000`, with registers and RAM as given. -/
def ready (bs : List Byte) (cpu : Cpu → Cpu) (ram : List (Nat × Byte)) : State :=
  { (t0 (bytesAt 0 bs)).onCpu cpu with ram := store ram }

/-- Whether the next step answers a next state with a property. -/
def stepIs (s : State) (ok : State → Bool) : Bool :=
  match step s with
  | .next t => ok t
  | .fault _ => false
  | .refused _ => false

/-- One instruction run from `$8000`. -/
def runs (bs : List Byte) (cpu : Cpu → Cpu) (ram : List (Nat × Byte)) (ok : State → Bool) : Bool :=
  stepIs (ready bs cpu ram) ok

/-- A byte of RAM. -/
def ramAt (i : Nat) (s : State) : Byte := Store.read unlisted s.ram i

theorem next_of_stepIs {s : State} {ok : State → Bool} (h : stepIs s ok = true) : ∃ t, step s = .next t ∧ ok t = true := by
  unfold stepIs at h
  split at h
  · exact ⟨_, ‹_›, h⟩
  · simp at h
  · simp at h

/-! ## WellFormed: an ill-formed term for each check -/

/-- R105: STA has no immediate form by its type; LDX has no zero-page,X form, LDY no zero-page,Y form. -/
theorem test_wellFormed_mode_refused :
    WellFormed (.ldx (.mem (.zpx 0x10))) = false ∧ WellFormed (.ldy (.mem (.zpy 0x10))) = false ∧
    WellFormed (.bit (.zpx 0x10)) = false ∧ WellFormed (.cpx (.mem (.abx 0x0200))) = false ∧
    WellFormed (.asl (.mem (.aby 0x0200))) = false ∧ WellFormed (.stx (.zpx 0x10)) = false ∧
    WellFormed (.inc (.izx 0x10)) = false := by decide

/-- R104: a byte that R103 gives an instruction is no illegal opcode. -/
theorem test_wellFormed_illegal_refused :
    WellFormed (.illegal 0xEA) = false ∧ WellFormed (.illegal 0x00) = false ∧ WellFormed (.illegal 0x02) = true := by
  decide

/-! ## Decoding: words written out from R103 and R101, one family after the other -/

theorem test_decode_loads :
    decode [0xA9, 0x05] = .ok (.lda (.imm 0x05), []) ∧ decode [0xB5, 0x10] = .ok (.lda (.mem (.zpx 0x10)), []) ∧
    decode [0xB6, 0x10] = .ok (.ldx (.mem (.zpy 0x10)), []) ∧
    decode [0xBE, 0xFF, 0x02] = .ok (.ldx (.mem (.aby 0x02FF)), []) ∧
    decode [0xBC, 0x00, 0x02] = .ok (.ldy (.mem (.abx 0x0200)), []) ∧
    decode [0xA1, 0x20] = .ok (.lda (.mem (.izx 0x20)), []) := by decide

theorem test_decode_stores :
    decode [0x85, 0x10] = .ok (.sta (.zp 0x10), []) ∧ decode [0x91, 0x10] = .ok (.sta (.izy 0x10), []) ∧
    decode [0x96, 0xFF] = .ok (.stx (.zpy 0xFF), []) ∧ decode [0x8C, 0x00, 0x08] = .ok (.sty (.abs 0x0800), []) ∧
    decode [0x99, 0x00, 0x02] = .ok (.sta (.aby 0x0200), []) := by decide

theorem test_decode_transfers :
    decode [0xAA] = .ok (.tax, []) ∧ decode [0xA8] = .ok (.tay, []) ∧ decode [0x8A] = .ok (.txa, []) ∧
    decode [0x98] = .ok (.tya, []) ∧ decode [0xBA] = .ok (.tsx, []) ∧ decode [0x9A] = .ok (.txs, []) := by decide

theorem test_decode_alu :
    decode [0x69, 0x50] = .ok (.adc (.imm 0x50), []) ∧ decode [0xE9, 0xF0] = .ok (.sbc (.imm 0xF0), []) ∧
    decode [0x3D, 0x34, 0x12] = .ok (.and (.mem (.abx 0x1234)), []) ∧ decode [0x05, 0x80] = .ok (.ora (.mem (.zp 0x80)), []) ∧
    decode [0x51, 0x40] = .ok (.eor (.mem (.izy 0x40)), []) ∧ decode [0xC9, 0x01] = .ok (.cmp (.imm 0x01), []) ∧
    decode [0xE4, 0x10] = .ok (.cpx (.mem (.zp 0x10)), []) ∧ decode [0xCC, 0xFF, 0x07] = .ok (.cpy (.mem (.abs 0x07FF)), []) ∧
    decode [0x24, 0x10] = .ok (.bit (.zp 0x10), []) := by decide

theorem test_decode_rmw :
    decode [0x0A] = .ok (.asl .acc, []) ∧ decode [0x5E, 0xF0, 0x02] = .ok (.lsr (.mem (.abx 0x02F0)), []) ∧
    decode [0x36, 0xFF] = .ok (.rol (.mem (.zpx 0xFF)), []) ∧ decode [0x6E, 0x00, 0x03] = .ok (.ror (.mem (.abs 0x0300)), []) ∧
    decode [0xE6, 0x10] = .ok (.inc (.zp 0x10), []) ∧ decode [0xDE, 0x00, 0x03] = .ok (.dec (.abx 0x0300), []) ∧
    decode [0xE8] = .ok (.inx, []) ∧ decode [0xC8] = .ok (.iny, []) ∧ decode [0xCA] = .ok (.dex, []) ∧
    decode [0x88] = .ok (.dey, []) := by decide

theorem test_decode_control :
    decode [0x4C, 0x34, 0x12] = .ok (.jmp (.abs 0x1234), []) ∧ decode [0x6C, 0xFF, 0x10] = .ok (.jmp (.ind 0x10FF), []) ∧
    decode [0x20, 0x10, 0x80] = .ok (.jsr 0x8010, []) ∧ decode [0x60] = .ok (.rts, []) ∧ decode [0x40] = .ok (.rti, []) ∧
    decode [0x00] = .ok (.brk, []) := by decide

theorem test_decode_branches :
    decode [0x10, 0x7F] = .ok (.bpl 0x7F, []) ∧ decode [0x30, 0x80] = .ok (.bmi 0x80, []) ∧
    decode [0x50, 1] = .ok (.bvc 1, []) ∧ decode [0x70, 1] = .ok (.bvs 1, []) ∧ decode [0x90, 1] = .ok (.bcc 1, []) ∧
    decode [0xB0, 1] = .ok (.bcs 1, []) ∧ decode [0xD0, 1] = .ok (.bne 1, []) ∧ decode [0xF0, 1] = .ok (.beq 1, []) := by
  decide

theorem test_decode_stack :
    decode [0x48] = .ok (.pha, []) ∧ decode [0x08] = .ok (.php, []) ∧ decode [0x68] = .ok (.pla, []) ∧
    decode [0x28] = .ok (.plp, []) := by decide

theorem test_decode_flags :
    decode [0x18] = .ok (.clc, []) ∧ decode [0x38] = .ok (.sec, []) ∧
    decode [0x58] = .ok (.cli, []) ∧ decode [0x78] = .ok (.sei, []) ∧ decode [0xB8] = .ok (.clv, []) ∧
    decode [0xD8] = .ok (.cld, []) ∧ decode [0xF8] = .ok (.sed, []) ∧ decode [0xEA] = .ok (.nop, []) := by decide

/-- R104's bytes; a list that ends inside an instruction is refused by name. -/
theorem test_decode_illegal :
    decode [0x1A, 0x00] = .ok (.illegal 0x1A, [0x00]) ∧ decode [0x80] = .ok (.illegal 0x80, []) ∧
    decode [0xFF] = .ok (.illegal 0xFF, []) ∧ decode [0xAD, 0x00] = .error .truncated ∧
    decode [] = .error .truncated := by decide

/-- Vector S1 (R107): disassembly. -/
theorem test_disassembly :
    (instrOf 0xB5 0x10 0).text 0x8000 = "LDA $10,X" ∧ (instrOf 0x6C 0xFF 0x10).text 0x8000 = "JMP ($10FF)" ∧
    (instrOf 0xD0 0xFE 0).text 0x8000 = "BNE $8000" ∧ (instrOf 0x0A 0 0).text 0x8000 = "ASL A" := by decide

/-- The word the host places is the one the next step runs: `LDA #$05` (R100). -/
theorem test_withFetchWord : decodeTableWord 16 0x05A9 = some (.lda (.imm 0x05)) ∧
    stepIs (State.reset.withFetchWord 16 0x05A9) (fun t => t.cpu.a == 0x05) = true := by decide +kernel

/-! ## One step from `$8000`, with the vectors of spec/95_test_vectors.md -/

/-- A8: an indexed read that crosses a page. -/
theorem test_lda_absx_cross : runs [0xBD, 0xF0, 0x02] (fun c => { c with x := 0x10 }) [(0x300, 0x22)]
    (fun t => t.cpu.a == 0x22 && t.cpu.cyc == 5 && t.cpu.pc == 0x8003) = true := by decide +kernel

/-- A10: the pointer wraps in page 0. -/
theorem test_lda_izx_wrap : runs [0xA1, 0xFE] (fun c => { c with x := 1 }) [(0xFF, 0x34), (0, 0x02), (0x234, 0x77)]
    (fun t => t.cpu.a == 0x77 && t.cpu.cyc == 6) = true := by decide +kernel

/-- A5: the index of LDX is Y. -/
theorem test_ldx_zpy : runs [0xB6, 0xF0] (fun c => { c with y := 0x20 }) [(0x10, 0x33)]
    (fun t => t.cpu.x == 0x33 && t.cpu.cyc == 4) = true := by decide +kernel

/-- A14. -/
theorem test_ldy_absx : runs [0xBC, 0x00, 0x02] (fun c => { c with x := 0xFF }) [(0x2FF, 0x81)]
    (fun t => t.cpu.y == 0x81 && t.cpu.p == 0xA0 && t.cpu.cyc == 4) = true := by decide +kernel

/-- A16: a store takes its fix-up cycle without a cross too. -/
theorem test_sta_absx : runs [0x9D, 0xF0, 0x02] (fun c => { c with x := 0x0F, a := 0xAA }) []
    (fun t => ramAt 0x2FF t == 0xAA && t.cpu.cyc == 5) = true := by decide +kernel

/-- A20. -/
theorem test_sta_izy : runs [0x91, 0x10] (fun c => { c with a := 0xEE }) [(0x11, 0x03)]
    (fun t => ramAt 0x300 t == 0xEE && t.cpu.cyc == 6) = true := by decide +kernel

/-- A21. -/
theorem test_stx_zpy_wrap : runs [0x96, 0xFF] (fun c => { c with x := 0x42, y := 1 }) []
    (fun t => ramAt 0 t == 0x42 && t.cpu.cyc == 4) = true := by decide +kernel

/-- A22: RAM's mirror. -/
theorem test_sty_mirror : runs [0x8C, 0x00, 0x08] (fun c => { c with y := 7 }) []
    (fun t => ramAt 0 t == 7 && t.cpu.cyc == 4) = true := by decide +kernel

/-- A23 to A28. -/
theorem test_transfers :
    runs [0xAA] (fun c => { c with a := 0x80 }) [] (fun t => t.cpu.x == 0x80 && t.cpu.p == 0xA0) = true ∧
    runs [0xA8] (fun c => { c with p := 0xA0 }) [] (fun t => t.cpu.y == 0x00 && t.cpu.p == 0x22) = true ∧
    runs [0x8A] (fun c => { c with x := 0x7F }) [] (fun t => t.cpu.a == 0x7F && t.cpu.p == 0x20) = true ∧
    runs [0x98] (fun c => { c with y := 0xFF }) [] (fun t => t.cpu.a == 0xFF && t.cpu.p == 0xA0) = true ∧
    runs [0xBA] id [] (fun t => t.cpu.x == 0xFD && t.cpu.p == 0xA0) = true ∧
    runs [0x9A] (fun c => { c with p := 0xA0 }) [] (fun t => t.cpu.sp == 0x00 && t.cpu.p == 0xA0) = true := by
  decide +kernel

/-- Part 2 B: ADC's rows with overflow, and with D set. -/
theorem test_adc :
    runs [0x69, 0xFF] (fun c => { c with a := 0x80 }) [] (fun t => t.cpu.a == 0x7F && t.cpu.p == 0x61) = true ∧
    runs [0x69, 0x01] (fun c => { c with a := 0x09, p := 0x28 }) [] (fun t => t.cpu.a == 0x0A && t.cpu.p == 0x28) = true := by
  decide +kernel

/-- Part 2 B: SBC. -/
theorem test_sbc :
    runs [0xE9, 0xB0] (fun c => { c with a := 0x50, p := 0x21 }) [] (fun t => t.cpu.a == 0xA0 && t.cpu.p == 0xE0) = true ∧
    runs [0xE9, 0x40] (fun c => { c with a := 0x40 }) [] (fun t => t.cpu.a == 0xFF && t.cpu.p == 0xA0) = true := by
  decide +kernel

/-- Part 2 B: the logic instructions keep C and V. -/
theorem test_logic :
    runs [0x29, 0x0F] (fun c => { c with a := 0xF0, p := 0x61 }) [] (fun t => t.cpu.a == 0 && t.cpu.p == 0x63) = true ∧
    runs [0x09, 0x80] (fun c => { c with a := 0x01 }) [] (fun t => t.cpu.a == 0x81 && t.cpu.p == 0xA0) = true ∧
    runs [0x49, 0x55] (fun c => { c with a := 0x55 }) [] (fun t => t.cpu.a == 0 && t.cpu.p == 0x22) = true := by
  decide +kernel

/-- Part 2 B: the compares. -/
theorem test_compares :
    runs [0xC9, 0x00] (fun c => { c with a := 0xFF }) [] (fun t => t.cpu.a == 0xFF && t.cpu.p == 0xA1) = true ∧
    runs [0xE0, 0x80] (fun c => { c with x := 0x7F, p := 0x21 }) [] (fun t => t.cpu.p == 0xA0) = true ∧
    runs [0xC0, 0xFF] (fun c => { c with y := 0x01, p := 0x60 }) [] (fun t => t.cpu.p == 0x60) = true := by
  decide +kernel

/-- Part 2 B: BIT, its Z from the AND and its N and V from memory. -/
theorem test_bit : runs [0x24, 0x10] (fun c => { c with a := 0x0F }) [(0x10, 0xF0)]
    (fun t => t.cpu.a == 0x0F && t.cpu.p == 0xE2 && t.cpu.cyc == 3) = true := by decide +kernel

/-- C1, C4, C5 and C7: the shifts of A. -/
theorem test_shifts_acc :
    runs [0x0A] (fun c => { c with a := 0x81 }) [] (fun t => t.cpu.a == 0x02 && t.cpu.p == 0x21) = true ∧
    runs [0x4A] (fun c => { c with a := 0xFE, p := 0x21 }) [] (fun t => t.cpu.a == 0x7F && t.cpu.p == 0x20) = true ∧
    runs [0x2A] (fun c => { c with a := 0x80, p := 0x21 }) [] (fun t => t.cpu.a == 0x01 && t.cpu.p == 0x21) = true ∧
    runs [0x6A] (fun c => { c with a := 0x01, p := 0x21 }) [] (fun t => t.cpu.a == 0x80 && t.cpu.p == 0xA1) = true := by
  decide +kernel

/-- C11 and C12: the shifts of memory. -/
theorem test_shifts_memory :
    runs [0x5E, 0xF0, 0x02] id [(0x2F0, 0x02)] (fun t => ramAt 0x2F0 t == 0x01 && t.cpu.p == 0x20 && t.cpu.cyc == 7) = true ∧
    runs [0x36, 0xFF] (fun c => { c with x := 1, p := 0x21 }) [(0, 0x7F)]
      (fun t => ramAt 0 t == 0xFF && t.cpu.p == 0xA0 && t.cpu.cyc == 6) = true := by decide +kernel

/-- C14 and C17. -/
theorem test_inc_dec :
    runs [0xE6, 0x10] id [(0x10, 0xFF)] (fun t => ramAt 0x10 t == 0 && t.cpu.p == 0x22 && t.cpu.cyc == 5) = true ∧
    runs [0xDE, 0x00, 0x03] (fun c => { c with x := 5 }) [(0x305, 0x01)]
      (fun t => ramAt 0x305 t == 0 && t.cpu.p == 0x22 && t.cpu.cyc == 7) = true := by decide +kernel

/-- C18 to C21. -/
theorem test_register_inc_dec :
    runs [0xE8] (fun c => { c with x := 0xFF }) [] (fun t => t.cpu.x == 0 && t.cpu.p == 0x22) = true ∧
    runs [0xC8] (fun c => { c with y := 0x7F }) [] (fun t => t.cpu.y == 0x80 && t.cpu.p == 0xA0) = true ∧
    runs [0xCA] id [] (fun t => t.cpu.x == 0xFF && t.cpu.p == 0xA0) = true ∧
    runs [0x88] (fun c => { c with y := 1 }) [] (fun t => t.cpu.y == 0 && t.cpu.p == 0x22) = true := by decide +kernel

/-- C22 with `DUMMY_ACCESSES = nmos`, on an MMC1-style cartridge: the dummy write is seen by the mapper. -/
theorem test_inc_dummy_write :
    (let s := { ready [0xEE, 0x03, 0x80] id [] with cfg := { Config.default with dummyAccesses := .nmos } }
     stepIs (s.onCart fun c => { c with mapper := .mmc1 ⟨0, 0, 0x0F, 0, 0, 0⟩ })
      (fun t => t.cart.mapper == .mmc1 ⟨0x02, 2, 0x0F, 0, 0, 0⟩)) = true := by decide +kernel

/-- S9: the page wrap of an indirect jump. -/
theorem test_jmp_ind_wrap : runs [0x6C, 0xFF, 0x10] id [(0x0FF, 0x34), (0, 0x12), (0x100, 0x56)]
    (fun t => t.cpu.pc == 0x1234 && t.cpu.cyc == 5) = true := by decide +kernel

/-- D4: the stack wraps in page 1. -/
theorem test_jsr_wrap : runs [0x20, 0x10, 0x80] (fun c => { c with sp := 0 }) []
    (fun t => ramAt 0x100 t == 0x80 && ramAt 0x1FF t == 0x02 && t.cpu.sp == 0xFE && t.cpu.pc == 0x8010 &&
      t.cpu.cyc == 6) = true := by decide +kernel

/-- D5. -/
theorem test_rts_wrap : runs [0x60] (fun c => { c with sp := 0xFF }) [(0x100, 0xFF), (0x101, 0x7F)]
    (fun t => t.cpu.pc == 0x8000 && t.cpu.sp == 1 && t.cpu.cyc == 6) = true := by decide +kernel

/-- D8. -/
theorem test_rti : runs [0x40] (fun c => { c with sp := 0xFA }) [(0x1FB, 0xF3), (0x1FC, 0x34), (0x1FD, 0x12)]
    (fun t => t.cpu.p == 0xE3 && t.cpu.pc == 0x1234 && t.cpu.sp == 0xFD && t.cpu.cyc == 6) = true := by decide +kernel

/-- D6, with the vector at `$FFFE` in the ROM. -/
theorem test_brk :
    stepIs ((t0 [(0x3FFE, 0x00), (0x3FFF, 0x90)]).onCpu fun c => { c with p := 0x23 })
      (fun t => ramAt 0x1FD t == 0x80 && ramAt 0x1FC t == 0x02 && ramAt 0x1FB t == 0x23 && t.cpu.sp == 0xFA &&
        t.cpu.p == 0x27 && t.cpu.pc == 0x9000 && t.cpu.cyc == 7) = true := by decide +kernel

/-- S4: not taken, taken, and taken to another page (here `$7F82`, D11). -/
theorem test_branch_cycles :
    runs [0xD0, 0x10] (fun c => { c with p := 0x22 }) [] (fun t => t.cpu.pc == 0x8002 && t.cpu.cyc == 2) = true ∧
    runs [0xD0, 0x10] id [] (fun t => t.cpu.pc == 0x8012 && t.cpu.cyc == 3) = true ∧
    runs [0x10, 0x80] id [] (fun t => t.cpu.pc == 0x7F82 && t.cpu.cyc == 4) = true := by decide +kernel

/-- D10: the branches that a clear status takes and a set one does not. -/
theorem test_branches_clear :
    ([0x10, 0x50, 0x90, 0xD0] : List Byte).all (fun op =>
      runs [op, 0x10] id [] (fun t => t.cpu.pc == 0x8012) &&
      runs [op, 0x10] (fun c => { c with p := 0xE3 }) [] (fun t => t.cpu.pc == 0x8002)) = true := by decide +kernel

/-- D10: the branches that a set status takes and a clear one does not. -/
theorem test_branches_set :
    ([0x30, 0x70, 0xB0, 0xF0] : List Byte).all (fun op =>
      runs [op, 0x10] (fun c => { c with p := 0xE3 }) [] (fun t => t.cpu.pc == 0x8012) &&
      runs [op, 0x10] id [] (fun t => t.cpu.pc == 0x8002)) = true := by decide +kernel

/-- E2, E5: the pushes. -/
theorem test_pushes :
    runs [0x08] (fun c => { c with p := 0xE3 }) [] (fun t => ramAt 0x1FD t == 0xF3 && t.cpu.p == 0xE3 && t.cpu.cyc == 3) = true ∧
    runs [0x48] (fun c => { c with a := 0x99, sp := 0 }) [] (fun t => ramAt 0x100 t == 0x99 && t.cpu.sp == 0xFF) = true := by
  decide +kernel

/-- E3, E4: the pulls. -/
theorem test_pulls :
    runs [0x68] (fun c => { c with a := 1, sp := 0xFC }) [] (fun t => t.cpu.a == 0 && t.cpu.p == 0x22 && t.cpu.sp == 0xFD) = true ∧
    runs [0x28] (fun c => { c with sp := 0xFC }) [(0x1FD, 0xFF)] (fun t => t.cpu.p == 0xEF && t.cpu.cyc == 4) = true := by
  decide +kernel

/-- E6: the flag instructions. -/
theorem test_flag_instructions :
    ([(0x38, 0x20, 0x21), (0xF8, 0x20, 0x28), (0x78, 0x20, 0x24), (0x18, 0xEF, 0xEE), (0xD8, 0xEF, 0xE7),
      (0x58, 0xEF, 0xEB), (0xB8, 0xEF, 0xAF)] : List (Byte × Byte × Byte)).all (fun e =>
      runs [e.1] (fun c => { c with p := e.2.1 }) [] (fun t => t.cpu.p == e.2.2 && t.cpu.cyc == 2)) = true := by
  decide +kernel

/-- E8. -/
theorem test_nop : runs [0xEA] id [] (fun t => t.cpu.pc == 0x8001 && t.cpu.p == 0x20 && t.cpu.cyc == 2) = true := by
  decide +kernel

/-- F1. -/
theorem test_illegal_halts : runs [0x02] id []
    (fun t => t.cpu.halted && t.cpu.ir == 0x02 && t.cpu.pc == 0x8001 && t.cpu.cyc == 1 && t.cpu.ready &&
      t.cpu.history[0] == 0x8000 && t.cpu.histPos == 1 && t.bus.runMode == .pause) = true := by decide +kernel

/-! ## Interrupts, devices, mappers, reset -/

/-- F3's machine, at `$8123`. -/
def f3 (vectors : List (Nat × Byte)) (cpu : Cpu → Cpu) : State :=
  (t0 vectors).onCpu fun c => cpu { c with pc := 0x8123, p := 0x21, sp := 0xF0, irqPending := true }

/-- F3. -/
theorem test_irq_entry : stepIs (f3 [(0x3FFE, 0x00), (0x3FFF, 0xA0)] id)
    (fun t => t.cpu.pc == 0xA000 && t.cpu.p == 0x25 && t.cpu.sp == 0xED && !t.cpu.irqPending && t.cpu.ready &&
      ramAt 0x1F0 t == 0x81 && ramAt 0x1EF t == 0x23 && ramAt 0x1EE t == 0x21 && t.cpu.cyc == 7) = true := by
  decide +kernel

/-- R377: `ServiceCycle` increments `sub` after each of its seven rows, the last one too. -/
theorem test_service_sub :
    stepIs (f3 [] id) (fun t => t.cpu.sub == 7) = true ∧
    stepIs (f3 [] fun c => { c with nmiPending := true }) (fun t => t.cpu.sub == 7) = true := by decide +kernel

/-- F5: NMI first, the IRQ request kept. -/
theorem test_nmi_over_irq : stepIs (f3 [(0x3FFA, 0x00), (0x3FFB, 0xB0)] fun c => { c with nmiPending := true })
    (fun t => t.cpu.pc == 0xB000 && t.cpu.p == 0x25 && t.cpu.irqPending && !t.cpu.nmiPending) = true := by
  decide +kernel

/-- F4: a masked IRQ; the byte at `$8123` is a NOP here. -/
theorem test_irq_masked : stepIs (f3 [(0x123, 0xEA)] fun c => { c with p := 0x25 })
    (fun t => t.cpu.pc == 0x8124 && t.cpu.irqPending) = true := by decide +kernel

/-- A29: reading PPUSTATUS. -/
theorem test_status_read :
    stepIs ((ready [0xAD, 0x02, 0x20] id []).onPpu fun p => { p with status := 0xE0, readBuf := 0x1B, w := true })
      (fun t => t.cpu.a == 0xFB && t.cpu.p == 0xA0 && t.ppu.status == 0x60 && !t.ppu.w) = true := by decide +kernel

/-- G1: the scroll and address writes. -/
theorem test_scroll_writes :
    (let a := cpuWrite 0x2005 0x7D (cpuWrite 0x2000 0x03 (t0 []))
     let b := cpuWrite 0x2005 0x5E a
     let c := cpuWrite 0x2006 0xF0 (cpuWrite 0x2006 0x3D b)
     a.ppu.t == 0x0C0F && a.ppu.fineX == 5 && a.ppu.w && b.ppu.t == 0x6D6F && !b.ppu.w &&
       c.ppu.t == 0x3DF0 && c.ppu.v == 0x3DF0 && !c.ppu.w) = true := by decide +kernel

/-- S5: the palette's aliases, both ways, and the 32-byte repeat. -/
theorem test_palette_mirrors :
    (let p (a : Word) (v : Byte) : Ppu := ppuWritePpu (t0Cart []) Ppu.reset a v
     let r (a : Word) (q : Ppu) : Byte := ppuRead (t0Cart []) q a
     r 0x3F14 (p 0x3F04 0x15) == 0x15 && r 0x3F00 (p 0x3F10 0x01) == 0x01 && r 0x3F01 (p 0x3F11 0x09) == 0x00 &&
       r 0x3F11 (p 0x3F11 0x09) == 0x09 && r 0x3FE0 (p 0x3F20 0x0F) == 0x0F) = true := by decide +kernel

/-- S8, step 1: the command `$05` to `$E000`, with eight PRG chunks. -/
theorem test_mmc1_command :
    (let c := { t0Cart [] with mapper := .mmc1 ⟨0, 0, 0x0F, 0, 0, 0⟩ }
     let c := { c with rom := { c.rom with prgChunks := 8, mapperId := 1 } }
     let d := ((((c.cpuWrite 0xE000 1).cpuWrite 0xE000 0).cpuWrite 0xE000 1).cpuWrite 0xE000 0).cpuWrite 0xE000 0
     d.mapCpuRead 0x8000 == .prg (5 * 0x4000) && d.mapCpuRead 0xC000 == .prg (7 * 0x4000)) = true := by decide +kernel

/-- S2: reset, and the state that `State.reset` names is the reset of itself. -/
theorem test_reset :
    (t0 [(0x3FFC, 0x34)]).cpu.pc = 0x8000 ∧ (t0 []).cpu.sp = 0xFD ∧ (t0 []).cpu.p = 0x20 ∧
    deviceReset State.reset = State.reset := by decide +kernel

/-- R125, R129: with `PPU_DIVIDER = 2` a line flag still standing from before, at a master cycle without a PPU step,
does not end `Update()`; the line's end does, with its drain to an instruction boundary. -/
theorem test_update_scanline :
    (let s := { ready [0xEA, 0xEA, 0xEA] id [] with cfg := { Config.default with ppuDivider := 2 } }
     let s := { s.onPpu (fun p => { p with lineReady := true, scanline := 7, cycle := 339 }) with
       bus := ⟨0, 1, .advanceOneScanline⟩ }
     let t := update s
     (masterCycle s).ppu.lineReady && (masterCycle s).ppu.cycle == 339 && t.ppu.scanline == 8 && t.cpu.ready &&
       t.bus.runMode == .pause) = true := by decide +kernel

/-- R127: an edit reaches a register or a byte, with no side effect; an address past a memory's end is no cell. -/
theorem test_tamper :
    (let s := t0 []
     let t := tamper (.byte .oam 5 0x77) (tamper (.cpu { s.cpu with a := 0x12 }) s)
     t.cpu.a == 0x12 && Store.read unlisted t.ppu.oam 5 == 0x77 && t.ppu.oamAddr == s.ppu.oamAddr &&
       tamper (.byte .ram 2048 0x77) s == s && tamper (.mapper (.unrom 3)) s == s) = true := by decide +kernel

/-! ## Witnesses: each obligation's hypotheses are met -/

/-- The bytes of three instructions that the states below stand on. -/
def onLda : State := ready [0xA9, 0x05, 0xEA] id []

/-- A JSR in RAM, at `$0300`. -/
def onJsr : State := { (t0 []).onCpu fun c => { c with pc := 0x0300 } with ram := store [(0x300, 0x20), (0x301, 0x10), (0x302, 0x80)] }

theorem witness_DecodeOfEncode : WellFormed (.sta (.abx 0x02F0)) = true ∧ encode (.sta (.abx 0x02F0)) = [0x9D, 0xF0, 0x02] := by
  decide

theorem witness_EncodeOfDecode : decode [0x9D, 0xF0, 0x02, 0x01] = .ok (.sta (.abx 0x02F0), [0x01]) := by decide

theorem witness_IllegalOpcodes : (0x1A : Byte) ∈ illegalOpcodes ∧ (0xEA : Byte) ∉ illegalOpcodes := by decide

theorem witness_StepRunsDecoded_lda :
    (let w := waitCpu onLda
     WillFetch w.cpu ∧ (∀ k, k < (Instr.lda (.imm 0x05)).length → isMemory (w.cpu.pc + BitVec.ofNat 16 k) = true) ∧
     decode [cpuPeek w.cpu.pc w, cpuPeek (w.cpu.pc + 1) w, cpuPeek (w.cpu.pc + 2) w] = .ok (.lda (.imm 0x05), [0xEA])) := by
  decide +kernel

theorem witness_StepRunsDecoded_jsr :
    (let w := waitCpu onJsr
     WillFetch w.cpu ∧ (∀ k, k < (Instr.jsr 0x8010).length → isMemory (w.cpu.pc + BitVec.ofNat 16 k) = true) ∧
     decode [cpuPeek w.cpu.pc w, cpuPeek (w.cpu.pc + 1) w, cpuPeek (w.cpu.pc + 2) w] = .ok (.jsr 0x8010, []) ∧
     pushesMiss (w.cpu.pc + 2) w = true) := by decide +kernel

/-- For `StepIsMasterCycles`, `InvariantKept`, `BoundaryToBoundary`, `StepKeepsConstants` and `StepCycleCount`. -/
theorem witness_step :
    onLda.cpu.halted = false ∧ 0 < onLda.cfg.cpuDivider ∧ Inv onLda ∧ AtBoundary onLda.cpu ∧ WillFetch (waitCpu onLda).cpu ∧
    stepIs onLda (fun _ => true) = true := by decide +kernel

theorem witness_step_next : ∃ t, step onLda = .next t :=
  let ⟨t, h, _⟩ := next_of_stepIs witness_step.2.2.2.2.2; ⟨t, h⟩

/-- A second state of the invariant: a rendering PPU at the end of a frame, an MMC1-style cartridge, memory written. -/
def midFrame : State :=
  let s := { onJsr with bus := ⟨2, 0, .running⟩ }
  let s := s.onPpu fun p => { p with mask := 0x18, scanline := 260, cycle := 339, secCount := 8, status := 0xE0 }
  s.onCart fun c => { c with mapper := .mmc1 ⟨3, 4, 0x0F, 0, 0, 0⟩, rom := { c.rom with mapperId := 1 } }

theorem witness_InvariantKept : Inv midFrame ∧ stepIs midFrame (fun t => decide (Inv t)) = true := by decide +kernel

theorem witness_InvariantAtReset : Inv midFrame ∧ deviceReset midFrame ≠ midFrame := by decide +kernel

theorem witness_ExecCycleCount :
    WellFormed (.lda (.mem (.abx 0x02F0))) = true ∧
    pageCross (.abx 0x02F0) (onLda.onCpu fun c => { c with x := 0x10 }) = true ∧ WellFormed (.bne 0x80) = true := by decide +kernel

theorem witness_AccessWaits :
    onLda.cfg.dummyAccesses = .none ∧ readPoint (.abx 0x02F0) onLda ∈ [readPoint (.abx 0x02F0) onLda, writePoint (.abx 0x02F0) onLda] := by
  refine ⟨by decide +kernel, List.mem_cons_self⟩

theorem witness_JumpResults : isMemory 0x10FF = true ∧ isMemory (samePageNext 0x10FF) = true ∧ samePageNext 0x10FF = 0x1000 := by
  decide

/-- The premises inside the frames of the instructions: PC stands in memory, or there are no dummy accesses. -/
theorem witness_quiet : isMemory onLda.cpu.pc = true ∧ QuietIdle onLda := by
  refine ⟨by decide +kernel, .inl (by decide +kernel)⟩

theorem witness_IllegalHalts :
    (let w := waitCpu (ready [0x02] id [])
     WillFetch w.cpu ∧ cpuPeek w.cpu.pc w ∈ illegalOpcodes) := by decide +kernel

/-- Halted at the VBlank point: the PPU steps, and raises the signal that the bus records. -/
theorem witness_HaltedStays :
    (let s := (onLda.onCpu fun c => { c with halted := true }).onPpu fun p =>
       { p with ctrl := 0x80, scanline := 241, cycle := 1 }
     s.cpu.halted = true ∧ s.cpu.nmiPending = false ∧ s.bus.ppuDivCnt = 0 ∧ (s.ppu.step s.cart).nmiSignal = true ∧
     stepIs s (fun t => t.cpu.nmiPending && !t.ppu.nmiSignal) = true) := by decide +kernel

/-- NMI and IRQ requested, and I set; the PPU can raise no new signal. -/
theorem witness_NmiService :
    (let w := waitCpu (f3 [] fun c => { c with nmiPending := true, p := 0x24 })
     AtBoundary w.cpu ∧ w.cpu.halted = false ∧ w.cpu.dmaRequest = false ∧ w.cpu.nmiPending = true ∧
     bitAt w.ppu.ctrl 7 = false ∧ w.ppu.nmiSignal = false) := by decide +kernel

theorem witness_IrqService :
    (let w := waitCpu (f3 [] id)
     AtBoundary w.cpu ∧ w.cpu.halted = false ∧ w.cpu.dmaRequest = false ∧ w.cpu.nmiPending = false ∧
     w.cpu.irqPending = true ∧ bitAt w.cpu.p flagI = false) := by decide +kernel

/-- From a page of memory, an NMI pending. -/
theorem witness_OamDma :
    (let w := waitCpu (onLda.onCpu fun c => { c with dmaRequest := true, dmaPage := 0x02, nmiPending := true })
     AtBoundary w.cpu ∧ w.cpu.halted = false ∧ w.cpu.dmaRequest = true ∧ w.cpu.nmiPending = true ∧
     ∀ i : Byte, isMemory (mkWord w.cpu.dmaPage i) = true) := by decide +kernel

/-- From the page of the PPU's registers, and from one that mixes the ports with memory. -/
theorem witness_OamDma_devices :
    (let w := waitCpu (onLda.onCpu fun c => { c with dmaRequest := true, dmaPage := 0x20 })
     AtBoundary w.cpu ∧ w.cpu.halted = false ∧ w.cpu.dmaRequest = true ∧ isMemory (mkWord w.cpu.dmaPage 0x02) = false) ∧
    isMemory (mkWord 0x40 0x16) = false ∧ isMemory (mkWord 0x40 0x20) = true := by decide +kernel

theorem witness_RamMirrors : (0x1FFF : Word) < 0x2000 ∧ (0x1800 : Word) ∈ ([0x0000, 0x0800, 0x1000, 0x1800] : List Word) := by decide

theorem witness_StubRange :
    (0x4000 : Word) ≤ 0x4000 ∧ (0x4000 : Word) < 0x4020 ∧ (0x4000 : Word) ≤ 0x401F ∧ (0x401F : Word) < 0x4020 ∧
    (0x401F : Word) ≠ 0x4014 ∧ (0x401F : Word) ≠ 0x4016 ∧ (0x401F : Word) ≠ 0x4017 := by decide

/-- The bounds, a palette alias, both ends of the nametables (the second through bit 14), and each variant. -/
theorem witness_PpuMirrors :
    0x3FF < 0x400 ∧ 3 < 4 ∧ (0x3F0C : Word) ∈ ([0x3F00, 0x3F04, 0x3F08, 0x3F0C] : List Word) ∧
    0x2000 ≤ (0x2000 : Word).toNat % 0x4000 ∧ (0x2000 : Word).toNat % 0x4000 < 0x3F00 ∧
    0x2000 ≤ (0x7EFF : Word).toNat % 0x4000 ∧ (0x7EFF : Word).toNat % 0x4000 < 0x3F00 ∧
    (t0Cart []).mapper = .nrom ∧ ({ t0Cart [] with mapper := .unrom 3 } : Cartridge).mapper = .unrom 3 ∧
    ({ t0Cart [] with mapper := .axrom 3 true } : Cartridge).mapper = .axrom 3 true ∧
    ([0x0C, 0x0D, 0x0E, 0x0F] : List (BitVec 5)).map (fun control =>
      match ({ t0Cart [] with mapper := .mmc1 ⟨0, 0, control, 0, 0, 0⟩ } : Cartridge).mapper with
      | .mmc1 r => r.control.toNat % 4
      | _ => 4) = [0, 1, 2, 3] := by decide +kernel

/-- The window's two ends, and one address for each of the clauses on a register. -/
theorem witness_PpuWindow :
    (0x2000 : Word) ≤ 0x2000 ∧ (0x2000 : Word) < 0x4000 ∧ (0x2000 : Word) ≤ 0x3FFF ∧ (0x3FFF : Word) < 0x4000 ∧
    (0x2000 : Word).toNat % 8 = 0 ∧ (0x3FF9 : Word).toNat % 8 = 1 ∧ (0x3FFA : Word).toNat % 8 = 2 ∧
    (0x3FFB : Word).toNat % 8 = 3 ∧ (0x3FFC : Word).toNat % 8 = 4 ∧
    (0x3FFE : Word).toNat % 8 ≠ 2 ∧ (0x3FFE : Word).toNat % 8 ≠ 4 ∧ (0x3FFE : Word).toNat % 8 ≠ 7 := by decide

/-- R281, R285: PPUCTRL's bits in `t`, and OAMDATA's increment over the end of OAM. -/
theorem test_ppu_writes :
    (let s := (t0 []).onPpu fun p => { p with oamAddr := 0xFF, t := 0x7FFF }
     (cpuWrite 0x3FF8 0x82 s).ppu.t == 0x7BFF && (cpuWrite 0x3FF8 0x82 s).ppu.ctrl == 0x82 &&
       (cpuWrite 0x2004 0x55 s).ppu.oamAddr == 0x00 && cpuPeek 0x2004 (cpuWrite 0x2003 0xFF (cpuWrite 0x2004 0x55 s)) == 0x55) =
      true := by decide +kernel

theorem witness_ScrollWrites : Ppu.reset.w = false ∧ ({ Ppu.reset with w := true } : Ppu).w = true := by decide

/-- The VBlank point with and without suppression, another step, and the point that clears. -/
theorem witness_VBlankPoint :
    (let p : Ppu := { Ppu.reset with scanline := 241, cycle := 1 }
     p.scanline = 241 ∧ p.cycle = 1 ∧ p.vblSuppress = false ∧ ({ p with vblSuppress := true } : Ppu).vblSuppress = true) ∧
    ¬ (Ppu.reset.scanline = 241 ∧ Ppu.reset.cycle = 1) ∧
    (let p : Ppu := { Ppu.reset with scanline := -1, cycle := 1 }
     p.scanline = -1 ∧ p.cycle = 1) := by decide

/-- The last position of a frame; the position that an odd frame passes over, rendering enabled. -/
theorem witness_PpuPosition :
    (let p : Ppu := { Ppu.reset with scanline := 260, cycle := 340 }
     p.scanline ≤ 260 ∧ p.cycle ≤ 340 ∧ (p.step Cartridge.blank).frame = 1 ∧ (p.step Cartridge.blank).scanline = -1) ∧
    (let p : Ppu := { Ppu.reset with mask := 0x08, frame := 1 }
     p.scanline ≤ 260 ∧ p.cycle ≤ 340 ∧ (p.step Cartridge.blank).cycle = 2) := by decide +kernel

theorem witness_FrameLength :
    bitAt Ppu.reset.mask 3 = false ∧ bitAt Ppu.reset.mask 4 = false ∧ -1 ≤ Ppu.reset.scanline ∧ Ppu.reset.scanline ≤ 260 ∧
    Ppu.reset.cycle ≤ 340 := by decide

/-- Sprites at Y = 0, nine of them in range of line 5, so that the ninth sets the flag. -/
theorem witness_SpriteEvaluation :
    (let p : Ppu := { Ppu.reset with oam := store ((List.range 55).map fun n => (4 * (n + 9), 0xF0)) }
     p.secCount = 0 ∧ (p.spriteEvaluate 5).secCount = 8 ∧ bitAt (p.spriteEvaluate 5).status 5 = true) := by decide +kernel

theorem witness_Mmc1Serial :
    (let c : Cartridge := { t0Cart [] with mapper := .mmc1 ⟨0, 0, 0x0F, 0, 0, 0⟩ }
     c.mapper = .mmc1 ⟨0, 0, 0x0F, 0, 0, 0⟩) ∧
    (0x8000 : Word) ≤ 0x9FFF ∧ (0x9FFF : Word) < 0xA000 ∧ ¬ (0xA000 : Word) < 0xA000 ∧ (0xA000 : Word) < 0xC000 ∧
    (0xC000 : Word) < 0xE000 ∧ ¬ (0xE000 : Word) < 0xE000 ∧ bitAt (0x80 : Byte) 7 = true := by decide +kernel

/-- Both ends of each range, PRG-RAM present and absent, and each variant. -/
theorem witness_CartridgeReads :
    (0x5FFF : Word) < 0x6000 ∧ (0x6000 : Word) ≤ 0x6000 ∧ (0x6000 : Word) ≤ 0x7FFF ∧ (0x7FFF : Word) < 0x8000 ∧
    (0x8000 : Word) ≤ 0xFFFF ∧
    (t0Cart []).hasPrgRam = false ∧
    (let c := { t0Cart [] with rom := { (t0Cart []).rom with ramPresent := true } }
     c.hasPrgRam = true) ∧
    (t0Cart []).mapper = .nrom ∧ ({ t0Cart [] with mapper := .unrom 3 } : Cartridge).mapper = .unrom 3 ∧
    ({ t0Cart [] with mapper := .axrom 3 true } : Cartridge).mapper = .axrom 3 true := by decide +kernel

/-- The PPU's side: both ends of the pattern tables (the second through bit 14), CHR-RAM and CHR ROM, both CHR modes of
the MMC1-style variant. -/
theorem witness_CartridgeReads_ppu :
    (0x0000 : Word).toNat % 0x4000 < 0x2000 ∧ (0x5FFF : Word).toNat % 0x4000 < 0x2000 ∧
    (t0Cart []).rom.chrChunks = 0 ∧ 0 < ({ (t0Cart []).rom with chrChunks := 1 } : Rom).chrChunks ∧
    (t0Cart []).mapper.id ≠ 1 ∧
    (let c : Cartridge := { t0Cart [] with mapper := .mmc1 ⟨0, 0, 0x0F, 3, 5, 0⟩ }
     c.mapper = .mmc1 ⟨0, 0, 0x0F, 3, 5, 0⟩ ∧ (0x0F : BitVec 5).toNat < 16 ∧ 16 ≤ (0x1F : BitVec 5).toNat) := by decide +kernel

/-- A variant for each clause of the mapper's reset, both mirrorings for the MMC1-style one. -/
theorem witness_ResetValues :
    (let s := t0 []
     s.cart.mapper = .nrom ∧ s.cart.rom.mirroring = .vertical ∧ State.reset.cart.rom.mirroring = .horizontal ∧
     (s.onCart fun c => { c with mapper := .unrom 3 }).cart.mapper = .unrom 3 ∧
     (s.onCart fun c => { c with mapper := .axrom 3 true }).cart.mapper = .axrom 3 true) ∧
    (let t := deviceReset midFrame
     t.cart.mapper = .mmc1 ⟨0, 0, 0x0E, 0, 0, 0⟩) := by decide +kernel

end Sys2Proof.Tests
end

section
/-!
What no master cycle writes: the parameters (R4), the cartridge's constants (R34), its mapper's variant (R343, R344),
the buttons (log 15) and the PPU's `ready`.
-/

namespace Sys2Proof.Machine

/-- `t` has the parameters, the cartridge's constants, the mapper's variant, the buttons and the PPU's `ready` of `s`. -/
structure SameConstants (s t : State) : Prop where
  cfg : t.cfg = s.cfg
  rom : t.cart.rom = s.cart.rom
  mapper : t.cart.mapper.id = s.cart.mapper.id
  buttons0 : t.port0.buttons = s.port0.buttons
  buttons1 : t.port1.buttons = s.port1.buttons
  ppuReady : t.ppu.ready = s.ppu.ready

theorem SameConstants.trans {s t u : State} (h : SameConstants s t) (g : SameConstants t u) : SameConstants s u :=
  ⟨g.cfg.trans h.cfg, g.rom.trans h.rom, g.mapper.trans h.mapper, g.buttons0.trans h.buttons0,
    g.buttons1.trans h.buttons1, g.ppuReady.trans h.ppuReady⟩

/-- Time writes no constant: a cartridge and a port stay whole, and the PPU's own steps leave its `ready`. -/
theorem Later.sameConstants {s t : State} (h : Later s t) : SameConstants s t :=
  ⟨h.cfg, by rw [h.cart], by rw [h.cart], by rw [h.port0], by rw [h.port1], congrArg PpuRegs.ready h.regs⟩

/-- The work of a CPU step writes no constant. -/
theorem WorkFrame.sameConstants {s t : State} (h : WorkFrame s t) : SameConstants s t :=
  ⟨h.cfg, h.rom, h.mapper, h.buttons0, h.buttons1, h.ppuReady⟩

theorem sameConstants_masterCycle (s : State) : SameConstants s (masterCycle s) := by
  unfold masterCycle
  split_ifs
  · have haltedTick : Later s { s with bus := { s.bus with cpuDivCnt := s.cfg.cpuDivider - 1 } } :=
      ⟨rfl, rfl, rfl, rfl, rfl, rfl, id, rfl, fun _ => rfl⟩
    exact (haltedTick.trans (later_afterCpu _)).sameConstants
  · exact (cpuWork_frame s).sameConstants.trans (later_finishCycle _).sameConstants
  · exact (later_idleCycle s).sameConstants

theorem sameConstants_runCpu {n : Nat} {s t : State} (h : runCpu n s = .next t) : SameConstants s t :=
  runCpu_keeps (P := SameConstants s)
    (fun u hu => hu.trans (cpuWork_frame u).sameConstants)
    (fun u hu => hu.trans (later_finishCycle u).sameConstants)
    (fun u hu => hu.trans (later_elapse u).sameConstants)
    n s t (Later.refl s).sameConstants h

/-- A halted machine's step is one master cycle; any other waits for its CPU and then runs CPU steps. -/
theorem sameConstants_step {s t : State} (h : step s = .next t) : SameConstants s t := by
  cases hh : s.cpu.halted with
  | true =>
    have ht : masterCycle s = t := by simpa [step, hh] using h
    exact ht ▸ sameConstants_masterCycle s
  | false =>
    rw [step_eq_runCpu hh] at h
    exact (later_waitCpu s).sameConstants.trans (sameConstants_runCpu h)

/-- Settles O12: time and the work of a CPU step keep each of the six, and a step is made of these two. -/
theorem stepKeepsConstants : Obligations.StepKeepsConstants := by
  intro s t h
  obtain ⟨hcfg, hrom, hmapper, hbuttons0, hbuttons1, hready⟩ := sameConstants_step h
  exact ⟨hcfg, hrom, hmapper, hbuttons0, hbuttons1, hready⟩

end Sys2Proof.Machine
end

section
/-!
The machine's invariant over whole steps, and at reset: the parts and their preservation by each operation are in
Laws/Invariant and Laws/Work.
-/

namespace Sys2Proof.Machine

/-! A master cycle and a step (R120, R125). -/

theorem inv_masterCycle {s : State} (h : Inv s) : Inv (masterCycle s) := by
  unfold masterCycle
  split_ifs
  · have hdiv : s.cfg.cpuDivider - 1 < s.cfg.cpuDivider := Nat.sub_lt (inv_clock h).1 Nat.one_pos
    exact inv_afterCpu (inv_withCpuDiv h hdiv s.cpu.cyc)
  · exact inv_finishCycle (inv_cpuWork h)
  · exact inv_idleCycle h

theorem inv_runCpu {n : Nat} {s t : State} (h : Inv s) (hr : runCpu n s = .next t) : Inv t :=
  runCpu_keeps (P := Inv) (fun _ => inv_cpuWork) (fun _ => inv_finishCycle) (fun _ => inv_elapse) n s t h hr

/-- A halted machine's step is one master cycle; any other waits for its CPU and then runs CPU steps. -/
theorem inv_step {s t : State} (h : Inv s) (hst : step s = .next t) : Inv t := by
  cases hh : s.cpu.halted with
  | true =>
    have ht : masterCycle s = t := by simpa [step, hh] using hst
    exact ht ▸ inv_masterCycle h
  | false =>
    rw [step_eq_runCpu hh] at hst
    exact inv_runCpu (inv_waitCpu h) hst

/-- Settles O9: the work of a CPU step and the time around it keep the invariant, and a step is made of these two. -/
theorem invariantKept : Obligations.InvariantKept := fun _ _ => inv_step

/-! Reset (R400 to R402). -/

/-- The reset status, $20: U is 1 and B is 0. -/
theorem statusOk_deviceReset (s : State) : StatusOk (deviceReset s).cpu.p :=
  show StatusOk 0x20 by decide

/-- A variant's reset keeps which variant it is, and its registers are in range whatever they were. -/
theorem Mapper.reset_ok (m : Mapper) (mirroring : Mirroring) :
    (m.reset mirroring).id = m.id ∧ (m.reset mirroring).ok = true := by
  cases m <;> exact ⟨rfl, rfl⟩

theorem CartInv.mapperReset {c : Cartridge} (h : CartInv c) : CartInv (mapperReset c) := by
  obtain ⟨hid, hok⟩ := Mapper.reset_ok c.mapper c.rom.mirroring
  exact ⟨h.prgRam, h.chrRam, h.vram, hid.trans h.ok.1, hok⟩

/-- The PPU's reset keeps the four memories that it leaves, and sets every ranged register to a fixed value. -/
theorem PpuInv.ppuReset {p : Ppu} (h : PpuInv p) : PpuInv (ppuReset p) where
  oam := h.oam
  pal := h.pal
  ciram := h.ciram
  sec := ⟨rfl, rfl⟩
  fb := h.fb
  lineLow := show (-1 : Int) ≤ Ppu.reset.scanline by decide
  lineHigh := show Ppu.reset.scanline ≤ 260 by decide
  dot := show Ppu.reset.cycle ≤ 340 by decide
  secCount := Nat.zero_le 8
  sprCount := Nat.zero_le 8
  status := show (0 : Byte) &&& 0x1F = 0 by decide
  ready := rfl

theorem portOk_portReset (p : Port) : PortOk (portReset p) := Nat.zero_le 8

theorem inv_deviceReset {s : State} (h : Inv s) : Inv (deviceReset s) := by
  rw [inv_iff] at h ⊢
  obtain ⟨hram, hppu, hcart, -, -, -, hcpu, hppuDiv, -, -⟩ := h
  exact ⟨hram, hppu.ppuReset, hcart.mapperReset, statusOk_deviceReset s, portOk_portReset _, portOk_portReset _,
    hcpu, hppuDiv, hcpu, hppuDiv⟩

/-- At power-on every memory is empty, the counters are at their starts, and the cartridge is the blank NROM. -/
theorem inv_reset : Inv State.reset := by decide

/-- Settles O10: the machine at power-on meets the invariant, and a device reset keeps each of its parts. -/
theorem invariantAtReset : Obligations.InvariantAtReset := ⟨inv_reset, fun _ => inv_deviceReset⟩

end Sys2Proof.Machine
end

section
/-!
The CPU's memory map: RAM's mirrors (R53), the DMA trigger (R56), and the controllers' ports (R57, R58).
-/

namespace Sys2Proof.Machine

/-! RAM's mirrors (R53). -/

/-- The four masks flip bits 12 and 11 alone: above the offset in RAM, and inside the window. -/
theorem ramMirror_bits {k : Word} (hk : k ∈ ([0x0000, 0x0800, 0x1000, 0x1800] : List Word)) :
    k.toNat < 2 ^ 13 ∧ k &&& 0x07FF = 0 := by
  simp only [List.mem_cons, List.not_mem_nil, or_false] at hk
  rcases hk with rfl | rfl | rfl | rfl <;> decide

/-- The mirrors of an address are in the RAM window, at the same offset in RAM. -/
theorem region_ramMirror {a k : Word} (ha : a < 0x2000) (hk : k ∈ ([0x0000, 0x0800, 0x1000, 0x1800] : List Word)) :
    region (a ^^^ k) = .ram (a.toNat % 2048) := by
  obtain ⟨hlt, hmask⟩ := ramMirror_bits hk
  have hlow : a ^^^ k < 0x2000 := by
    rw [BitVec.lt_def, BitVec.toNat_xor]
    exact Nat.xor_lt_two_pow (n := 13) ha hlt
  have hoff : (a ^^^ k) &&& 0x07FF = a &&& 0x07FF := by
    rw [← BitVec.toNat_inj, BitVec.toNat_and, BitVec.toNat_xor, Nat.and_xor_distrib_right, ← BitVec.toNat_and,
      ← BitVec.toNat_and, hmask]
    exact Nat.xor_zero _
  rw [region_low hlow, hoff, and_07FF]

theorem cpuPeek_ram {a : Word} {off : Nat} (h : region a = .ram off) (s : State) :
    cpuPeek a s = Store.read unlisted s.ram off := by simp [cpuPeek, h]

theorem readEffect_ramRegion {a : Word} {off : Nat} (h : region a = .ram off) (s : State) : readEffect a s = s :=
  readEffect_memory (by simp [isMemory, h]) s

/-- Settles O45: the four mirrors of an address select the same byte of RAM. -/
theorem ramMirrors : Obligations.RamMirrors := by
  intro a s v ha k hk
  have hregion := region_ramMirror ha hk
  exact ⟨cpuPeek_ram hregion s, readEffect_ramRegion hregion s, cpuWrite_ram hregion v s⟩

/-! The DMA trigger (R56). -/

theorem cpuWrite_dma (v : Byte) (s : State) :
    cpuWrite 0x4014 v s = s.onCpu fun c => { c with dmaPage := v, dmaRequest := true } := rfl

/-- Settles O47: the page latch holds the last page written, and the request stands. -/
theorem dmaTrigger : Obligations.DmaTrigger := fun s v _ => ⟨cpuWrite_dma v s, rfl⟩

/-! The controllers (R57, R58). -/

/-- After the strobe and `n` reads a port has shifted its buttons left once for each of the first eight. -/
theorem Port.afterRead_iterate_strobe (p : Port) (n : Nat) :
    Port.afterRead^[n] p.strobe =
      { buttons := p.buttons, latched := p.buttons <<< min n 8, reads := min n 8 } := by
  induction n with
  | zero => simp [Port.strobe]
  | succ n ih =>
    rw [Function.iterate_succ_apply', ih]
    by_cases h : n < 8
    · have hmin : min n 8 = n := by omega
      simp [Port.afterRead, hmin, h, BitVec.shiftLeft_add]
    · have hmin : min n 8 = 8 := by omega
      have hsucc : min (n + 1) 8 = 8 := by omega
      simp [Port.afterRead, hmin, hsucc]

/-- The `n`-th read after the strobe gives button bit `7 - n`, and 1 from the ninth on. -/
theorem Port.value_iterate_strobe (p : Port) (n : Nat) :
    (Port.afterRead^[n] p.strobe).value = if n < 8 then (if bitAt p.buttons (7 - n) then 1 else 0) else 1 := by
  rw [Port.afterRead_iterate_strobe]
  unfold Port.value
  by_cases h : n < 8
  · have hmin : min n 8 = n := by omega
    have hbit : bitAt (p.buttons <<< n) 7 = bitAt p.buttons (7 - n) := by
      unfold bitAt
      rw [BitVec.getLsbD_shiftLeft]
      simp [show ¬ 7 < n by omega]
    simp only [hmin, h, if_true, hbit, ofBit]
  · have hmin : min n 8 = 8 := by omega
    simp [hmin, h]

theorem cpuWrite_strobe (v : Byte) (s : State) :
    cpuWrite 0x4016 v s = { s with port0 := s.port0.strobe, port1 := s.port1.strobe } := rfl

theorem cpuPeek_port0 (s : State) : cpuPeek 0x4016 s = s.port0.value := rfl

theorem cpuPeek_port1 (s : State) : cpuPeek 0x4017 s = s.port1.value := rfl

/-- Reads of `$4016` shift port 0 and leave the rest of the machine. -/
theorem readEffect_port0_iterate (n : Nat) (s : State) :
    (readEffect 0x4016)^[n] s = { s with port0 := Port.afterRead^[n] s.port0 } := by
  induction n with
  | zero => rfl
  | succ n ih => rw [Function.iterate_succ_apply', Function.iterate_succ_apply', ih]; rfl

/-- Reads of `$4017` shift port 1 and leave the rest of the machine. -/
theorem readEffect_port1_iterate (n : Nat) (s : State) :
    (readEffect 0x4017)^[n] s = { s with port1 := Port.afterRead^[n] s.port1 } := by
  induction n with
  | zero => rfl
  | succ n ih => rw [Function.iterate_succ_apply', Function.iterate_succ_apply', ih]; rfl

/-- Settles O48: the strobe latches both ports, and each port's reads then shift that port alone. -/
theorem controllerReads : Obligations.ControllerReads := by
  intro s v n
  dsimp only
  rw [cpuWrite_strobe, readEffect_port0_iterate, readEffect_port1_iterate, cpuPeek_port0, cpuPeek_port1]
  exact ⟨s.port0.value_iterate_strobe n, s.port1.value_iterate_strobe n, rfl, rfl⟩

end Sys2Proof.Machine
end

section
/-!
The PPU's address space: nametable layouts (R64), where a nametable byte lies (R63), and the palette (R65).
-/

namespace Sys2Proof.Machine

/-! The nametable layouts (R64). -/

theorem ntMirror_vertical (n : Nat) : ntMirror .vertical n = n / 0x400 % 2 * 0x400 + n % 0x400 := by
  simp only [ntMirror]
  omega

theorem ntMirror_horizontal {n : Nat} (h : n < 0x1000) : ntMirror .horizontal n = n / 0x800 * 0x400 + n % 0x400 := by
  simp only [ntMirror]
  omega

theorem ntMirror_single (page : Bool) (n : Nat) :
    ntMirror (.single page) n = (if page then 0x400 else 0) + n % 0x400 := rfl

/-- Two tables side by side. -/
theorem ntMirror_vertical_tables {n : Nat} (h : n < 0x400) :
    ntMirror .vertical n = n ∧ ntMirror .vertical (n + 0x400) = n + 0x400 ∧
      ntMirror .vertical (n + 0x800) = n ∧ ntMirror .vertical (n + 0xC00) = n + 0x400 := by
  simp only [ntMirror_vertical]
  omega

/-- Two tables one above the other. -/
theorem ntMirror_horizontal_tables {n : Nat} (h : n < 0x400) :
    ntMirror .horizontal n = n ∧ ntMirror .horizontal (n + 0x400) = n ∧
      ntMirror .horizontal (n + 0x800) = n + 0x400 ∧ ntMirror .horizontal (n + 0xC00) = n + 0x400 := by
  refine ⟨?_, ?_, ?_, ?_⟩ <;> rw [ntMirror_horizontal (by omega)] <;> omega

theorem ntMirror_single_tables {n : Nat} (h : n < 0x400) (k : Nat) :
    ntMirror (.single false) (n + k * 0x400) = n ∧ ntMirror (.single true) (n + k * 0x400) = n + 0x400 := by
  simp only [ntMirror_single, if_true, Bool.false_eq_true, if_false]
  omega

/-! The palette (R61, R62, R65). -/

theorem ppuAddr_eq (x : Word) : ppuAddr x = x.toNat % 0x4000 := by
  unfold ppuAddr
  rw [BitVec.toNat_and]
  exact Nat.and_two_pow_sub_one_eq_mod x.toNat 14

theorem ppuRead_palette {x : Word} (h : 0x3F00 ≤ ppuAddr x) (c : Cartridge) (p : Ppu) :
    ppuRead c p x = Store.read unlisted p.pal (palIndex (ppuAddr x)) := by
  simp [ppuRead, show ¬ ppuAddr x < 0x2000 by omega, show ¬ ppuAddr x < 0x3F00 by omega]

theorem ppuWritePpu_palette {x : Word} (h : 0x3F00 ≤ ppuAddr x) (c : Cartridge) (p : Ppu) (v : Byte) :
    ppuWritePpu c p x v = { p with pal := Store.write unlisted p.pal (palIndex (ppuAddr x)) v } := by
  simp [ppuWritePpu, show ¬ ppuAddr x < 0x2000 by omega, show ¬ ppuAddr x < 0x3F00 by omega]

/-- A byte written to the palette is read at every address of the same entry. -/
theorem ppuRead_writePpu_palette {x y : Word} (hx : 0x3F00 ≤ ppuAddr x) (hy : 0x3F00 ≤ ppuAddr y)
    (hxy : palIndex (ppuAddr y) = palIndex (ppuAddr x)) (c : Cartridge) (p : Ppu) (v : Byte) :
    ppuRead c (ppuWritePpu c p x v) y = v := by
  rw [ppuRead_palette hy, ppuWritePpu_palette hx, hxy, Store.read_write_same]

/-- The two addresses of a pair are palette addresses of one entry. -/
theorem palette_pair {r : Word} (hr : r ∈ ([0x3F00, 0x3F04, 0x3F08, 0x3F0C] : List Word)) :
    0x3F00 ≤ ppuAddr r ∧ 0x3F00 ≤ ppuAddr (r + 0x10) ∧ palIndex (ppuAddr (r + 0x10)) = palIndex (ppuAddr r) := by
  simp only [List.mem_cons, List.not_mem_nil, or_false] at hr
  rcases hr with rfl | rfl | rfl | rfl <;> decide

/-- A byte written at either address of a pair is read at both. -/
theorem ppuRead_palette_pair {r : Word} (hr : r ∈ ([0x3F00, 0x3F04, 0x3F08, 0x3F0C] : List Word))
    (c : Cartridge) (p : Ppu) (v : Byte) :
    ppuRead c (ppuWritePpu c p r v) r = v ∧ ppuRead c (ppuWritePpu c p r v) (r + 0x10) = v ∧
    ppuRead c (ppuWritePpu c p (r + 0x10) v) r = v ∧ ppuRead c (ppuWritePpu c p (r + 0x10) v) (r + 0x10) = v := by
  obtain ⟨hlow, hhigh, hentry⟩ := palette_pair hr
  exact ⟨ppuRead_writePpu_palette hlow hlow rfl c p v, ppuRead_writePpu_palette hlow hhigh hentry c p v,
    ppuRead_writePpu_palette hhigh hlow hentry.symm c p v, ppuRead_writePpu_palette hhigh hhigh rfl c p v⟩

/-! Where a nametable byte lies (R63). -/

/-- The byte of PPU address `x` is byte `off` of the onboard nametable memory, on a read and on a write. -/
def NtOnboard (c : Cartridge) (p : Ppu) (x : Word) (off : Nat) : Prop :=
  ppuRead c p x = Store.read unlisted p.ciram off ∧
  ∀ v, ppuWriteCart c x v = c ∧ ppuWritePpu c p x v = { p with ciram := Store.write unlisted p.ciram off v }

/-- The byte of PPU address `x` is byte `off` of the cartridge's nametable memory, on a read and on a write. -/
def NtCarried (c : Cartridge) (p : Ppu) (x : Word) (off : Nat) : Prop :=
  ppuRead c p x = Store.read unlisted c.vram off ∧
  ∀ v, ppuWriteCart c x v = { c with vram := Store.write unlisted c.vram off v } ∧ ppuWritePpu c p x v = p

section
variable {c : Cartridge} {x : Word} (hlow : 0x2000 ≤ x.toNat % 0x4000) (hhigh : x.toNat % 0x4000 < 0x3F00)
include hlow hhigh

theorem ntOnboard_of_mapVram {mode : NtMode} (h : c.mapVram (x.toNat % 0x4000 % 0x1000) = .onboard mode) (p : Ppu) :
    NtOnboard c p x (ntMirror mode (x.toNat % 0x4000 % 0x1000)) := by
  have hpattern : ¬ x.toNat % 0x4000 < 0x2000 := by omega
  refine ⟨?_, fun v => ⟨?_, ?_⟩⟩ <;>
    simp only [ppuRead, ppuWriteCart, ppuWritePpu, ppuAddr_eq, ntRead, if_neg hpattern, if_pos hhigh, h]

theorem ntCarried_of_mapVram {off : Nat} (h : c.mapVram (x.toNat % 0x4000 % 0x1000) = .cart off) (p : Ppu) :
    NtCarried c p x off := by
  have hpattern : ¬ x.toNat % 0x4000 < 0x2000 := by omega
  refine ⟨?_, fun v => ⟨?_, ?_⟩⟩ <;>
    simp only [ppuRead, ppuWriteCart, ppuWritePpu, ppuAddr_eq, ntRead, if_neg hpattern, if_pos hhigh, h]

end

/-- The header's layout, as a formula on the offset. -/
theorem ntMirror_header (m : Mirroring) {n : Nat} (h : n < 0x1000) :
    ntMirror m.ntMode n =
      if m = .vertical then n / 0x400 % 2 * 0x400 + n % 0x400 else n / 0x800 * 0x400 + n % 0x400 := by
  cases m with
  | vertical => exact ntMirror_vertical n
  | horizontal => exact ntMirror_horizontal h

theorem mapVram_nrom {c : Cartridge} (h : c.mapper = .nrom) (n : Nat) :
    c.mapVram n = .onboard c.rom.mirroring.ntMode := by simp [Cartridge.mapVram, h]

theorem mapVram_unrom {c : Cartridge} {b : BitVec 4} (h : c.mapper = .unrom b) (n : Nat) :
    c.mapVram n = .onboard c.rom.mirroring.ntMode := by simp [Cartridge.mapVram, h]

theorem mapVram_axrom {c : Cartridge} {b : BitVec 3} {q : Bool} (h : c.mapper = .axrom b q) (n : Nat) :
    c.mapVram n = .cart ((if q then 1 else 0) * 0x400 + n % 0x400) := by
  cases q <;> simp [Cartridge.mapVram, h]

/-- The MMC1-style variant routes by bits 1..0 of its control register (R352). -/
theorem mapVram_mmc1 {c : Cartridge} {r : Mmc1} (h : c.mapper = .mmc1 r) (n : Nat) :
    (r.control.toNat % 4 = 0 → c.mapVram n = .cart (n % 0x400)) ∧
    (r.control.toNat % 4 = 1 → c.mapVram n = .cart (0x400 + n % 0x400)) ∧
    (r.control.toNat % 4 = 2 → c.mapVram n = .onboard .vertical) ∧
    (r.control.toNat % 4 = 3 → c.mapVram n = .onboard .horizontal) := by
  have hbits : (r.control.extractLsb' 0 2).toNat = r.control.toNat % 4 := BitVec.extractLsb'_toNat ..
  refine ⟨fun hk => ?_, fun hk => ?_, fun hk => ?_, fun hk => ?_⟩ <;>
    simp only [Cartridge.mapVram, h, hbits, hk]

/-- Settles O49: the layouts by arithmetic, the palette by its entries, and each variant through its routing. -/
theorem ppuMirrors : Obligations.PpuMirrors := by
  refine ⟨fun n hn => ⟨ntMirror_vertical_tables hn, ntMirror_horizontal_tables hn,
    fun k _ => ntMirror_single_tables hn k⟩, fun c p v r hr => ppuRead_palette_pair hr c p v, ?_⟩
  intro c p x i n vertical horizontal page onboard carried header hlow hhigh
  have hn : n < 0x1000 := Nat.mod_lt _ (by decide)
  have hvertical : ntMirror .vertical n = vertical := ntMirror_vertical n
  have hhorizontal : ntMirror .horizontal n = horizontal := ntMirror_horizontal hn
  have hheader : ntMirror c.rom.mirroring.ntMode n = header := ntMirror_header c.rom.mirroring hn
  have toOnboard {mode : NtMode} (h : c.mapVram n = .onboard mode) : onboard (ntMirror mode n) :=
    ntOnboard_of_mapVram hlow hhigh h p
  have toCarried {off : Nat} (h : c.mapVram n = .cart off) : carried off := ntCarried_of_mapVram hlow hhigh h p
  refine ⟨fun h => ?nrom, fun b h => ?unrom, fun b q h => ?axrom, fun r h => ?mmc1⟩
  case nrom => exact hheader ▸ toOnboard (mapVram_nrom h n)
  case unrom => exact hheader ▸ toOnboard (mapVram_unrom h n)
  case axrom => exact toCarried (mapVram_axrom h n)
  case mmc1 =>
    obtain ⟨lowPage, highPage, sideBySide, stacked⟩ := mapVram_mmc1 h n
    exact ⟨fun hk => toCarried (by simpa [page] using lowPage hk),
      fun hk => toCarried (by simpa [page] using highPage hk),
      fun hk => hvertical ▸ toOnboard (sideBySide hk), fun hk => hhorizontal ▸ toOnboard (stacked hk)⟩

end Sys2Proof.Machine
end

section
/-!
The CPU's window on the PPU's registers: its mirrors (R54), and the registers that a read or a write treats plainly
(R281, R282, R284, R285).
-/

namespace Sys2Proof.Machine

/-! What a field write leaves of the fields. -/

theorem extractLsb'_setField_same {n lo len : Nat} (h : lo + len ≤ n) (v : BitVec n) (x : BitVec len) :
    (setField v lo len x).extractLsb' lo len = x := by
  refine BitVec.eq_of_getLsbD_eq fun j hj => ?_
  rw [BitVec.getLsbD_extractLsb', getLsbD_setField v lo x (by omega)]
  simp [hj]

theorem extractLsb'_setField_disjoint {n lo len start k : Nat} (hn : start + k ≤ n)
    (h : start + k ≤ lo ∨ lo + len ≤ start) (v : BitVec n) (x : BitVec len) :
    (setField v lo len x).extractLsb' start k = v.extractLsb' start k := by
  refine BitVec.eq_of_getLsbD_eq fun j hj => ?_
  have houtside : ¬ (lo ≤ start + j ∧ start + j < lo + len) := by omega
  rw [BitVec.getLsbD_extractLsb', BitVec.getLsbD_extractLsb', getLsbD_setField v lo x (by omega), if_neg houtside]

/-! The window and its mirrors (R54). -/

theorem region_ppuWindow {a : Word} (hlow : 0x2000 ≤ a) (hhigh : a < 0x4000) : region a = .ppuReg (a.toNat % 8) := by
  have hram : ¬ a < 0x2000 := by bv_omega
  have hnumber : (a &&& 7).toNat = a.toNat % 8 := by
    rw [BitVec.toNat_and]
    exact Nat.and_two_pow_sub_one_eq_mod a.toNat 3
  unfold region
  rw [if_neg hram, if_pos hhigh, hnumber]

/-- The first eight addresses of the window are the registers in their order. -/
theorem region_ppuRegister {n : Nat} (h : n < 8) : region (BitVec.ofNat 16 (0x2000 + n)) = .ppuReg n := by
  revert n
  decide

section
variable {a : Word} {n : Nat} (h : region a = .ppuReg n) (s : State)
include h

theorem cpuPeek_ppuReg : cpuPeek a s = ppuRegValue s.cart s.ppu n := by simp only [cpuPeek, h]

theorem readEffect_ppuReg : readEffect a s = { s with ppu := ppuRegAfterRead s.cart s.ppu n } := by
  simp only [readEffect, h]

theorem cpuWrite_ppuReg (v : Byte) :
    cpuWrite a v s =
      { s with ppu := ppuRegWritePpu s.cart s.ppu n v, cart := ppuRegWriteCart s.cart s.ppu n v } := by
  simp only [cpuWrite, h]

end

/-! The registers (R281 to R285; D26, D28). -/

/-- Every register but PPUSTATUS, OAMDATA and PPUDATA reads 0 (D26). -/
theorem ppuRegValue_writeOnly {n : Nat} (h2 : n ≠ 2) (h4 : n ≠ 4) (h7 : n ≠ 7) (c : Cartridge) (p : Ppu) :
    ppuRegValue c p n = 0 := by
  unfold ppuRegValue
  split <;> simp_all

/-- Only PPUSTATUS and PPUDATA have an effect on a read. -/
theorem ppuRegAfterRead_plain {n : Nat} (h2 : n ≠ 2) (h7 : n ≠ 7) (c : Cartridge) (p : Ppu) :
    ppuRegAfterRead c p n = p := by
  unfold ppuRegAfterRead
  split <;> simp_all

/-- Writing PPUCTRL copies its two nametable bits into `t` and leaves the other bits of `t` (R281). -/
theorem writeCtrl_t (p : Ppu) (v : Byte) :
    (p.writeCtrl v).t.extractLsb' 10 2 = v.extractLsb' 0 2 ∧
    (p.writeCtrl v).t.extractLsb' 0 10 = p.t.extractLsb' 0 10 ∧
    (p.writeCtrl v).t.extractLsb' 12 3 = p.t.extractLsb' 12 3 :=
  ⟨extractLsb'_setField_same (by decide) _ _, extractLsb'_setField_disjoint (by decide) (by decide) _ _,
    extractLsb'_setField_disjoint (by decide) (by decide) _ _⟩

/-- Writing OAMDATA moves `oam_addr` on by one, modulo 256 (R285). -/
theorem writeOamData_oamAddr (p : Ppu) (v : Byte) :
    (p.writeOamData v).oamAddr = BitVec.ofNat 8 (p.oamAddr.toNat + 1) := by
  show p.oamAddr + 1 = _
  bv_omega

/-- The one byte of OAM that a write to OAMDATA changes is that at `oam_addr` (R285). -/
theorem read_writeOamData (p : Ppu) (v i : Byte) :
    Store.read unlisted (p.writeOamData v).oam i.toNat =
      if i = p.oamAddr then v else Store.read unlisted p.oam i.toNat := by
  simp only [Ppu.writeOamData, Store.read_write, BitVec.toNat_inj]

/-- Settles O50: an address of the window selects the register of its last three bits, and each register is one case. -/
theorem ppuWindow : Obligations.PpuWindow := by
  intro a s v hlow hhigh r p q
  have ha : region a = .ppuReg (a.toNat % 8) := region_ppuWindow hlow hhigh
  have hr : region r = .ppuReg (a.toNat % 8) := region_ppuRegister (Nat.mod_lt _ (by decide))
  have hreg {n : Nat} (hn : a.toNat % 8 = n) : region a = .ppuReg n := hn ▸ ha
  refine ⟨(cpuPeek_ppuReg ha s).trans (cpuPeek_ppuReg hr s).symm,
    (readEffect_ppuReg ha s).trans (readEffect_ppuReg hr s).symm,
    (cpuWrite_ppuReg ha s v).trans (cpuWrite_ppuReg hr s v).symm, fun h2 h4 h7 => ⟨?_, ?_⟩,
    fun h => ?ctrl, fun h => cpuWrite_ppuReg (hreg h) s v, fun h => cpuWrite_ppuReg (hreg h) s v,
    fun h => cpuWrite_ppuReg (hreg h) s v, fun h => ?oamData⟩
  · rw [cpuPeek_ppuReg ha, ppuRegValue_writeOnly h2 h4 h7]
  · rw [readEffect_ppuReg ha, ppuRegAfterRead_plain h2 h7]
  case ctrl =>
    have hwrite : cpuWrite a v s = { s with ppu := p.writeCtrl v } := cpuWrite_ppuReg (hreg h) s v
    have hq : q = p.writeCtrl v := congrArg State.ppu hwrite
    rw [hq]
    exact ⟨hwrite, writeCtrl_t p v⟩
  case oamData =>
    have hwrite : cpuWrite a v s = { s with ppu := p.writeOamData v } := cpuWrite_ppuReg (hreg h) s v
    have hq : q = p.writeOamData v := congrArg State.ppu hwrite
    rw [hq, ← writeOamData_oamAddr p v]
    exact ⟨cpuPeek_ppuReg (hreg h) s, readEffect_ppuReg (hreg h) s, hwrite, read_writeOamData p v⟩

end Sys2Proof.Machine
end

section
/-!
The encoding (R100 to R106). An opcode byte with its operand bytes is an instruction, and decoding and encoding are
inverse on it; every well-formed instruction is one of these.
-/

namespace Sys2Proof

/-! What an opcode byte makes of its operand bytes, legal or not. -/

theorem cellOk_instrOf {op : Byte} (h : op ∉ illegalOpcodes) : CellOk op (instrOf op) := by
  have hlegal : isIllegal op = false := Bool.eq_false_iff.mpr (mt (isIllegal_iff op).mp h)
  obtain ⟨f, hcell, hf⟩ := instrOf_legal hlegal
  have hform : instrOf op = f := funext₂ hf
  exact hform ▸ hcell

theorem instrOf_of_mem {op : Byte} (h : op ∈ illegalOpcodes) (a b : Byte) : instrOf op a b = .illegal op :=
  instrOf_illegal ((isIllegal_iff op).mpr h) a b

theorem opcodeMode_of_mem {op : Byte} (h : op ∈ illegalOpcodes) : opcodeMode op = .imp := by
  rw [opcodeMode, instrOf_of_mem h, Instr.mode]

/-- The opcode alone selects the mode (R100). -/
theorem instrOf_mode (op a b : Byte) : (instrOf op a b).mode = opcodeMode op := by
  by_cases h : op ∈ illegalOpcodes
  · rw [opcodeMode, instrOf_of_mem h, instrOf_of_mem h]
  · exact (cellOk_instrOf h).mode a b

/-- The opcode alone selects the category. -/
theorem instrOf_category (op a b : Byte) : (instrOf op a b).category = (instrOf op 0 0).category := by
  by_cases h : op ∈ illegalOpcodes
  · rw [instrOf_of_mem h, instrOf_of_mem h]
  · exact (cellOk_instrOf h).category a b

/-- The opcode alone selects the mnemonic, which is its row of R105. -/
theorem instrOf_opcodes (op a b : Byte) : (instrOf op a b).opcodes = (instrOf op 0 0).opcodes := by
  by_cases h : op ∈ illegalOpcodes
  · rw [instrOf_of_mem h, instrOf_of_mem h]
  · exact (cellOk_instrOf h).opcodes a b

theorem wellFormed_instrOf (op a b : Byte) : WellFormed (instrOf op a b) = true := by
  by_cases h : op ∈ illegalOpcodes
  · rw [instrOf_of_mem h]
    exact List.contains_iff_mem.mpr h
  · exact (cellOk_instrOf h).wf a b

theorem encode_instrOf (op a b : Byte) :
    encode (instrOf op a b) = op :: [a, b].take (opcodeMode op).operandBytes := by
  by_cases h : op ∈ illegalOpcodes
  · rw [instrOf_of_mem h, opcodeMode_of_mem h]
    rfl
  · exact (cellOk_instrOf h).bytes a b

/-- A mode without operand bytes does not look at them. -/
theorem instrOf_of_operandBytes_zero {op : Byte} (h : (opcodeMode op).operandBytes = 0) (a b : Byte) :
    instrOf op a b = instrOf op 0 0 := by
  by_cases hop : op ∈ illegalOpcodes
  · rw [instrOf_of_mem hop, instrOf_of_mem hop]
  · exact (cellOk_instrOf hop).none h a b

/-- A mode of one operand byte does not look at the second. -/
theorem instrOf_of_operandBytes_one {op : Byte} (h : (opcodeMode op).operandBytes = 1) (a b : Byte) :
    instrOf op a b = instrOf op a 0 := by
  by_cases hop : op ∈ illegalOpcodes
  · rw [instrOf_of_mem hop, instrOf_of_mem hop]
  · exact (cellOk_instrOf hop).one h a b

theorem Mode.operandBytes_cases (m : Mode) : m.operandBytes = 0 ∨ m.operandBytes = 1 ∨ m.operandBytes = 2 := by
  cases m <;> decide

/-! Decoding takes the opcode and the operand bytes its mode has, and nothing else is decoded. -/

theorem decode_instrOf (op a b : Byte) (rest : List Byte) :
    decode (op :: [a, b].take (opcodeMode op).operandBytes ++ rest) = .ok (instrOf op a b, rest) := by
  obtain h | h | h := (opcodeMode op).operandBytes_cases
  · simp [decode, h, instrOf_of_operandBytes_zero h a b]
  · simp [decode, h, instrOf_of_operandBytes_one h a b]
  · simp [decode, h]

/-- Three bytes are always enough. -/
theorem decode_three (op a b : Byte) :
    decode [op, a, b] = .ok (instrOf op a b, [a, b].drop (opcodeMode op).operandBytes) := by
  have h := decode_instrOf op a b ([a, b].drop (opcodeMode op).operandBytes)
  rwa [List.cons_append, List.take_append_drop] at h

/-- The inversion of `decode`. -/
theorem decode_eq_ok {bs rest : List Byte} {i : Instr} (h : decode bs = .ok (i, rest)) :
    ∃ op a b, i = instrOf op a b ∧ bs = op :: [a, b].take (opcodeMode op).operandBytes ++ rest := by
  unfold decode at h
  split at h
  · cases h
  next op tail =>
    split at h
    next hn => cases h; exact ⟨op, 0, 0, rfl, by simp [hn]⟩
    next a _ hn => cases h; exact ⟨op, a, 0, rfl, by simp [hn]⟩
    next a b _ hn => cases h; exact ⟨op, a, b, rfl, by simp [hn]⟩
    next => cases h

/-! The operand of each mode, rebuilt from its bytes. -/

/-- The read operand of a mode. -/
def readOperandOf : Mode → Byte → Byte → ReadOperand
  | .imm, a, _ => .imm a
  | m, a, b => .mem (Form.operand m a b)

/-- The shift operand of a mode. -/
def shiftOperandOf : Mode → Byte → Byte → ShiftOperand
  | .acc, _, _ => .acc
  | m, a, b => .mem (Form.operand m a b)

/-- The jump operand of a mode. -/
def jumpOperandOf : Mode → Byte → Byte → JumpOperand
  | .ind, a, b => .ind (mkWord b a)
  | _, a, b => .abs (mkWord b a)

theorem exists_mkWord (w : Word) : ∃ a b, mkWord b a = w := ⟨loByte w, hiByte w, Machine.mkWord_hi_lo w⟩

theorem exists_operand (m : MemOperand) : ∃ a b, Form.operand m.mode a b = m := by
  cases m with
  | zp b | zpx b | zpy b | izx b | izy b => exact ⟨b, 0, rfl⟩
  | abs w | abx w | aby w =>
    obtain ⟨a, b, rfl⟩ := exists_mkWord w
    exact ⟨a, b, rfl⟩

theorem exists_readOperandOf (o : ReadOperand) : ∃ a b, readOperandOf o.mode a b = o := by
  cases o with
  | imm v => exact ⟨v, 0, rfl⟩
  | mem m =>
    obtain ⟨a, b, h⟩ := exists_operand m
    refine ⟨a, b, ?_⟩
    have hmem : readOperandOf m.mode a b = .mem (Form.operand m.mode a b) := by cases m <;> rfl
    exact hmem.trans (congrArg ReadOperand.mem h)

theorem exists_shiftOperandOf (o : ShiftOperand) : ∃ a b, shiftOperandOf o.mode a b = o := by
  cases o with
  | acc => exact ⟨0, 0, rfl⟩
  | mem m =>
    obtain ⟨a, b, h⟩ := exists_operand m
    refine ⟨a, b, ?_⟩
    have hmem : shiftOperandOf m.mode a b = .mem (Form.operand m.mode a b) := by cases m <;> rfl
    exact hmem.trans (congrArg ShiftOperand.mem h)

theorem exists_jumpOperandOf (o : JumpOperand) : ∃ a b, jumpOperandOf o.mode a b = o := by
  cases o with
  | abs w | ind w =>
    obtain ⟨a, b, rfl⟩ := exists_mkWord w
    exact ⟨a, b, rfl⟩

/-! Every well-formed instruction is one of the opcode map's (R103, R105). -/

/-- If well-formed, the instruction is that of some opcode byte and operand bytes. -/
def HasBytes (i : Instr) : Prop := WellFormed i = true → ∃ op a b, instrOf op a b = i

theorem mem_of_lookupMode {m : Mode} {op : Byte} {rows : List (Mode × Byte)} (h : lookupMode m rows = some op) :
    (m, op) ∈ rows := by
  induction rows with
  | nil => cases h
  | cons row rest ih =>
    obtain ⟨k, x⟩ := row
    unfold lookupMode at h
    split at h
    next hk => cases h; simp [hk]
    · exact List.mem_cons_of_mem _ (ih h)

/-- An instruction with an operand has its bytes if R105's rows of the mnemonic are cells of R103's map, each with the
operand of its mode. -/
theorem hasBytes_of_rows {α : Type} {f : α → Instr} {x : α} {operandOf : Mode → Byte → Byte → α}
    (hoperand : ∃ a b, operandOf (f x).mode a b = x) (hlookup : Laws.Encoding.Statement (f x))
    (hrows : (f x).opcodes.map (fun row => instrOf row.2) =
      (f x).opcodes.map (fun row a b => f (operandOf row.1 a b))) : HasBytes (f x) := by
  intro hwf
  obtain ⟨a, b, hx⟩ := hoperand
  obtain ⟨op, hop, -⟩ := hlookup hwf
  have hcell : instrOf op = fun a b => f (operandOf (f x).mode a b) :=
    List.map_inj_left.mp hrows ((f x).mode, op) (mem_of_lookupMode hop)
  exact ⟨op, a, b, (congrFun₂ hcell a b).trans (congrArg f hx)⟩

theorem hasBytes_jsr (target : Word) : HasBytes (.jsr target) := fun _ => by
  obtain ⟨a, b, rfl⟩ := exists_mkWord target
  exact ⟨0x20, a, b, rfl⟩

theorem hasBytes_illegal (op : Byte) : HasBytes (.illegal op) := fun h =>
  ⟨op, 0, 0, instrOf_of_mem (List.contains_iff_mem.mp h) 0 0⟩

/-- Mnemonic by mnemonic: one with several modes by its rows, one with a single mode by its opcode. -/
theorem hasBytes (i : Instr) : HasBytes i :=
  match i with
  | .lda o => hasBytes_of_rows (exists_readOperandOf o) (Laws.Encoding.lda o) rfl
  | .ldx o => hasBytes_of_rows (exists_readOperandOf o) (Laws.Encoding.ldx o) rfl
  | .ldy o => hasBytes_of_rows (exists_readOperandOf o) (Laws.Encoding.ldy o) rfl
  | .adc o => hasBytes_of_rows (exists_readOperandOf o) (Laws.Encoding.adc o) rfl
  | .sbc o => hasBytes_of_rows (exists_readOperandOf o) (Laws.Encoding.sbc o) rfl
  | .and o => hasBytes_of_rows (exists_readOperandOf o) (Laws.Encoding.and o) rfl
  | .ora o => hasBytes_of_rows (exists_readOperandOf o) (Laws.Encoding.ora o) rfl
  | .eor o => hasBytes_of_rows (exists_readOperandOf o) (Laws.Encoding.eor o) rfl
  | .cmp o => hasBytes_of_rows (exists_readOperandOf o) (Laws.Encoding.cmp o) rfl
  | .cpx o => hasBytes_of_rows (exists_readOperandOf o) (Laws.Encoding.cpx o) rfl
  | .cpy o => hasBytes_of_rows (exists_readOperandOf o) (Laws.Encoding.cpy o) rfl
  | .bit m => hasBytes_of_rows (exists_operand m) (Laws.Encoding.bit m) rfl
  | .sta m => hasBytes_of_rows (exists_operand m) (Laws.Encoding.sta m) rfl
  | .stx m => hasBytes_of_rows (exists_operand m) (Laws.Encoding.stx m) rfl
  | .sty m => hasBytes_of_rows (exists_operand m) (Laws.Encoding.sty m) rfl
  | .inc m => hasBytes_of_rows (exists_operand m) (Laws.Encoding.inc m) rfl
  | .dec m => hasBytes_of_rows (exists_operand m) (Laws.Encoding.dec m) rfl
  | .asl o => hasBytes_of_rows (exists_shiftOperandOf o) (Laws.Encoding.asl o) rfl
  | .lsr o => hasBytes_of_rows (exists_shiftOperandOf o) (Laws.Encoding.lsr o) rfl
  | .rol o => hasBytes_of_rows (exists_shiftOperandOf o) (Laws.Encoding.rol o) rfl
  | .ror o => hasBytes_of_rows (exists_shiftOperandOf o) (Laws.Encoding.ror o) rfl
  | .jmp o => hasBytes_of_rows (exists_jumpOperandOf o) (Laws.Encoding.jmp o) rfl
  | .jsr target => hasBytes_jsr target
  | .bcc off => fun _ => ⟨0x90, off, 0, rfl⟩
  | .bcs off => fun _ => ⟨0xB0, off, 0, rfl⟩
  | .beq off => fun _ => ⟨0xF0, off, 0, rfl⟩
  | .bne off => fun _ => ⟨0xD0, off, 0, rfl⟩
  | .bmi off => fun _ => ⟨0x30, off, 0, rfl⟩
  | .bpl off => fun _ => ⟨0x10, off, 0, rfl⟩
  | .bvc off => fun _ => ⟨0x50, off, 0, rfl⟩
  | .bvs off => fun _ => ⟨0x70, off, 0, rfl⟩
  | .rts => fun _ => ⟨0x60, 0, 0, rfl⟩
  | .rti => fun _ => ⟨0x40, 0, 0, rfl⟩
  | .brk => fun _ => ⟨0x00, 0, 0, rfl⟩
  | .tax => fun _ => ⟨0xAA, 0, 0, rfl⟩
  | .tay => fun _ => ⟨0xA8, 0, 0, rfl⟩
  | .txa => fun _ => ⟨0x8A, 0, 0, rfl⟩
  | .tya => fun _ => ⟨0x98, 0, 0, rfl⟩
  | .tsx => fun _ => ⟨0xBA, 0, 0, rfl⟩
  | .txs => fun _ => ⟨0x9A, 0, 0, rfl⟩
  | .inx => fun _ => ⟨0xE8, 0, 0, rfl⟩
  | .iny => fun _ => ⟨0xC8, 0, 0, rfl⟩
  | .dex => fun _ => ⟨0xCA, 0, 0, rfl⟩
  | .dey => fun _ => ⟨0x88, 0, 0, rfl⟩
  | .pha => fun _ => ⟨0x48, 0, 0, rfl⟩
  | .php => fun _ => ⟨0x08, 0, 0, rfl⟩
  | .pla => fun _ => ⟨0x68, 0, 0, rfl⟩
  | .plp => fun _ => ⟨0x28, 0, 0, rfl⟩
  | .clc => fun _ => ⟨0x18, 0, 0, rfl⟩
  | .sec => fun _ => ⟨0x38, 0, 0, rfl⟩
  | .cli => fun _ => ⟨0x58, 0, 0, rfl⟩
  | .sei => fun _ => ⟨0x78, 0, 0, rfl⟩
  | .clv => fun _ => ⟨0xB8, 0, 0, rfl⟩
  | .cld => fun _ => ⟨0xD8, 0, 0, rfl⟩
  | .sed => fun _ => ⟨0xF8, 0, 0, rfl⟩
  | .nop => fun _ => ⟨0xEA, 0, 0, rfl⟩
  | .illegal op => hasBytes_illegal op

/-- Settles O1: a well-formed instruction is that of some opcode and operand bytes, and these decode to it. -/
theorem decodeOfEncode : Obligations.DecodeOfEncode := by
  intro i rest hwf
  obtain ⟨op, a, b, rfl⟩ := hasBytes i hwf
  rw [encode_instrOf]
  exact decode_instrOf op a b rest

/-- Settles O2: what is decoded is the instruction of an opcode and operand bytes, and these are its encoding. -/
theorem encodeOfDecode : Obligations.EncodeOfDecode := by
  intro bs rest i h
  obtain ⟨op, a, b, rfl, hbs⟩ := decode_eq_ok h
  exact ⟨wellFormed_instrOf op a b, by rw [hbs, encode_instrOf]⟩

/-- Settles O4: an illegal byte has no operand bytes; a legal one's cell is no halt, and its length is its mode's. -/
theorem illegalOpcodes_decode : Obligations.IllegalOpcodes := by
  refine ⟨by decide, by decide, fun op a b => ⟨fun h => ?illegal, fun h => ?legal⟩⟩
  case illegal =>
    rw [decode_three, instrOf_of_mem h, opcodeMode_of_mem h]
    rfl
  case legal =>
    refine ⟨_, _, decode_three op a b, ?_, ?_⟩
    · rw [instrOf_category]
      exact (cellOk_instrOf h).legal
    · rw [Instr.length, instrOf_mode]
      obtain hn | hn | hn := (opcodeMode op).operandBytes_cases <;> rw [hn] <;> rfl

/-- Settles O5: any three bytes decode to the instruction of the first, whose mode and mnemonic are the opcode's. -/
theorem operandBytesNeverIllegal : Obligations.OperandBytesNeverIllegal := by
  intro op a b c d
  refine ⟨_, _, _, _, decode_three op a b, decode_three op c d, wellFormed_instrOf op a b,
    wellFormed_instrOf op c d, ?_, ?_, ?_⟩
  · rw [instrOf_mode, instrOf_mode]
  · rw [instrOf_category op a b, instrOf_category op c d]
  · rw [instrOf_opcodes op a b, instrOf_opcodes op c d]

/-- Settles O3: each word by running the decoder. -/
theorem wordsDecode : Obligations.WordsDecode :=
  ⟨rfl, rfl, rfl, rfl, rfl, rfl, rfl, rfl, rfl, rfl, rfl, rfl, rfl⟩

end Sys2Proof
end

section
/-!
The effective addresses on numbers (R102): zero-page sums wrap inside page 0 (R68), the others modulo 2^16.
-/

namespace Sys2Proof.Machine

theorem toNat_zpIndexed (b index : Byte) : (zpIndexed b index).toNat = (b.toNat + index.toNat) % 256 := by
  rw [zpIndexed, toNat_zext16, BitVec.toNat_add]

theorem toNat_add_zext16 (base : Word) (index : Byte) :
    (base + zext16 index).toNat = (base.toNat + index.toNat) % 65536 := by
  rw [BitVec.toNat_add, toNat_zext16]

/-- A pointer in page 0 is two bytes of RAM, the second at the next address of the page. -/
theorem toNat_zpPointer (b : Byte) (s : State) :
    (zpPointer b s).toNat =
      (Store.read unlisted s.ram ((b.toNat + 1) % 256)).toNat * 256 + (Store.read unlisted s.ram b.toNat).toNat := by
  have hnext : (b + 1).toNat = (b.toNat + 1) % 256 := BitVec.toNat_add b 1
  rw [zpPointer, zpNext, toNat_mkWord, cpuPeek_ram (region_zext16 b), cpuPeek_ram (region_zext16 (b + 1)), hnext]

/-- The indexed pointer's own address wraps inside page 0. -/
theorem toNat_zpPointer_indexed (b index : Byte) (s : State) :
    (zpPointer (b + index) s).toNat =
      (Store.read unlisted s.ram ((b.toNat + index.toNat + 1) % 256)).toNat * 256 +
        (Store.read unlisted s.ram ((b.toNat + index.toNat) % 256)).toNat := by
  rw [toNat_zpPointer, BitVec.toNat_add, Nat.mod_add_mod]

/-- Settles O15: the zero-page forms, the absolute ones, and those through a pointer. -/
theorem effectiveAddresses : Obligations.EffectiveAddresses := by
  intro s b w
  refine ⟨toNat_zext16 b, toNat_zpIndexed b _, toNat_zpIndexed b _, rfl, toNat_add_zext16 w _, toNat_add_zext16 w _,
    toNat_zpPointer_indexed b _ s, ?_⟩
  rw [effAddr, toNat_add_zext16, toNat_zpPointer]

end Sys2Proof.Machine
end

section
/-!
A step of the machine as master cycles (R120, R121, R125): one for each that the CPU waits, and for each CPU cycle one
in which it steps and the rest of its divider's count.
-/

namespace Sys2Proof.Machine

/-- A run of CPU steps takes a whole divider's count of master cycles for each CPU cycle but the last, of which it
takes the first. -/
theorem runCpu_masterCycles {n : Nat} {s t : State} (hdiv : s.bus.cpuDivCnt = 0) (hhalt : s.cpu.halted = false)
    (hpos : 0 < s.cfg.cpuDivider) (h : runCpu n s = .next t) :
    ∃ k, t.cpu.cyc = s.cpu.cyc + k + 1 ∧ t = masterCycles (k * s.cfg.cpuDivider + 1) s := by
  induction n generalizing s with
  | zero => cases h
  | succ n ih =>
    have hframe := cpuWork_frame s
    rw [runCpu] at h
    split at h
    next =>
      cases h
      refine ⟨0, by rw [finishCycle_cyc, hframe.cyc, Nat.add_zero], ?_⟩
      rw [Nat.zero_mul, ← masterCycle_cpu hdiv hhalt]
      rfl
    next hbusy =>
      have hhalt' : (elapse (cpuWork s)).cpu.halted = false := by
        rw [elapse_halted, hframe.halted (Bool.eq_false_iff.mpr hbusy), hhalt]
      have hcfg : (elapse (cpuWork s)).cfg = s.cfg := by rw [elapse_cfg, hframe.cfg]
      obtain ⟨k, hcyc, ht⟩ := ih (elapse_cpuDivCnt _) hhalt' (by rw [hcfg]; exact hpos) h
      refine ⟨k + 1, by rw [hcyc, elapse_cyc, hframe.cyc]; omega, ?_⟩
      have helapse : elapse (cpuWork s) = masterCycles s.cfg.cpuDivider s := by
        rw [elapse_eq hdiv hhalt (by rw [hframe.cfg]; exact hpos), hframe.cfg]
      have hcount : (k + 1) * s.cfg.cpuDivider + 1 = s.cfg.cpuDivider + (k * s.cfg.cpuDivider + 1) := by
        rw [Nat.succ_mul]; omega
      rw [hcount, masterCycles_add, ← helapse]
      rwa [hcfg] at ht

/-- Settles O7: the wait and then the run of CPU steps are master cycles. -/
theorem stepIsMasterCycles : Obligations.StepIsMasterCycles := by
  intro s t hhalt hpos hstep
  rw [step_eq_runCpu hhalt] at hstep
  obtain ⟨k, hcyc, ht⟩ := runCpu_masterCycles (waitCpu_cpuDivCnt s) (by simpa using hhalt) (by simpa using hpos) hstep
  rw [waitCpu_cyc] at hcyc
  have hk : t.cpu.cyc - s.cpu.cyc - 1 = k := by omega
  refine ⟨by omega, ?_⟩
  rw [hk, Nat.add_assoc, masterCycles_add, ← waitCpu_eq]
  rwa [waitCpu_cfg] at ht

end Sys2Proof.Machine
end

section
/-!
The NMI signal (R123, R374): the end of a master cycle takes it from the PPU to the CPU, and where PPUCTRL disables it
time raises none.
-/

namespace Sys2Proof.Machine

/-! The end of a master cycle, in terms of the PPU's part of it. -/

theorem ppuTick_ppu (s : State) :
    (ppuTick s).ppu = if s.bus.ppuDivCnt = 0 then s.ppu.step s.cart else s.ppu := by
  unfold ppuTick
  split <;> rfl

theorem routeNmi_ppu (s : State) : (routeNmi s).ppu = { s.ppu with nmiSignal := false } := by
  unfold routeNmi
  split
  · rfl
  next h => rw [← Bool.eq_false_iff.mpr h]

theorem routeNmi_cpu (s : State) :
    (routeNmi s).cpu = { s.cpu with nmiPending := s.cpu.nmiPending || s.ppu.nmiSignal } := by
  unfold routeNmi
  split
  next h => rw [h, Bool.or_true]
  next h => rw [Bool.eq_false_iff.mpr h, Bool.or_false]

theorem observeHalt_ppu (s : State) : (observeHalt s).ppu = s.ppu := by
  unfold observeHalt
  split <;> rfl

theorem observeHalt_cpu (s : State) : (observeHalt s).cpu = s.cpu := by
  unfold observeHalt
  split <;> rfl

theorem afterCpu_ppu (s : State) : (afterCpu s).ppu = { (ppuTick s).ppu with nmiSignal := false } := by
  rw [afterCpu, observeHalt_ppu, routeNmi_ppu]
  rfl

theorem afterCpu_cpu (s : State) :
    (afterCpu s).cpu = { s.cpu with nmiPending := s.cpu.nmiPending || (ppuTick s).ppu.nmiSignal } := by
  rw [afterCpu, observeHalt_cpu, routeNmi_cpu, mapperTick, ppuTick_cpu]

/-- No master cycle leaves the signal standing. -/
theorem masterCycle_nmiSignal (s : State) : (masterCycle s).ppu.nmiSignal = false := by
  have hafter (u : State) : (afterCpu u).ppu.nmiSignal = false := by rw [afterCpu_ppu]
  unfold masterCycle
  split_ifs
  · exact hafter _
  · exact hafter _
  · exact hafter _

/-! Of a PPU step, the VBlank point alone can raise the signal (R304). -/

theorem Ppu.whenever_nmiSignal (p : Ppu) (b : Bool) {f : Ppu → Ppu} (h : ∀ q : Ppu, (f q).nmiSignal = q.nmiSignal) :
    (p.whenever b f).nmiSignal = p.nmiSignal := by
  unfold Ppu.whenever
  split
  · exact h p
  · rfl

theorem Ppu.incX_nmiSignal (p : Ppu) : p.incX.nmiSignal = p.nmiSignal := by
  unfold Ppu.incX
  dsimp only
  split <;> rfl

theorem Ppu.incY_nmiSignal (p : Ppu) : p.incY.nmiSignal = p.nmiSignal := by
  unfold Ppu.incY
  dsimp only
  split_ifs <;> rfl

theorem Ppu.bgPhase_nmiSignal (p : Ppu) (k : Cartridge) (c : Nat) : (p.bgPhase k c).nmiSignal = p.nmiSignal := by
  unfold Ppu.bgPhase
  split
  · rfl
  · rfl
  · rfl
  · rfl
  · exact p.incX_nmiSignal
  · rfl

theorem Ppu.evaluateSprite_nmiSignal (s : Int) (p : Ppu) (n : Nat) : (p.evaluateSprite s n).nmiSignal = p.nmiSignal := by
  unfold Ppu.evaluateSprite
  dsimp only
  split_ifs <;> rfl

theorem Ppu.spriteEvaluate_nmiSignal (p : Ppu) (s : Int) : (p.spriteEvaluate s).nmiSignal = p.nmiSignal := by
  unfold Ppu.spriteEvaluate
  induction List.range 64 generalizing p with
  | nil => rfl
  | cons n rest ih => rw [List.foldl_cons, ih, Ppu.evaluateSprite_nmiSignal]

theorem Ppu.render_nmiSignal (p : Ppu) (k : Cartridge) (s : Int) (c : Nat) : (p.render k s c).nmiSignal = p.nmiSignal := by
  unfold Ppu.render
  rw [Ppu.whenever_nmiSignal, Ppu.whenever_nmiSignal, Ppu.whenever_nmiSignal, Ppu.whenever_nmiSignal,
    Ppu.whenever_nmiSignal, Ppu.whenever_nmiSignal, Ppu.whenever_nmiSignal, Ppu.whenever_nmiSignal]
  · exact fun q => q.bgShift.bgPhase_nmiSignal k c
  · exact Ppu.incY_nmiSignal
  · exact fun _ => rfl
  · exact fun _ => rfl
  · exact fun _ => rfl
  · exact fun _ => rfl
  · exact fun q => q.spriteEvaluate_nmiSignal s
  · exact fun _ => rfl

theorem Ppu.endOfCycle_nmiSignal (p : Ppu) (s : Int) (c : Nat) : (p.endOfCycle s c).nmiSignal = p.nmiSignal := by
  unfold Ppu.endOfCycle
  split_ifs <;> rfl

theorem Ppu.oddFrameSkip_nmiSignal (p : Ppu) : p.oddFrameSkip.nmiSignal = p.nmiSignal := by
  unfold Ppu.oddFrameSkip
  split_ifs <;> rfl

theorem Ppu.vblankPoint_nmiSignal (p : Ppu) :
    p.vblankPoint.nmiSignal = (!p.vblSuppress && bitAt p.ctrl 7 || p.nmiSignal) := by
  unfold Ppu.vblankPoint
  split
  next h => rw [h]; rfl
  next h => rw [Bool.eq_false_iff.mpr h]; rfl

/-- Where PPUCTRL disables it, the VBlank point raises no signal. -/
theorem Ppu.whenever_vblankPoint_nmiSignal {p : Ppu} (h : bitAt p.ctrl 7 = false) (b : Bool) :
    (p.whenever b Ppu.vblankPoint).nmiSignal = p.nmiSignal := by
  unfold Ppu.whenever
  split
  · rw [Ppu.vblankPoint_nmiSignal, h, Bool.and_false, Bool.false_or]
  · rfl

/-- Where PPUCTRL disables the NMI, a PPU step leaves the signal. -/
theorem Ppu.step_nmiSignal {p : Ppu} (h : bitAt p.ctrl 7 = false) (k : Cartridge) :
    (p.step k).nmiSignal = p.nmiSignal := by
  unfold Ppu.step
  dsimp only
  rw [Ppu.endOfCycle_nmiSignal, Ppu.whenever_nmiSignal _ _ fun q => q.render_nmiSignal k _ _,
    Ppu.whenever_vblankPoint_nmiSignal, Ppu.whenever_nmiSignal (f := Ppu.clearFlags) _ _ fun _ => rfl,
    Ppu.oddFrameSkip_nmiSignal]
  show bitAt (Ppu.regs _).ctrl 7 = false
  rw [Ppu.whenever_regs _ _ Ppu.clearFlags_regs, Ppu.oddFrameSkip_regs]
  exact h

/-! Where PPUCTRL disables the NMI, none becomes pending. -/

/-- No NMI is pending, and the PPU can raise no signal. -/
structure NoNmi (s : State) : Prop where
  disabled : bitAt s.ppu.ctrl 7 = false
  signal : s.ppu.nmiSignal = false
  pending : s.cpu.nmiPending = false

theorem NoNmi.congr {s t : State} (h : NoNmi s) (hppu : t.ppu = s.ppu) (hcpu : t.cpu.nmiPending = s.cpu.nmiPending) :
    NoNmi t :=
  ⟨by rw [hppu, h.disabled], by rw [hppu, h.signal], by rw [hcpu, h.pending]⟩

theorem NoNmi.afterCpu {s : State} (h : NoNmi s) : NoNmi (afterCpu s) := by
  have hctrl : (Machine.afterCpu s).ppu.ctrl = s.ppu.ctrl := congrArg PpuRegs.ctrl (later_afterCpu s).regs
  have htick : (ppuTick s).ppu.nmiSignal = false := by
    rw [ppuTick_ppu]
    split
    · rw [Ppu.step_nmiSignal h.disabled, h.signal]
    · exact h.signal
  exact ⟨by rw [hctrl, h.disabled], by rw [afterCpu_ppu], by rw [afterCpu_cpu, h.pending, htick]; rfl⟩

theorem NoNmi.idleCycle {s : State} (h : NoNmi s) : NoNmi (idleCycle s) :=
  NoNmi.afterCpu (h.congr rfl rfl)

theorem NoNmi.idleCycles {s : State} (h : NoNmi s) (n : Nat) : NoNmi (idleCycles n s) := by
  induction n generalizing s with
  | zero => exact h
  | succ n ih => exact ih h.idleCycle

theorem NoNmi.finishCycle {s : State} (h : NoNmi s) : NoNmi (finishCycle s) :=
  NoNmi.afterCpu (h.congr rfl rfl)

theorem NoNmi.elapse {s : State} (h : NoNmi s) : NoNmi (elapse s) := h.finishCycle.idleCycles _

theorem NoNmi.advance {s : State} (h : NoNmi s) : NoNmi (advance s) := NoNmi.elapse (h.congr rfl rfl)

theorem NoNmi.readEffect {s : State} (h : NoNmi s) (a : Word) : NoNmi (readEffect a s) := by
  have hreg (n : Nat) : NoNmi { s with ppu := ppuRegAfterRead s.cart s.ppu n } := by
    unfold ppuRegAfterRead
    split <;> exact ⟨h.disabled, h.signal, h.pending⟩
  unfold Machine.readEffect
  split
  · exact hreg _
  · exact h.congr rfl rfl
  · exact h.congr rfl rfl
  all_goals exact h

theorem NoNmi.idleRead {s : State} (h : NoNmi s) (a : Word) : NoNmi (idleRead a s) := by
  unfold Machine.idleRead
  split
  · exact h
  · exact h.readEffect a

/-- A push writes RAM, no register of the PPU's. -/
theorem NoNmi.push {s : State} (h : NoNmi s) (v : Byte) : NoNmi (push v s) := by
  unfold Machine.push
  rw [cpuWrite_ram (region_stackAddr _)]
  exact h.congr rfl rfl

end Sys2Proof.Machine
end

section
/-!
The service of an NMI or an IRQ (R376 to R379) as one step, and the NMI's request, which it spends.
-/

namespace Sys2Proof.Machine

/-! What an entry leaves is there after the time that passes (R377). -/

theorem CpuIs.later {s t u : State} {c : Cpu} (h : CpuIs s t c) (g : Later t u) : CpuIs s u c :=
  ⟨by rw [g.cpu, h.1]; rfl, fun n => g.nmi (h.2 n)⟩

theorem PushesOnly.later {n : Nat} {s t u : State} (h : PushesOnly n s t) (g : Later t u) : PushesOnly n s u := by
  obtain ⟨hmem, hcfg, hcart, hdevices⟩ := h
  refine ⟨fun a ha hstack => (g.waits.peek ha).trans (hmem a ha hstack), g.cfg.trans hcfg, g.cart.trans hcart, fun hq => ?_⟩
  obtain ⟨hregs, hport0, hport1⟩ := hdevices hq
  exact ⟨g.regs.trans hregs, g.port0.trans hport0, g.port1.trans hport1⟩

theorem Entered.later {vec ret : Word} {pb : Byte} {c : Cpu} {s t u : State} (h : Entered vec pb ret c s t)
    (g : Later t u) : Entered vec pb ret c s u := by
  obtain ⟨hcpu, hhigh, hlow, hstatus, hpushes⟩ := h
  have hpeek (k : Nat) : cpuPeek (pushedAt k s) u = cpuPeek (pushedAt k s) t := g.waits.peek (isMemory_stackAddr _)
  exact ⟨hcpu.later g, (hpeek 0).trans hhigh, (hpeek 1).trans hlow, (hpeek 2).trans hstatus, hpushes.later g⟩

/-! The service sequence (R377). -/

/-- The CPU as a service sequence starts, an NMI's or an IRQ's, the spending of the request apart (R378, R379). -/
def beginService (nmi irq : Bool) (c : Cpu) : Cpu :=
  { c with nmiActive := nmi, irqActive := irq, ready := false, sub := 0 }

theorem startNmi_eq {s : State} (h : s.cpu.irqActive = false) :
    startNmi s = (s.onCpu fun c => { c with nmiPending := false }).onCpu (beginService true false) := by
  simp only [startNmi, State.onCpu, beginService, h]

theorem Cpu.inactive_eq {c : Cpu} (hnmi : c.nmiActive = false) (hirq : c.irqActive = false) :
    { c with nmiActive := false, irqActive := false } = c := by
  cases c
  subst hnmi hirq
  rfl

theorem pushedStatus_false (p : Byte) : pushedStatus p false = (p &&& 0xCF) ||| 0x20 := BitVec.or_zero

/-- The service sequence, begun in a state `s` in which its request is spent, enters the handler as of `s` (R377). -/
theorem service_entered {s : State} (hnmi : s.cpu.nmiActive = false) (hirq : s.cpu.irqActive = false) (nmi irq : Bool) :
    Entered (if nmi then nmiVector else irqVector) ((s.cpu.p &&& 0xCF) ||| 0x20) s.cpu.pc s.cpu s
      (runCycles serviceCycles (s.onCpu (beginService nmi irq))) := by
  have hstart : After (QuietIdle s) s (beginService nmi irq s.cpu) s.ram (s.onCpu (beginService nmi irq)) :=
    ⟨rfl, rfl, rfl, Follows.refl _, fun _ => ⟨rfl, rfl, rfl⟩⟩
  have hidle {t : State} (h : After (QuietIdle s) s (beginService nmi irq s.cpu) s.ram t) :
      After (QuietIdle s) s (beginService nmi irq s.cpu) s.ram (advance (idleRead t.cpu.pc t)) :=
    (h.idle fun hq => by rw [h.pc]; exact hq).advance
  obtain ⟨x, hx, hafter⟩ := after_entry (hidle (hidle hstart)) (b := fun _ => false) (bv := false) (fun _ _ => rfl)
    (vector := serviceVector) (vec := if nmi then nmiVector else irqVector)
    (fun u hu => by rw [serviceVector, hu]; rfl) (by cases nmi <;> decide) (by cases nmi <;> decide)
    (close := endService) settlesRegisters_endService (fun _ => rfl)
  have hentered := entered_of (c := endService (beginService nmi irq s.cpu)) hafter hx rfl
  have hcpu : { s.cpu with nmiActive := false, irqActive := false } = s.cpu := Cpu.inactive_eq hnmi hirq
  rw [← pushedStatus_false, ← hcpu]
  exact hentered

/-- The sequence lets six CPU cycles pass; its seventh is over when the step is. -/
theorem runCycles_serviceCycles_cyc (s : State) : (runCycles serviceCycles s).cpu.cyc = s.cpu.cyc + 6 := by
  simp only [serviceCycles, entryCycles, idleAtPc, runCycles, retire_cpu, State.onCpu_cpu, endService_cyc, setPcHigh_cyc,
    setPcLow_cyc, advance_cyc, readEffect_cpu, (control_idleRead _ _).cyc, (control_push _ _).cyc]

theorem runCpu_congr {n : Nat} {s t : State} (h : cpuWork s = cpuWork t) : runCpu (n + 1) s = runCpu (n + 1) t := by
  rw [runCpu, runCpu, h]

theorem InService.work {u : State} (h : InService u) : cpuWork u = serviceCycle u := by
  unfold cpuWork
  rw [if_neg (by rw [h.dma]; exact Bool.false_ne_true), if_pos h.active]

/-- The step whose first CPU step begins a service sequence in `u` is the whole sequence (log 5). -/
theorem step_service {s u : State} (hhalt : s.cpu.halted = false) (hu : InService u) (hsub : u.cpu.sub = 0)
    (hwork : cpuWork (waitCpu s) = serviceCycle u) : step s = .next (finishCycle (runCycles serviceCycles u)) :=
  have hbound : runCpuBound = 519 + 1 := rfl
  calc step s = runCpu runCpuBound (waitCpu s) := step_eq_runCpu hhalt
    _ = runCpu runCpuBound u := by rw [hbound, runCpu_congr (hwork.trans hu.work.symm)]
    _ = .next (finishCycle (runCycles serviceCycles u)) := runCpu_service (k := 0) hu hsub (by decide) (by decide)

/-! The NMI's service. -/

/-- At a boundary a pending NMI is serviced, whatever I and an IRQ request say, if no DMA is requested (R376). -/
theorem cpuWork_nmi {s : State} (hb : AtBoundary s.cpu) (hdma : s.cpu.dmaRequest = false)
    (hnmi : s.cpu.nmiPending = true) : cpuWork s = serviceCycle (startNmi s) := by
  obtain ⟨hready, hdmaActive, hnmiActive, hirqActive⟩ := hb
  simp [cpuWork, boundaryCycle, choose, hready, hdmaActive, hnmiActive, hirqActive, hdma, hnmi]

theorem inService_startNmi {s : State} (h : s.cpu.dmaActive = false) : InService (startNmi s) := ⟨rfl, h, rfl⟩

/-- The state that a cycle leaves, whether or not its sequence goes on. -/
def Progress.state : Progress → State
  | .more s => s
  | .done s => s

theorem NoNmi.runCycles {cs : List Cycle} (hcs : ∀ c ∈ cs, ∀ s, NoNmi s → NoNmi (c s).state) {s : State}
    (h : NoNmi s) : NoNmi (runCycles cs s) := by
  induction cs generalizing s with
  | nil => exact h.congr rfl rfl
  | cons c cs ih =>
    have hc := hcs c List.mem_cons_self s h
    unfold Machine.runCycles
    split
    next t ht => rw [ht] at hc; exact hc.congr rfl rfl
    next t ht => rw [ht] at hc; exact ih (fun d hd => hcs d (List.mem_cons_of_mem c hd)) (NoNmi.advance hc)

/-- A service sequence reads and pushes, and neither enables the PPU's NMI nor raises its signal. -/
theorem serviceCycles_noNmi : ∀ c ∈ serviceCycles, ∀ s, NoNmi s → NoNmi (c s).state := by
  intro c hc s h
  simp only [serviceCycles, entryCycles, List.mem_cons, List.not_mem_nil, or_false] at hc
  rcases hc with rfl | rfl | rfl | rfl | rfl | rfl | rfl
  · exact h.idleRead _
  · exact h.idleRead _
  · exact h.push _
  · exact h.push _
  · exact (h.push _).congr rfl rfl
  · exact (h.readEffect _).congr rfl rfl
  · exact (h.readEffect _).congr rfl rfl

/-- Settles O42: the end of a master cycle routes the signal, and at a boundary the request is spent before the service
sequence runs. -/
theorem nmiService : Obligations.NmiService := by
  refine ⟨fun s => ?routing, fun s => ?service⟩
  case routing =>
    dsimp only
    rw [← ppuTick_ppu]
    exact ⟨afterCpu_ppu s, afterCpu_cpu s, masterCycle_nmiSignal s⟩
  case service =>
    intro w hb hhalt hdma hnmi
    have ⟨_, hdmaActive, hnmiActive, hirqActive⟩ := hb
    have hstep := step_service ((waitCpu_halted s).symm.trans hhalt) (inService_startNmi hdmaActive) rfl
      (cpuWork_nmi hb hdma hnmi)
    refine ⟨_, hstep, ?cycles, fun hctrl hsignal => ?spent, ?entered⟩
    case cycles =>
      rw [finishCycle_cyc, runCycles_serviceCycles_cyc]
      rfl
    case spent =>
      have hstart : NoNmi (startNmi w) := ⟨hctrl, hsignal, rfl⟩
      exact (hstart.runCycles serviceCycles_noNmi).finishCycle.pending
    case entered =>
      rw [startNmi_eq hirqActive]
      exact (service_entered (s := w.onCpu fun c => { c with nmiPending := false }) hnmiActive hirqActive true false).later
        (later_finishCycle _)

end Sys2Proof.Machine
end

section
/-!
Page crosses (R157), and the cycles before an operand's access (R145 to R151, R156).
-/

namespace Sys2Proof.Machine

theorem crosses_iff_hiByte (base : Word) (index : Byte) :
    crosses base index = true ↔ hiByte (base + zext16 index) ≠ hiByte base := bne_iff_ne

/-- A pointer in page 0 as two bytes of RAM, the second at the next address of the page (R68). -/
theorem zpPointer_eq (b : Byte) (s : State) :
    zpPointer b s =
      mkWord (Store.read unlisted s.ram ((b.toNat + 1) % 256)) (Store.read unlisted s.ram b.toNat) := by
  have hnext : (b + 1).toNat = (b.toNat + 1) % 256 := BitVec.toNat_add b 1
  rw [zpPointer, zpNext, cpuPeek_ram (region_zext16 b), cpuPeek_ram (region_zext16 (b + 1)), hnext]

/-- Settles O16: the carry out of the low byte is what moves the high byte, and a form's cross is that of its base. -/
theorem pageCross_iff_carry : Obligations.PageCross := by
  refine ⟨fun base index => ⟨crosses_iff_hiByte base index, crosses_iff base index⟩, fun _ _ => ⟨rfl, rfl⟩,
    fun s b => ?_, fun _ _ => ⟨rfl, rfl, rfl⟩⟩
  rw [pageCross, zpPointer_eq]

/-- Settles O17: both access points come after waiting alone, and the address cycles latch the effective address. -/
theorem accessWaits : Obligations.AccessWaits := by
  intro m s w hw
  have hready : AddressReady m s w := by
    simp only [List.mem_cons, List.not_mem_nil, or_false] at hw
    rcases hw with rfl | rfl
    · exact accessPoint_ready _ m s
    · exact accessPoint_ready _ m s
  obtain ⟨hwaits, hea, -⟩ := hready
  exact ⟨hea, hwaits.cpu, hwaits.sameMemory, ⟨hwaits.cfg, hwaits.ram, hwaits.cart⟩, hwaits.devices⟩

end Sys2Proof.Machine
end

section
/-!
How many CPU cycles an instruction takes (R161): a sequence whose cycles all go on takes as many as it has; a read may
pass over its fix-up cycle, and a branch may end early.
-/

namespace Sys2Proof.Machine

/-! Sequences of which every cycle is run. -/

/-- Every cycle of the list goes on but the last, which ends it. -/
def Straight : List Cycle → Prop
  | [] => False
  | [last] => ∀ s, ∃ t, last s = .done t
  | c :: cs => (∀ s, ∃ t, c s = .more t) ∧ Straight cs

theorem Straight.cons {c : Cycle} {cs : List Cycle} (hc : ∀ s, ∃ t, c s = .more t) (h : Straight cs) :
    Straight (c :: cs) := by
  cases cs with
  | nil => exact h.elim
  | cons d ds => exact ⟨hc, h⟩

theorem Straight.append {xs ys : List Cycle} (hxs : ∀ c ∈ xs, ∀ s, ∃ t, c s = .more t) (h : Straight ys) :
    Straight (xs ++ ys) := by
  induction xs with
  | nil => exact h
  | cons c cs ih => exact Straight.cons (hxs c List.mem_cons_self) (ih fun d hd => hxs d (List.mem_cons_of_mem c hd))

/-- A straight sequence lets a CPU cycle pass after each of its cycles but the last. -/
theorem Straight.cyc {cs : List Cycle} (h : Straight cs) (hsteady : ∀ c ∈ cs, Cycle.Steady c) (s : State) :
    (runCycles cs s).cpu.cyc + 1 = s.cpu.cyc + cs.length := by
  induction cs generalizing s with
  | nil => exact h.elim
  | cons c cs ih =>
    have hc := hsteady c List.mem_cons_self
    cases cs with
    | nil =>
      obtain ⟨t, ht⟩ := h s
      simp [runCycles, ht, (hc.done s t ht).cyc]
    | cons d ds =>
      obtain ⟨hmore, hrest⟩ := h
      obtain ⟨t, ht⟩ := hmore s
      have hlater := ih hrest (fun e he => hsteady e (List.mem_cons_of_mem c he)) (advance t)
      rw [advance_cyc, (hc.more s t ht).cyc] at hlater
      simp only [runCycles, ht, List.length_cons] at hlater ⊢
      omega

theorem leadCycles_cyc {cs : List Cycle} (hmore : ∀ c ∈ cs, ∀ s, ∃ t, c s = .more t)
    (hsteady : ∀ c ∈ cs, Cycle.Steady c) (s : State) : (leadCycles cs s).cpu.cyc = s.cpu.cyc + cs.length := by
  induction cs generalizing s with
  | nil => rfl
  | cons c cs ih =>
    obtain ⟨t, ht⟩ := hmore c List.mem_cons_self s
    simp only [leadCycles, ht, List.length_cons]
    rw [ih (fun d hd => hmore d (List.mem_cons_of_mem c hd)) (fun d hd => hsteady d (List.mem_cons_of_mem c hd)),
      advance_cyc, ((hsteady c List.mem_cons_self).more s t ht).cyc]
    omega

theorem straight_writeCycles (val : Cpu → Byte) (m : MemOperand) : Straight (writeCycles val m) := by
  refine Straight.append (addressCycles_more m) ?_
  split
  · exact ⟨fun _ => ⟨_, rfl⟩, fun _ => ⟨_, rfl⟩⟩
  · exact fun _ => ⟨_, rfl⟩

theorem straight_rmwCycles (f : Byte → Byte → Byte × Byte) (m : MemOperand) : Straight (rmwCycles f m) := by
  refine Straight.append (addressCycles_more m) (Straight.append (fun c hc => ?_) ?_)
  · split at hc
    · rw [List.mem_singleton] at hc
      exact fun _ => ⟨_, congrFun hc _⟩
    · exact absurd hc List.not_mem_nil
  · exact ⟨fun _ => ⟨_, rfl⟩, fun _ => ⟨_, rfl⟩, fun _ => ⟨_, rfl⟩⟩

theorem straight_internalCycles (op : Cpu → Cpu) : Straight (internalCycles op) := fun _ => ⟨_, rfl⟩

theorem straight_shiftCycles (f : Byte → Byte → Byte × Byte) (o : ShiftOperand) : Straight (shiftCycles f o) := by
  cases o with
  | acc => exact straight_internalCycles _
  | mem m => exact straight_rmwCycles f m

theorem straight_entryCycles (b : State → Bool) (vector : State → Word) (close : Cpu → Cpu) :
    Straight (entryCycles b vector close) :=
  ⟨fun _ => ⟨_, rfl⟩, fun _ => ⟨_, rfl⟩, fun _ => ⟨_, rfl⟩, fun _ => ⟨_, rfl⟩, fun _ => ⟨_, rfl⟩⟩

theorem straight_brkCycles : Straight brkCycles :=
  Straight.cons (fun _ => ⟨_, rfl⟩) (straight_entryCycles _ _ _)

theorem straight_rtiCycles : Straight rtiCycles :=
  ⟨fun _ => ⟨_, rfl⟩, fun _ => ⟨_, rfl⟩, fun _ => ⟨_, rfl⟩, fun _ => ⟨_, rfl⟩, fun _ => ⟨_, rfl⟩⟩

theorem straight_cyclesRts : Straight cyclesRts :=
  ⟨fun _ => ⟨_, rfl⟩, fun _ => ⟨_, rfl⟩, fun _ => ⟨_, rfl⟩, fun _ => ⟨_, rfl⟩, fun _ => ⟨_, rfl⟩⟩

theorem straight_cyclesJsr (target : Word) : Straight (cyclesJsr target) :=
  Straight.append jsrLead_more fun _ => ⟨_, rfl⟩

theorem straight_cyclesJmp (o : JumpOperand) : Straight (cyclesJmp o) := by
  cases o with
  | abs w => exact fun _ => ⟨_, rfl⟩
  | ind w => exact ⟨fun _ => ⟨_, rfl⟩, fun _ => ⟨_, rfl⟩, fun _ => ⟨_, rfl⟩⟩

/-! Instructions. -/

/-- `exec` takes what is left of the instruction's cycles (R161). -/
def TakesItsCycles (i : Instr) : Prop :=
  ∀ s : State, (runCycles (cyclesOf i) s).cpu.cyc + cyclesBefore i + 1 = s.cpu.cyc + i.baseCycles + extraCycles i s

theorem takesItsCycles_of_straight {i : Instr} (h : Straight (cyclesOf i))
    (hlength : (cyclesOf i).length + cyclesBefore i = i.baseCycles) (hextra : ∀ s, extraCycles i s = 0) :
    TakesItsCycles i := fun s => by
  have hcyc := h.cyc (cyclesOf_steady i) s
  rw [hextra s]
  omega

/-- The cycles over when the last operand byte of a mode is fetched, JSR apart (log 7). -/
def Mode.cyclesBefore (m : Mode) : Nat := if m.operandBytes = 2 then 2 else 1

theorem writeCycles_length (val : Cpu → Byte) (m : MemOperand) :
    (writeCycles val m).length + Mode.cyclesBefore m.mode = m.mode.writeCycles := by
  cases m <;> rfl

/-- A read-modify-write has no form of another mode (R105). -/
theorem rmwCycles_length (f : Byte → Byte → Byte × Byte) {m : MemOperand}
    (h : m.mode ∈ ([.acc, .zp, .zpx, .abs, .abx] : List Mode)) :
    (rmwCycles f m).length + Mode.cyclesBefore m.mode = m.mode.rmwCycles := by
  cases m with
  | zp b | zpx b | abs w | abx w => rfl
  | zpy b | aby w | izx b | izy b => simp [MemOperand.mode] at h

theorem takesItsCycles_write {i : Instr} {val : Cpu → Byte} {m : MemOperand} (hcycles : cyclesOf i = writeCycles val m)
    (hbefore : cyclesBefore i = Mode.cyclesBefore m.mode) (hbase : i.baseCycles = m.mode.writeCycles)
    (hextra : ∀ s, extraCycles i s = 0) : TakesItsCycles i :=
  takesItsCycles_of_straight (hcycles ▸ straight_writeCycles val m)
    (by rw [hcycles, hbefore, hbase, writeCycles_length]) hextra

theorem takesItsCycles_rmw {i : Instr} {f : Byte → Byte → Byte × Byte} {m : MemOperand}
    (hmode : m.mode ∈ ([.acc, .zp, .zpx, .abs, .abx] : List Mode)) (hcycles : cyclesOf i = rmwCycles f m)
    (hbefore : cyclesBefore i = Mode.cyclesBefore m.mode) (hbase : i.baseCycles = m.mode.rmwCycles)
    (hextra : ∀ s, extraCycles i s = 0) : TakesItsCycles i :=
  takesItsCycles_of_straight (hcycles ▸ straight_rmwCycles f m)
    (by rw [hcycles, hbefore, hbase, rmwCycles_length f hmode]) hextra

theorem accessPoint_cyc (fix : Bool) (m : MemOperand) (s : State) :
    (accessPoint fix m s).cpu.cyc = s.cpu.cyc + (addressCycles m).length + (if fix then 1 else 0) := by
  have hlead := leadCycles_cyc (addressCycles_more m) (addressCycles_steady m) s
  cases fix with
  | false => exact hlead
  | true => simp [accessPoint, hlead]

/-- A read's cycles without its fix-up cycle (R144 to R151). -/
theorem addressCycles_length (m : MemOperand) :
    (addressCycles m).length + 1 + Mode.cyclesBefore m.mode = m.mode.readCycles := by
  cases m <;> rfl

theorem hasFixUp_of_pageCross {m : MemOperand} {s : State} (h : pageCross m s = true) : hasFixUp m = true := by
  cases m with
  | abx w | aby w | izy b => rfl
  | zp b | zpx b | zpy b | abs w | izx b => exact absurd h Bool.false_ne_true

/-- A read runs its fix-up cycle on a page cross alone (R149, R151). -/
theorem readPoint_cyc (m : MemOperand) (s : State) :
    (readPoint m s).cpu.cyc = s.cpu.cyc + (addressCycles m).length + crossCost (.mem m) s := by
  rw [readPoint, accessPoint_cyc]
  cases h : pageCross m s with
  | false => simp [crossCost, h]
  | true => simp [crossCost, h, hasFixUp_of_pageCross h]

theorem readCycles_cyc {op : Byte → Cpu → Cpu} (hop : ∀ v c, (op v c).cyc = c.cyc) (o : ReadOperand) (s : State) :
    (runCycles (readCycles op o) s).cpu.cyc + Mode.cyclesBefore o.mode + 1 =
      s.cpu.cyc + o.mode.readCycles + crossCost o s := by
  cases o with
  | imm v =>
    rw [run_readCycles_imm, retire_cpu, State.onCpu_cpu, hop]
    rfl
  | mem m =>
    have hlength := addressCycles_length m
    have hmode : (ReadOperand.mem m).mode = m.mode := rfl
    rw [run_readCycles_mem, retire_cpu, State.onCpu_cpu, hop, readEffect_cpu, readPoint_cyc, hmode]
    omega

theorem takesItsCycles_read {i : Instr} {op : Byte → Cpu → Cpu} {o : ReadOperand} (hop : ∀ v c, (op v c).cyc = c.cyc)
    (hcycles : cyclesOf i = readCycles op o) (hbefore : cyclesBefore i = Mode.cyclesBefore o.mode)
    (hbase : i.baseCycles = o.mode.readCycles) (hextra : ∀ s, extraCycles i s = crossCost o s) : TakesItsCycles i :=
  fun s => by rw [hcycles, hbefore, hbase, hextra, readCycles_cyc hop]

/-- A branch ends in c2 if it is not taken, in c3 if its target is on the next instruction's page, else in c4 (R152). -/
theorem branchCycles_cyc (cond : Byte → Bool) (off : Byte) (s : State) :
    (runCycles (branchCycles cond off) s).cpu.cyc = s.cpu.cyc + branchCost (cond s.cpu.p) off s := by
  cases hcond : cond s.cpu.p with
  | false => simp [branchCycles, runCycles, branchDecide, hcond, branchCost]
  | true =>
    by_cases hpage : hiByte (branchTarget s.cpu.pc off) = hiByte s.cpu.pc
    · simp [branchCycles, runCycles, branchDecide, branchTake, hcond, branchCost, hpage]
    · simp [branchCycles, runCycles, branchDecide, branchTake, branchFix, hcond, branchCost, hpage]

theorem takesItsCycles_branch {i : Instr} {cond : Byte → Bool} {off : Byte}
    (hcycles : cyclesOf i = branchCycles cond off) (hbefore : cyclesBefore i = 1) (hbase : i.baseCycles = 2)
    (hextra : ∀ s, extraCycles i s = branchCost (cond s.cpu.p) off s) : TakesItsCycles i := fun s => by
  rw [hcycles, hbefore, hbase, hextra, branchCycles_cyc]
  omega

/-- A shift is internal on A, and a read-modify-write on memory. -/
theorem takesItsCycles_shift {i : Instr} {f : Byte → Byte → Byte × Byte} {o : ShiftOperand}
    (hmode : o.mode ∈ ([.acc, .zp, .zpx, .abs, .abx] : List Mode)) (hcycles : cyclesOf i = shiftCycles f o)
    (hbefore : cyclesBefore i = Mode.cyclesBefore o.mode) (hbase : i.baseCycles = o.mode.rmwCycles)
    (hextra : ∀ s, extraCycles i s = 0) : TakesItsCycles i := by
  cases o with
  | acc =>
    have hstraight : Straight (cyclesOf i) := hcycles ▸ straight_shiftCycles f .acc
    have hlength : (cyclesOf i).length + cyclesBefore i = i.baseCycles := by
      rw [hcycles, hbefore, hbase]
      rfl
    exact takesItsCycles_of_straight hstraight hlength hextra
  | mem m => exact takesItsCycles_rmw hmode hcycles hbefore hbase hextra

/-- Category by category (R143): the read category and the branches have extra cycles, the others are straight. -/
theorem takesItsCycles {i : Instr} (h : WellFormed i = true) : TakesItsCycles i := by
  have hmode := Laws.Encoding.mode_mem h
  cases i with
  | lda o => exact takesItsCycles_read (op := loadA) (fun _ _ => rfl) rfl rfl rfl fun _ => rfl
  | ldx o => exact takesItsCycles_read (op := loadX) (fun _ _ => rfl) rfl rfl rfl fun _ => rfl
  | ldy o => exact takesItsCycles_read (op := loadY) (fun _ _ => rfl) rfl rfl rfl fun _ => rfl
  | adc o => exact takesItsCycles_read (op := opAdc) (fun _ _ => rfl) rfl rfl rfl fun _ => rfl
  | sbc o => exact takesItsCycles_read (op := opSbc) (fun _ _ => rfl) rfl rfl rfl fun _ => rfl
  | and o => exact takesItsCycles_read (op := opAnd) (fun _ _ => rfl) rfl rfl rfl fun _ => rfl
  | ora o => exact takesItsCycles_read (op := opOra) (fun _ _ => rfl) rfl rfl rfl fun _ => rfl
  | eor o => exact takesItsCycles_read (op := opEor) (fun _ _ => rfl) rfl rfl rfl fun _ => rfl
  | cmp o => exact takesItsCycles_read (op := opCmp) (fun _ _ => rfl) rfl rfl rfl fun _ => rfl
  | cpx o => exact takesItsCycles_read (op := opCpx) (fun _ _ => rfl) rfl rfl rfl fun _ => rfl
  | cpy o => exact takesItsCycles_read (op := opCpy) (fun _ _ => rfl) rfl rfl rfl fun _ => rfl
  | bit m => exact takesItsCycles_read (op := opBit) (o := .mem m) (fun _ _ => rfl) rfl rfl rfl fun _ => rfl
  | sta m | stx m | sty m => exact takesItsCycles_write rfl rfl rfl fun _ => rfl
  | inc m | dec m => exact takesItsCycles_rmw (List.mem_cons_of_mem _ hmode) rfl rfl rfl fun _ => rfl
  | asl o | lsr o | rol o | ror o =>
    exact takesItsCycles_shift hmode rfl rfl (by cases o <;> rfl) fun _ => rfl
  | bcc off | bcs off | bne off | beq off | bpl off | bmi off | bvc off | bvs off =>
    exact takesItsCycles_branch rfl rfl rfl fun _ => rfl
  | jmp o => exact takesItsCycles_of_straight (straight_cyclesJmp o) (by cases o <;> rfl) fun _ => rfl
  | jsr target => exact takesItsCycles_of_straight (straight_cyclesJsr target) rfl fun _ => rfl
  | rts => exact takesItsCycles_of_straight straight_cyclesRts rfl fun _ => rfl
  | rti => exact takesItsCycles_of_straight straight_rtiCycles rfl fun _ => rfl
  | brk => exact takesItsCycles_of_straight straight_brkCycles rfl fun _ => rfl
  | pha | php => exact takesItsCycles_of_straight ⟨fun _ => ⟨_, rfl⟩, fun _ => ⟨_, rfl⟩⟩ rfl fun _ => rfl
  | pla | plp =>
    exact takesItsCycles_of_straight ⟨fun _ => ⟨_, rfl⟩, fun _ => ⟨_, rfl⟩, fun _ => ⟨_, rfl⟩⟩ rfl fun _ => rfl
  | illegal op => exact takesItsCycles_of_straight (fun _ => ⟨_, rfl⟩) rfl fun _ => rfl
  | tax | tay | txa | tya | tsx | txs | inx | iny | dex | dey | clc | sec | cli | sei | clv | cld | sed | nop =>
    exact takesItsCycles_of_straight (straight_internalCycles _) rfl fun _ => rfl

/-- Settles O14: `exec` runs the instruction's cycles. -/
theorem execCycleCount : Obligations.ExecCycleCount := fun i s h => ⟨_, exec_eq i s, takesItsCycles h s⟩

end Sys2Proof.Machine
end

section
/-!
A step at a boundary where an opcode is fetched (R141, R145 to R152): the instruction that is fetched, what fetching
leaves unchanged, and the cycles of the whole step.
-/

namespace Sys2Proof.Machine

theorem fetches_of_choose {c : Cpu} (hb : AtBoundary c) (h : choose c = .fetch) : fetches c = true := by
  obtain ⟨hready, hdma, hnmi, hirq⟩ := hb
  simp [fetches, hready, hdma, hnmi, hirq, h]

theorem fetches_of_willFetch {c : Cpu} (h : WillFetch c) : fetches c = true := by
  obtain ⟨hb, -, hrequest, hpending, hmasked⟩ := h
  have hirqAccepted : irqAccepted c = false := by
    rcases hmasked with hnone | hset
    · rw [irqAccepted, hnone, Bool.false_and]
    · have hflag : flag c.p flagI = true := hset
      rw [irqAccepted, hflag, Bool.not_true, Bool.and_false]
  exact fetches_of_choose hb (by simp [choose, hrequest, hpending, hirqAccepted])

/-- A step at such a boundary fetches an instruction and runs its meaning (log 5). -/
theorem step_fetch {s : State} (h : WillFetch (waitCpu s).cpu) :
    step s = finishOutcome (exec (fetchInstr (waitCpu s)).instr (fetchInstr (waitCpu s)).state) := by
  obtain ⟨-, hhalt, -⟩ := id h
  have hhalt' : s.cpu.halted = false := (waitCpu_halted s).symm.trans hhalt
  unfold step
  rw [hhalt', if_neg Bool.false_ne_true]
  dsimp only
  rw [if_pos (fetches_of_willFetch h)]
  rfl

/-! What the opcode says of the instruction. -/

theorem leadingBytes_cases (op : Byte) : leadingBytes op = 0 ∨ leadingBytes op = 1 ∨ leadingBytes op = 2 := by
  unfold leadingBytes
  split
  · exact .inr (.inl rfl)
  · exact (opcodeMode op).operandBytes_cases

theorem leadingBytes_of_ne {op : Byte} (h : op ≠ jsrOpcode) : leadingBytes op = (opcodeMode op).operandBytes := if_neg h

/-- No other opcode's instruction is JSR: its encoding begins with the opcode. -/
theorem eq_jsrOpcode_of_instrOf {op a b : Byte} {target : Word} (h : instrOf op a b = .jsr target) :
    op = jsrOpcode := by
  have hbytes := encode_instrOf op a b
  rw [h] at hbytes
  exact (List.cons.inj hbytes).1.symm

theorem instrOf_ne_illegal {op : Byte} (h : isIllegal op = false) (a b x : Byte) : instrOf op a b ≠ .illegal x := by
  obtain ⟨f, hcell, hf⟩ := instrOf_legal h
  intro he
  have hcategory : (f a b).category = .halt := by rw [← hf, he]; rfl
  exact hcell.legal ((hcell.category a b).symm.trans hcategory)

/-- A legal instruction is taken up in the cycle in which its last leading operand byte is fetched (log 7). -/
theorem cyclesBefore_instrOf {op : Byte} (h : isIllegal op = false) (a b : Byte) :
    cyclesBefore (instrOf op a b) = entrySub op := by
  by_cases hj : op = jsrOpcode
  · subst hj
    rfl
  · have hmode := instrOf_mode op a b
    rw [entrySub, leadingBytes_of_ne hj, ← hmode]
    unfold cyclesBefore
    split
    next hi => exact absurd hi (instrOf_ne_illegal h a b _)
    next hi => exact absurd (eq_jsrOpcode_of_instrOf hi) hj
    · rfl

/-- The bytes fetched before a legal instruction is taken up: its opcode and its leading operand bytes. -/
theorem fetchedBytes_instrOf {op : Byte} (h : isIllegal op = false) (a b : Byte) :
    fetchedBytes (instrOf op a b) = 1 + leadingBytes op := by
  by_cases hj : op = jsrOpcode
  · subst hj
    rfl
  · have hmode := instrOf_mode op a b
    rw [leadingBytes_of_ne hj, ← hmode]
    unfold fetchedBytes
    split
    next hi => exact absurd (eq_jsrOpcode_of_instrOf hi) hj
    next hi => exact absurd hi (instrOf_ne_illegal h a b _)
    · rfl

/-! What is fetched. -/

@[simp] theorem fetchOpcode_ir (s : State) : (fetchOpcode s).cpu.ir = cpuPeek s.cpu.pc s := rfl

theorem fetchInstr_illegal {s : State} (h : isIllegal (cpuPeek s.cpu.pc s) = true) :
    fetchInstr s = ⟨.illegal (cpuPeek s.cpu.pc s), fetchOpcode s⟩ := if_pos h

theorem fetchInstr_legal {s : State} (h : isIllegal (cpuPeek s.cpu.pc s) = false) :
    fetchInstr s = fetchOperands (elapse (beginInstr (fetchOpcode s))) :=
  if_neg (Bool.eq_false_iff.mp h)

theorem fetchOperands_zero {s : State} (h : leadingBytes s.cpu.ir = 0) :
    fetchOperands s = ⟨instrOf s.cpu.ir 0 0, s⟩ := by
  unfold fetchOperands
  rw [h]
  rfl

theorem fetchOperands_one {s : State} (h : leadingBytes s.cpu.ir = 1) :
    fetchOperands s = ⟨instrOf s.cpu.ir (cpuPeek s.cpu.pc s)
      (if s.cpu.ir = jsrOpcode then jsrHigh (fetchLow s) else 0), fetchLow s⟩ := by
  have hir : (fetchLow s).cpu.ir = s.cpu.ir := by simp [fetchLow]
  unfold fetchOperands
  rw [h]
  dsimp only
  rw [hir]
  rfl

theorem fetchOperands_two {s : State} (h : leadingBytes s.cpu.ir = 2) :
    fetchOperands s = ⟨instrOf s.cpu.ir (cpuPeek s.cpu.pc s)
      (cpuPeek (advance (fetchLow s)).cpu.pc (advance (fetchLow s))), fetchHigh (advance (fetchLow s))⟩ := by
  have hir : (fetchHigh (advance (fetchLow s))).cpu.ir = s.cpu.ir := by simp [fetchHigh, fetchLow]
  have hlo : (fetchHigh (advance (fetchLow s))).cpu.lo = cpuPeek s.cpu.pc s := by simp [fetchHigh, fetchLow]
  unfold fetchOperands
  rw [h]
  dsimp only
  rw [hir, hlo]
  rfl

/-! The cycles of the whole step (R161). -/

theorem fetchOperands_instr (s : State) : ∃ a b, (fetchOperands s).instr = instrOf s.cpu.ir a b := by
  obtain h | h | h := leadingBytes_cases s.cpu.ir
  · exact ⟨_, _, congrArg Fetched.instr (fetchOperands_zero h)⟩
  · exact ⟨_, _, congrArg Fetched.instr (fetchOperands_one h)⟩
  · exact ⟨_, _, congrArg Fetched.instr (fetchOperands_two h)⟩

/-- A second operand byte costs the cycle between the two. -/
theorem fetchOperands_cyc (s : State) :
    (fetchOperands s).state.cpu.cyc + 1 = s.cpu.cyc + entrySub s.cpu.ir := by
  obtain h | h | h := leadingBytes_cases s.cpu.ir
  · rw [fetchOperands_zero h, entrySub, h]
    rfl
  · rw [fetchOperands_one h, entrySub, h]
    simp [fetchLow]
  · rw [fetchOperands_two h, entrySub, h]
    simp [fetchLow, fetchHigh]

theorem fetchInstr_instr (s : State) : ∃ a b, (fetchInstr s).instr = instrOf (cpuPeek s.cpu.pc s) a b := by
  cases h : isIllegal (cpuPeek s.cpu.pc s) with
  | true => exact ⟨0, 0, by rw [fetchInstr_illegal h, instrOf_illegal h]⟩
  | false =>
    obtain ⟨a, b, hinstr⟩ := fetchOperands_instr (elapse (beginInstr (fetchOpcode s)))
    refine ⟨a, b, ?_⟩
    rw [fetchInstr_legal h, hinstr, elapse_ir]
    rfl

theorem wellFormed_fetchInstr (s : State) : WellFormed (fetchInstr s).instr = true := by
  obtain ⟨a, b, h⟩ := fetchInstr_instr s
  rw [h]
  exact wellFormed_instrOf _ a b

theorem fetchInstr_cyc (s : State) :
    (fetchInstr s).state.cpu.cyc = s.cpu.cyc + cyclesBefore (fetchInstr s).instr := by
  cases h : isIllegal (cpuPeek s.cpu.pc s) with
  | true =>
    rw [fetchInstr_illegal h]
    simp [fetchOpcode, cyclesBefore]
  | false =>
    obtain ⟨a, b, hinstr⟩ := fetchInstr_instr s
    have hcyc := fetchOperands_cyc (elapse (beginInstr (fetchOpcode s)))
    have hir : (elapse (beginInstr (fetchOpcode s))).cpu.ir = cpuPeek s.cpu.pc s := by simp [beginInstr]
    have hbegin : (beginInstr (fetchOpcode s)).cpu.cyc = s.cpu.cyc := by simp [beginInstr, fetchOpcode]
    rw [hinstr, cyclesBefore_instrOf h, fetchInstr_legal h]
    rw [hir, elapse_cyc, hbegin] at hcyc
    omega

/-- Settles O13: the cycles that fetching takes, those that `exec` takes, and the last one's end. -/
theorem stepCycleCount : Obligations.StepCycleCount := by
  intro s t hfetch hstep
  dsimp only
  rw [step_fetch hfetch, exec_eq] at hstep
  cases hstep
  have hexec := takesItsCycles (wellFormed_fetchInstr (waitCpu s)) (fetchInstr (waitCpu s)).state
  have hcyc := fetchInstr_cyc (waitCpu s)
  rw [waitCpu_cyc] at hcyc
  rw [finishCycle_cyc]
  omega

/-! Fetching from memory stores nothing, and gives the instruction of the three bytes at PC (R141, R145, R148). -/

section
variable {q : Prop} {s t : State} {c : Cpu} {r : Store 8}

/-- The cycle state of the CPU that `After` names is of no account. -/
theorem After.congr (h : After q s c r t) {d : Cpu} (hd : ∀ w, c.withCycleState w = d.withCycleState w)
    (hn : c.nmiPending = d.nmiPending) : After q s d r t :=
  ⟨h.cfg, h.cart, h.ram, ⟨h.cpu.1.trans (hd _), fun n => h.cpu.2 (hn.trans n)⟩, h.devices⟩

theorem After.ir (h : After q s c r t) : t.cpu.ir = c.ir := (congrArg Cpu.ir h.cpu.1).trans rfl

theorem After.peek (h : After q s c s.ram t) {a : Word} (ha : isMemory a = true) : cpuPeek a t = cpuPeek a s :=
  cpuPeek_memory ha h.ram h.cart

theorem After.fetchLow (h : After q s c r t) (hmem : isMemory c.pc = true) :
    After q s { c with pc := c.pc + 1 } r (fetchLow t) := by
  unfold Machine.fetchLow
  rw [h.pc, readEffect_memory hmem]
  exact (h.onCpu (f := fun e => { e with lo := cpuPeek c.pc t, pc := e.pc + 1 }) (fun _ _ => rfl) fun _ => rfl).congr
    (fun _ => rfl) rfl

theorem After.fetchHigh (h : After q s c r t) (hmem : isMemory c.pc = true) :
    After q s { c with pc := c.pc + 1 } r (fetchHigh t) := by
  unfold Machine.fetchHigh
  rw [h.pc, readEffect_memory hmem]
  exact (h.onCpu (f := fun e => { e with hi := cpuPeek c.pc t, pc := e.pc + 1 }) (fun _ _ => rfl) fun _ => rfl).congr
    (fun _ => rfl) rfl

/-- The byte that JSR's last cycle will read is the one in memory, if the pushes miss it (R241; log 6). -/
theorem After.jsrHigh (h : After q s c s.ram t) (hsp : c.sp = s.cpu.sp) (hmem : isMemory c.pc = true)
    (hmiss : pushesMiss c.pc s = true) : jsrHigh t = cpuPeek c.pc s := by
  have hlead := after_jsrLead q t
  have hpushed (k : Nat) : pushedAt k t = pushedAt k s := by rw [pushedAt, pushedAt, h.sp, hsp]
  have hsame : SameMemoryButStack 2 t (leadCycles jsrLead t) := sameMemoryButStack_of hlead.cart fun j hj => by
    have hfirst : j ≠ 256 + t.cpu.sp.toNat := by simpa using hj 0 (by omega)
    have hsecond : j ≠ 256 + (t.cpu.sp - 1).toNat := hj 1 (by omega)
    rw [hlead.ram, Store.read_write_ne hsecond, Store.read_write_ne hfirst]
  have hpc : (leadCycles jsrLead t).cpu.pc = c.pc := hlead.pc.trans h.pc
  rw [pushesMiss, Bool.and_eq_true, Bool.not_eq_true', Bool.not_eq_true'] at hmiss
  obtain ⟨hmiss0, hmiss1⟩ := hmiss
  show cpuPeek (leadCycles jsrLead t).cpu.pc (leadCycles jsrLead t) = _
  rw [hpc, hsame c.pc hmem ?_, h.peek hmem]
  intro k hk
  rw [hpushed]
  obtain rfl | rfl : k = 0 ∨ k = 1 := by omega
  · exact hmiss0
  · exact hmiss1

/-- Fetching the leading operand bytes from memory moves PC past them, and does nothing else. -/
theorem After.fetchOperands (h : After q s c r t)
    (hmem : ∀ k, k < leadingBytes c.ir → isMemory (c.pc + BitVec.ofNat 16 k) = true) :
    After q s { c with pc := c.pc + BitVec.ofNat 16 (leadingBytes c.ir) } r (fetchOperands t).state := by
  have hir := h.ir
  obtain hn | hn | hn := leadingBytes_cases c.ir
  · rw [fetchOperands_zero (hir ▸ hn), hn]
    exact h.congr (fun _ => by simp) rfl
  · have hlow : isMemory c.pc = true := by simpa using hmem 0 (by omega)
    rw [fetchOperands_one (hir ▸ hn), hn]
    exact h.fetchLow hlow
  · have hlow : isMemory c.pc = true := by simpa using hmem 0 (by omega)
    have hhigh : isMemory (c.pc + 1) = true := hmem 1 (by omega)
    have hpc : c.pc + 1 + 1 = c.pc + 2 := by bv_omega
    rw [fetchOperands_two (hir ▸ hn), hn]
    exact ((h.fetchLow hlow).advance.fetchHigh hhigh).congr (fun _ => by rw [hpc]; rfl) rfl

/-- The instruction fetched from memory is that of the bytes at PC. -/
theorem After.fetchOperands_instr (h : After q s c s.ram t) (hsp : c.sp = s.cpu.sp)
    (hmem : ∀ k, k < (opcodeMode c.ir).operandBytes → isMemory (c.pc + BitVec.ofNat 16 k) = true)
    (hmiss : c.ir = jsrOpcode → pushesMiss (c.pc + 1) s = true) :
    (Machine.fetchOperands t).instr = instrOf c.ir (cpuPeek c.pc s) (cpuPeek (c.pc + 1) s) := by
  have hir := h.ir
  have hlow (hn : 1 ≤ (opcodeMode c.ir).operandBytes) : isMemory c.pc = true := by simpa using hmem 0 hn
  have hhigh (hn : (opcodeMode c.ir).operandBytes = 2) : isMemory (c.pc + 1) = true := hmem 1 (by omega)
  by_cases hj : c.ir = jsrOpcode
  · have hbytes : (opcodeMode c.ir).operandBytes = 2 := by rw [hj]; rfl
    have hlead : leadingBytes t.cpu.ir = 1 := by rw [hir, hj]; rfl
    have hlow' := hlow (by omega)
    rw [fetchOperands_one hlead, hir, if_pos hj, h.pc, h.peek hlow',
      (h.fetchLow hlow').jsrHigh hsp (hhigh hbytes) (hmiss hj)]
  · have hlead := leadingBytes_of_ne hj
    obtain hn | hn | hn := (opcodeMode c.ir).operandBytes_cases
    · rw [fetchOperands_zero (by rw [hir, hlead, hn]), hir]
      exact (instrOf_of_operandBytes_zero hn _ _).symm
    · rw [fetchOperands_one (by rw [hir, hlead, hn]), hir, if_neg hj, h.pc, h.peek (hlow (by omega))]
      exact (instrOf_of_operandBytes_one hn _ _).symm
    · have hnext := (h.fetchLow (hlow (by omega))).advance
      rw [fetchOperands_two (by rw [hir, hlead, hn]), hir, h.pc, h.peek (hlow (by omega)), hnext.pc,
        hnext.peek (hhigh hn)]

end

/-- The fetch of an opcode from memory (R141, R142). -/
theorem fetchOpcode_memory {s : State} (h : isMemory s.cpu.pc = true) :
    fetchOpcode s = s.onCpu fun c => c.fetched (cpuPeek s.cpu.pc s) := by
  unfold fetchOpcode
  rw [readEffect_memory h]
  rfl

/-- The CPU after the fetch cycle of a legal opcode, its cycle state apart (R141). -/
def Cpu.begun (c : Cpu) (op : Byte) : Cpu := { c.fetched op with mode := opcodeMode op, ready := false }

theorem after_beginInstr {s : State} (h : isMemory s.cpu.pc = true) :
    After True s (s.cpu.begun (cpuPeek s.cpu.pc s)) s.ram (elapse (beginInstr (fetchOpcode s))) := by
  rw [fetchOpcode_memory h]
  have hbegin : After True s (s.cpu.begun (cpuPeek s.cpu.pc s)) s.ram
      (beginInstr (s.onCpu fun c => c.fetched (cpuPeek s.cpu.pc s))) :=
    ⟨rfl, rfl, rfl, ⟨rfl, id⟩, fun _ => ⟨rfl, rfl, rfl⟩⟩
  exact hbegin.elapse

/-- A legal instruction whose bytes are in memory, fetched: it is that of its bytes, and PC is past those fetched. -/
theorem fetchInstr_memory {s : State} (hlegal : isIllegal (cpuPeek s.cpu.pc s) = false)
    (hmem : ∀ k, k ≤ (opcodeMode (cpuPeek s.cpu.pc s)).operandBytes → isMemory (s.cpu.pc + BitVec.ofNat 16 k) = true)
    (hmiss : cpuPeek s.cpu.pc s = jsrOpcode → pushesMiss (s.cpu.pc + 2) s = true) :
    (fetchInstr s).instr =
      instrOf (cpuPeek s.cpu.pc s) (cpuPeek (s.cpu.pc + 1) s) (cpuPeek (s.cpu.pc + 2) s) ∧
    After True s { s.cpu.begun (cpuPeek s.cpu.pc s) with
      pc := s.cpu.pc + BitVec.ofNat 16 (1 + leadingBytes (cpuPeek s.cpu.pc s)) } s.ram (fetchInstr s).state := by
  have hopcode : isMemory s.cpu.pc = true := by simpa using hmem 0 (Nat.zero_le _)
  have hshift (k : Nat) : s.cpu.pc + 1 + BitVec.ofNat 16 k = s.cpu.pc + BitVec.ofNat 16 (1 + k) := by
    rw [BitVec.add_assoc, BitVec.ofNat_add]
    rfl
  have htwo : s.cpu.pc + 1 + 1 = s.cpu.pc + 2 := hshift 1
  have hoperand (k : Nat) (hk : k < (opcodeMode (cpuPeek s.cpu.pc s)).operandBytes) :
      isMemory (s.cpu.pc + 1 + BitVec.ofNat 16 k) = true := hshift k ▸ hmem (1 + k) (by omega)
  have hleading : leadingBytes (cpuPeek s.cpu.pc s) ≤ (opcodeMode (cpuPeek s.cpu.pc s)).operandBytes := by
    by_cases hj : cpuPeek s.cpu.pc s = jsrOpcode
    · rw [hj]
      decide
    · exact (leadingBytes_of_ne hj).le
  have hbegun := after_beginInstr hopcode
  rw [fetchInstr_legal hlegal]
  refine ⟨?_, ?_⟩
  · rw [← htwo]
    exact hbegun.fetchOperands_instr rfl hoperand fun hj => htwo.symm ▸ hmiss hj
  · rw [← hshift]
    exact hbegun.fetchOperands fun k hk => hoperand k (lt_of_lt_of_le hk hleading)

/-- Settles O6: a step runs what is fetched, and fetching from memory gives the instruction of the bytes at PC. -/
theorem stepRunsDecoded : Obligations.StepRunsDecoded := by
  intro s i rest w pc hfetch hdecode hmem hmiss f
  have hi : i = instrOf (cpuPeek pc w) (cpuPeek (pc + 1) w) (cpuPeek (pc + 2) w) := by
    rw [decode_three] at hdecode
    cases hdecode
    rfl
  have hlength : i.length = 1 + (opcodeMode (cpuPeek pc w)).operandBytes := by rw [hi, Instr.length, instrOf_mode]
  have hstep : step s = finishOutcome (exec (fetchInstr w).instr f) := step_fetch hfetch
  cases hlegal : isIllegal (cpuPeek pc w) with
  | true =>
    have hopcode : isMemory pc = true := by simpa using hmem 0 (by omega)
    have hinstr : i = .illegal (cpuPeek pc w) := hi.trans (instrOf_illegal hlegal _ _)
    have hfetched := fetchInstr_illegal hlegal
    have hf : f = w.onCpu fun c => c.fetched (cpuPeek pc w) :=
      (congrArg Fetched.state hfetched).trans (fetchOpcode_memory hopcode)
    rw [hstep, congrArg Fetched.instr hfetched, hinstr, hf]
    exact ⟨rfl, fun _ _ => rfl, ⟨rfl, rfl, rfl⟩, ⟨rfl, rfl, rfl⟩, rfl, fun h => absurd rfl h⟩
  | false =>
    have hjsr (hj : cpuPeek pc w = jsrOpcode) : pushesMiss (pc + 2) w = true :=
      hmiss _ (by rw [hi, hj, instrOf_jsr])
    have hbytes (k : Nat) (hk : k ≤ (opcodeMode (cpuPeek pc w)).operandBytes) : k < i.length := by omega
    obtain ⟨hinstr, hafter⟩ := fetchInstr_memory hlegal (fun k hk => hmem k (hbytes k hk)) hjsr
    have hpc : f.cpu.pc = pc + BitVec.ofNat 16 (fetchedBytes i) := by
      rw [hi, fetchedBytes_instrOf hlegal]
      exact hafter.pc
    refine ⟨?_, sameMemory_of hafter.ram hafter.cart, ⟨hafter.cfg, hafter.ram, hafter.cart⟩, hafter.devices trivial,
      hpc, fun _ => ?_⟩
    · rw [hstep, hinstr, ← hi]
    · have hmode : i.mode = opcodeMode (cpuPeek pc w) := by rw [hi, instrOf_mode]
      rw [hpc, hi, fetchedBytes_instrOf hlegal, ← hi, hmode]
      exact hafter.cpu.1

end Sys2Proof.Machine
end

section
/-!
OAM DMA as one step (R165, R376): what its cycles leave unchanged, the byte that each pair of them copies, and the run
of CPU cycles from the request to the last write.
-/

namespace Sys2Proof.Machine

/-! What a transfer's cycles leave unchanged. -/

/-- `t` is `s` after some cycles of a transfer: of the CPU only the transfer's own state and the cycle state differ, of
the PPU's registers only OAM and what a read of a register changes. A page of memory leaves these, and the ports. -/
structure DmaFrame (s t : State) : Prop where
  cfg : t.cfg = s.cfg
  ram : t.ram = s.ram
  cart : t.cart = s.cart
  cpu : t.cpu = ({ s.cpu with
    ready := t.cpu.ready, dmaActive := t.cpu.dmaActive, dmaAddr := t.cpu.dmaAddr, dmaWait := t.cpu.dmaWait,
    dmaData := t.cpu.dmaData } : Cpu).withCycleState t.cpu
  nmi : s.cpu.nmiPending = true → t.cpu.nmiPending = true
  regs : t.ppu.regs = { s.ppu.regs with oam := t.ppu.oam, w := t.ppu.w, readBuf := t.ppu.readBuf }
  devices : (∀ i : Byte, isMemory (mkWord s.cpu.dmaPage i) = true) →
    t.ppu.w = s.ppu.w ∧ t.ppu.readBuf = s.ppu.readBuf ∧ t.port0 = s.port0 ∧ t.port1 = s.port1

theorem DmaFrame.page {s t : State} (h : DmaFrame s t) : t.cpu.dmaPage = s.cpu.dmaPage :=
  (congrArg Cpu.dmaPage h.cpu).trans rfl

theorem DmaFrame.trans {s t u : State} (h : DmaFrame s t) (g : DmaFrame t u) : DmaFrame s u where
  cfg := g.cfg.trans h.cfg
  ram := g.ram.trans h.ram
  cart := g.cart.trans h.cart
  cpu := by rw [g.cpu, h.cpu]; rfl
  nmi := fun n => g.nmi (h.nmi n)
  regs := by rw [g.regs, h.regs]
  devices := fun hpage => by
    obtain ⟨hw, hbuf, hport0, hport1⟩ := h.devices hpage
    obtain ⟨gw, gbuf, gport0, gport1⟩ := g.devices fun i => h.page.symm ▸ hpage i
    exact ⟨gw.trans hw, gbuf.trans hbuf, gport0.trans hport0, gport1.trans hport1⟩

theorem Later.dmaFrame {s t : State} (h : Later s t) : DmaFrame s t where
  cfg := h.cfg
  ram := h.ram
  cart := h.cart
  cpu := by rw [h.cpu]; rfl
  nmi := h.nmi
  regs := by
    have hoam : t.ppu.oam = s.ppu.oam := congrArg PpuRegs.oam h.regs
    have hw : t.ppu.w = s.ppu.w := congrArg PpuRegs.w h.regs
    have hbuf : t.ppu.readBuf = s.ppu.readBuf := congrArg PpuRegs.readBuf h.regs
    rw [h.regs, hoam, hw, hbuf]
    rfl
  devices := fun _ => ⟨congrArg PpuRegs.w h.regs, congrArg PpuRegs.readBuf h.regs, h.port0, h.port1⟩

/-- A register read changes the toggle or the read buffer, of what only CPU accesses change. -/
theorem ppuRegAfterRead_regs (c : Cartridge) (p : Ppu) (n : Nat) :
    (ppuRegAfterRead c p n).regs =
      { p.regs with w := (ppuRegAfterRead c p n).w, readBuf := (ppuRegAfterRead c p n).readBuf } := by
  unfold ppuRegAfterRead
  split <;> rfl

/-- A read of any address leaves OAM, and every register but the toggle and the read buffer. -/
theorem readEffect_regs (a : Word) (s : State) :
    (readEffect a s).ppu.regs =
      { s.ppu.regs with w := (readEffect a s).ppu.w, readBuf := (readEffect a s).ppu.readBuf } := by
  unfold readEffect
  split
  · exact ppuRegAfterRead_regs _ _ _
  all_goals rfl

theorem dmaFrame_dmaRead (s : State) : DmaFrame s (dmaRead s) where
  cfg := by simp [dmaRead]
  ram := by simp [dmaRead]
  cart := by simp [dmaRead]
  cpu := by simp only [dmaRead, State.onCpu_cpu, readEffect_cpu]; rfl
  nmi := fun n => by simpa [dmaRead] using n
  regs := by
    have hregs := readEffect_regs (mkWord s.cpu.dmaPage s.cpu.dmaAddr) s
    have hoam := congrArg PpuRegs.oam hregs
    simp only [Ppu.regs_oam] at hoam
    simp only [dmaRead, State.onCpu_ppu, hregs, hoam]
    rfl
  devices := fun hpage => by
    simp only [dmaRead, readEffect_memory (hpage s.cpu.dmaAddr)]
    exact ⟨rfl, rfl, rfl, rfl⟩

/-- The write after index 255 ends the transfer (R165). -/
theorem dmaWrite_cpu (s : State) :
    (dmaWrite s).cpu =
      if s.cpu.dmaAddr + 1 = 0 then
        { s.cpu with dmaAddr := s.cpu.dmaAddr + 1, dmaActive := false, dmaWait := true, ready := true }
      else { s.cpu with dmaAddr := s.cpu.dmaAddr + 1 } := rfl

theorem dmaWrite_cpu_last {s : State} (h : s.cpu.dmaAddr + 1 = 0) :
    (dmaWrite s).cpu = { s.cpu with dmaAddr := 0, dmaActive := false, dmaWait := true, ready := true } := by
  rw [dmaWrite_cpu, if_pos h, h]

theorem dmaWrite_cpu_next {s : State} (h : s.cpu.dmaAddr + 1 ≠ 0) :
    (dmaWrite s).cpu = { s.cpu with dmaAddr := s.cpu.dmaAddr + 1 } := by
  rw [dmaWrite_cpu, if_neg h]

theorem dmaFrame_dmaWrite (s : State) : DmaFrame s (dmaWrite s) := by
  by_cases h : s.cpu.dmaAddr + 1 = 0
  · refine ⟨rfl, rfl, rfl, ?_, ?_, rfl, fun _ => ⟨rfl, rfl, rfl, rfl⟩⟩
    · rw [dmaWrite_cpu_last h]
      rfl
    · rw [dmaWrite_cpu_last h]
      exact id
  · refine ⟨rfl, rfl, rfl, ?_, ?_, rfl, fun _ => ⟨rfl, rfl, rfl, rfl⟩⟩
    · rw [dmaWrite_cpu_next h]
      rfl
    · rw [dmaWrite_cpu_next h]
      exact id

theorem dmaFrame_dmaAlign (s : State) : DmaFrame s (s.onCpu dmaAlign) :=
  ⟨rfl, rfl, rfl, rfl, id, rfl, fun _ => ⟨rfl, rfl, rfl, rfl⟩⟩

/-! The byte that a pair of cycles copies. -/

/-- A read's cycle and the write's after it, the time between them passed (R165). -/
def copyByte (s : State) : State := dmaWrite (elapse (dmaRead (s.onCpu dmaAlign)))

theorem dmaFrame_copyByte (s : State) : DmaFrame s (copyByte s) :=
  (dmaFrame_dmaAlign s).trans ((dmaFrame_dmaRead _).trans ((later_elapse _).dmaFrame.trans (dmaFrame_dmaWrite _)))

theorem elapse_oam (s : State) : (elapse s).ppu.oam = s.ppu.oam := congrArg PpuRegs.oam (elapse_regs s)

theorem dmaRead_oam (s : State) : (dmaRead s).ppu.oam = s.ppu.oam :=
  congrArg PpuRegs.oam (readEffect_regs (mkWord s.cpu.dmaPage s.cpu.dmaAddr) s)

/-- The CPU between the read and the write of a pair. -/
theorem elapse_dmaRead_cpu (s : State) :
    (elapse (dmaRead (s.onCpu dmaAlign))).cpu =
      { s.cpu with
        dmaWait := false
        dmaData := cpuPeek (mkWord s.cpu.dmaPage s.cpu.dmaAddr) s
        cyc := s.cpu.cyc + 1
        nmiPending := (elapse (dmaRead (s.onCpu dmaAlign))).cpu.nmiPending } := by
  have hread : (dmaRead (s.onCpu dmaAlign)).cpu =
      { s.cpu with dmaWait := false, dmaData := cpuPeek (mkWord s.cpu.dmaPage s.cpu.dmaAddr) s } := by
    simp only [dmaRead, State.onCpu_cpu, readEffect_cpu]
    rfl
  rw [(later_elapse _).cpu, elapse_cyc, hread]

theorem copyByte_cpu_last {s : State} (h : s.cpu.dmaAddr + 1 = 0) :
    (copyByte s).cpu =
      { s.cpu with
        dmaAddr := 0
        dmaActive := false
        dmaWait := true
        ready := true
        dmaData := cpuPeek (mkWord s.cpu.dmaPage s.cpu.dmaAddr) s
        cyc := s.cpu.cyc + 1
        nmiPending := (elapse (dmaRead (s.onCpu dmaAlign))).cpu.nmiPending } := by
  have hcpu := elapse_dmaRead_cpu s
  rw [copyByte, dmaWrite_cpu_last (by rw [hcpu]; exact h), hcpu]

theorem copyByte_cpu_next {s : State} (h : s.cpu.dmaAddr + 1 ≠ 0) :
    (copyByte s).cpu =
      { s.cpu with
        dmaAddr := s.cpu.dmaAddr + 1
        dmaWait := false
        dmaData := cpuPeek (mkWord s.cpu.dmaPage s.cpu.dmaAddr) s
        cyc := s.cpu.cyc + 1
        nmiPending := (elapse (dmaRead (s.onCpu dmaAlign))).cpu.nmiPending } := by
  have hcpu := elapse_dmaRead_cpu s
  rw [copyByte, dmaWrite_cpu_next (by rw [hcpu]; exact h), hcpu]

/-- The one byte of OAM that a pair changes takes the byte read from the page. -/
theorem read_copyByte_oam (s : State) (i : Byte) :
    Store.read unlisted (copyByte s).ppu.oam i.toNat =
      if i = s.cpu.dmaAddr then cpuPeek (mkWord s.cpu.dmaPage i) s else Store.read unlisted s.ppu.oam i.toNat := by
  have hoam : (elapse (dmaRead (s.onCpu dmaAlign))).ppu.oam = s.ppu.oam := by rw [elapse_oam, dmaRead_oam]; rfl
  have hwrite : (copyByte s).ppu.oam =
      Store.write unlisted s.ppu.oam s.cpu.dmaAddr.toNat (cpuPeek (mkWord s.cpu.dmaPage s.cpu.dmaAddr) s) := by
    show Store.write unlisted (elapse (dmaRead (s.onCpu dmaAlign))).ppu.oam _ _ = _
    rw [hoam, elapse_dmaRead_cpu]
  simp only [hwrite, Store.read_write, BitVec.toNat_inj]
  split
  next h => rw [h]
  · rfl

/-! The run of a transfer. -/

theorem cpuWork_dma {s : State} (h : s.cpu.dmaActive = true) : cpuWork s = dmaCycle s := if_pos h

/-- On an even cycle a transfer reads, whether or not it has waited for one. -/
theorem dmaCycle_even {s : State} (h : s.cpu.cyc % 2 = 0) : dmaCycle s = dmaRead (s.onCpu dmaAlign) := by
  unfold dmaCycle
  cases hwait : s.cpu.dmaWait with
  | true => simp [h]
  | false =>
    have halign : s.onCpu dmaAlign = s := by
      show { s with cpu := { s.cpu with dmaWait := false } } = s
      rw [← hwait]
    simp [h, halign]

theorem dmaCycle_odd {s : State} (hwait : s.cpu.dmaWait = false) (h : s.cpu.cyc % 2 = 1) : dmaCycle s = dmaWrite s := by
  simp [dmaCycle, hwait, h]

/-- A transfer that waits for an even cycle does nothing on an odd one. -/
theorem dmaCycle_wait {s : State} (hwait : s.cpu.dmaWait = true) (h : s.cpu.cyc % 2 = 1) : dmaCycle s = s := by
  simp [dmaCycle, hwait, h]

/-- A transfer about to read its byte `k`. -/
structure DmaReads (k : Nat) (s : State) : Prop where
  active : s.cpu.dmaActive = true
  busy : s.cpu.ready = false
  addr : s.cpu.dmaAddr = BitVec.ofNat 8 k
  even : s.cpu.cyc % 2 = 0

/-- `u` is `s` with the first `k` bytes of the page copied, those at addresses of memory as they are in `s`. -/
structure Copied (s : State) (k : Nat) (u : State) : Prop where
  frame : DmaFrame s u
  bytes : ∀ i : Byte, i.toNat < k → isMemory (mkWord s.cpu.dmaPage i) = true →
    Store.read unlisted u.ppu.oam i.toNat = cpuPeek (mkWord s.cpu.dmaPage i) s

theorem Copied.later {s u v : State} {k : Nat} (h : Copied s k u) (g : Later u v) : Copied s k v where
  frame := h.frame.trans g.dmaFrame
  bytes := fun i hi hmem => by
    have hoam : v.ppu.oam = u.ppu.oam := congrArg PpuRegs.oam g.regs
    rw [hoam, h.bytes i hi hmem]

theorem Copied.copyByte {s u : State} {k : Nat} (h : Copied s k u) (haddr : u.cpu.dmaAddr = BitVec.ofNat 8 k) :
    Copied s (k + 1) (copyByte u) where
  frame := h.frame.trans (dmaFrame_copyByte u)
  bytes := fun i hi hmem => by
    rw [read_copyByte_oam]
    split
    · rw [h.frame.page, cpuPeek_memory hmem h.frame.ram h.frame.cart]
    next hne =>
      have hik : i.toNat ≠ k := fun hik => hne (by rw [haddr, ← hik, BitVec.ofNat_toNat, BitVec.setWidth_eq])
      exact h.bytes i (by omega) hmem

/-- Running CPU steps through a pair of cycles is copying a byte, and the last byte ends the run. -/
theorem runCpu_copyByte {k : Nat} {u : State} (h : DmaReads k u) (n : Nat) :
    runCpu (n + 2) u =
      if (copyByte u).cpu.ready then .next (finishCycle (copyByte u)) else runCpu n (elapse (copyByte u)) := by
  obtain ⟨hactive, hbusy, -, heven⟩ := h
  set v := elapse (dmaRead (u.onCpu dmaAlign)) with hv
  have hcpu : v.cpu = _ := elapse_dmaRead_cpu u
  have hread : cpuWork u = dmaRead (u.onCpu dmaAlign) := (cpuWork_dma hactive).trans (dmaCycle_even heven)
  have hreadBusy : (dmaRead (u.onCpu dmaAlign)).cpu.ready = false := by
    rw [← elapse_ready, ← hv, hcpu]
    exact hbusy
  have hwrite : cpuWork v = copyByte u := by
    rw [cpuWork_dma (by rw [hcpu]; exact hactive)]
    exact dmaCycle_odd (by rw [hcpu]) (by rw [hcpu]; show (u.cpu.cyc + 1) % 2 = 1; omega)
  rw [runCpu, hread, hreadBusy, if_neg Bool.false_ne_true, ← hv, runCpu, hwrite]

/-- What the last write of a transfer leaves of the transfer's own state (R165). -/
structure DmaOver (s : State) : Prop where
  ready : s.cpu.ready = true
  idle : s.cpu.dmaActive = false
  addr : s.cpu.dmaAddr = 0
  wait : s.cpu.dmaWait = true
  data : s.cpu.dmaData = Store.read unlisted s.ppu.oam 0xFF

/-- With `m` bytes to copy after the byte `k`, a transfer takes two CPU cycles for each. -/
theorem runCpu_dma {s u : State} {k m : Nat} (hm : k + m = 255) (h : DmaReads k u) (hcopied : Copied s k u) (n : Nat) :
    ∃ x, runCpu (n + 2 * (m + 1)) u = .next (finishCycle x) ∧ Copied s 256 x ∧ DmaOver x ∧
      x.cpu.cyc + 1 = u.cpu.cyc + 2 * (m + 1) := by
  induction m generalizing u k with
  | zero =>
    obtain rfl : k = 255 := hm
    have haddr : u.cpu.dmaAddr = 255 := h.addr
    have hlast : u.cpu.dmaAddr + 1 = 0 := by rw [haddr]; rfl
    have hcpu := copyByte_cpu_last hlast
    refine ⟨copyByte u, ?_, hcopied.copyByte h.addr, ⟨by rw [hcpu], by rw [hcpu], by rw [hcpu], by rw [hcpu], ?_⟩,
      by rw [hcpu]⟩
    · rw [runCpu_copyByte h, hcpu]
      rfl
    · have hread := read_copyByte_oam u 255
      rw [if_pos haddr.symm] at hread
      rw [hcpu]
      show cpuPeek (mkWord u.cpu.dmaPage u.cpu.dmaAddr) u = _
      rw [haddr]
      exact hread.symm
  | succ m ih =>
    have hnext : u.cpu.dmaAddr + 1 ≠ 0 := by
      rw [h.addr]
      bv_omega
    have hcpu := copyByte_cpu_next hnext
    have hreads : DmaReads (k + 1) (elapse (copyByte u)) := by
      refine ⟨?_, ?_, ?_, ?_⟩
      · rw [elapse_dmaActive, hcpu]
        exact h.active
      · rw [elapse_ready, hcpu]
        exact h.busy
      · rw [elapse_dmaAddr, hcpu]
        show u.cpu.dmaAddr + 1 = _
        rw [h.addr, BitVec.ofNat_add]
        rfl
      · have heven := h.even
        rw [elapse_cyc, hcpu]
        show (u.cpu.cyc + 1 + 1) % 2 = 0
        omega
    have hcopied' := (hcopied.copyByte h.addr).later (later_elapse (copyByte u))
    obtain ⟨x, hrun, hx, hover, hcyc⟩ := ih (by omega) hreads hcopied'
    refine ⟨x, ?_, hx, hover, ?_⟩
    · have hbusy : (copyByte u).cpu.ready = false := by
        rw [hcpu]
        exact h.busy
      have hfuel : n + 2 * (m + 1 + 1) = n + 2 * (m + 1) + 2 := by omega
      rw [hfuel, runCpu_copyByte h, hbusy, if_neg Bool.false_ne_true, hrun]
    · rw [hcyc, elapse_cyc, hcpu]
      show u.cpu.cyc + 1 + 1 + 2 * (m + 1) = _
      omega

/-! The transfer as a step. -/

theorem cpuWork_boundary {s : State} (hb : AtBoundary s.cpu) : cpuWork s = boundaryCycle s := by
  obtain ⟨hready, hdma, hnmi, hirq⟩ := hb
  simp [cpuWork, hready, hdma, hnmi, hirq]

/-- At a boundary a requested transfer begins in the same cycle, before any NMI or IRQ (R376). -/
theorem cpuWork_startDma {s : State} (hb : AtBoundary s.cpu) (h : s.cpu.dmaRequest = true) :
    cpuWork s = cpuWork (startDma s) := by
  have hchoose : choose s.cpu = .dma := if_pos h
  rw [cpuWork_boundary hb, boundaryCycle, hchoose, cpuWork_dma rfl]

/-- A transfer copies its 256 bytes after an alignment cycle if it begins on an odd one (R165). -/
theorem runCpu_startDma (s : State) :
    ∃ x, runCpu runCpuBound (startDma s) = .next (finishCycle x) ∧ Copied (startDma s) 256 x ∧ DmaOver x ∧
      x.cpu.cyc + 1 = s.cpu.cyc + 512 + s.cpu.cyc % 2 := by
  have hstart : Copied (startDma s) 0 (startDma s) :=
    ⟨(Later.refl _).dmaFrame, fun i hi => absurd hi (Nat.not_lt_zero _)⟩
  obtain heven | hodd := Nat.mod_two_eq_zero_or_one s.cpu.cyc
  · have hreads : DmaReads 0 (startDma s) := ⟨rfl, rfl, rfl, heven⟩
    obtain ⟨x, hrun, hx, hover, hcyc⟩ := runCpu_dma (Nat.zero_add 255) hreads hstart 8
    have hbound : runCpuBound = 8 + 2 * (255 + 1) := rfl
    refine ⟨x, by rw [hbound, hrun], hx, hover, ?_⟩
    rw [hcyc, heven]
    rfl
  · have hwait : cpuWork (startDma s) = startDma s := (cpuWork_dma rfl).trans (dmaCycle_wait rfl hodd)
    have hreads : DmaReads 0 (elapse (startDma s)) := by
      refine ⟨by rw [elapse_dmaActive]; rfl, by rw [elapse_ready]; rfl, by rw [elapse_dmaAddr]; rfl, ?_⟩
      rw [elapse_cyc]
      show (s.cpu.cyc + 1) % 2 = 0
      omega
    obtain ⟨x, hrun, hx, hover, hcyc⟩ := runCpu_dma (Nat.zero_add 255) hreads (hstart.later (later_elapse _)) 7
    refine ⟨x, ?_, hx, hover, ?_⟩
    · have hbound : runCpuBound = 7 + 2 * (255 + 1) + 1 := rfl
      have hbusy : (startDma s).cpu.ready = false := rfl
      rw [hbound, runCpu, hwait, hbusy, if_neg Bool.false_ne_true, hrun]
    · rw [hcyc, hodd, elapse_cyc]
      show s.cpu.cyc + 1 + 512 = s.cpu.cyc + 512 + 1
      omega

/-- Settles O44: the step is the transfer's run, and the time after its last write leaves what it copied. -/
theorem oamDma : Obligations.OamDma := by
  intro s w hb hhalt hrequest
  obtain ⟨x, hrun, hcopied, hover, hcyc⟩ := runCpu_startDma w
  have hstep : step s = .next (finishCycle x) := by
    rw [step_eq_runCpu ((waitCpu_halted s).symm.trans hhalt)]
    exact (runCpu_congr (n := 519) (cpuWork_startDma hb hrequest)).trans hrun
  obtain ⟨hframe, hbytes⟩ := hcopied.later (later_finishCycle x)
  have hoam : (finishCycle x).ppu.oam = x.ppu.oam := congrArg PpuRegs.oam (later_finishCycle x).regs
  refine ⟨_, hstep, fun i => hbytes i i.isLt, by rw [finishCycle_cyc, hcyc], ?_, hframe.nmi, hframe.regs,
    sameMemory_of hframe.ram hframe.cart, ⟨hframe.cfg, hframe.ram, hframe.cart⟩, hframe.devices⟩
  obtain ⟨hready, hdma, -, -⟩ := hb
  have hcpu := hframe.cpu
  rw [finishCycle_ready, finishCycle_dmaActive, finishCycle_dmaAddr, finishCycle_dmaWait, finishCycle_dmaData,
    hover.ready, ← hready, hover.idle, ← hdma, hover.addr, hover.wait, hover.data, ← hoam] at hcpu
  exact hcpu

end Sys2Proof.Machine
end

section
/-!
Between steps the CPU is at an instruction boundary (R158): whatever a step takes up at one, it ends (log 5).
-/

namespace Sys2Proof.Machine

/-- Neither a transfer nor a service sequence is in progress. -/
def Inactive (c : Cpu) : Prop := c.dmaActive = false ∧ c.nmiActive = false ∧ c.irqActive = false

theorem AtBoundary.later {s t : State} (h : AtBoundary s.cpu) (g : Later s t) : AtBoundary t.cpu := by
  rw [g.cpu]
  exact h

theorem Inactive.clock {s t : State} (h : Inactive s.cpu) (g : SameClock s t) : Inactive t.cpu := by
  obtain ⟨hdma, hnmi, hirq⟩ := h
  refine ⟨g.dma.trans hdma, ?_⟩
  obtain ⟨gnmi, girq⟩ | hended := g.active
  · exact ⟨gnmi.trans hnmi, girq.trans hirq⟩
  · exact hended

theorem Inactive.advance {s : State} (h : Inactive s.cpu) : Inactive (advance s).cpu := by
  rw [Inactive, advance_dmaActive, advance_nmiActive, advance_irqActive]
  exact h

/-- An instruction's cycles end ready, and begin neither a transfer nor a service sequence. -/
theorem atBoundary_runCycles {cs : List Cycle} (hsteady : ∀ c ∈ cs, Cycle.Steady c) {s : State} (h : Inactive s.cpu) :
    AtBoundary (runCycles cs s).cpu := by
  induction cs generalizing s with
  | nil => exact ⟨rfl, h⟩
  | cons c cs ih =>
    have hc := hsteady c List.mem_cons_self
    unfold runCycles
    split
    next t ht =>
      have hdone : Inactive t.cpu := h.clock (hc.done s t ht)
      exact ⟨rfl, hdone⟩
    next t ht =>
      have ht' : Inactive t.cpu := h.clock (hc.more s t ht).clock
      exact ih (fun d hd => hsteady d (List.mem_cons_of_mem c hd)) ht'.advance

/-- A service sequence ends ready, and what was active is so no longer (R377). -/
theorem atBoundary_serviceCycles {s : State} (h : s.cpu.dmaActive = false) :
    AtBoundary (runCycles serviceCycles s).cpu := by
  refine ⟨?_, ?_, ?_, ?_⟩
  · simp [serviceCycles, entryCycles, idleAtPc, runCycles]
  · simp [serviceCycles, entryCycles, idleAtPc, runCycles, (control_push _ _).dma, h]
  · simp [serviceCycles, entryCycles, idleAtPc, runCycles]
  · simp [serviceCycles, entryCycles, idleAtPc, runCycles]

theorem Inactive.fetchInstr {s : State} (h : Inactive s.cpu) : Inactive (fetchInstr s).state.cpu := by
  cases hlegal : isIllegal (cpuPeek s.cpu.pc s) with
  | true => simpa [fetchInstr_illegal hlegal, fetchOpcode, Inactive] using h
  | false =>
    rw [fetchInstr_legal hlegal]
    have hbegun : Inactive (elapse (beginInstr (fetchOpcode s))).cpu := by
      simpa [beginInstr, fetchOpcode, Inactive] using h
    generalize elapse (beginInstr (fetchOpcode s)) = v at hbegun ⊢
    obtain hn | hn | hn := leadingBytes_cases v.cpu.ir
    · rw [fetchOperands_zero hn]
      exact hbegun
    · rw [fetchOperands_one hn]
      simpa [fetchLow, Inactive] using hbegun
    · rw [fetchOperands_two hn]
      simpa [fetchLow, fetchHigh, Inactive] using hbegun

/-- A master cycle of a halted machine is time passing (R372). -/
theorem later_masterCycle_halted {s : State} (h : s.cpu.halted = true) : Later s (masterCycle s) := by
  have htick : Later s { s with bus := { s.bus with cpuDivCnt := s.cfg.cpuDivider - 1 } } :=
    ⟨rfl, rfl, rfl, rfl, rfl, rfl, id, rfl, fun _ => rfl⟩
  unfold masterCycle
  rw [if_pos h]
  split
  · exact htick.trans (later_afterCpu _)
  · exact later_idleCycle s

theorem masterCycle_of_step_halted {s t : State} (h : s.cpu.halted = true) (hstep : step s = .next t) :
    masterCycle s = t := by
  simpa [step, h] using hstep

theorem dmaRequest_of_choose {c : Cpu} (h : choose c = .dma) : c.dmaRequest = true := by
  unfold choose at h
  split at h
  next hrequest => exact hrequest
  · split at h
    · cases h
    · split at h <;> cases h

/-- The step that is a service sequence ends at a boundary. -/
theorem atBoundary_service {s t u : State} (hhalt : s.cpu.halted = false) (hu : InService u) (hsub : u.cpu.sub = 0)
    (hwork : cpuWork (waitCpu s) = serviceCycle u) (hstep : step s = .next t) : AtBoundary t.cpu := by
  have ht : finishCycle (runCycles serviceCycles u) = t :=
    Host.Outcome.next.inj ((step_service hhalt hu hsub hwork).symm.trans hstep)
  rw [← ht]
  exact (atBoundary_serviceCycles hu.dma).later (later_finishCycle _)

/-- The step of a machine that is not halted, by what its CPU takes up at the boundary (R376). -/
theorem atBoundary_step {s t : State} (hhalt : s.cpu.halted = false) (hb : AtBoundary (waitCpu s).cpu)
    (hstep : step s = .next t) : AtBoundary t.cpu := by
  have hinactive : Inactive (waitCpu s).cpu := hb.2
  have hdma : (waitCpu s).cpu.dmaActive = false := hinactive.1
  have hwork := cpuWork_boundary hb
  unfold boundaryCycle at hwork
  cases hchoose : choose (waitCpu s).cpu with
  | dma =>
    have hhalt' : (waitCpu s).cpu.halted = false := (waitCpu_halted s).trans hhalt
    obtain ⟨u, hu, -, -, hcpu, -⟩ := oamDma s hb hhalt' (dmaRequest_of_choose hchoose)
    have ht : u = t := Host.Outcome.next.inj (hu.symm.trans hstep)
    rw [← ht, hcpu]
    exact hb
  | nmi =>
    rw [hchoose] at hwork
    exact atBoundary_service hhalt (inService_startNmi hdma) rfl hwork hstep
  | irq =>
    rw [hchoose] at hwork
    have hservice : InService (startIrq (waitCpu s)) := ⟨rfl, hdma, Bool.or_true _⟩
    exact atBoundary_service hhalt hservice rfl hwork hstep
  | fetch =>
    have hfetches := fetches_of_choose hb hchoose
    have hrun : runInstr (waitCpu s) = .next t := by
      rw [runInstr_eq hfetches, ← step_eq_runCpu hhalt, hstep]
    rw [runInstr, exec_eq] at hrun
    have ht : finishCycle (runCycles _ _) = t := Host.Outcome.next.inj hrun
    rw [← ht]
    exact (atBoundary_runCycles (cyclesOf_steady _) hinactive.fetchInstr).later (later_finishCycle _)

/-- Settles O11: time passing leaves a boundary, and whatever the CPU takes up at one is over when the step is. -/
theorem boundaryToBoundary : Obligations.BoundaryToBoundary := by
  intro s t hb hstep
  cases hhalt : s.cpu.halted with
  | true =>
    rw [← masterCycle_of_step_halted hhalt hstep]
    exact hb.later (later_masterCycle_halted hhalt)
  | false => exact atBoundary_step hhalt (hb.later (later_waitCpu s)) hstep

end Sys2Proof.Machine
end

section
/-!
Loads, stores and register transfers (R180 to R191). Each instruction has the cycles of its category: the category's
result (Laws/Categories), for the operation that the instruction makes on the registers.
-/

namespace Sys2Proof.Machine

/-! `exec` of an instruction of the read, the write or the internal category. -/

/-- `c` is what the operation makes of the registers, in the words of the instruction's statement. -/
theorem exec_read {i : Instr} {op : Byte → Cpu → Cpu} {o : ReadOperand} {s : State} {c : Cpu}
    (hcycles : cyclesOf i = readCycles op o) (hop : ∀ v, RegisterOp (op v)) (hc : op (operandByte o s) s.cpu = c) :
    ∃ t, exec i s = .next t ∧ CpuIs s t c ∧ ReadsOnly o s t := by
  subst hc
  exact ⟨_, by rw [exec_eq, hcycles], read_result hop o s⟩

theorem exec_write {i : Instr} {val : Cpu → Byte} {m : MemOperand} (s : State)
    (hcycles : cyclesOf i = writeCycles val m) (hval : ∀ c w : Cpu, val (c.withCycleState w) = val c) :
    ∃ t, exec i s = .next t ∧ CpuIs s t (cpuWrite (effAddr m s) (val s.cpu) s).cpu ∧
      WritesAt (effAddr m s) (val s.cpu) (writePoint m s) s t :=
  ⟨_, by rw [exec_eq, hcycles], write_result hval m s⟩

/-- `c` is what the operation makes of the registers, in the words of the instruction's statement. -/
theorem exec_internal {i : Instr} {f : Cpu → Cpu} {s : State} {c : Cpu} (hcycles : cyclesOf i = internalCycles f)
    (hf : RegisterOp f) (hc : f s.cpu = c) : ∃ t, exec i s = .next t ∧ CpuIs s t c ∧ RegisterOnly s t := by
  subst hc
  exact ⟨_, by rw [exec_eq, hcycles], internal_result hf s⟩

/-! The operations that loads and transfers share: a byte goes to a register, and N and Z follow it (R6). -/

theorem loadA_eq (v : Byte) (c : Cpu) : loadA v c = { c with a := v, p := nzOf c.p v } := by rw [loadA, setNZ_eq]

theorem loadX_eq (v : Byte) (c : Cpu) : loadX v c = { c with x := v, p := nzOf c.p v } := by rw [loadX, setNZ_eq]

theorem loadY_eq (v : Byte) (c : Cpu) : loadY v c = { c with y := v, p := nzOf c.p v } := by rw [loadY, setNZ_eq]

theorem registerOp_loadA (v : Byte) : RegisterOp (loadA v) := fun _ _ => rfl

theorem registerOp_loadX (v : Byte) : RegisterOp (loadX v) := fun _ _ => rfl

theorem registerOp_loadY (v : Byte) : RegisterOp (loadY v) := fun _ _ => rfl

/-- Settles O18: the three loads are of the read category, and each operation puts the operand byte in its register. -/
theorem loadResults : Obligations.LoadResults := by
  intro o s
  refine ⟨?lda, ?ldx, ?ldy⟩
  case lda => exact exec_read rfl registerOp_loadA (loadA_eq _ _)
  case ldx => exact exec_read rfl registerOp_loadX (loadX_eq _ _)
  case ldy => exact exec_read rfl registerOp_loadY (loadY_eq _ _)

/-- Settles O19: the three stores are of the write category, and no register is part of the cycle state. -/
theorem storeResults : Obligations.StoreResults := by
  intro m s
  refine ⟨?sta, ?stx, ?sty⟩
  case sta => exact exec_write s rfl Cpu.withCycleState_a
  case stx => exact exec_write s rfl Cpu.withCycleState_x
  case sty => exact exec_write s rfl Cpu.withCycleState_y

/-- Settles O20: the transfers are internal instructions; all but TXS load a register from another, and so set N and
Z. -/
theorem transferResults : Obligations.TransferResults := by
  refine ⟨rfl, rfl, rfl, rfl, rfl, rfl, fun s => ⟨?tax, ?tay, ?txa, ?tya, ?tsx, ?txs⟩⟩
  case tax => exact exec_internal rfl (fun c => registerOp_loadX c.a c) (loadX_eq _ _)
  case tay => exact exec_internal rfl (fun c => registerOp_loadY c.a c) (loadY_eq _ _)
  case txa => exact exec_internal rfl (fun c => registerOp_loadA c.x c) (loadA_eq _ _)
  case tya => exact exec_internal rfl (fun c => registerOp_loadA c.y c) (loadA_eq _ _)
  case tsx => exact exec_internal rfl (fun c => registerOp_loadX c.sp c) (loadX_eq _ _)
  case txs => exact exec_internal rfl (fun _ _ => rfl) rfl

end Sys2Proof.Machine
end

section
/-!
Arithmetic, logic, compare and bit test (R200 to R208). Each instruction is of the read category (`exec_read`), its
operation written with the masks of the spec's flag arithmetic (Laws/Flags); then what the sum's byte and flags mean on
numbers.
-/

namespace Sys2Proof.Machine

/-! The operations of the family, each with the spec's byte and status. -/

theorem opAdc_eq (v : Byte) (c : Cpu) : opAdc v c = { c with a := sumByte c.p c.a v, p := sumStatus c.p c.a v } := by
  rw [opAdc, adcResult_eq, adcFlags_eq]

/-- SBC is ADC of the complement (R201). -/
theorem opSbc_eq_opAdc (v : Byte) (c : Cpu) : opSbc v c = opAdc (~~~v) c := by
  have h : v ^^^ 0xFF = ~~~v := BitVec.xor_allOnes
  rw [opSbc, opAdc, sbcResult, sbcFlags, h]

theorem opAnd_eq_loadA (v : Byte) (c : Cpu) : opAnd v c = loadA (c.a &&& v) c := rfl

theorem opOra_eq_loadA (v : Byte) (c : Cpu) : opOra v c = loadA (c.a ||| v) c := rfl

theorem opEor_eq_loadA (v : Byte) (c : Cpu) : opEor v c = loadA (c.a ^^^ v) c := rfl

theorem opCmp_eq (v : Byte) (c : Cpu) : opCmp v c = { c with p := compareStatus c.p c.a v } := by
  rw [opCmp, compareFlags_eq]

theorem opCpx_eq (v : Byte) (c : Cpu) : opCpx v c = { c with p := compareStatus c.p c.x v } := by
  rw [opCpx, compareFlags_eq]

theorem opCpy_eq (v : Byte) (c : Cpu) : opCpy v c = { c with p := compareStatus c.p c.y v } := by
  rw [opCpy, compareFlags_eq]

theorem opBit_eq (v : Byte) (c : Cpu) : opBit v c = { c with p := bitStatus c.p c.a v } := by rw [opBit, bitFlags_eq]

/-- Settles O21: SBC adds the complement, and ADC's sum and flags are those of R200. -/
theorem addResults : Obligations.AddResults := by
  intro o s
  refine ⟨?adc, ?sbc⟩
  case adc => exact exec_read rfl (fun _ _ _ => rfl) (opAdc_eq _ _)
  case sbc => exact exec_read rfl (fun _ _ _ => rfl) ((opSbc_eq_opAdc _ _).trans (opAdc_eq _ _))

/-- Settles O23: the three operations load A with a byte, so N and Z follow it and nothing else changes. -/
theorem logicResults : Obligations.LogicResults := by
  intro o s
  refine ⟨?and, ?ora, ?eor⟩
  case and => exact exec_read rfl (fun _ _ _ => rfl) ((opAnd_eq_loadA _ _).trans (loadA_eq _ _))
  case ora => exact exec_read rfl (fun _ _ _ => rfl) ((opOra_eq_loadA _ _).trans (loadA_eq _ _))
  case eor => exact exec_read rfl (fun _ _ _ => rfl) ((opEor_eq_loadA _ _).trans (loadA_eq _ _))

/-- Settles O24: the three compares differ in the register alone. -/
theorem compareResults : Obligations.CompareResults := by
  intro o s
  refine ⟨?cmp, ?cpx, ?cpy⟩
  case cmp => exact exec_read rfl (fun _ _ _ => rfl) (opCmp_eq _ _)
  case cpx => exact exec_read rfl (fun _ _ _ => rfl) (opCpx_eq _ _)
  case cpy => exact exec_read rfl (fun _ _ _ => rfl) (opCpy_eq _ _)

/-- Settles O25: BIT reads memory and replaces the status alone. -/
theorem bitResult : Obligations.BitResult := fun _ _ => exec_read rfl (fun _ _ _ => rfl) (opBit_eq _ _)

/-! The sum and its flags on numbers (R14, R200). -/

theorem bitAt_setFlag_same (p : Byte) {i : Nat} (hi : i < 8) (b : Bool) : bitAt (setFlag p i b) i = b :=
  (getLsbD_setBitTo p i b hi).trans (if_pos rfl)

theorem bitAt_setFlag_ne (p : Byte) {i j : Nat} (hj : j < 8) (hij : j ≠ i) (b : Bool) :
    bitAt (setFlag p i b) j = bitAt p j :=
  (getLsbD_setBitTo p i b hj).trans (if_neg hij)

theorem bitAt_setNZ_N (p v : Byte) : bitAt (setNZ p v) flagN = bitAt v 7 := bitAt_setFlag_same _ (by decide) _

theorem bitAt_setNZ_Z (p v : Byte) : bitAt (setNZ p v) flagZ = (v == 0) :=
  (bitAt_setFlag_ne _ (by decide) (by decide) _).trans (bitAt_setFlag_same _ (by decide) _)

theorem bitAt_setNZ_of_ne (p v : Byte) {j : Nat} (hj : j < 8) (hz : j ≠ flagZ) (hn : j ≠ flagN) :
    bitAt (setNZ p v) j = bitAt p j :=
  (bitAt_setFlag_ne _ hj hn _).trans (bitAt_setFlag_ne _ hj hz _)

/-- Bit 7 is a byte's sign. -/
theorem bitAt_seven (b : Byte) : bitAt b 7 = decide (128 ≤ b.toNat) := BitVec.msb_eq_decide b

theorem byte_toInt (b : Byte) : b.toInt = if 128 ≤ b.toNat then (b.toNat : Int) - 256 else b.toNat := by
  rw [BitVec.toInt_eq_toNat_cond]
  split <;> split <;> omega

theorem carryIn_le_one (p : Byte) : carryIn p ≤ 1 := by
  unfold carryIn
  split <;> omega

theorem sumByte_toNat (p a m : Byte) : (sumByte p a m).toNat = (a.toNat + m.toNat + carryIn p) % 256 :=
  BitVec.toNat_ofNat _ _

theorem sumStatus_signs (p a m : Byte) :
    bitAt (sumStatus p a m) flagN = decide (128 ≤ (sumByte p a m).toNat) ∧
      bitAt (sumStatus p a m) flagZ = decide (sumByte p a m = 0) := by
  rw [← adcFlags_eq, ← adcResult_eq, ← bitAt_seven]
  exact ⟨bitAt_setNZ_N _ _, bitAt_setNZ_Z _ _⟩

theorem sumStatus_carry (p a m : Byte) :
    bitAt (sumStatus p a m) flagC = true ↔ 256 ≤ a.toNat + m.toNat + carryIn p := by
  have h : bitAt (sumStatus p a m) flagC = decide (256 ≤ exactSum p a m) := by
    rw [← adcFlags_eq, ← adcCarry_eq, adcFlags, bitAt_setNZ_of_ne _ _ (by decide) (by decide) (by decide),
      bitAt_setFlag_ne _ (by decide) (by decide), bitAt_setFlag_same _ (by decide)]
  rw [h, decide_eq_true_iff, exactSum]

/-- V by R200's formula: the operands have one sign, the result has the other. -/
theorem sumStatus_overflow_signs (p a m : Byte) :
    bitAt (sumStatus p a m) flagV = true ↔
      (128 ≤ a.toNat ↔ 128 ≤ m.toNat) ∧ ¬(128 ≤ a.toNat ↔ 128 ≤ (sumByte p a m).toNat) := by
  have h : bitAt (sumStatus p a m) flagV = bitAt ((a ^^^ sumByte p a m) &&& (m ^^^ sumByte p a m)) 7 := by
    rw [← adcFlags_eq, ← adcResult_eq, adcFlags, bitAt_setNZ_of_ne _ _ (by decide) (by decide) (by decide),
      bitAt_setFlag_same _ (by decide)]
  have hbits : bitAt ((a ^^^ sumByte p a m) &&& (m ^^^ sumByte p a m)) 7 =
      ((bitAt a 7 ^^ bitAt (sumByte p a m) 7) && (bitAt m 7 ^^ bitAt (sumByte p a m) 7)) := by
    simp only [bitAt, BitVec.getLsbD_and, BitVec.getLsbD_xor]
  rw [h, hbits, bitAt_seven, bitAt_seven, bitAt_seven]
  by_cases ha : 128 ≤ a.toNat <;> by_cases hm : 128 ≤ m.toNat <;> simp [ha, hm]

/-- V is set exactly if the signed sum does not fit a byte (R200). -/
theorem sumStatus_overflow (p a m : Byte) :
    bitAt (sumStatus p a m) flagV = true ↔
      a.toInt + m.toInt + carryIn p < -128 ∨ 127 < a.toInt + m.toInt + carryIn p := by
  have hc := carryIn_le_one p
  rw [sumStatus_overflow_signs, sumByte_toNat, byte_toInt, byte_toInt]
  split <;> split <;> omega

theorem byte_toNat_not (m : Byte) : (~~~m).toNat = 255 - m.toNat := BitVec.toNat_not

theorem byte_toInt_not (m : Byte) : (~~~m).toInt = -1 - m.toInt := by
  rw [byte_toInt, byte_toInt, byte_toNat_not]
  split <;> split <;> omega

theorem CpuIs.a {s t : State} {c : Cpu} (h : CpuIs s t c) : t.cpu.a = c.a := (congrArg Cpu.a h.1).trans rfl

theorem CpuIs.p {s t : State} {c : Cpu} (h : CpuIs s t c) : t.cpu.p = c.p := (congrArg Cpu.p h.1).trans rfl

/-- Settles O22: O21's byte and status, on numbers; for SBC the operand's complement is 255 − M, and −1 − M as a
signed byte, so that adding it and C subtracts M and 1 − C. -/
theorem addMeaning : Obligations.AddMeaning := by
  intro o s
  obtain ⟨⟨t, hadc, ht, -⟩, ⟨u, hsbc, hu, -⟩⟩ := addResults o s
  refine ⟨⟨t, hadc, ?_⟩, ⟨u, hsbc, ?_⟩⟩
  · simp only [ht.a, ht.p]
    exact ⟨sumByte_toNat _ _ _, sumStatus_carry _ _ _, sumStatus_overflow _ _ _, sumStatus_signs _ _ _⟩
  · have hc := carryIn_le_one s.cpu.p
    simp only [hu.a, hu.p]
    refine ⟨?_, ?_, ?_, sumStatus_signs _ _ _⟩
    · rw [sumByte_toNat, byte_toNat_not]
      omega
    · rw [sumStatus_carry, byte_toNat_not]
      omega
    · rw [sumStatus_overflow, byte_toInt_not]
      omega

end Sys2Proof.Machine
end

section
/-!
Shifts, rotates, increments and decrements (R220 to R229): the result bytes on numbers, and then each instruction as
its category (`exec_internal` on a register, `exec_rmw` on memory) for the operation that gives those bytes.
-/

namespace Sys2Proof.Machine

/-! The bits that are shifted out and in. -/

/-- Bit 0 is a byte's parity. -/
theorem bitAt_zero (b : Byte) : bitAt b 0 = lowBit b := Nat.testBit_zero _

/-- The carry, as the bit that a rotate shifts in. -/
theorem carryIn_eq_toNat (p : Byte) : carryIn p = (flag p flagC).toNat := by
  rw [← carryIn_eq]
  cases flag p flagC <;> rfl

theorem toNat_ofBit (b : Bool) : (ofBit b 8).toNat = b.toNat := by cases b <;> rfl

/-! The results. A bit shifted in fills the place that the shift leaves empty, so that "or" is a sum of disjoint bits. -/

theorem shiftLeft_or_ofBit (v : Byte) (b : Bool) : v <<< 1 ||| ofBit b 8 = shiftedLeft v b.toNat := by
  have hb := b.toNat_lt
  have hdisjoint := Nat.two_pow_add_eq_or_of_lt (i := 1) hb (v.toNat % 128)
  have heven : v.toNat <<< 1 % 2 ^ 8 = 2 ^ 1 * (v.toNat % 128) := by omega
  apply BitVec.eq_of_toNat_eq
  rw [BitVec.toNat_or, BitVec.toNat_shiftLeft, toNat_ofBit, heven, ← hdisjoint, shiftedLeft, BitVec.toNat_ofNat]
  omega

theorem shiftRight_or_ofBit (v : Byte) (b : Bool) : v >>> 1 ||| ofBit b 8 <<< 7 = shiftedRight v b.toNat := by
  have hv := v.isLt
  have hb := b.toNat_lt
  have hdisjoint := Nat.two_pow_add_eq_or_of_lt (i := 7) (b := v.toNat / 2) (by omega) b.toNat
  have hhigh : b.toNat <<< 7 % 2 ^ 8 = 2 ^ 7 * b.toNat := by omega
  apply BitVec.eq_of_toNat_eq
  rw [BitVec.or_comm, BitVec.toNat_or, BitVec.toNat_shiftLeft, BitVec.toNat_ushiftRight, toNat_ofBit, hhigh,
    Nat.shiftRight_one, ← hdisjoint, shiftedRight, BitVec.toNat_ofNat]
  omega

/-- ASL shifts a 0 in (R220). -/
theorem aslResult_eq (v : Byte) : aslResult v = shiftedLeft v 0 :=
  BitVec.or_zero.symm.trans (shiftLeft_or_ofBit v false)

/-- LSR shifts a 0 in (R221). -/
theorem lsrResult_eq (v : Byte) : lsrResult v = shiftedRight v 0 :=
  BitVec.or_zero.symm.trans (shiftRight_or_ofBit v false)

/-- ROL shifts the carry in (R222). -/
theorem rolResult_eq (p v : Byte) : rolResult p v = shiftedLeft v (carryIn p) := by
  rw [rolResult, shiftLeft_or_ofBit, carryIn_eq_toNat]

/-- ROR shifts the carry in (R223). -/
theorem rorResult_eq (p v : Byte) : rorResult p v = shiftedRight v (carryIn p) := by
  rw [rorResult, shiftRight_or_ofBit, carryIn_eq_toNat]

theorem byte_add_one (v : Byte) : v + 1 = BitVec.ofNat 8 (v.toNat + 1) := by
  rw [BitVec.ofNat_add, BitVec.ofNat_toNat, BitVec.setWidth_eq]
  rfl

theorem byte_sub_one (v : Byte) : v - 1 = BitVec.ofNat 8 (v.toNat + 255) := by
  rw [BitVec.ofNat_add, BitVec.ofNat_toNat, BitVec.setWidth_eq]
  exact BitVec.sub_eq_add_neg v 1

/-! The operations, each with the result and the status of its rule. -/

theorem fAsl_eq (p v : Byte) : fAsl p v = (shiftedLeft v 0, nzcOf p (shiftedLeft v 0) (topBit v)) := by
  rw [fAsl, aslResult_eq, shiftFlags_eq, bitAt_seven, topBit]

theorem fLsr_eq (p v : Byte) : fLsr p v = (shiftedRight v 0, nzcOf p (shiftedRight v 0) (lowBit v)) := by
  rw [fLsr, lsrResult_eq, shiftFlags_eq, bitAt_zero]

theorem fRol_eq (p v : Byte) :
    fRol p v = (shiftedLeft v (carryIn p), nzcOf p (shiftedLeft v (carryIn p)) (topBit v)) := by
  rw [fRol, rolResult_eq, shiftFlags_eq, bitAt_seven, topBit]

theorem fRor_eq (p v : Byte) :
    fRor p v = (shiftedRight v (carryIn p), nzcOf p (shiftedRight v (carryIn p)) (lowBit v)) := by
  rw [fRor, rorResult_eq, shiftFlags_eq, bitAt_zero]

theorem fInc_eq (p v : Byte) : fInc p v = (BitVec.ofNat 8 (v.toNat + 1), nzOf p (BitVec.ofNat 8 (v.toNat + 1))) := by
  rw [fInc, setNZ_eq, byte_add_one]

theorem fDec_eq (p v : Byte) :
    fDec p v = (BitVec.ofNat 8 (v.toNat + 255), nzOf p (BitVec.ofNat 8 (v.toNat + 255))) := by
  rw [fDec, setNZ_eq, byte_sub_one]

/-! `exec` of a shift of A, and of an instruction of the read-modify-write category. -/

/-- `r` and `q` are the result and the status of the operation, in the words of the instruction's statement. -/
theorem exec_shiftAcc {i : Instr} {f : Byte → Byte → Byte × Byte} {s : State} {r q : Byte}
    (hcycles : cyclesOf i = shiftCycles f .acc) (hf : f s.cpu.p s.cpu.a = (r, q)) :
    ∃ t, exec i s = .next t ∧ CpuIs s t { s.cpu with a := r, p := q } ∧ RegisterOnly s t :=
  exec_internal hcycles (fun _ _ => rfl) (by rw [hf])

/-- `r` and `q` are the result and the status of the operation, in the words of the instruction's statement. -/
theorem exec_rmw {i : Instr} {f : Byte → Byte → Byte × Byte} {m : MemOperand} {s : State} {r q : Byte}
    (hcycles : cyclesOf i = rmwCycles f m) (hf : f s.cpu.p (rmwByte m s) = (r, q)) :
    ∃ t, exec i s = .next t ∧ CpuIs s t { (cpuWrite (effAddr m s) r s).cpu with p := q } ∧
      WritesAt (effAddr m s) r (rmwPoint m s) s t := by
  have hresult := rmw_result f m s
  rw [hf] at hresult
  exact ⟨_, by rw [exec_eq, hcycles], hresult⟩

/-- Settles O26: the accumulator forms are internal instructions, each with its operation's result and status. -/
theorem accumulatorShifts : Obligations.AccumulatorShifts := by
  intro s
  refine ⟨?asl, ?lsr, ?rol, ?ror⟩
  case asl => exact exec_shiftAcc rfl (fAsl_eq _ _)
  case lsr => exact exec_shiftAcc rfl (fLsr_eq _ _)
  case rol => exact exec_shiftAcc rfl (fRol_eq _ _)
  case ror => exact exec_shiftAcc rfl (fRor_eq _ _)

/-- Settles O27: the memory forms are read-modify-write instructions with the same four operations. -/
theorem memoryShifts : Obligations.MemoryShifts := by
  intro m s
  refine ⟨?asl, ?lsr, ?rol, ?ror⟩
  case asl => exact exec_rmw rfl (fAsl_eq _ _)
  case lsr => exact exec_rmw rfl (fLsr_eq _ _)
  case rol => exact exec_rmw rfl (fRol_eq _ _)
  case ror => exact exec_rmw rfl (fRor_eq _ _)

/-- Settles O28: the status of both is `setNZ` of the result, so C and V are not part of it. -/
theorem memoryIncDec : Obligations.MemoryIncDec := by
  intro m s
  refine ⟨?inc, ?dec⟩
  case inc => exact exec_rmw rfl (fInc_eq _ _)
  case dec => exact exec_rmw rfl (fDec_eq _ _)

/-- Settles O29: each loads its register with that register's own value plus or minus one, and so sets N and Z. -/
theorem registerIncDec : Obligations.RegisterIncDec := by
  refine ⟨rfl, rfl, rfl, rfl, fun s => ⟨?inx, ?iny, ?dex, ?dey⟩⟩
  case inx => exact exec_internal rfl (fun _ _ => rfl) (byte_add_one s.cpu.x ▸ loadX_eq _ _)
  case iny => exact exec_internal rfl (fun _ _ => rfl) (byte_add_one s.cpu.y ▸ loadY_eq _ _)
  case dex => exact exec_internal rfl (fun _ _ => rfl) (byte_sub_one s.cpu.x ▸ loadX_eq _ _)
  case dey => exact exec_internal rfl (fun _ _ => rfl) (byte_sub_one s.cpu.y ▸ loadY_eq _ _)

end Sys2Proof.Machine
end

section
/-!
Control flow (R240 to R253). What each instruction's cycles leave is a law of its own (Laws/Control, Laws/Stack); here it
is said of `exec`, with JMP's pointer where it is memory, and the branch conditions as masks.
-/

namespace Sys2Proof.Machine

/-- What is so of the state that an instruction's cycles leave is so of the state after `exec`. -/
theorem exec_next {i : Instr} {s : State} {Q : State → Prop} (h : Q (runCycles (cyclesOf i) s)) :
    ∃ t, exec i s = .next t ∧ Q t := ⟨_, exec_eq i s, h⟩

/-! JMP's pointer (R240), where both of its bytes are memory: reading them has no effect, and they are what is stored
there when the instruction begins. -/

theorem cpuPeek_pointerLowPoint {a : Word} (ha : isMemory a = true) (ptr : Word) (s : State) :
    cpuPeek a (pointerLowPoint ptr s) = cpuPeek a s :=
  cpuPeek_memory ha (by simp [pointerLowPoint]) (by simp [pointerLowPoint])

theorem cpuPeek_pointerHighPoint {a : Word} (ha : isMemory a = true) (ptr : Word) (s : State) :
    cpuPeek a (pointerHighPoint ptr s) = cpuPeek a s := by
  obtain ⟨-, -, hram, hcart⟩ := pointerHigh_follows ptr s
  exact cpuPeek_memory ha hram hcart

theorem pointerTarget_of_memory {ptr : Word} (hlow : isMemory ptr = true) (hhigh : isMemory (samePageNext ptr) = true)
    (s : State) : pointerTarget ptr s = mkWord (cpuPeek (samePageNext ptr) s) (cpuPeek ptr s) := by
  rw [pointerTarget, cpuPeek_pointerHighPoint hhigh, cpuPeek_pointerLowPoint hlow]

theorem sameDevices_pointerHighPoint {ptr : Word} (hlow : isMemory ptr = true) (s : State) :
    SameDevices s (pointerHighPoint ptr s) := by
  rw [pointerHighPoint, readEffect_memory hlow]
  simp [SameDevices, pointerLowPoint]

/-- Settles O30: the two forms, the pointer's second address, and the pointer in memory. -/
theorem jumpResults : Obligations.JumpResults := by
  intro w s
  refine ⟨exec_next (jmp_abs_result w s), exec_next (jmp_ind_result w s), toNat_samePageNext w, ?memory⟩
  case memory =>
    intro hlow hhigh
    rw [readEffect_memory hhigh]
    exact ⟨pointerTarget_of_memory hlow hhigh s, sameDevices_pointerHighPoint hlow s⟩

/-- Settles O31: two bytes are pushed before the last cycle makes the jump to the operand (log 6). -/
theorem jsrResult : Obligations.JsrResult := fun target s => exec_next (jsr_result target s)

/-- Settles O32: two bytes are pulled into PC, which the last cycle moves on. -/
theorem rtsResult : Obligations.RtsResult := fun s => exec_next (rts_result s)

/-- Settles O33: the status is the first of three bytes pulled. -/
theorem rtiResult : Obligations.RtiResult := fun s => exec_next (rti_result s)

/-- Settles O34: the padding byte is skipped, and the entry that BRK shares with NMI and IRQ follows. -/
theorem brkResult : Obligations.BrkResult := fun s => exec_next (brk_result s)

/-! Branches. -/

/-- A flag is 1 exactly if the mask of its bit leaves something of the status. -/
theorem flag_eq_mask (p : Byte) (i : Nat) (hi : i < 8) : flag p i = (p &&& BitVec.twoPow 8 i != 0) := by
  have hbit : p &&& BitVec.twoPow 8 i = 0 ↔ p.getLsbD i = false :=
    and_bit p _ hi fun j hj => by simp [hj, eq_comm]
  rw [Bool.eq_iff_iff, bne_iff_ne, ne_eq, hbit, Bool.not_eq_false]
  rfl

theorem not_flag_eq_mask (p : Byte) (i : Nat) (hi : i < 8) : (!flag p i) = (p &&& BitVec.twoPow 8 i == 0) := by
  rw [flag_eq_mask p i hi, bne, Bool.not_not]

/-- `taken` is the branch's condition, in the words of the instruction's statement. -/
theorem exec_branch {i : Instr} {cond : Byte → Bool} {off : Byte} {s : State} {taken : Bool}
    (hcycles : cyclesOf i = branchCycles cond off) (htaken : cond s.cpu.p = taken) :
    ∃ t, exec i s = .next t ∧
      CpuIs s t { s.cpu with pc := if taken then BitVec.ofInt 16 (s.cpu.pc.toNat + off.toInt) else s.cpu.pc } ∧
      JumpsOnly s t := by
  rw [← htaken, ← branchTarget_eq]
  exact exec_next (hcycles ▸ branch_result cond off s)

/-- Settles O35: the eight differ in the flag that they test and in the value that takes the branch. -/
theorem branchResults : Obligations.BranchResults := by
  intro off s
  refine ⟨?bcc, ?bcs, ?bne, ?beq, ?bpl, ?bmi, ?bvc, ?bvs⟩
  case bcc => exact exec_branch rfl (not_flag_eq_mask _ flagC (by decide))
  case bcs => exact exec_branch rfl (flag_eq_mask _ flagC (by decide))
  case bne => exact exec_branch rfl (not_flag_eq_mask _ flagZ (by decide))
  case beq => exact exec_branch rfl (flag_eq_mask _ flagZ (by decide))
  case bpl => exact exec_branch rfl (not_flag_eq_mask _ flagN (by decide))
  case bmi => exact exec_branch rfl (flag_eq_mask _ flagN (by decide))
  case bvc => exact exec_branch rfl (not_flag_eq_mask _ flagV (by decide))
  case bvs => exact exec_branch rfl (flag_eq_mask _ flagV (by decide))

end Sys2Proof.Machine
end

section
/-!
The stack and the flags (R260 to R271). The four stack instructions are one byte pushed or pulled (`push_result`,
`pull_result` of Laws/Stack); the flag instructions and NOP are of the internal category (`exec_internal`).
-/

namespace Sys2Proof.Machine

/-- Settles O36: both push one byte, A or the status with bits 5 and 4 set, into the cell of page 1 that SP names. -/
theorem pushResults : Obligations.PushResults := by
  intro s
  refine ⟨?slot, ?pha, ?php⟩
  case slot => rw [pushedAt, toNat_stackAddr, BitVec.sub_zero]
  case pha => exact exec_next (push_result Cpu.a Cpu.withCycleState_a s)
  case php => exact exec_next (push_result (fun c => phpStatus c.p) (fun _ _ => rfl) s)

/-- The byte pulled first is in RAM, in the cell of page 1 after the one that SP names. -/
theorem pulledByte_one (s : State) :
    pulledByte 1 s = Store.read unlisted s.ram (256 + (s.cpu.sp.toNat + 1) % 256) := by
  rw [pulledByte_eq, BitVec.toNat_add]
  rfl

/-- Settles O37: both pull one byte, which PLA loads into A and PLP makes the status, with B and U forced. -/
theorem pullResults : Obligations.PullResults := by
  intro s
  refine ⟨pulledByte_one s, ?pla, ?plp⟩
  case pla =>
    have hresult := pull_result registerOp_loadA (fun _ _ => rfl) s
    rw [loadA_eq] at hresult
    exact exec_next hresult
  case plp =>
    exact exec_next (pull_result (op := fun v c => { c with p := pulledStatus v }) (fun _ _ _ => rfl) (fun _ _ => rfl) s)

/-! One flag written, as a mask. -/

theorem setFlag_true (p : Byte) (i : Nat) : setFlag p i true = p ||| BitVec.twoPow 8 i := by
  refine byte_ext fun j hj => ?_
  rw [setFlag, getLsbD_setBitTo _ _ _ hj, BitVec.getLsbD_or, BitVec.getLsbD_twoPow]
  by_cases h : j = i
  · subst h; simp [hj]
  · simp [h, Ne.symm h]

theorem setFlag_false (p : Byte) (i : Nat) : setFlag p i false = p &&& ~~~BitVec.twoPow 8 i := by
  refine byte_ext fun j hj => ?_
  rw [setFlag, getLsbD_setBitTo _ _ _ hj, BitVec.getLsbD_and, BitVec.getLsbD_not, BitVec.getLsbD_twoPow]
  by_cases h : j = i
  · subst h; simp [hj]
  · simp [h, Ne.symm h, hj]

/-- `q` is the status with the flag written, in the words of the instruction's statement. -/
theorem exec_flag {i : Instr} {n : Nat} {b : Bool} {s : State} {q : Byte}
    (hcycles : cyclesOf i = internalCycles fun c => { c with p := setFlag c.p n b }) (hq : setFlag s.cpu.p n b = q) :
    ∃ t, exec i s = .next t ∧ CpuIs s t { s.cpu with p := q } ∧ RegisterOnly s t :=
  exec_internal hcycles (fun _ _ => rfl) (by rw [hq])

/-- Settles O38: the seven differ in the flag that they write and in the bit that they write there. -/
theorem flagResults : Obligations.FlagResults := by
  refine ⟨rfl, rfl, rfl, rfl, rfl, rfl, rfl, fun s => ⟨?clc, ?sec, ?cli, ?sei, ?clv, ?cld, ?sed⟩⟩
  case clc => exact exec_flag rfl (setFlag_false _ flagC)
  case sec => exact exec_flag rfl (setFlag_true _ flagC)
  case cli => exact exec_flag rfl (setFlag_false _ flagI)
  case sei => exact exec_flag rfl (setFlag_true _ flagI)
  case clv => exact exec_flag rfl (setFlag_false _ flagV)
  case cld => exact exec_flag rfl (setFlag_false _ flagD)
  case sed => exact exec_flag rfl (setFlag_true _ flagD)

/-- Settles O39: NOP is the internal instruction whose operation is the identity. -/
theorem nopResult : Obligations.NopResult := fun _ => exec_internal rfl (fun _ _ => rfl) rfl

end Sys2Proof.Machine
end

section
/-!
The registers behind the window that have effects of their own: PPUSTATUS (R283), PPUSCROLL and PPUADDR with the toggle
they share (R286 to R288), and PPUDATA (R289, R290); and the range beside the controllers that does nothing (R55).
-/

namespace Sys2Proof.Machine

/-! PPUSTATUS (R283). -/

theorem setBitTo_seven_false (v : Byte) : setBitTo v 7 false = v &&& 0x7F := setFlag_false v 7

/-- What reading PPUSTATUS leaves of the PPU, in the words of the statement. -/
theorem afterStatusRead_eq (p : Ppu) :
    p.afterStatusRead = { p with
      status := p.status &&& 0x7F
      w := false
      vblSuppress := decide (p.scanline = 241 ∧ p.cycle = 1) || p.vblSuppress } := by
  have hlatch : (if p.scanline = 241 ∧ p.cycle = 1 then true else p.vblSuppress) =
      (decide (p.scanline = 241 ∧ p.cycle = 1) || p.vblSuppress) := by split <;> simp [*]
  rw [Ppu.afterStatusRead, setBitTo_seven_false, hlatch]

/-- Settles O51: register 2 of the window, on a read. -/
theorem statusRead : Obligations.StatusRead := by
  intro s
  rw [← afterStatusRead_eq]
  exact ⟨cpuPeek_ppuReg (region_ppuRegister (n := 2) (by decide)) s,
    readEffect_ppuReg (region_ppuRegister (n := 2) (by decide)) s⟩

/-! PPUSCROLL and PPUADDR (R286 to R288). -/

section
variable {p : Ppu} (v : Byte)

theorem writeScroll_first (h : p.w = false) :
    p.writeScroll v = { p with t := setField p.t 0 5 (v.extractLsb' 3 5), fineX := v.extractLsb' 0 3, w := true } := by
  simp [Ppu.writeScroll, h]

theorem writeScroll_second (h : p.w = true) :
    p.writeScroll v =
      { p with t := setField (setField p.t 12 3 (v.extractLsb' 0 3)) 5 5 (v.extractLsb' 3 5), w := false } := by
  simp [Ppu.writeScroll, h]

theorem writeAddr_first (h : p.w = false) :
    p.writeAddr v = { p with t := setField (setField p.t 8 6 (v.extractLsb' 0 6)) 14 1 0, w := true } := by
  simp [Ppu.writeAddr, h]

theorem writeAddr_second (h : p.w = true) :
    p.writeAddr v = { p with t := setField p.t 0 8 v, v := setField p.t 0 8 v, w := false } := by
  simp [Ppu.writeAddr, h]

end

theorem cpuWrite_scroll (s : State) (x : Byte) : cpuWrite 0x2005 x s = { s with ppu := s.ppu.writeScroll x } :=
  cpuWrite_ppuReg (region_ppuRegister (n := 5) (by decide)) s x

theorem cpuWrite_addr (s : State) (x : Byte) : cpuWrite 0x2006 x s = { s with ppu := s.ppu.writeAddr x } :=
  cpuWrite_ppuReg (region_ppuRegister (n := 6) (by decide)) s x

/-- Settles O52: the toggle says which of a register's two writes is made, and each is one or two fields of `t`. -/
theorem scrollWrites : Obligations.ScrollWrites := by
  intro s x
  rw [cpuWrite_scroll, cpuWrite_addr]
  refine ⟨fun hw => ?first, fun hw => ?second⟩
  case first =>
    rw [writeScroll_first x hw, writeAddr_first x hw]
    refine ⟨rfl, extractLsb'_setField_same (by decide) _ _, extractLsb'_setField_disjoint (by decide) (by decide) _ _,
      rfl, ?_, ?_, ?_⟩
    · exact (extractLsb'_setField_disjoint (by decide) (by decide) _ _).trans
        (extractLsb'_setField_same (by decide) _ _)
    · exact getLsbD_setField _ 14 _ (by decide)
    · exact (extractLsb'_setField_disjoint (by decide) (by decide) _ _).trans
        (extractLsb'_setField_disjoint (by decide) (by decide) _ _)
  case second =>
    rw [writeScroll_second x hw, writeAddr_second x hw]
    refine ⟨rfl, ?_, extractLsb'_setField_same (by decide) _ _, ?_, ?_, rfl,
      extractLsb'_setField_same (by decide) _ _, extractLsb'_setField_disjoint (by decide) (by decide) _ _⟩
    · exact (extractLsb'_setField_disjoint (by decide) (by decide) _ _).trans
        (extractLsb'_setField_same (by decide) _ _)
    · exact (extractLsb'_setField_disjoint (by decide) (by decide) _ _).trans
        (extractLsb'_setField_disjoint (by decide) (by decide) _ _)
    · exact (extractLsb'_setField_disjoint (by decide) (by decide) _ _).trans
        (extractLsb'_setField_disjoint (by decide) (by decide) _ _)

/-! PPUDATA (R289, R290). -/

theorem toNat_vAddr (p : Ppu) : p.vAddr.toNat = p.v.toNat % 0x4000 := by
  have hv := p.v.isLt
  have hmask : p.vAddr.toNat = (p.v.setWidth 16).toNat % 0x4000 := ppuAddr_eq _
  rw [hmask, BitVec.toNat_setWidth]
  omega

theorem vAddr_eq (p : Ppu) : p.vAddr = BitVec.ofNat 16 (p.v.toNat % 0x4000) := by
  rw [← toNat_vAddr, BitVec.ofNat_toNat, BitVec.setWidth_eq]

/-- `v` moves by 1, or by 32 where bit 2 of PPUCTRL says so (R289). -/
theorem advanceV_v (p : Ppu) :
    p.advanceV.v = BitVec.ofNat 15 (p.v.toNat + (if p.ctrl &&& 0x04 = 0 then 1 else 32)) := by
  have hbit : p.ctrl &&& 0x04 = 0 ↔ bitAt p.ctrl 2 = false := and_bit p.ctrl 0x04 (by decide) (by decide)
  have hadd : p.advanceV.v = p.v + if bitAt p.ctrl 2 then 32 else 1 := rfl
  rw [hadd, if_congr hbit rfl rfl]
  cases bitAt p.ctrl 2 with
  | false => exact BitVec.eq_of_toNat_eq (by simp)
  | true => exact BitVec.eq_of_toNat_eq (by simp)

/-- A write to the PPU's bus leaves PPUCTRL and `v`. -/
theorem ppuWritePpu_ctrl_v (c : Cartridge) (p : Ppu) (a : Word) (x : Byte) :
    (ppuWritePpu c p a x).ctrl = p.ctrl ∧ (ppuWritePpu c p a x).v = p.v := by
  unfold ppuWritePpu
  dsimp only
  split_ifs
  · exact ⟨rfl, rfl⟩
  · split <;> exact ⟨rfl, rfl⟩
  · exact ⟨rfl, rfl⟩

/-- Settles O53: register 7 of the window; what it reads is chosen by the address that `v` presents. -/
theorem ppuData : Obligations.PpuData := by
  intro s x a next
  have hreg : region 0x2007 = .ppuReg 7 := region_ppuRegister (n := 7) (by decide)
  have ha : s.ppu.vAddr = a := vAddr_eq s.ppu
  have hbelow : a < 0x3F00 ↔ s.ppu.v.toNat % 0x4000 < 0x3F00 := by rw [← ha, BitVec.lt_def, toNat_vAddr]; rfl
  refine ⟨?value, ?effect, ?write⟩
  case value =>
    rw [cpuPeek_ppuReg hreg, ← if_congr hbelow rfl rfl, ← ha]
    rfl
  case effect =>
    have hnext : s.ppu.advanceV.v = next := advanceV_v s.ppu
    rw [readEffect_ppuReg hreg, ← hnext, ← ha]
    rfl
  case write =>
    dsimp only
    obtain ⟨hctrl, hv⟩ := ppuWritePpu_ctrl_v s.cart s.ppu a x
    have hnext : (ppuWritePpu s.cart s.ppu a x).advanceV.v = next := by rw [advanceV_v, hctrl, hv]
    rw [cpuWrite_ppuReg hreg, ← hnext, ← ha]
    rfl

/-! The range beside the DMA trigger and the controllers (R55). -/

theorem region_stub {a : Word} (hlow : 0x4000 ≤ a) (hhigh : a < 0x4020) (hdma : a ≠ 0x4014) (hstrobe : a ≠ 0x4016)
    (hport : a ≠ 0x4017) : region a = .stub := by
  have hram : ¬ a < 0x2000 := by bv_omega
  have hppu : ¬ a < 0x4000 := by bv_omega
  unfold region
  rw [if_neg hram, if_neg hppu, if_pos hhigh, if_neg hdma, if_neg hstrobe, if_neg hport]

/-- Settles O46: of the three addresses that are no stub, reading `$4014` and writing `$4017` do nothing either. -/
theorem stubRange : Obligations.StubRange := by
  intro a s v hlow hhigh
  refine ⟨fun hstrobe hport => ?read, fun hdma hstrobe => ?write⟩
  case read =>
    by_cases hdma : a = 0x4014
    · subst hdma
      exact ⟨rfl, rfl⟩
    · have hstub := region_stub hlow hhigh hdma hstrobe hport
      simp only [cpuPeek, readEffect, hstub, and_self]
  case write =>
    by_cases hport : a = 0x4017
    · subst hport
      rfl
    · simp only [cpuWrite, region_stub hlow hhigh hdma hstrobe hport]

end Sys2Proof.Machine
end

section
/-!
The cartridge's variants (R344 to R358), the MMC1-style serial port (R349), and the device reset (R400 to R402, R360).
-/

namespace Sys2Proof.Machine

/-! The serial port (R349). -/

theorem Cartridge.cpuWrite_port {a : Word} (h : 0x8000 ≤ a) (c : Cartridge) (v : Byte) :
    c.cpuWrite a v = { c with mapper := c.mapper.write a v } := by
  have hlow : ¬ a < 0x6000 := by bv_omega
  have hram : ¬ a < 0x8000 := by bv_omega
  rw [Cartridge.cpuWrite, if_neg hlow, if_neg hram]

theorem Cartridge.cpuWrite_mmc1 {a : Word} (h : 0x8000 ≤ a) {c : Cartridge} {r : Mmc1} (hc : c.mapper = .mmc1 r)
    (v : Byte) : c.cpuWrite a v = { c with mapper := .mmc1 (mmc1Write r a v) } := by
  rw [Cartridge.cpuWrite_port h, hc]
  rfl

/-- The byte that carries one bit of a command. -/
def serialByte (b : Bool) : Byte := if b then 1 else 0

theorem serialByte_bits (b : Bool) : bitAt (serialByte b) 7 = false ∧ bitAt (serialByte b) 0 = b := by
  cases b <;> decide

/-- One of the first four writes puts its bit into the shift register, at the place that the count gives. -/
theorem mmc1Write_shift {pos : Nat} (h : pos < 4) (r : Mmc1) (shift : BitVec 5) (a : Word) (b : Bool) :
    mmc1Write { r with shift := shift, shiftPos := pos } a (serialByte b) =
      { r with shift := shift ||| (ofBit b 5 <<< pos), shiftPos := pos + 1 } := by
  obtain ⟨hreset, hbit⟩ := serialByte_bits b
  have hpos : pos ≠ 4 := by omega
  simp [mmc1Write, hreset, hbit, hpos]

/-- The register that a port address selects takes the command (R349). -/
def mmc1Select (r : Mmc1) (a : Word) (cmd : BitVec 5) : Mmc1 :=
  if a < 0xA000 then { r with control := cmd }
  else if a < 0xC000 then { r with chr0 := cmd }
  else if a < 0xE000 then { r with chr1 := cmd }
  else { r with prgBank := cmd }

/-- The fifth write puts the shifted bits, its own above them, into the register its address selects, and empties the
shift register. -/
theorem mmc1Write_fifth {a : Word} (ha : 0x8000 ≤ a) (r : Mmc1) (shift : BitVec 5) (b : Bool) :
    mmc1Write { r with shift := shift, shiftPos := 4 } a (serialByte b) =
      mmc1Select { r with shift := 0, shiftPos := 0 } a (shift ||| (ofBit b 5 <<< 4)) := by
  obtain ⟨hreset, hbit⟩ := serialByte_bits b
  have hquarter : (a.extractLsb' 13 2).toNat = a.toNat / 0x2000 % 4 := by
    rw [BitVec.extractLsb'_toNat, Nat.shiftRight_eq_div_pow]
  unfold mmc1Write mmc1Select
  rw [if_neg (Bool.eq_false_iff.mp hreset)]
  dsimp only
  rw [hbit, if_pos rfl, hquarter]
  obtain h | h | h | h : a.toNat / 0x2000 % 4 = 0 ∨ a.toNat / 0x2000 % 4 = 1 ∨ a.toNat / 0x2000 % 4 = 2 ∨
    a.toNat / 0x2000 % 4 = 3 := by omega
  · rw [h, if_pos (by bv_omega)]
    rfl
  · rw [h, if_neg (by bv_omega), if_pos (by bv_omega)]
    rfl
  · rw [h, if_neg (by bv_omega), if_neg (by bv_omega), if_pos (by bv_omega)]
    rfl
  · rw [h, if_neg (by bv_omega), if_neg (by bv_omega), if_neg (by bv_omega)]
    rfl

/-- The cartridge with so many writes accumulated in its serial port. -/
def Cartridge.shifting (c : Cartridge) (r : Mmc1) (shift : BitVec 5) (pos : Nat) : Cartridge :=
  { c with mapper := .mmc1 { r with shift := shift, shiftPos := pos } }

theorem Cartridge.shifting_cpuWrite {a : Word} (ha : 0x8000 ≤ a) {pos : Nat} (h : pos < 4) (c : Cartridge) (r : Mmc1)
    (shift : BitVec 5) (b : Bool) :
    (c.shifting r shift pos).cpuWrite a (serialByte b) = c.shifting r (shift ||| (ofBit b 5 <<< pos)) (pos + 1) := by
  rw [Cartridge.cpuWrite_mmc1 ha rfl, mmc1Write_shift h]
  rfl

/-- The five bits, lowest first, are the command. -/
theorem serial_command (cmd : BitVec 5) :
    (0 : BitVec 5) ||| (ofBit (cmd.getLsbD 0) 5 <<< 0) ||| (ofBit (cmd.getLsbD 1) 5 <<< 1) |||
      (ofBit (cmd.getLsbD 2) 5 <<< 2) ||| (ofBit (cmd.getLsbD 3) 5 <<< 3) ||| (ofBit (cmd.getLsbD 4) 5 <<< 4) = cmd := by
  revert cmd
  decide

/-- Settles O58: a write with bit 7 set resets the port, and of five others each adds its bit. -/
theorem mmc1Serial : Obligations.Mmc1Serial := by
  intro c r hc
  refine ⟨fun a v ha hv => ?reset, fun a0 a1 a2 a3 a4 cmd hshift hpos h0 h1 h2 h3 h4 => ?command⟩
  case reset => rw [Cartridge.cpuWrite_mmc1 ha hc, mmc1Write, if_pos hv]
  case command =>
    have hempty : { r with shift := 0, shiftPos := 0 } = r := by rw [← hshift, ← hpos]
    have hc0 : c = c.shifting r 0 0 := by rw [Cartridge.shifting, hempty, ← hc]
    show ((((c.cpuWrite a0 (serialByte _)).cpuWrite a1 (serialByte _)).cpuWrite a2 (serialByte _)).cpuWrite a3
      (serialByte _)).cpuWrite a4 (serialByte _) = { c with mapper := .mmc1 (mmc1Select r a4 cmd) }
    conv => lhs; rw [hc0]
    rw [Cartridge.shifting_cpuWrite h0 (pos := 0) (by decide), Cartridge.shifting_cpuWrite h1 (pos := 1) (by decide),
      Cartridge.shifting_cpuWrite h2 (pos := 2) (by decide), Cartridge.shifting_cpuWrite h3 (pos := 3) (by decide),
      Cartridge.cpuWrite_mmc1 h4 rfl, mmc1Write_fifth h4, hempty, serial_command]
    rfl

/-! What the CPU reads and writes of a cartridge (R344, R346, R350, R354, R356, R358). -/

theorem and_7FFF (a : Word) : (a &&& 0x7FFF).toNat = a.toNat % 0x8000 := by
  rw [BitVec.toNat_and]
  exact Nat.and_two_pow_sub_one_eq_mod a.toNat 15

theorem and_3FFF (a : Word) : (a &&& 0x3FFF).toNat = a.toNat % 0x4000 := ppuAddr_eq a

section
variable {a : Word} (c : Cartridge)

theorem Cartridge.cpuRead_below (h : a < 0x6000) : c.cpuRead a = 0 := by
  rw [Cartridge.cpuRead, Cartridge.mapCpuRead, if_pos h]

theorem Cartridge.cpuWrite_below (h : a < 0x6000) (v : Byte) : c.cpuWrite a v = c := if_pos h

theorem Cartridge.cpuRead_port (h : 0x8000 ≤ a) : c.cpuRead a = Store.read unlisted c.rom.prg (c.prgOffset a) := by
  have hlow : ¬ a < 0x6000 := by bv_omega
  have hram : ¬ a < 0x8000 := by bv_omega
  rw [Cartridge.cpuRead, Cartridge.mapCpuRead, if_neg hlow, if_neg hram]

end

section
variable {a : Word} (hlow : 0x6000 ≤ a) (hhigh : a < 0x8000) {c : Cartridge}
include hlow hhigh

theorem Cartridge.cpuRead_prgRam (h : c.hasPrgRam = true) :
    c.cpuRead a = Store.read unlisted c.prgRam (a.toNat - 0x6000) := by
  have hlow' : ¬ a < 0x6000 := by bv_omega
  rw [Cartridge.cpuRead, Cartridge.mapCpuRead, if_neg hlow', if_pos hhigh, if_pos h]

theorem Cartridge.cpuWrite_prgRam (h : c.hasPrgRam = true) (v : Byte) :
    c.cpuWrite a v = { c with prgRam := Store.write unlisted c.prgRam (a.toNat - 0x6000) v } := by
  have hlow' : ¬ a < 0x6000 := by bv_omega
  rw [Cartridge.cpuWrite, if_neg hlow', if_pos hhigh, if_pos h]

theorem Cartridge.cpuRead_cpuWrite_prgRam (h : c.hasPrgRam = true) (v : Byte) : (c.cpuWrite a v).cpuRead a = v := by
  have hram : ({ c with prgRam := Store.write unlisted c.prgRam (a.toNat - 0x6000) v } : Cartridge).hasPrgRam = true := h
  rw [Cartridge.cpuWrite_prgRam hlow hhigh h, Cartridge.cpuRead_prgRam hlow hhigh hram, Store.read_write_same]

theorem Cartridge.cpuRead_noRam (h : c.hasPrgRam = false) : c.cpuRead a = 0 := by
  have hlow' : ¬ a < 0x6000 := by bv_omega
  rw [Cartridge.cpuRead, Cartridge.mapCpuRead, if_neg hlow', if_pos hhigh, h]
  rfl

theorem Cartridge.cpuWrite_noRam (h : c.hasPrgRam = false) (v : Byte) : c.cpuWrite a v = c := by
  have hlow' : ¬ a < 0x6000 := by bv_omega
  rw [Cartridge.cpuWrite, if_neg hlow', if_pos hhigh, h]
  rfl

end

/-- PRG-RAM exists by the header's bit, for NROM and MMC1-style alone (R358, D37). -/
theorem Cartridge.hasPrgRam_iff (c : Cartridge) :
    c.hasPrgRam = true ↔ c.rom.ramPresent = true ∧ (c.mapper.id = 0 ∨ c.mapper.id = 1) := by
  unfold Cartridge.hasPrgRam
  cases c.mapper <;> simp [Mapper.id]

section
variable {c : Cartridge} (a : Word)

theorem prgOffset_nrom (h : c.mapper = .nrom) :
    c.prgOffset a = a.toNat % (if 1 < c.rom.prgChunks then 0x8000 else 0x4000) := by
  simp only [Cartridge.prgOffset, h, and_7FFF, and_3FFF]
  split <;> rfl

theorem prgOffset_unrom {b : BitVec 4} (h : c.mapper = .unrom b) :
    c.prgOffset a =
      (if a < 0xC000 then b.toNat % c.rom.prgChunks else c.rom.prgChunks - 1) * 0x4000 + a.toNat % 0x4000 := by
  simp only [Cartridge.prgOffset, h, and_3FFF]
  split <;> rfl

theorem prgOffset_axrom {b : BitVec 3} {q : Bool} (h : c.mapper = .axrom b q) :
    c.prgOffset a = (b.toNat * 0x8000 + a.toNat % 0x8000) % (c.rom.prgChunks * 0x4000) := by
  simp only [Cartridge.prgOffset, h, and_7FFF]

theorem prgOffset_mmc1 {r : Mmc1} (h : c.mapper = .mmc1 r) :
    c.prgOffset a = mmc1Bank r c.rom.prgChunks a % c.rom.prgChunks * 0x4000 + a.toNat % 0x4000 := by
  simp only [Cartridge.prgOffset, h, and_3FFF]

end

/-- The bank of an MMC1-style PRG address, by bits 3..2 of the control register (R350). -/
theorem mmc1Bank_eq (r : Mmc1) (n : Nat) {a : Word} (h : 0x8000 ≤ a) :
    mmc1Bank r n a =
      match r.control.toNat / 4 % 4 with
      | 2 => if a < 0xC000 then 0 else r.prgBank.toNat % 16
      | 3 => if a < 0xC000 then r.prgBank.toNat % 16 else n - 1
      | _ => r.prgBank.toNat % 16 / 2 * 2 + (if a < 0xC000 then 0 else 1) := by
  have hmode : (r.control.extractLsb' 2 2).toNat = r.control.toNat / 4 % 4 := by
    rw [BitVec.extractLsb'_toNat, Nat.shiftRight_eq_div_pow]
  have hbank : (r.prgBank &&& 0x0F).toNat = r.prgBank.toNat % 16 := by
    rw [BitVec.toNat_and]
    exact Nat.and_two_pow_sub_one_eq_mod _ 4
  have heven : r.prgBank.toNat % 16 &&& 0x0E = r.prgBank.toNat % 16 / 2 * 2 := by
    have hlt : r.prgBank.toNat % 16 < 16 := Nat.mod_lt _ (by decide)
    generalize r.prgBank.toNat % 16 = b at hlt ⊢
    revert b
    decide
  have hhalf : (if bitAt a 14 then 1 else 0) = if a < 0xC000 then 0 else 1 := by
    have hbit : bitAt a 14 = decide (a.toNat / 0x4000 % 2 = 1) := by
      rw [bitAt, BitVec.getLsbD, Nat.testBit_eq_decide_div_mod_eq]
    have hlow : a < 0xC000 ↔ ¬ a.toNat / 0x4000 % 2 = 1 := by bv_omega
    rw [hbit, if_congr decide_eq_true_iff rfl rfl, if_congr hlow rfl rfl, ite_not]
  obtain h | h | h | h : r.control.toNat / 4 % 4 = 0 ∨ r.control.toNat / 4 % 4 = 1 ∨ r.control.toNat / 4 % 4 = 2 ∨
    r.control.toNat / 4 % 4 = 3 := by omega
  all_goals simp only [mmc1Bank, hmode, h, hbank, heven, hhalf, decide_eq_true_eq]

/-! What the PPU reads and writes of a cartridge's CHR memory (R345, R347, R351, R355, R357). -/

/-- The byte of PPU address `x` is byte `off` of the cartridge's CHR memory, modulo its size, on a read and on a
write, which changes it exactly if it is RAM. -/
def ChrAt (c : Cartridge) (p : Ppu) (x : Word) (off : Nat) : Prop :=
  (∀ v, ppuWritePpu c p x v = p) ∧
  (c.rom.chrChunks = 0 → ppuRead c p x = Store.read unlisted c.chrRam (off % 8192) ∧
    ∀ v, ppuWriteCart c x v = { c with chrRam := Store.write unlisted c.chrRam (off % 8192) v }) ∧
  (0 < c.rom.chrChunks → ppuRead c p x = Store.read unlisted c.rom.chr (off % (8192 * c.rom.chrChunks)) ∧
    ∀ v, ppuWriteCart c x v = c)

theorem chrAt_mapChr (c : Cartridge) (p : Ppu) {x : Word} (h : x.toNat % 0x4000 < 0x2000) :
    ChrAt c p x (c.mapChr (x.toNat % 0x4000)) := by
  have hread : ppuRead c p x = c.chrRead (x.toNat % 0x4000) := by rw [ppuRead, ppuAddr_eq, if_pos h]
  have hwrite (v : Byte) : ppuWriteCart c x v = c.chrWrite (x.toNat % 0x4000) v := by
    rw [ppuWriteCart, ppuAddr_eq, if_pos h]
  refine ⟨fun v => by rw [ppuWritePpu, ppuAddr_eq, if_pos h], fun hram => ?ram, fun hrom => ?rom⟩
  case ram => exact ⟨hread.trans (if_pos hram), fun v => (hwrite v).trans (if_pos hram)⟩
  case rom =>
    have hne : c.rom.chrChunks ≠ 0 := by omega
    exact ⟨hread.trans (if_neg hne), fun v => (hwrite v).trans (if_neg hne)⟩

theorem mapChr_plain {c : Cartridge} (h : c.mapper.id ≠ 1) (i : Nat) : c.mapChr i = i := by
  unfold Cartridge.mapChr
  cases hc : c.mapper with
  | mmc1 r => rw [hc] at h; exact absurd rfl h
  | nrom | unrom _ | axrom _ _ => rfl

/-- The MMC1-style variant maps one bank of 8 KB or two of 4 KB, by bit 4 of its control register (R351). -/
theorem mapChr_mmc1 {c : Cartridge} {r : Mmc1} (h : c.mapper = .mmc1 r) {i : Nat} (hi : i < 0x2000) :
    (r.control.toNat < 16 → c.mapChr i = r.chr0.toNat / 2 * 0x2000 + i) ∧
    (16 ≤ r.control.toNat →
      c.mapChr i = if i < 0x1000 then r.chr0.toNat * 0x1000 + i else r.chr1.toNat * 0x1000 + (i - 0x1000)) := by
  have hmode : bitAt r.control 4 = decide (16 ≤ r.control.toNat) := BitVec.msb_eq_decide r.control
  have heven : (r.chr0 &&& 0x1E).toNat = r.chr0.toNat / 2 * 2 := by
    generalize r.chr0 = b
    revert b
    decide
  unfold Cartridge.mapChr
  simp only [h, hmode, decide_eq_true_eq, heven]
  refine ⟨fun hone => ?one, fun htwo => ?two⟩
  case one => rw [if_neg (by omega)]; omega
  case two =>
    rw [if_pos htwo]
    split <;> omega

/-- Settles O59: the CPU's three ranges, the port's four variants, and the PPU's CHR memory through its map. -/
theorem cartridgeReads : Obligations.CartridgeReads := by
  intro c
  refine ⟨fun a => ⟨fun h => ⟨c.cpuRead_below h, c.cpuWrite_below h⟩, fun hlow hhigh => ?ram, fun hport => ?port⟩,
    fun p x => ?chr⟩
  case ram =>
    exact ⟨c.hasPrgRam_iff, Cartridge.cpuRead_cpuWrite_prgRam hlow hhigh,
      fun h => ⟨Cartridge.cpuRead_noRam hlow hhigh h, Cartridge.cpuWrite_noRam hlow hhigh h⟩⟩
  case port =>
    have hread {off : Nat} (h : c.prgOffset a = off) : c.cpuRead a = Store.read unlisted c.rom.prg off :=
      h ▸ c.cpuRead_port hport
    have hwrite := c.cpuWrite_port hport
    refine ⟨fun h => ⟨hread (prgOffset_nrom a h), fun v => ?_⟩, fun b h => ⟨hread (prgOffset_unrom a h), fun v => ?_⟩,
      fun b q h => ⟨hread (prgOffset_axrom a h), fun v => ?_⟩, fun r h => hread ?_⟩
    · rw [hwrite, h, Mapper.write, ← h]
    · rw [hwrite, h, Mapper.write]
      rfl
    · have hbit : bitAt v 4 = decide (v.toNat / 16 % 2 = 1) := by
        rw [bitAt, BitVec.getLsbD, Nat.testBit_eq_decide_div_mod_eq]
      rw [hwrite, h, Mapper.write, hbit]
      rfl
    · exact (prgOffset_mmc1 a h).trans
        (congrArg (fun bank => bank % c.rom.prgChunks * 0x4000 + a.toNat % 0x4000) (mmc1Bank_eq r _ hport))
  case chr =>
    intro i chr hi
    have hat {off : Nat} (h : c.mapChr i = off) : chr off := h ▸ chrAt_mapChr c p hi
    refine ⟨fun h => hat (mapChr_plain h i), fun r h => ?_⟩
    obtain ⟨hone, htwo⟩ := mapChr_mmc1 h hi
    exact ⟨fun hc => hat (hone hc), fun hc => hat (htwo hc)⟩

/-! The device reset (R400 to R402, R360). -/

/-- The reset vector is read through the mapper's reset state, where the reset leaves the machine (R401). -/
theorem deviceReset_pc (s : State) :
    (deviceReset s).cpu.pc = mkWord (cpuPeek 0xFFFD (deviceReset s)) (cpuPeek 0xFFFC (deviceReset s)) := by
  have hvector {a : Word} (h : 0x8000 ≤ a) (u : State) : cpuPeek a (cpuReset u) = cpuPeek a u :=
    cpuPeek_memory (isMemory_of_high h) rfl rfl
  unfold deviceReset
  dsimp only
  rw [hvector (by decide), hvector (by decide)]
  rfl

/-- The MMC1-style control register after reset: PRG mode 3 above the header's mirroring (R36). -/
theorem mmc1ResetControl_eq (m : Mirroring) : mmc1ResetControl m = if m = .vertical then 0x0E else 0x0F := by
  cases m <;> rfl

theorem Mapper.reset_mmc1 (r : Mmc1) (m : Mirroring) :
    (Mapper.mmc1 r).reset m = .mmc1 ⟨0, 0, if m = .vertical then 0x0E else 0x0F, 0, 0, 0⟩ := by
  rw [← mmc1ResetControl_eq]
  rfl

/-- Settles O60: but for the vector and the mapper, each is a field of the reset state. -/
theorem resetValues : Obligations.ResetValues := by
  intro s t
  have hmapper {m : Mapper} (h : s.cart.mapper = m) : t.cart.mapper = m.reset s.cart.rom.mirroring := by rw [← h]; rfl
  refine ⟨rfl, rfl, deviceReset_pc s, rfl, rfl, rfl, rfl, rfl, rfl, rfl, rfl, rfl, rfl, rfl, rfl, rfl, rfl, rfl, rfl,
    rfl, rfl, rfl, rfl, rfl, rfl, rfl, rfl, rfl, rfl, rfl, rfl, rfl, rfl, rfl, rfl, rfl, rfl, rfl, rfl, rfl, rfl, rfl,
    rfl, rfl, rfl, rfl, rfl, rfl, fun _ _ => rfl, rfl, rfl, rfl, rfl, rfl, rfl, rfl, rfl, rfl, rfl, rfl, rfl, rfl, rfl,
    rfl, rfl, rfl, rfl, rfl, rfl, rfl, hmapper, fun _ => hmapper, fun _ _ => hmapper,
    fun r h => (hmapper h).trans (Mapper.reset_mmc1 r _), rfl, rfl⟩

end Sys2Proof.Machine
end

section
/-!
Halting (R371, R372), the service of an IRQ (R376, R377, R379), and that whatever the CPU is doing ends (R161, R165).
-/

namespace Sys2Proof.Machine

/-! The end of a master cycle of a halted machine (R124). -/

theorem afterCpu_runMode_halted {s : State} (h : s.cpu.halted = true) : (afterCpu s).bus.runMode = .pause := by
  have hhalt : (routeNmi (mapperTick (ppuTick s))).cpu.halted = true := by
    rw [routeNmi_cpu, mapperTick, ppuTick_cpu]
    exact h
  rw [afterCpu, observeHalt, if_pos hhalt]

/-- A master cycle of a halted machine is its end alone, the CPU's divider apart (R140, R372). -/
theorem masterCycle_halted {s : State} (h : s.cpu.halted = true) :
    ∃ n, masterCycle s = afterCpu { s with bus := { s.bus with cpuDivCnt := n } } := by
  unfold masterCycle
  rw [if_pos h]
  split <;> exact ⟨_, rfl⟩

/-- Settles O41: the end of a master cycle steps the PPU, routes its signal and forces Pause. -/
theorem haltedStays : Obligations.HaltedStays := by
  intro s h q
  have hstep : step s = .next (masterCycle s) := if_pos h
  have hlater := later_masterCycle_halted h
  obtain ⟨n, hn⟩ := masterCycle_halted h
  have htick : (ppuTick { s with bus := { s.bus with cpuDivCnt := n } }).ppu = q := ppuTick_ppu _
  refine ⟨masterCycle s, hstep, ?cpu, ?ppu, ?mode, SameMemory.of hlater.ram hlater.cart,
    ⟨hlater.cfg, hlater.ram, hlater.cart⟩, hlater.port0, hlater.port1, rfl⟩
  case cpu => rw [hn, afterCpu_cpu, htick]
  case ppu => rw [hn, afterCpu_ppu, htick]
  case mode =>
    rw [hn]
    exact afterCpu_runMode_halted h

/-! Fetching an illegal opcode (R371). -/

/-- What an illegal byte's one cycle does: `halted`, and `ready` keeps the value true. -/
theorem runCycles_illegal (op : Byte) (s : State) :
    runCycles (cyclesOf (.illegal op)) s = s.onCpu fun c => { c with halted := true, ready := true } := rfl

theorem fetchOpcode_cpu (s : State) : (fetchOpcode s).cpu = s.cpu.fetched (cpuPeek s.cpu.pc s) := by
  rw [fetchOpcode, State.onCpu_cpu, readEffect_cpu]
  rfl

theorem fetchOpcode_stores (s : State) : SameStores s (fetchOpcode s) :=
  ⟨readEffect_cfg _ s, readEffect_ram _ s, readEffect_cart _ s⟩

/-- A step that fetches an illegal byte is the one fetch cycle, in which the CPU halts. -/
theorem step_illegal {s : State} (hw : WillFetch (waitCpu s).cpu)
    (hop : cpuPeek (waitCpu s).cpu.pc (waitCpu s) ∈ illegalOpcodes) :
    step s = .next (finishCycle ((fetchOpcode (waitCpu s)).onCpu fun c => { c with halted := true, ready := true })) := by
  rw [step_fetch hw, fetchInstr_illegal ((isIllegal_iff _).mpr hop), exec_eq, runCycles_illegal]
  rfl

theorem finishCycle_cpu (s : State) :
    (finishCycle s).cpu = { s.cpu with cyc := s.cpu.cyc + 1, nmiPending := (finishCycle s).cpu.nmiPending } := by
  have h := (later_finishCycle s).cpu
  rwa [finishCycle_cyc] at h

/-- Settles O40: the halt routine in `exec`, and after the fetch in a step. -/
theorem illegalHalts : Obligations.IllegalHalts := by
  refine ⟨fun op s => exec_next ?exec, fun s => ?step⟩
  case exec =>
    rw [runCycles_illegal]
    exact ⟨⟨rfl, id⟩, SameMemory.of rfl rfl, ⟨rfl, rfl, rfl⟩, rfl, rfl, rfl, rfl⟩
  case step =>
    intro w hw hop
    have hready : w.cpu.ready = true := hw.1.1
    obtain ⟨hcfg, hram, hcart⟩ := fetchOpcode_stores w
    refine ⟨_, step_illegal hw hop, ?cpu, SameMemory.of ?_ ?_, ⟨?_, ?_, ?_⟩, afterCpu_runMode_halted rfl⟩
    case cpu =>
      rw [finishCycle_cpu, State.onCpu_cpu, fetchOpcode_cpu, ← hready]
      rfl
    all_goals simpa

/-! The service of an IRQ (R376, R377, R379). -/

/-- At a boundary an unmasked IRQ is serviced, if neither a DMA nor an NMI is requested (R376). -/
theorem cpuWork_irq {s : State} (hb : AtBoundary s.cpu) (hdma : s.cpu.dmaRequest = false)
    (hnmi : s.cpu.nmiPending = false) (hirq : s.cpu.irqPending = true) (hmask : bitAt s.cpu.p flagI = false) :
    cpuWork s = serviceCycle (startIrq s) := by
  have haccepted : irqAccepted s.cpu = true := by simp [irqAccepted, flag, hirq, hmask]
  rw [cpuWork_boundary hb]
  simp [boundaryCycle, choose, hdma, hnmi, haccepted]

theorem startIrq_eq {s : State} (h : s.cpu.nmiActive = false) :
    startIrq s = (s.onCpu fun c => { c with irqPending := false }).onCpu (beginService false true) := by
  simp only [startIrq, State.onCpu, beginService, h]

/-- Settles O43: at a boundary the request is spent before the service sequence runs. -/
theorem irqService : Obligations.IrqService := by
  intro s w hb hhalt hdma hnmi hirq hmask
  have ⟨_, hdmaActive, hnmiActive, hirqActive⟩ := hb
  have hservice : InService (startIrq w) := ⟨rfl, hdmaActive, Bool.or_true _⟩
  have hstep := step_service ((waitCpu_halted s).symm.trans hhalt) hservice rfl (cpuWork_irq hb hdma hnmi hirq hmask)
  refine ⟨_, hstep, ?cycles, ?entered⟩
  case cycles =>
    rw [finishCycle_cyc, runCycles_serviceCycles_cyc]
    rfl
  case entered =>
    rw [startIrq_eq hnmiActive]
    exact (service_entered (s := w.onCpu fun c => { c with irqPending := false }) hnmiActive hirqActive false true).later
      (later_finishCycle _)

/-! Whatever the CPU is doing ends (R161, R165), in any state whatever. -/

/-- A bound on the CPU cycles that a transfer still takes: two for each byte left, one more for an alignment to come, one
fewer if a byte has been read and not yet written. -/
def dmaCyclesLeft (c : Cpu) : Nat :=
  if c.cyc % 2 = 0 then 2 * (256 - c.dmaAddr.toNat)
  else if c.dmaWait then 2 * (256 - c.dmaAddr.toNat) + 1
  else 2 * (256 - c.dmaAddr.toNat) - 1

/-- A bound on the CPU cycles that what is in progress still takes. A service sequence has seven; an instruction's list
is entered at `sub` 2 or before and has at most eight. -/
def cyclesLeft (c : Cpu) : Nat :=
  if c.dmaActive then dmaCyclesLeft c
  else if c.nmiActive || c.irqActive then 7 - c.sub
  else 10 - c.sub

theorem cyclesLeft_le (c : Cpu) : cyclesLeft c ≤ 513 := by
  unfold cyclesLeft dmaCyclesLeft
  split_ifs <;> omega

theorem cyclesLeft_elapse (t : State) : cyclesLeft (elapse t).cpu = cyclesLeft { t.cpu with cyc := t.cpu.cyc + 1 } := by
  simp [cyclesLeft, dmaCyclesLeft]

/-- A transfer's cycle that does not end it leaves fewer. -/
theorem cyclesLeft_dmaCycle {s : State} (hactive : s.cpu.dmaActive = true) (hbusy : (dmaCycle s).cpu.ready = false) :
    cyclesLeft (elapse (dmaCycle s)).cpu < cyclesLeft s.cpu := by
  rw [cyclesLeft_elapse]
  have haddr := s.cpu.dmaAddr.isLt
  obtain heven | hodd := Nat.mod_two_eq_zero_or_one s.cpu.cyc
  · have hnext : (s.cpu.cyc + 1) % 2 ≠ 0 := by omega
    rw [dmaCycle_even heven]
    simp only [dmaRead, dmaAlign, State.onCpu_cpu, readEffect_cpu, cyclesLeft, dmaCyclesLeft, hactive, heven, hnext,
      if_true, if_false, Bool.false_eq_true]
    omega
  · have hnext : (s.cpu.cyc + 1) % 2 = 0 := by omega
    cases hwait : s.cpu.dmaWait with
    | true =>
      rw [dmaCycle_wait hwait hodd]
      simp [cyclesLeft, dmaCyclesLeft, hactive, hodd, hnext, hwait]
    | false =>
      rw [dmaCycle_odd hwait hodd] at hbusy ⊢
      by_cases hlast : s.cpu.dmaAddr + 1 = 0
      · rw [dmaWrite_cpu_last hlast] at hbusy
        cases hbusy
      · have hmoved : (s.cpu.dmaAddr + 1).toNat = s.cpu.dmaAddr.toNat + 1 := by bv_omega
        rw [dmaWrite_cpu_next hlast]
        simp only [cyclesLeft, dmaCyclesLeft, hactive, hodd, hnext, hwait, hmoved, if_true, if_false, Bool.false_eq_true,
          one_ne_zero]
        omega

/-- A cycle of a sequence that goes on: `sub` moves on, and what is in progress stays. -/
structure GoesOn (s t : State) : Prop where
  sub : t.cpu.sub = s.cpu.sub + 1
  dma : t.cpu.dmaActive = s.cpu.dmaActive
  nmi : t.cpu.nmiActive = s.cpu.nmiActive
  irq : t.cpu.irqActive = s.cpu.irqActive

/-- A sequence goes on only inside its list; past it, R159's assertion ends it. -/
theorem oneCycle_goesOn {cs : List Cycle} (hsteady : ∀ c ∈ cs, Cycle.Steady c) {k : Nat} {s : State}
    (hbusy : (oneCycle cs k s).cpu.ready = false) : k < cs.length ∧ GoesOn s (oneCycle cs k s) := by
  unfold oneCycle at hbusy ⊢
  cases hk : cs[k]? with
  | none => rw [hk] at hbusy; cases hbusy
  | some c =>
    obtain ⟨hlt, hget⟩ := List.getElem?_eq_some_iff.mp hk
    cases hc : c s with
    | done t => simp only [hk, hc] at hbusy; cases hbusy
    | more t =>
      have h := (hsteady c (hget ▸ List.getElem_mem hlt)).more s t hc
      simp only [hc]
      exact ⟨hlt, congrArg (· + 1) h.sub, h.dma, h.nmi, h.irq⟩

theorem GoesOn.cyclesLeft_lt {s t : State} (h : GoesOn s t) (hdma : s.cpu.dmaActive = false)
    (hbound : s.cpu.sub < if s.cpu.nmiActive || s.cpu.irqActive then 7 else 10) :
    cyclesLeft (elapse t).cpu < cyclesLeft s.cpu := by
  rw [cyclesLeft_elapse]
  simp only [cyclesLeft, h.sub, h.dma, h.nmi, h.irq, hdma, Bool.false_eq_true, if_false]
  split at hbound
  next hservice => rw [if_pos hservice, if_pos hservice]; omega
  next hinstr => rw [if_neg hinstr, if_neg hinstr]; omega

/-- Fetching an operand byte moves PC and the operand latches alone. -/
theorem fetchOperand_progress (s : State) :
    (fetchOperand s).cpu.sub = s.cpu.sub ∧ (fetchOperand s).cpu.dmaActive = s.cpu.dmaActive ∧
      (fetchOperand s).cpu.nmiActive = s.cpu.nmiActive ∧ (fetchOperand s).cpu.irqActive = s.cpu.irqActive := by
  unfold fetchOperand
  split_ifs
  · simp [fetchLow]
  · simp [fetchHigh]
  · exact ⟨rfl, rfl, rfl, rfl⟩

theorem entrySub_le (op : Byte) : entrySub op ≤ 2 := by
  unfold entrySub
  split <;> omega

/-- An instruction's cycle that does not end it is one before its last operand byte's, or one of its list's. -/
theorem instrCycle_goesOn {s : State} (hbusy : (instrCycle s).cpu.ready = false) :
    s.cpu.sub < 10 ∧ GoesOn s (instrCycle s) := by
  obtain ⟨hsub, hdma, hnmi, hirq⟩ := fetchOperand_progress s
  unfold instrCycle at hbusy ⊢
  generalize fetchOperand s = t at *
  have hentry := entrySub_le t.cpu.ir
  dsimp only at hbusy ⊢
  split at hbusy
  next hbefore =>
    rw [if_pos hbefore]
    exact ⟨by omega, congrArg (· + 1) hsub, hdma, hnmi, hirq⟩
  next hpast =>
    rw [if_neg hpast]
    obtain ⟨hlt, h⟩ := oneCycle_goesOn (cyclesOf_steady _) hbusy
    have hlength := (cyclesOf_length (currentInstr t)).2
    exact ⟨by omega, by rw [h.sub, hsub], h.dma.trans hdma, h.nmi.trans hnmi, h.irq.trans hirq⟩

/-- A CPU step that goes on with what is in progress leaves fewer. -/
theorem cyclesLeft_cpuWork {s : State} (hs : s.cpu.ready = false) (hbusy : (cpuWork s).cpu.ready = false) :
    cyclesLeft (elapse (cpuWork s)).cpu < cyclesLeft s.cpu := by
  unfold cpuWork at hbusy ⊢
  cases hdma : s.cpu.dmaActive with
  | true =>
    rw [hdma, if_pos rfl] at hbusy
    exact cyclesLeft_dmaCycle hdma hbusy
  | false =>
    rw [hdma, if_neg Bool.false_ne_true] at hbusy
    rw [if_neg Bool.false_ne_true]
    cases hservice : s.cpu.nmiActive || s.cpu.irqActive with
    | true =>
      rw [hservice, if_pos rfl] at hbusy
      obtain ⟨hlt, h⟩ := oneCycle_goesOn serviceCycles_steady hbusy
      exact h.cyclesLeft_lt hdma (by rw [hservice]; exact hlt)
    | false =>
      rw [hservice, if_neg Bool.false_ne_true, if_neg (by rw [hs]; exact Bool.false_ne_true)] at hbusy
      rw [if_neg Bool.false_ne_true, if_neg (by rw [hs]; exact Bool.false_ne_true)]
      obtain ⟨hlt, h⟩ := instrCycle_goesOn hbusy
      exact h.cyclesLeft_lt hdma (by rw [hservice]; exact hlt)

/-- What is in progress ends within the bound. -/
theorem runCpu_next {n : Nat} {s : State} (hs : s.cpu.ready = false) (hn : cyclesLeft s.cpu < n) :
    ∃ t, runCpu n s = .next t := by
  induction n generalizing s with
  | zero => omega
  | succ n ih =>
    rw [runCpu]
    cases hbusy : (cpuWork s).cpu.ready with
    | true => exact ⟨_, if_pos rfl⟩
    | false =>
      rw [if_neg Bool.false_ne_true]
      have hfewer := cyclesLeft_cpuWork hs hbusy
      exact ih ((elapse_ready _).trans hbusy) (by omega)

/-- Settles O8: after one CPU step, whatever it began is in progress, and ends. -/
theorem stepAlwaysNext : Obligations.StepAlwaysNext := by
  intro s
  cases hhalt : s.cpu.halted with
  | true => exact ⟨_, if_pos hhalt⟩
  | false =>
    have hbound : runCpuBound = 519 + 1 := rfl
    rw [step_eq_runCpu hhalt, hbound, runCpu]
    cases hbusy : (cpuWork (waitCpu s)).cpu.ready with
    | true => exact ⟨_, if_pos rfl⟩
    | false =>
      rw [if_neg Bool.false_ne_true]
      have hleft := cyclesLeft_le (elapse (cpuWork (waitCpu s))).cpu
      exact runCpu_next ((elapse_ready _).trans hbusy) (by omega)

end Sys2Proof.Machine
end

section
/-!
The PPU's own steps: where a step stands (R303, R330), VBlank (R304, R305), a frame with rendering disabled (R331, R333),
and sprite evaluation (R312).
-/

namespace Sys2Proof.Machine

/-! What rendering leaves of a step (R300). -/

/-- What of the PPU a step's own beat sets: the position and its flags, the NMI signal, the suppression latch, and
PPUSTATUS's VBlank bit. -/
structure PpuBeat where
  scanline : Int
  cycle : Nat
  frame : Nat
  lineReady : Bool
  frameReady : Bool
  nmiSignal : Bool
  vblSuppress : Bool
  vblank : Bool

/-- Reads it off. -/
def Ppu.beat (p : Ppu) : PpuBeat :=
  { scanline := p.scanline, cycle := p.cycle, frame := p.frame, lineReady := p.lineReady, frameReady := p.frameReady,
    nmiSignal := p.nmiSignal, vblSuppress := p.vblSuppress, vblank := bitAt p.status 7 }

theorem Ppu.whenever_true (p : Ppu) (f : Ppu → Ppu) : p.whenever true f = f p := rfl

theorem Ppu.whenever_false (p : Ppu) (f : Ppu → Ppu) : p.whenever false f = p := rfl

theorem Ppu.whenever_beat (p : Ppu) (b : Bool) {f : Ppu → Ppu} (h : ∀ q : Ppu, (f q).beat = q.beat) :
    (p.whenever b f).beat = p.beat := by
  cases b with
  | true => exact h p
  | false => rfl

theorem Ppu.incX_beat (p : Ppu) : p.incX.beat = p.beat := by
  unfold Ppu.incX
  dsimp only
  split <;> rfl

theorem Ppu.incY_beat (p : Ppu) : p.incY.beat = p.beat := by
  unfold Ppu.incY
  dsimp only
  split_ifs <;> rfl

theorem Ppu.bgPhase_beat (p : Ppu) (k : Cartridge) (c : Nat) : (p.bgPhase k c).beat = p.beat := by
  unfold Ppu.bgPhase
  split
  · rfl
  · rfl
  · rfl
  · rfl
  · exact p.incX_beat
  · rfl

/-- Writing another bit of PPUSTATUS leaves its VBlank bit. -/
theorem Ppu.withStatusBit_beat (p : Ppu) {i : Nat} (h : 7 ≠ i) (b : Bool) :
    ({ p with status := setBitTo p.status i b } : Ppu).beat = p.beat := by
  have hbit : bitAt (setBitTo p.status i b) 7 = bitAt p.status 7 := bitAt_setFlag_ne p.status (by decide) h b
  simp only [Ppu.beat, hbit]

theorem Ppu.evaluateSprite_beat (s : Int) (p : Ppu) (n : Nat) : (p.evaluateSprite s n).beat = p.beat := by
  unfold Ppu.evaluateSprite
  dsimp only
  split_ifs
  · rfl
  · exact p.withStatusBit_beat (by decide) true
  · rfl

theorem Ppu.spriteEvaluate_beat (p : Ppu) (s : Int) : (p.spriteEvaluate s).beat = p.beat := by
  unfold Ppu.spriteEvaluate
  induction List.range 64 generalizing p with
  | nil => rfl
  | cons n rest ih => rw [List.foldl_cons, ih, Ppu.evaluateSprite_beat]

theorem Ppu.pixelOutput_beat (p : Ppu) (k : Cartridge) (s : Int) (x : Nat) : (p.pixelOutput k s x).beat = p.beat := by
  show ({ p with status := if p.zeroHit (p.bgPixel x) (p.spritePixel x) x then setBitTo p.status 6 true else p.status } :
    Ppu).beat = p.beat
  split
  · exact p.withStatusBit_beat (by decide) true
  · rfl

theorem Ppu.render_beat (p : Ppu) (k : Cartridge) (s : Int) (c : Nat) : (p.render k s c).beat = p.beat := by
  unfold Ppu.render
  rw [Ppu.whenever_beat, Ppu.whenever_beat, Ppu.whenever_beat, Ppu.whenever_beat, Ppu.whenever_beat,
    Ppu.whenever_beat, Ppu.whenever_beat, Ppu.whenever_beat]
  · exact fun q => q.bgShift.bgPhase_beat k c
  · exact Ppu.incY_beat
  · exact fun _ => rfl
  · exact fun _ => rfl
  · exact fun q => q.pixelOutput_beat k s (c - 1)
  · exact fun _ => rfl
  · exact fun q => q.spriteEvaluate_beat s
  · exact fun _ => rfl

/-! The position (R303, R330). -/

/-- Whether the odd-frame skip is made (R303). -/
def Ppu.skips (p : Ppu) : Bool :=
  decide (p.scanline = 0 ∧ p.cycle = 0 ∧ p.renderingEnabled = true ∧ p.frame % 2 = 1)

/-- The dot that a step executes, after the odd-frame skip. -/
def Ppu.dot (p : Ppu) : Nat := if p.skips then 1 else p.cycle

theorem Ppu.oddFrameSkip_eq (p : Ppu) : p.oddFrameSkip = { p with cycle := p.dot } := by
  unfold Ppu.oddFrameSkip Ppu.dot Ppu.skips
  split <;> simp [*]

/-- A step's beginning: the position's flags are cleared, and the dot to execute is chosen (R300, R303). -/
def Ppu.started (p : Ppu) : Ppu := { p with lineReady := false, frameReady := false, cycle := p.dot }

/-- A step's flags, before rendering: those of the pre-render line cleared, or VBlank's set (R304, R305). -/
def Ppu.statusPart (p : Ppu) (s : Int) (c : Nat) : Ppu :=
  (p.whenever (decide (s = -1 ∧ c = 1)) Ppu.clearFlags).whenever (decide (s = 241 ∧ c = 1)) Ppu.vblankPoint

/-- A step up to the end of the dot: the flags, and rendering on the visible lines and the pre-render line (R300). -/
def Ppu.beforeEnd (p : Ppu) (k : Cartridge) : Ppu :=
  (p.started.statusPart p.scanline p.dot).whenever
    (p.renderingEnabled && decide (-1 ≤ p.scanline ∧ p.scanline ≤ 239)) fun q => q.render k p.scanline p.dot

theorem Ppu.step_eq (p : Ppu) (k : Cartridge) : p.step k = (p.beforeEnd k).endOfCycle p.scanline p.dot := by
  unfold Ppu.step
  dsimp only
  rw [Ppu.oddFrameSkip_eq]
  rfl

theorem Ppu.statusPart_clear (p : Ppu) : p.statusPart (-1) 1 = p.clearFlags := rfl

theorem Ppu.statusPart_vblank (p : Ppu) : p.statusPart 241 1 = p.vblankPoint := rfl

theorem Ppu.statusPart_other {s : Int} {c : Nat} (hclear : ¬ (s = -1 ∧ c = 1)) (hvblank : ¬ (s = 241 ∧ c = 1))
    (p : Ppu) : p.statusPart s c = p := by
  rw [Ppu.statusPart, decide_eq_false hclear, decide_eq_false hvblank]
  rfl

/-- The step that clears the flags (R305), the VBlank point (R304), or neither. -/
theorem statusPart_cases (s : Int) (c : Nat) :
    (s = -1 ∧ c = 1) ∨ (s = 241 ∧ c = 1) ∨ (¬ (s = -1 ∧ c = 1) ∧ ¬ (s = 241 ∧ c = 1)) := by omega

theorem Ppu.vblankPoint_suppressed {p : Ppu} (h : p.vblSuppress = true) :
    p.vblankPoint = { p with vblSuppress := false } := by rw [Ppu.vblankPoint, if_pos h]

theorem Ppu.vblankPoint_raised {p : Ppu} (h : p.vblSuppress = false) :
    p.vblankPoint =
      { p with
        status := setBitTo p.status 7 true, nmiSignal := bitAt p.ctrl 7 || p.nmiSignal, vblSuppress := false } := by
  rw [Ppu.vblankPoint, if_neg (by rw [h]; exact Bool.false_ne_true)]

/-- Clearing the flags and the VBlank point leave the position and its own flags. -/
theorem Ppu.statusPart_beat (p : Ppu) (s : Int) (c : Nat) :
    (p.statusPart s c).beat =
      { p.beat with
        nmiSignal := (p.statusPart s c).beat.nmiSignal
        vblSuppress := (p.statusPart s c).beat.vblSuppress
        vblank := (p.statusPart s c).beat.vblank } := by
  obtain ⟨rfl, rfl⟩ | ⟨rfl, rfl⟩ | ⟨hclear, hvblank⟩ := statusPart_cases s c
  · rfl
  · rw [Ppu.statusPart_vblank]
    cases h : p.vblSuppress with
    | true => rw [Ppu.vblankPoint_suppressed h]; rfl
    | false => rw [Ppu.vblankPoint_raised h]; rfl
  · rw [Ppu.statusPart_other hclear hvblank]

theorem Ppu.beforeEnd_beat (p : Ppu) (k : Cartridge) :
    (p.beforeEnd k).beat = (p.started.statusPart p.scanline p.dot).beat :=
  Ppu.whenever_beat _ _ fun q => q.render_beat k p.scanline p.dot

theorem Ppu.beforeEnd_position (p : Ppu) (k : Cartridge) :
    (p.beforeEnd k).scanline = p.scanline ∧ (p.beforeEnd k).frame = p.frame ∧
      (p.beforeEnd k).lineReady = false ∧ (p.beforeEnd k).frameReady = false := by
  have h := (p.beforeEnd_beat k).trans (Ppu.statusPart_beat _ _ _)
  exact ⟨congrArg PpuBeat.scanline h, congrArg PpuBeat.frame h, congrArg PpuBeat.lineReady h,
    congrArg PpuBeat.frameReady h⟩

theorem Ppu.skips_eq (p : Ppu) :
    p.skips = decide (p.scanline = 0 ∧ p.cycle = 0 ∧ (bitAt p.mask 3 = true ∨ bitAt p.mask 4 = true) ∧ p.frame % 2 = 1) := by
  simp only [Ppu.skips, Ppu.renderingEnabled, Bool.or_eq_true]

/-- Settles O55: the end of a dot moves on from the dot that the step executes. -/
theorem ppuPosition : Obligations.PpuPosition := by
  intro p k hline hdot
  dsimp only
  rw [← Ppu.skips_eq, Ppu.step_eq]
  obtain ⟨hscanline, hframe, hlineReady, hframeReady⟩ := p.beforeEnd_position k
  have hskip : p.skips = true → p.cycle = 0 := fun h => (of_decide_eq_true h).2.1
  unfold Ppu.endOfCycle Ppu.dot
  cases hs : p.skips with
  | true =>
    have hzero := hskip hs
    simp [hzero, hscanline, hframe, hlineReady, hframeReady]
  | false =>
    by_cases hlast : p.cycle = 340
    · by_cases hend : p.scanline = 260
      · simp [hlast, hend, hframe]
      · have hnot : ¬ 260 < p.scanline + 1 := by omega
        simp [hlast, hend, hnot, hframe, hframeReady]
    · have hnot : ¬ 340 < p.cycle + 1 := by omega
      simp [hlast, hnot, hscanline, hframe, hlineReady, hframeReady]

/-! VBlank (R304, R305). -/

theorem Ppu.endOfCycle_signals (p : Ppu) (s : Int) (c : Nat) :
    (p.endOfCycle s c).status = p.status ∧ (p.endOfCycle s c).nmiSignal = p.nmiSignal ∧
      (p.endOfCycle s c).vblSuppress = p.vblSuppress := by
  unfold Ppu.endOfCycle
  split_ifs <;> exact ⟨rfl, rfl, rfl⟩

/-- Off line 0 a step executes the dot at which it stands. -/
theorem Ppu.dot_eq {p : Ppu} (h : p.scanline ≠ 0) : p.dot = p.cycle := by simp [Ppu.dot, Ppu.skips, h]

theorem Ppu.beforeEnd_vblank {p : Ppu} (hline : p.scanline = 241) (hdot : p.cycle = 1) (k : Cartridge) :
    p.beforeEnd k = p.started.vblankPoint := by
  have hexecuted : p.dot = 1 := (Ppu.dot_eq (by rw [hline]; decide)).trans hdot
  rw [Ppu.beforeEnd, hline, hexecuted, Ppu.statusPart_vblank, decide_eq_false (by decide), Bool.and_false,
    Ppu.whenever_false]

/-- At the pre-render line's dot 1 rendering leaves the cleared flags (R305). -/
theorem Ppu.beforeEnd_clear_status {p : Ppu} (hline : p.scanline = -1) (hdot : p.cycle = 1) (k : Cartridge) :
    (p.beforeEnd k).status = p.clearFlags.status := by
  have hexecuted : p.dot = 1 := (Ppu.dot_eq (by rw [hline]; decide)).trans hdot
  rw [Ppu.beforeEnd, hline, hexecuted, Ppu.statusPart_clear]
  cases p.renderingEnabled <;> rfl

theorem clearFlags_status : ∀ v : Byte, setField v 5 3 (0 : BitVec 3) &&& 0xE0 = 0 := by decide

/-- Away from the VBlank point the signal and the latch stay, and VBlank is set only if it was. -/
theorem Ppu.beforeEnd_no_vblank {p : Ppu} (h : ¬ (p.scanline = 241 ∧ p.cycle = 1)) (k : Cartridge) :
    (bitAt (p.beforeEnd k).status 7 = true → bitAt p.status 7 = true) ∧ (p.beforeEnd k).nmiSignal = p.nmiSignal ∧
      (p.beforeEnd k).vblSuppress = p.vblSuppress := by
  have hbeat := p.beforeEnd_beat k
  obtain ⟨hline, hdot⟩ | ⟨hline, hdot⟩ | ⟨hclear, hvblank⟩ := statusPart_cases p.scanline p.dot
  · rw [hline, hdot, Ppu.statusPart_clear] at hbeat
    have hcleared : bitAt (setField p.status 5 3 (0 : BitVec 3)) 7 = false := getLsbD_setField p.status 5 _ (by decide)
    have hbit : bitAt (p.beforeEnd k).status 7 = false := (congrArg PpuBeat.vblank hbeat).trans hcleared
    refine ⟨fun hset => ?_, congrArg PpuBeat.nmiSignal hbeat, congrArg PpuBeat.vblSuppress hbeat⟩
    rw [hbit] at hset
    cases hset
  · exact absurd ⟨hline, (Ppu.dot_eq (by rw [hline]; decide)).symm.trans hdot⟩ h
  · rw [Ppu.statusPart_other hclear hvblank] at hbeat
    exact ⟨fun hset => (congrArg PpuBeat.vblank hbeat).symm.trans hset, congrArg PpuBeat.nmiSignal hbeat,
      congrArg PpuBeat.vblSuppress hbeat⟩

/-- Settles O54: the point itself, every other step, and the clearing of the flags. -/
theorem vblankPoint : Obligations.VBlankPoint := by
  intro p k
  obtain ⟨hstatus, hnmi, hlatch⟩ := (p.beforeEnd k).endOfCycle_signals p.scanline p.dot
  rw [p.step_eq, hstatus, hnmi, hlatch]
  refine ⟨fun hline hdot => ?point, fun h => Ppu.beforeEnd_no_vblank h k, fun hline hdot => ?clear⟩
  case point =>
    rw [Ppu.beforeEnd_vblank hline hdot]
    refine ⟨?latch, fun h => ?suppressed, fun h => ?raised⟩
    case latch =>
      unfold Ppu.vblankPoint
      split <;> rfl
    case suppressed =>
      rw [Ppu.vblankPoint_suppressed (p := p.started) h]
      exact ⟨rfl, rfl⟩
    case raised =>
      rw [Ppu.vblankPoint_raised (p := p.started) h]
      exact ⟨setFlag_true p.status 7, rfl⟩
  case clear =>
    rw [Ppu.beforeEnd_clear_status hline hdot]
    exact clearFlags_status p.status

/-! A frame with rendering disabled (R331, R333). -/

/-- `q` differs from `p` in the position and its flags, PPUSTATUS, the signal and the latch alone. -/
def CountsOnly (p q : Ppu) : Prop :=
  q = { p with
    scanline := q.scanline, cycle := q.cycle, frame := q.frame, status := q.status, lineReady := q.lineReady,
    frameReady := q.frameReady, nmiSignal := q.nmiSignal, vblSuppress := q.vblSuppress }

theorem CountsOnly.trans {p q r : Ppu} (h : CountsOnly p q) (g : CountsOnly q r) : CountsOnly p r := by
  rw [CountsOnly, g, h]

theorem CountsOnly.renderingEnabled {p q : Ppu} (h : CountsOnly p q) : q.renderingEnabled = p.renderingEnabled := by
  rw [h]
  rfl

theorem Ppu.endOfCycle_countsOnly (p : Ppu) (s : Int) (c : Nat) : CountsOnly p (p.endOfCycle s c) := by
  unfold Ppu.endOfCycle
  split_ifs <;> rfl

theorem Ppu.statusPart_countsOnly (p : Ppu) (s : Int) (c : Nat) : CountsOnly p (p.statusPart s c) := by
  obtain ⟨rfl, rfl⟩ | ⟨rfl, rfl⟩ | ⟨hclear, hvblank⟩ := statusPart_cases s c
  · rfl
  · rw [Ppu.statusPart_vblank]
    unfold Ppu.vblankPoint
    split <;> rfl
  · rw [Ppu.statusPart_other hclear hvblank]
    rfl

/-- With rendering disabled a step only counts and writes the flags (R333). -/
theorem Ppu.step_countsOnly {p : Ppu} (h : p.renderingEnabled = false) (k : Cartridge) : CountsOnly p (p.step k) := by
  have hstart : CountsOnly p p.started := rfl
  rw [Ppu.step_eq, Ppu.beforeEnd, h, Bool.false_and, Ppu.whenever_false]
  exact (hstart.trans (Ppu.statusPart_countsOnly _ _ _)).trans (Ppu.endOfCycle_countsOnly _ _ _)

/-- The position is one of a frame's 262 × 341. -/
structure InFrame (p : Ppu) : Prop where
  first : -1 ≤ p.scanline
  last : p.scanline ≤ 260
  dot : p.cycle ≤ 340

/-- The dots that have passed since the pre-render line of frame 0, if no frame is short. -/
def Ppu.clock (p : Ppu) : Int := 89342 * p.frame + 341 * (p.scanline + 1) + p.cycle

/-- With rendering disabled no dot is passed over: a step is one more (R330). -/
theorem Ppu.step_clock {p : Ppu} (hoff : p.renderingEnabled = false) (h : InFrame p) (k : Cartridge) :
    InFrame (p.step k) ∧ (p.step k).clock = p.clock + 1 := by
  obtain ⟨hfirst, hlast, hdot⟩ := h
  have hskip : p.skips = false := by simp [Ppu.skips, hoff]
  obtain ⟨hcycle, hline, hframe, -, -⟩ := ppuPosition p k hlast hdot
  rw [← Ppu.skips_eq, hskip] at hcycle
  simp only [decide_eq_true_eq, Bool.false_eq_true, if_false] at hcycle hline hframe
  split_ifs at hcycle hline hframe <;>
    exact ⟨⟨by omega, by omega, by omega⟩, by unfold Ppu.clock; omega⟩

theorem Ppu.step_iterate {p : Ppu} (hoff : p.renderingEnabled = false) (h : InFrame p) (k : Cartridge) (n : Nat) :
    CountsOnly p ((fun r : Ppu => r.step k)^[n] p) ∧ InFrame ((fun r : Ppu => r.step k)^[n] p) ∧
      ((fun r : Ppu => r.step k)^[n] p).clock = p.clock + n := by
  induction n with
  | zero => exact ⟨rfl, h, (Int.add_zero _).symm⟩
  | succ n ih =>
    obtain ⟨hcounts, hframe, hclock⟩ := ih
    rw [Function.iterate_succ_apply']
    have hoff' := hcounts.renderingEnabled.trans hoff
    obtain ⟨hframe', hclock'⟩ := Ppu.step_clock hoff' hframe k
    exact ⟨hcounts.trans (Ppu.step_countsOnly hoff' k), hframe', by rw [hclock', hclock]; omega⟩

/-- Settles O56: in a frame's count of steps the clock moves on by a frame's count of dots. -/
theorem frameLength : Obligations.FrameLength := by
  intro p k hbackground hsprites hfirst hlast hdot
  have hoff : p.renderingEnabled = false := by rw [Ppu.renderingEnabled, hbackground, hsprites]; rfl
  obtain ⟨hcounts, hframe, hclock⟩ := Ppu.step_iterate hoff ⟨hfirst, hlast, hdot⟩ k 89342
  generalize (fun r : Ppu => r.step k)^[89342] p = q at hcounts hframe hclock ⊢
  obtain ⟨hfirst', hlast', hdot'⟩ := hframe
  unfold Ppu.clock at hclock
  exact ⟨by omega, by omega, by omega, hcounts⟩

/-! Sprite evaluation (R312, D29). -/

/-- Sprite `n` is in range of line `s` (R312). -/
def Ppu.inRange (p : Ppu) (s : Int) (n : Nat) : Bool :=
  decide (0 ≤ s - ((p.oamByte n 0).toNat : Int) ∧ s - ((p.oamByte n 0).toNat : Int) < p.spriteHeight)

theorem Ppu.evaluateSprite_out {p : Ppu} {s : Int} {n : Nat} (h : p.inRange s n = false) : p.evaluateSprite s n = p :=
  if_neg (of_decide_eq_false h)

theorem Ppu.evaluateSprite_kept {p : Ppu} {s : Int} {n : Nat} (h : p.inRange s n = true) (hroom : p.secCount < 8) :
    p.evaluateSprite s n = p.copySprite n := by
  rw [Ppu.evaluateSprite]
  exact (if_pos (of_decide_eq_true h)).trans (if_pos hroom)

theorem Ppu.evaluateSprite_overflow {p : Ppu} {s : Int} {n : Nat} (h : p.inRange s n = true) (hfull : ¬ p.secCount < 8) :
    p.evaluateSprite s n = { p with status := setBitTo p.status 5 true } := by
  rw [Ppu.evaluateSprite]
  exact (if_pos (of_decide_eq_true h)).trans (if_neg hfull)

/-- Copying a sprite fills the next free entry and leaves those before it. -/
theorem Ppu.read_copySprite (p : Ppu) (n k i : Nat) (hi : i < 4) (hk : k ≤ p.secCount) :
    Store.read secUnlisted (p.copySprite n).secOam (4 * k + i) =
      if k = p.secCount then p.oamByte n i else Store.read secUnlisted p.secOam (4 * k + i) := by
  unfold Ppu.copySprite
  simp only [Store.read_write]
  by_cases h : k = p.secCount
  · subst h
    obtain rfl | rfl | rfl | rfl : i = 0 ∨ i = 1 ∨ i = 2 ∨ i = 3 := by omega
    all_goals simp
  · rw [if_neg h, if_neg (by omega), if_neg (by omega), if_neg (by omega), if_neg (by omega)]

/-- After the sprites so far, those `found` in range of them: the first eight are in secondary OAM, in order, and a
ninth has set the overflow flag. -/
structure Evaluated (p : Ppu) (found : List Nat) (q : Ppu) : Prop where
  regs : q.regs = p.regs
  count : q.secCount = min 8 found.length
  overflow : bitAt q.status 5 = true ↔ bitAt p.status 5 = true ∨ 8 < found.length
  entries : ∀ k n : Nat, k < 8 → found[k]? = some n → ∀ i < 4,
    Store.read secUnlisted q.secOam (4 * k + i) = p.oamByte n i

theorem Evaluated.oamByte {p q : Ppu} {found : List Nat} (h : Evaluated p found q) (n i : Nat) :
    q.oamByte n i = p.oamByte n i := by
  have hoam : q.oam = p.oam := congrArg PpuRegs.oam h.regs
  rw [Ppu.oamByte, Ppu.oamByte, hoam]

theorem Evaluated.inRange {p q : Ppu} {found : List Nat} (h : Evaluated p found q) (s : Int) (n : Nat) :
    q.inRange s n = p.inRange s n := by
  have hctrl : q.ctrl = p.ctrl := congrArg PpuRegs.ctrl h.regs
  rw [Ppu.inRange, Ppu.inRange, h.oamByte, Ppu.spriteHeight, Ppu.spriteHeight, hctrl]

/-- One more sprite in range: it is kept if there is room, or else sets the flag. -/
theorem Evaluated.evaluateSprite {p q : Ppu} {found : List Nat} (h : Evaluated p found q) {s : Int} {n : Nat}
    (hn : p.inRange s n = true) : Evaluated p (found ++ [n]) (q.evaluateSprite s n) := by
  have hrange := (h.inRange s n).trans hn
  have hcount := h.count
  have hlength : (found ++ [n]).length = found.length + 1 := List.length_append
  by_cases hroom : q.secCount < 8
  · have hlen : found.length = q.secCount := by omega
    rw [Ppu.evaluateSprite_kept hrange hroom]
    refine ⟨h.regs, ?count, ?overflow, fun k m hk hm i hi => ?entry⟩
    case count =>
      show q.secCount + 1 = _
      omega
    case overflow =>
      show bitAt q.status 5 = true ↔ _
      rw [h.overflow]
      have hfew : ¬ 8 < found.length := by omega
      have hfew' : ¬ 8 < (found ++ [n]).length := by omega
      simp only [hfew, hfew']
    case entry =>
      obtain ⟨hlt, hget⟩ := List.getElem?_eq_some_iff.mp hm
      rw [Ppu.read_copySprite q n k i hi (by omega)]
      split
      next hlast =>
        have hmn : m = n := by rw [← hget]; simp [hlast, ← hlen]
        rw [h.oamByte, hmn]
      next hbefore =>
        have hold : found[k]? = some m := by rw [← hm, List.getElem?_append_left (by omega)]
        exact h.entries k m hk hold i hi
  · rw [Ppu.evaluateSprite_overflow hrange hroom]
    refine ⟨h.regs, ?fullCount, ?set, fun k m hk hm i hi => ?kept⟩
    case fullCount =>
      show q.secCount = _
      omega
    case set =>
      have hmany : 8 < (found ++ [n]).length := by omega
      have hset : bitAt (setBitTo q.status 5 true) 5 = true := bitAt_setFlag_same q.status (by decide) true
      exact ⟨fun _ => .inr hmany, fun _ => hset⟩
    case kept =>
      have hold : found[k]? = some m := by rw [← hm, List.getElem?_append_left (by omega)]
      exact h.entries k m hk hold i hi

/-- The first `m` sprites, in order. -/
theorem evaluated_range {p : Ppu} (h : p.secCount = 0) (s : Int) (m : Nat) :
    Evaluated p ((List.range m).filter (p.inRange s)) ((List.range m).foldl (Ppu.evaluateSprite s) p) := by
  induction m with
  | zero => exact ⟨rfl, h, by simp, fun k n _ hn => by simp at hn⟩
  | succ m ih =>
    rw [List.range_succ, List.foldl_append, List.filter_append]
    cases hm : p.inRange s m with
    | true => simpa [hm] using ih.evaluateSprite hm
    | false => simpa [hm, Ppu.evaluateSprite_out ((ih.inRange s m).trans hm)] using ih

/-- Settles O57: the evaluation of all 64. -/
theorem spriteEvaluation : Obligations.SpriteEvaluation := by
  intro p s h
  obtain ⟨-, hcount, hoverflow, hentries⟩ := evaluated_range h s 64
  exact ⟨hcount, hoverflow, hentries⟩

end Sys2Proof.Machine
end
